-- ==== Sys2Proof/Word.lean ====
section
/-! DEFINITION. The words of the machine: the widths that spec/00_scope.md rule R10 fixes. -/

namespace Sys2Proof

/-- One data byte (R12). -/
abbrev Byte := BitVec 8

/-- A 29-bit extended CAN identifier, bit 28 most significant (R12, R24). -/
abbrev CanId := BitVec 29

/-- A value of the clock `now`, `TS_BITS` = 64 bits (R10, R236). -/
abbrev Time := BitVec 64

/-- An event counter, `CNT_BITS` = 32 bits (R10, R27, R33). -/
abbrev Count := BitVec 32

/-- A subject id, `SUBJ_BITS` = 13 bits (R10). -/
abbrev Subject := BitVec 13

/-- A source id, `SRC_BITS` = 7 bits (R10). -/
abbrev SourceId := BitVec 7

/-- A priority, `PRIO_BITS` = 3 bits (R10, R85). -/
abbrev Priority := BitVec 3

end Sys2Proof
end

