-- ==== Sys2Proof/Syntax.lean ====
section
/-! DEFINITION. The operations of the block, the statements of the trace language and the wire layouts:
one constructor for each row of spec/opcode_table.json (R3, R100, R102, R81, R82, R84, R87). -/

namespace Sys2Proof

/-- One row of spec/opcode_table.json. Steps and events have no binary operands (R100), so their operand is state;
the operands of the statements are wider than the contract where the contract refuses a value (R130, R161). -/
inductive Instr where
  /-- 0x00 `INIT` (R184). -/
  | init
  /-- 0x01 `SUBSCRIBE` (R130). -/
  | subscribe (subject extent : Nat) (timeout : Time) (tag : Byte)
  /-- 0x02 `START` (R185). -/
  | start
  /-- 0x10 `RX_IRQ` (R110). -/
  | rxIrq
  /-- 0x11 `ON_FRAME_RECEIVED` (R111). -/
  | onFrameReceived
  /-- 0x12 `WAKE_SIGNAL` (R112). -/
  | wakeSignal
  /-- 0x13 `RX_POP` (R113). -/
  | rxPop
  /-- 0x20 `PROCESS_PENDING` (R131). -/
  | processPending
  /-- 0x21 `PROCESS_FRAME` (R132). -/
  | processFrame
  /-- 0x22 `DELIVER` (R142). -/
  | deliver
  /-- 0x23 `NOTE_DECODE_ERROR` (R144). -/
  | noteDecodeError
  /-- 0x30 `ENQUEUE` (R161). -/
  | enqueue (subject transferId priority : Nat) (deadline : Time) (payload : List Byte)
  /-- 0x31 `DRAIN` (R162). -/
  | drain
  /-- 0x32 `TX_PUSH` (R163). -/
  | txPush
  /-- 0x40 `WAIT` (R181). -/
  | wait
  /-- 0x41 `TASK_CYCLE` (R180). -/
  | taskCycle
  /-- 0x42 `APPLY` (R183). -/
  | apply
  /-- 0x50 `READ_DROPPED` (R114). -/
  | readDropped
  /-- 0x51 `READ_DECODE_ERRORS` (R146). -/
  | readDecodeErrors
  /-- 0x52 `READ_TIMEOUTS` (R186). -/
  | readTimeouts
  /-- 0x60 `TICK`, agent CLOCK (R102). -/
  | tick (n : Nat)
  /-- 0x61 `BUS`, agent BUS (R102). -/
  | bus (id : CanId) (data : List Byte)
  /-- 0x62 `MBOX`, agent BUS (R102). -/
  | mbox (n : Nat)
  /-- The identifier of a message frame (R81). -/
  | canidMessage (prio : Priority) (anon r23 : Bool) (r21 : BitVec 2) (subject : Subject) (r7 : Bool) (src : SourceId)
  /-- The identifier of a service frame (R82). -/
  | canidService (prio : Priority) (rnr r23 : Bool) (service : BitVec 9) (dst src : SourceId)
  /-- An identifier of the subscription match pattern (R84). -/
  | canidSubjectMatch (prio : Priority) (anon : Bool) (r21 : BitVec 2) (subject : Subject) (src : SourceId)
  /-- The tail byte of the only frame of a transfer (R87). -/
  | tailSingle (tog : Bool) (tid : BitVec 5)
  /-- The tail byte of the first frame of a multi-frame transfer (R87). -/
  | tailFirst (tog : Bool) (tid : BitVec 5)
  /-- The tail byte of a frame that is neither first nor last (R87). -/
  | tailMiddle (tog : Bool) (tid : BitVec 5)
  /-- The tail byte of the last frame of a multi-frame transfer (R87). -/
  | tailLast (tog : Bool) (tid : BitVec 5)
  deriving DecidableEq, Repr

/-- Which encoding space a packet's bytes are read in: the "format" of spec/opcode_table.json. The spaces overlap
(a tail byte 0x00 is also the code of `INIT`), so a packet names its own. -/
inductive Format where
  /-- The binary form of a trace statement (R103): formats OP and ENV of the table. -/
  | statement
  /-- A received identifier as four big-endian bytes (R81, R82, R103): format CANID. -/
  | identifier
  /-- The same four bytes, read as an identifier that must fit the match pattern (R84). -/
  | subjectMatch
  /-- A tail byte (R86): format TAIL. -/
  | tail
  deriving DecidableEq, Repr

/-- Encoded bytes and the space they are read in. -/
structure Packet where
  fmt : Format
  bytes : List Byte
  deriving DecidableEq, Repr

/-- Why the decoder rejects a packet (R98, R100, R103). -/
inductive DecodeError where
  /-- The bytes end before the operands do. -/
  | truncated
  /-- The code is none of rule R100's nor of the trace language's. -/
  | unknownCode (code : Byte)
  /-- A subject above 8191 (U6, U7). -/
  | subjectOutOfRange
  /-- A priority above 7 (U6). -/
  | priorityOutOfRange
  /-- An outbound payload of more than 63 bytes (U6). -/
  | payloadTooLong
  /-- A received frame of more than 64 bytes (U4). -/
  | frameTooLong
  /-- An identifier of more than 29 bits. -/
  | identifierTooWide
  /-- An identifier outside the match pattern: `svc`, `r23` or `r7` is 1 (R84). -/
  | outsideMatchPattern
  deriving DecidableEq, Repr

/-- One move of the schedule: which agent acts next. -/
inductive Move where
  /-- Agent TASK takes one step of its cycle (R180). -/
  | task
  /-- An encoded statement is issued, or an encoded identifier or tail byte is read. -/
  | issue (p : Packet)
  deriving DecidableEq, Repr

end Sys2Proof
end

