-- ==== Sys2Proof/Config.lean ====
section
/-! DEFINITION. What one deployment fixes: the parameters of rule R10 as plain data (every statement holds for all of
them), and the free values, which are opaque. -/

namespace Sys2Proof

/-- The `TID_EXPIRY` switch (R148). -/
inductive TidExpiry where
  | never
  | onTimeout
  deriving DecidableEq, Repr

/-- The configuration function `crc_ok` (R93): the spec's default, or another predicate of which nothing is known. -/
inductive CrcFunction where
  | ccittFalse
  | other (which : Nat)
  deriving DecidableEq, Repr

/-- The two codec strategies, chosen once at start-up (R201). -/
inductive CodecStrategy where
  | compiled
  | interpreted
  deriving DecidableEq, Repr

/-- The byte layouts of the deployment's messages: the source gives none (R202); `vectorP6` is the layout that
program P6 of spec/95_test_vectors.md invents. -/
inductive MessageLayout where
  | deployment
  | vectorP6
  deriving DecidableEq, Repr

/-- What a message commands (R204). -/
inductive CommandRole where
  | readiness
  | servo (i : Fin 4)
  | pump
  deriving DecidableEq, Repr

/-- A decoded servo setpoint; the spec leaves the clamping of `notANumber` open (U26). -/
inductive ServoReading where
  | number (q : Rat)
  | notANumber
  deriving DecidableEq, Repr, Inhabited

/-- One thing a handler does while it runs (R142, R187). -/
inductive HandlerMove where
  /-- Decode the payload into a command field (R204). -/
  | decode (role : CommandRole)
  /-- Call an operation of the block (R262). -/
  | call (i : Instr)
  /-- Never return (U11). -/
  | hang
  deriving DecidableEq, Repr

/-- What a handler does when it is called: always the same moves, or moves it chooses at each call by what it is passed
and by anything else it knows. -/
inductive HandlerScript where
  | fixed (moves : List HandlerMove)
  | chosen (which : Nat)
  deriving DecidableEq, Repr

/-- The environment's handler for one tag (R142, R212). -/
structure Handler where
  tag : Byte
  script : HandlerScript
  deriving DecidableEq, Repr

/-- A subscription in use (R30): `valid` = 1. An entry with `valid` = 0 is `none`. -/
structure Subscription where
  subject : Subject
  extent : Nat
  timeout : Time
  tag : Byte
  deriving DecidableEq, Repr

/-- The six entries that the subscription table holds in this deployment (R31): HOST subscribes them between `INIT` and `START`
(R252). -/
structure Deployment where
  /-- `SUBJ_READINESS` and its entry. -/
  readiness : Subscription
  /-- `SUBJ_SERVO[0..3]` and their entries. -/
  servo : Vector Subscription 4
  /-- `SUBJ_PUMP` and its entry. -/
  pump : Subscription
  deriving DecidableEq, Repr

/-- The ticks in so many milliseconds, for a tick of so many milliseconds, the last one whole (R10): more ticks than these are more
than the time. -/
def ticksIn (milliseconds : Nat) (tick : Rat) : Nat := milliseconds * tick.den / tick.num.toNat

/-- The parameters of rule R10. `MTU`, `ID_BITS`, `TS_BITS`, `CNT_BITS`, `SRC_BITS`, `SUBJ_BITS` and `PRIO_BITS` are fixed there
and stand in the types. -/
structure Params where
  /-- `RXQ_CAP`. -/
  rxqCap : Nat
  /-- `SUB_CAP`. -/
  subCap : Nat
  /-- `TXQ_CAP`. -/
  txqCap : Nat
  /-- `TID_BITS`. -/
  tidBits : Nat
  /-- `POOL_BUFS`. -/
  poolBufs : Nat
  /-- `POOL_BUF_BYTES`. -/
  poolBufBytes : Nat
  /-- `MAX_WAIT`. -/
  maxWait : Nat
  /-- `NODE_ID`. -/
  nodeId : SourceId
  /-- `TOGGLE_INIT`. -/
  toggleInit : Bool
  /-- `CRC_BYTES`. -/
  crcBytes : Nat
  /-- `crc_ok`. -/
  crc : CrcFunction
  /-- `COUNT_EXTENT_VIOLATION`. -/
  countExtentViolation : Bool
  /-- `TID_EXPIRY`. -/
  tidExpiry : TidExpiry
  /-- The six subject ids with their extents, timeouts and tags (R31, U17). -/
  deployment : Deployment
  /-- `TICK`, the duration of one unit of `now`, in milliseconds; only the default of `STALE_TICKS` depends on it. -/
  tick : Rat
  /-- `STALE_TICKS`; its default is `ticksIn 1000 tick`. -/
  staleTicks : Nat
  /-- `ENGAGED_LEVEL`. -/
  engagedLevel : BitVec 2
  /-- The codec strategy (R201). -/
  strategy : CodecStrategy
  /-- The message layouts (R202). -/
  layout : MessageLayout
  /-- The handlers attached to the tags (R142). -/
  handlers : List Handler
  /-- Whether `next_rx()` on port P1 returns (R253 (b), U11). -/
  rxPortReturns : Bool
  /-- Whether `tx_push` on port P7 returns (R253 (b), U11). -/
  txPortReturns : Bool
  deriving DecidableEq, Repr

/-- FREE VALUE: the content of `wait_start` after the n-th use of a free value; R43 leaves it unspecified while
`phase` is IDLE. -/
opaque Config.freeWaitStart : Nat → Time

/-- FREE VALUE: the content of `last_update` after the n-th use of a free value; R209 leaves it unspecified until a message
has been accepted. -/
opaque Config.freeLastUpdate : Nat → Time

/-- FREE VALUE: the moves that a handler chooses at one call, for the n-th use of a free value, on the tag, the subject, the
payload and the timestamp it is passed (R142). -/
opaque Config.handlerMoves : Nat → Nat → Byte → Subject → List Byte → Time → List HandlerMove

/-- FREE VALUE: what a servo value that is not a number is clamped from (U26). -/
opaque Config.freeSetpoint : Nat → Rat

/-- FREE VALUE: a predicate put in the place of the default `crc_ok` (R93). -/
opaque Config.otherCrcOk : Nat → List Byte → Bool

/-- FREE VALUE: the declared length in bytes of each of the six messages (R200, R202). -/
opaque Config.messageBytes : CommandRole → Nat

/-- FREE VALUE: whether the definition store resolves a message's type (R201). -/
opaque Config.schemaResolves : CommandRole → Bool

/-- FREE VALUE: the setpoint that the bytes of a servo message hold (R202). -/
opaque Config.readServo : Fin 4 → List Byte → ServoReading

/-- FREE VALUE: the pump state that bytes hold in which none is written (R202). -/
opaque Config.readPump : List Byte → Bool

/-- FREE VALUE: the level that bytes hold in which none of 0 to 3 is written (R202). -/
opaque Config.readReadiness : List Byte → Nat

/-- FREE VALUE: the bytes in which a setpoint is written (R202). -/
opaque Config.writeServo : Fin 4 → Rat → List Byte

/-- FREE VALUE: the bytes in which a pump state is written (R202). -/
opaque Config.writePump : Bool → List Byte

/-- FREE VALUE: the bytes in which a readiness level is written (R202). -/
opaque Config.writeReadiness : Nat → List Byte

end Sys2Proof
end

