-- ==== Sys2Proof/WellFormed.lean ====
section
/-! DEFINITION. Which instructions are well formed: each operand is in the range that the table of
spec/opcode_table.json and rule R103 give its encoding. -/

namespace Sys2Proof

/-- Every operand fits the encoding of rule R103 and the ranges "0..8191", "0..7", "0..63", "0..64" of the opcode table. -/
def Instr.wellFormed : Instr → Bool
  | .subscribe subject extent timeout _ =>
    decide (subject ≤ 8191) && decide (extent < 65536) && decide (timeout.toNat < 4294967296)
  | .enqueue subject transferId priority _ payload =>
    decide (subject ≤ 8191) && decide (transferId < 256) && decide (priority ≤ 7) && decide (payload.length ≤ 63)
  | .tick n => decide (n < 4294967296)
  | .bus _ data => decide (data.length ≤ 64)
  | .mbox n => decide (n < 256)
  | .init | .start | .rxIrq | .onFrameReceived | .wakeSignal | .rxPop | .processPending | .processFrame | .deliver
  | .noteDecodeError | .drain | .txPush | .wait | .taskCycle | .apply | .readDropped | .readDecodeErrors | .readTimeouts
  | .canidMessage .. | .canidService .. | .canidSubjectMatch .. | .tailSingle .. | .tailFirst .. | .tailMiddle ..
  | .tailLast .. => true

end Sys2Proof
end

