-- ==== Sys2Proof/Decode.lean ====
section
/-! DEFINITION. The decoder (total on any bytes, rejecting by name) and the encoder, over the binary trace statements of
R103, the identifiers of R81, R82 and R84 and the tail bytes of R86; with the bit fields and byte order they use. -/

namespace Sys2Proof

/-! ## Bytes -/

/-- `v` as `n` bytes, most significant first (R103). -/
def beBytes : Nat → Nat → List Byte
  | 0, _ => []
  | n + 1, v => BitVec.ofNat 8 (v / 256 ^ n) :: beBytes n v

/-- The unsigned value of bytes, most significant first (R103). -/
def beNat (bs : List Byte) : Nat :=
  bs.foldl (fun acc b => acc * 256 + b.toNat) 0

/-- `v` as `n` bytes, least significant first: how spec/opcode_table.json numbers the bits of a row. -/
def leBytes : Nat → Nat → List Byte
  | 0, _ => []
  | n + 1, v => BitVec.ofNat 8 v :: leBytes n (v / 256)

/-- The first `n` bytes and the rest. -/
def takeBytes (n : Nat) (bs : List Byte) : Except DecodeError (List Byte × List Byte) :=
  if n ≤ bs.length then .ok (bs.take n, bs.drop n) else .error .truncated

/-- An unsigned big-endian operand of `n` bytes and the rest (R103). -/
def takeNat (n : Nat) (bs : List Byte) : Except DecodeError (Nat × List Byte) := do
  let (w, rest) ← takeBytes n bs
  return (beNat w, rest)

/-! ## Identifier fields (R81 to R84) -/

/-- `id[28:26]` (R81, R83). -/
def idPrio (id : CanId) : Priority := id.extractLsb' 26 3

/-- `id[25]`: 1 for a service frame (R81, R83). -/
def idSvc (id : CanId) : Bool := id.getLsbD 25

/-- `id[24]` of a message frame: 1 for an anonymous transfer (R81, R83). -/
def idAnon (id : CanId) : Bool := id.getLsbD 24

/-- `id[23]`, reserved (R81, R82). -/
def idR23 (id : CanId) : Bool := id.getLsbD 23

/-- `id[22:21]`, reserved (R81). -/
def idR21 (id : CanId) : BitVec 2 := id.extractLsb' 21 2

/-- `id[20:8]` (R81, R83). -/
def idSubject (id : CanId) : Subject := id.extractLsb' 8 13

/-- `id[7]`, reserved (R81). -/
def idR7 (id : CanId) : Bool := id.getLsbD 7

/-- `id[6:0]` (R81, R82). -/
def idSrcBits (id : CanId) : SourceId := id.extractLsb' 0 7

/-- `id[22:14]` of a service frame (R82). -/
def idService (id : CanId) : BitVec 9 := id.extractLsb' 14 9

/-- `id[13:7]` of a service frame (R82). -/
def idDst (id : CanId) : SourceId := id.extractLsb' 7 7

/-- The source of a message frame: none when it is anonymous (R83). -/
def idSrc (id : CanId) : Option SourceId :=
  if idAnon id then none else some (idSrcBits id)

/-- The match mask of R84: bits 25, 23, 20:8 and 7. -/
def matchMask : CanId := 0x029FFF80#29

/-- Whether an identifier matches a subject (R84). -/
def idMatches (id : CanId) (subject : Subject) : Bool :=
  id &&& matchMask == (subject.setWidth 29) <<< 8

/-- The identifier of a message frame from its fields (R81). -/
def messageId (prio : Priority) (anon r23 : Bool) (r21 : BitVec 2) (subject : Subject) (r7 : Bool) (src : SourceId) : CanId :=
  prio ++ 0#1 ++ BitVec.ofBool anon ++ BitVec.ofBool r23 ++ r21 ++ subject ++ BitVec.ofBool r7 ++ src

/-- The identifier of a service frame from its fields (R82). -/
def serviceId (prio : Priority) (rnr r23 : Bool) (service : BitVec 9) (dst src : SourceId) : CanId :=
  prio ++ 1#1 ++ BitVec.ofBool rnr ++ BitVec.ofBool r23 ++ service ++ dst ++ src

/-! ## Tail byte fields (R86 to R88) -/

/-- Bit 7: first frame of a transfer (R86). -/
def tailSot (t : Byte) : Bool := t.getLsbD 7

/-- Bit 6: last frame of a transfer (R86). -/
def tailEot (t : Byte) : Bool := t.getLsbD 6

/-- Bit 5: the toggle bit (R86). -/
def tailTog (t : Byte) : Bool := t.getLsbD 5

/-- Bits 4:0: the transfer id (R86). -/
def tailTid (t : Byte) : BitVec 5 := t.extractLsb' 0 5

/-- A tail byte from its fields (R86). -/
def tailByte (sot eot tog : Bool) (tid : BitVec 5) : Byte :=
  BitVec.ofBool sot ++ BitVec.ofBool eot ++ BitVec.ofBool tog ++ tid

/-! ## The decoder -/

/-- The identifier layout an identifier belongs to, by `svc` (R81, R82). -/
def decodeIdentifier (id : CanId) : Instr :=
  if idSvc id then .canidService (idPrio id) (idAnon id) (idR23 id) (idService id) (idDst id) (idSrcBits id)
  else .canidMessage (idPrio id) (idAnon id) (idR23 id) (idR21 id) (idSubject id) (idR7 id) (idSrcBits id)

/-- An identifier of the match pattern (R84): `svc`, `r23` and `r7` are 0. -/
def decodeSubjectMatch (id : CanId) : Except DecodeError Instr :=
  if idSvc id || idR23 id || idR7 id then .error .outsideMatchPattern
  else .ok (.canidSubjectMatch (idPrio id) (idAnon id) (idR21 id) (idSubject id) (idSrcBits id))

/-- The class of a tail byte, by `tail AND 0xC0` (R87). -/
def decodeTail (t : Byte) : Instr :=
  match tailSot t, tailEot t with
  | true, true => .tailSingle (tailTog t) (tailTid t)
  | true, false => .tailFirst (tailTog t) (tailTid t)
  | false, false => .tailMiddle (tailTog t) (tailTid t)
  | false, true => .tailLast (tailTog t) (tailTid t)

/-- Four big-endian bytes of at most 29 significant bits (R103 and the BUS row of the opcode table). -/
def takeId (bs : List Byte) : Except DecodeError (CanId × List Byte) := do
  let (v, rest) ← takeNat 4 bs
  if v < 2 ^ 29 then return (BitVec.ofNat 29 v, rest) else throw .identifierTooWide

/-- The operands of `SUBSCRIBE` (R103). -/
def decodeSubscribe (bs : List Byte) : Except DecodeError (Instr × List Byte) := do
  let (subject, bs) ← takeNat 2 bs
  let (extent, bs) ← takeNat 2 bs
  let (timeout, bs) ← takeNat 4 bs
  let (tag, bs) ← takeNat 1 bs
  if subject ≤ 8191 then return (.subscribe subject extent (BitVec.ofNat 64 timeout) (BitVec.ofNat 8 tag), bs)
  else throw .subjectOutOfRange

/-- The operands of `ENQUEUE`: subject, transfer id, priority, deadline, payload (R103). -/
def decodeEnqueue (bs : List Byte) : Except DecodeError (Instr × List Byte) := do
  let (subject, bs) ← takeNat 2 bs
  let (transferId, bs) ← takeNat 1 bs
  let (priority, bs) ← takeNat 1 bs
  let (deadline, bs) ← takeNat 8 bs
  let (len, bs) ← takeNat 1 bs
  let (payload, bs) ← takeBytes len bs
  if 8191 < subject then throw .subjectOutOfRange
  else if 7 < priority then throw .priorityOutOfRange
  else if 63 < len then throw .payloadTooLong
  else return (.enqueue subject transferId priority (BitVec.ofNat 64 deadline) payload, bs)

/-- The operand of `TICK` (R103). -/
def decodeTick (bs : List Byte) : Except DecodeError (Instr × List Byte) := do
  let (n, bs) ← takeNat 4 bs
  return (.tick n, bs)

/-- The operands of `BUS`: identifier, length, data (R103). -/
def decodeBus (bs : List Byte) : Except DecodeError (Instr × List Byte) := do
  let (id, bs) ← takeId bs
  let (len, bs) ← takeNat 1 bs
  let (data, bs) ← takeBytes len bs
  if 64 < len then throw .frameTooLong else return (.bus id data, bs)

/-- The operand of `MBOX` (R103). -/
def decodeMbox (bs : List Byte) : Except DecodeError (Instr × List Byte) := do
  let (n, bs) ← takeNat 1 bs
  return (.mbox n, bs)

/-- One binary trace statement and the bytes after it: the codes of R100 and R102; any other code is no operation. -/
def decodeStatement : List Byte → Except DecodeError (Instr × List Byte)
  | [] => .error .truncated
  | code :: bs =>
    match code.toNat with
    | 0x00 => .ok (.init, bs)
    | 0x01 => decodeSubscribe bs
    | 0x02 => .ok (.start, bs)
    | 0x10 => .ok (.rxIrq, bs)
    | 0x11 => .ok (.onFrameReceived, bs)
    | 0x12 => .ok (.wakeSignal, bs)
    | 0x13 => .ok (.rxPop, bs)
    | 0x20 => .ok (.processPending, bs)
    | 0x21 => .ok (.processFrame, bs)
    | 0x22 => .ok (.deliver, bs)
    | 0x23 => .ok (.noteDecodeError, bs)
    | 0x30 => decodeEnqueue bs
    | 0x31 => .ok (.drain, bs)
    | 0x32 => .ok (.txPush, bs)
    | 0x40 => .ok (.wait, bs)
    | 0x41 => .ok (.taskCycle, bs)
    | 0x42 => .ok (.apply, bs)
    | 0x50 => .ok (.readDropped, bs)
    | 0x51 => .ok (.readDecodeErrors, bs)
    | 0x52 => .ok (.readTimeouts, bs)
    | 0x60 => decodeTick bs
    | 0x61 => decodeBus bs
    | 0x62 => decodeMbox bs
    | _ => .error (.unknownCode code)

/-- The instruction at the head of a packet and the bytes after it. -/
def decode (p : Packet) : Except DecodeError (Instr × List Byte) :=
  match p.fmt with
  | .statement => decodeStatement p.bytes
  | .identifier => do
    let (id, rest) ← takeId p.bytes
    return (decodeIdentifier id, rest)
  | .subjectMatch => do
    let (id, rest) ← takeId p.bytes
    let i ← decodeSubjectMatch id
    return (i, rest)
  | .tail =>
    match p.bytes with
    | [] => .error .truncated
    | t :: rest => .ok (decodeTail t, rest)

/-! ## The encoder -/

/-- A statement that is its code byte alone (R103). -/
def bareCode (code : Byte) : Packet := ⟨.statement, [code]⟩

/-- The packet of an instruction (R100 to R103, R81 to R87). -/
def encode : Instr → Packet
  | .init => bareCode 0x00
  | .subscribe subject extent timeout tag =>
    ⟨.statement, 0x01 :: (beBytes 2 subject ++ beBytes 2 extent ++ beBytes 4 timeout.toNat ++ [tag])⟩
  | .start => bareCode 0x02
  | .rxIrq => bareCode 0x10
  | .onFrameReceived => bareCode 0x11
  | .wakeSignal => bareCode 0x12
  | .rxPop => bareCode 0x13
  | .processPending => bareCode 0x20
  | .processFrame => bareCode 0x21
  | .deliver => bareCode 0x22
  | .noteDecodeError => bareCode 0x23
  | .enqueue subject transferId priority deadline payload =>
    ⟨.statement, 0x30 :: (beBytes 2 subject ++ beBytes 1 transferId ++ beBytes 1 priority ++ beBytes 8 deadline.toNat
      ++ beBytes 1 payload.length ++ payload)⟩
  | .drain => bareCode 0x31
  | .txPush => bareCode 0x32
  | .wait => bareCode 0x40
  | .taskCycle => bareCode 0x41
  | .apply => bareCode 0x42
  | .readDropped => bareCode 0x50
  | .readDecodeErrors => bareCode 0x51
  | .readTimeouts => bareCode 0x52
  | .tick n => ⟨.statement, 0x60 :: beBytes 4 n⟩
  | .bus id data => ⟨.statement, 0x61 :: (beBytes 4 id.toNat ++ beBytes 1 data.length ++ data)⟩
  | .mbox n => ⟨.statement, 0x62 :: beBytes 1 n⟩
  | .canidMessage prio anon r23 r21 subject r7 src =>
    ⟨.identifier, beBytes 4 (messageId prio anon r23 r21 subject r7 src).toNat⟩
  | .canidService prio rnr r23 service dst src =>
    ⟨.identifier, beBytes 4 (serviceId prio rnr r23 service dst src).toNat⟩
  | .canidSubjectMatch prio anon r21 subject src =>
    ⟨.subjectMatch, beBytes 4 (messageId prio anon false r21 subject false src).toNat⟩
  | .tailSingle tog tid => ⟨.tail, [tailByte true true tog tid]⟩
  | .tailFirst tog tid => ⟨.tail, [tailByte true false tog tid]⟩
  | .tailMiddle tog tid => ⟨.tail, [tailByte false false tog tid]⟩
  | .tailLast tog tid => ⟨.tail, [tailByte false true tog tid]⟩

/-! ## The words of spec/opcode_table.json -/

/-- The bytes of the longest instruction: an `ENQUEUE` of 63 payload bytes (R103). -/
def longestInstr : Nat := 77

/-- Whether a packet decodes. -/
def decodes (p : Packet) : Bool :=
  match decode p with
  | .ok _ => true
  | .error _ => false

/-- An opcode-table word as a packet. A row of 25 to 32 bits is an identifier (R81, R82). Any other is a statement, its
first byte the code, and every byte above the row's bits 0; an 8-bit word whose byte is the code of no operation is a
tail byte (R87). DESIGN CHOICE, log 15: the table's 8-bit rows overlap. -/
def tableWordPacket (nbits w : Nat) : Packet :=
  if 24 < nbits ∧ nbits ≤ 32 then ⟨.identifier, beBytes 4 w⟩
  else if nbits ≤ 8 ∧ decodes ⟨.statement, leBytes longestInstr w⟩ = false then ⟨.tail, leBytes 1 w⟩
  else ⟨.statement, leBytes longestInstr w⟩

/-- What the decoder reads from a word of spec/opcode_table.json. -/
def decodeTableWord (nbits w : Nat) : Option Instr :=
  match decode (tableWordPacket nbits w) with
  | .ok (i, _) => some i
  | .error _ => none

end Sys2Proof
end

