-- ==== Sys2Proof/Machine/State.lean ====
section
/-! DEFINITION. The state of the block and of the environment a run needs (spec/10_state.md, spec/44_neighbours.md),
its value at reset, and the reasons a step can stop. -/

namespace Sys2Proof.Machine

/-- A CAN frame on ports P1 and P7: identifier and data bytes; `len` is the number of data bytes (R9, R24). -/
structure BusFrame where
  id : CanId
  data : List Byte
  deriving DecidableEq, Repr

/-- A Frame of the ingestion queue (R24): `len` is `data.length`. -/
structure Frame where
  id : CanId
  data : List Byte
  ts : Time
  deriving DecidableEq, Repr

/-- Where agent TASK is in its cycle (R22). -/
inductive Phase where
  | idle
  | wait
  | drainRx
  | drainTx
  | apply
  deriving DecidableEq, Repr

/-- The last delivered transfer of a session (R32): `have_last` = 1. -/
structure LastAccepted where
  tid : Nat
  ts : Time
  deriving DecidableEq, Repr

/-- The transfer in progress of a session (R32): `active` = 1. -/
structure Reassembly where
  tid : Nat
  toggle : Bool
  multi : Bool
  buf : List Byte
  tsFirst : Time
  deriving DecidableEq, Repr

/-- A session (R32). `have_last` is `last.isSome` and `active` is `cur.isSome`: the fields the spec leaves unspecified while
their guard bit is 0 are not held then. -/
structure Session where
  last : Option LastAccepted := none
  cur : Option Reassembly := none
  deriving DecidableEq, Repr

/-- The session table `sess[i][s]` (R32), sparse: `(i * 128 + s, session)` in strictly rising key order, no entry equal to
the reset session. -/
abbrev SessTable := List (Nat × Session)

/-- An outbound item (R36). -/
structure Item where
  subject : Subject
  tid : Nat
  prio : Priority
  payload : List Byte
  deadline : Time
  deriving DecidableEq, Repr

/-- A reconstructed transfer handed to the handler (R142), with the session whose buffer it holds; `none` for an
anonymous delivery (R34, R66). -/
structure Delivery where
  tag : Byte
  subject : Subject
  payload : List Byte
  ts : Time
  holder : Option Nat
  deriving DecidableEq, Repr

/-- The supervisor's mode (R203). -/
inductive Mode where
  | engagedLive
  | safeTimeout
  deriving DecidableEq, Repr

/-- The command state and supervisor (R203, R207). `accepted` says whether a message has been accepted since `INIT`: until
then `last_update` is unspecified and not read, and the state counts as stale (R209). -/
structure Supervisor where
  servo : Vector Rat 4
  pump : Bool
  readiness : BitVec 2
  lastUpdate : Time
  accepted : Bool
  mode : Mode
  timeouts : Count
  deriving DecidableEq, Repr

/-- The four malformed-frame checks (R97). -/
inductive Malformed where
  | v1
  | v2
  | v3
  | v4
  deriving DecidableEq, Repr

/-- The two ways a transfer id is stale (R141). -/
inductive Staleness where
  | duplicate
  | stale
  deriving DecidableEq, Repr

/-- The four causes of an incomplete sequence (R226). -/
inductive Incomplete where
  | timedOut
  | preempted
  | orphan
  | badCrc
  deriving DecidableEq, Repr

/-- The error classes of R220. None of them stops the block (R220, R149). -/
inductive ErrorClass where
  | rxOverflow
  | unmatched
  | malformedFrame (v : Malformed)
  | extentViolation
  | staleTransfer (why : Staleness)
  | incompleteSequence (why : Incomplete)
  | poolExhaustedRx
  | txQueueFull
  | poolExhaustedTx
  | txExpired
  | mailboxFull
  | codecError
  | commandStale
  deriving DecidableEq, Repr

/-- The answer of `tx_push` (R163). -/
inductive PushAnswer where
  | success
  | full
  deriving DecidableEq, Repr

/-- The kind of a transfer (R83). -/
inductive TransferKind where
  | message
  | request
  | response
  deriving DecidableEq, Repr

/-- The fields that only the layout of a service frame has (R82). -/
structure ServiceFields where
  service : BitVec 9
  dst : SourceId
  src : SourceId
  deriving DecidableEq, Repr

/-- The fields of an identifier: the six of R83, which are slices of any identifier, and those of R82 for a service frame. -/
structure ParsedId where
  prio : Priority
  svc : Bool
  anon : Bool
  subject : Subject
  src : Option SourceId
  kind : TransferKind
  service : Option ServiceFields
  deriving DecidableEq, Repr

/-- The class of a frame (R87). -/
inductive FrameClass where
  | single
  | first
  | middle
  | last
  deriving DecidableEq, Repr

/-- The fields of a tail byte (R88). -/
structure ParsedTail where
  cls : FrameClass
  tog : Bool
  tid : BitVec 5
  deriving DecidableEq, Repr

/-- What an operation returns (R9, R102). -/
inductive OpResult where
  | ok
  | rejected
  | popped (f : Option Frame)
  | counter (c : Count)
  | identifier (p : ParsedId)
  | tail (p : ParsedTail)
  | matched (i : Option Nat)
  deriving DecidableEq, Repr

/-- The model's trace: the events and results of R14, the actuator sink's call (R206), and the error classes raised
(R220: "for a model's log only"). -/
inductive Event where
  | deliver (tag : Byte) (subject : Subject) (payload : List Byte) (size : Nat) (ts : Time)
  | tx (f : BusFrame) (answer : PushAnswer)
  | apply
  | sink (servo : Vector Rat 4) (pump : Bool) (readiness : BitVec 2)
  | result (r : OpResult)
  | raised (e : ErrorClass)
  deriving DecidableEq, Repr

/-- The machine's state. -/
structure State where
  /-- The parameters (R10); no operation changes them. -/
  params : Params
  /-- MODEL'S OWN (log 1): `INIT` has been issued since power-on (R250). -/
  initialised : Bool
  /-- The clock input P2 (R21, R236). -/
  now : Time
  /-- Environment: the frames the controller holds, oldest first (R37). -/
  ctrlRx : List BusFrame
  /-- Environment: how many more pushes the controller takes (R37, R102). -/
  mboxFree : Nat
  /-- `rxq` (R25), oldest first. -/
  rxq : List Frame
  /-- `dropped` (R27). -/
  dropped : Count
  /-- `wake` (R28). -/
  wake : Bool
  /-- `started` (R29). -/
  started : Bool
  /-- `phase` (R22). -/
  phase : Phase
  /-- MODEL'S OWN (log 40): TASK has begun the operation of its phase, `PROCESS_PENDING` or `DRAIN`, and not ended it (R161, R261). -/
  midPhase : Bool
  /-- `wait_start` (R43). -/
  waitStart : Time
  /-- `sub[0..SUB_CAP-1]` (R30). -/
  sub : List (Option Subscription)
  /-- `sess` (R32). -/
  sess : SessTable
  /-- `decode_err` (R33). -/
  decodeErr : Count
  /-- `pool_free` (R34). -/
  poolFree : Nat
  /-- `txq` (R35), next served first. -/
  txq : List Item
  /-- TASK's local `r` of R131: the frame popped and not yet processed. -/
  popped : Option Frame
  /-- The transfer whose handler runs (R142; R66 counts an anonymous one as T). `PROCESS_FRAME` is one step (R132), so the
  field is set and cleared inside it. -/
  delivering : Option Delivery
  /-- Environment: the command state and supervisor (R203). -/
  sup : Supervisor
  /-- MODEL'S OWN (log 8): the agents' moves still to come. -/
  schedule : List Move
  /-- MODEL'S OWN (log 8): what the schedule is refilled with each time it runs out. -/
  recurring : List Move
  /-- MODEL'S OWN (log 9): the trace, oldest first. -/
  log : List Event
  /-- MODEL'S OWN (log 6): how many free values have been taken. -/
  freeCount : Nat
  deriving DecidableEq, Repr

/-- Why the machine stops for good. -/
inductive Fault where
  /-- Raised by the handler call of a delivery whose handler never returns (R187, U11: stuck). Safe. -/
  | handlerNeverReturns
  /-- Raised by a call of `next_rx()` or `tx_push` that never returns (U11: stuck). Safe. -/
  | portNeverReturns
  deriving DecidableEq, Repr

/-- Why a run is outside the spec: "the model rejects it as a precondition failure and proves nothing about it"
(spec/93_implementation_defined.md). All are safe. -/
inductive Refusal where
  /-- Raised by an arm of `exec` for an instruction that has no meaning yet. -/
  | notModelled (mnemonic : String)
  /-- Raised by `step` for a packet the decoder rejects (U20). -/
  | undecodable (e : DecodeError)
  /-- Raised by any operation but `INIT` before the first `INIT` (R250, U1). -/
  | beforeInit
  /-- Raised by `INIT` when the parameters break rule R11 (U8) or the ranges of rule R10 (log 21). -/
  | badConfiguration
  /-- Raised by a statement that is not enabled: the interrupt and its steps before `START` (R119), `WAIT` and `TASK_CYCLE`
  while `WAIT` cannot return (R102, U20). -/
  | notEnabled
  /-- Raised by a task-context operation while TASK does not run (R240, U9). -/
  | wrongContext
  /-- Raised by a HOST or whole TASK operation issued while TASK is in the middle of a cycle (R77, R240, U9), and by `ENQUEUE` and
  `NOTE_DECODE_ERROR` issued between two steps of `PROCESS_PENDING` or `DRAIN` (R161, R261, U9). -/
  | taskBusy
  /-- Raised by an operation that a handler must not call (R262, U10). -/
  | handlerMayNotCall
  /-- Raised by a step or event issued on its own when the state holds no operand for it (R100); an expired item is none for
  `TX_PUSH` (log 11). -/
  | noOperand
  /-- Raised by `SUBSCRIBE` and `ENQUEUE` on an operand outside their contract (U6, U7). -/
  | operandOutOfRange
  /-- Raised by `BUS` and by storing a frame of more than 64 bytes (R98, R111, U4). -/
  | frameTooLong
  /-- Raised by a `TICK` past the last value of the clock (R236, U14). -/
  | clockWouldWrap
  deriving DecidableEq, Repr

/-- The six entries at reset. DESIGN CHOICE (log 2): R31 leaves them open; these are the subjects of the test vectors (R10), with
the extents, timeouts and tags of program P6. -/
def resetDeployment : Deployment where
  readiness := ⟨100, 1, 2000, 1⟩
  servo := #v[⟨101, 4, 2000, 2⟩, ⟨102, 4, 2000, 3⟩, ⟨103, 4, 2000, 4⟩, ⟨104, 4, 2000, 5⟩]
  pump := ⟨105, 1, 2000, 6⟩

/-- `TICK` at reset. DESIGN CHOICE (log 3): R10 leaves it open; this is 1 ms, the only unit of the source. -/
def resetTick : Rat := 1

/-- The parameters at reset: the defaults of R10; DESIGN CHOICE (log 2) for the OPEN ones, the values of program P1; DESIGN
CHOICE (log 25) for the codec, the `compiled` strategy, which R201 and R252 leave to start-up, and no layout. -/
def resetParams : Params where
  rxqCap := 4
  subCap := 8
  txqCap := 64
  tidBits := 5
  poolBufs := 4
  poolBufBytes := 64
  maxWait := 10000
  nodeId := 42
  toggleInit := true
  crcBytes := 2
  crc := .ccittFalse
  countExtentViolation := false
  tidExpiry := .never
  deployment := resetDeployment
  tick := resetTick
  staleTicks := ticksIn 1000 resetTick
  engagedLevel := 3
  strategy := .compiled
  layout := .deployment
  handlers := []
  rxPortReturns := true
  txPortReturns := true

/-- The supervisor after `INIT` (R209). DESIGN CHOICE (log 39): `last_update`, which R209 leaves unspecified, is 0. -/
def resetSupervisor : Supervisor where
  servo := #v[0, 0, 0, 0]
  pump := false
  readiness := 0
  lastUpdate := 0
  accepted := false
  mode := .safeTimeout
  timeouts := 0

/-- The machine right after reset: the state after `INIT` (R41, R250), with nothing in the environment. -/
def State.reset : State where
  params := resetParams
  initialised := true
  now := 0
  ctrlRx := []
  mboxFree := 0
  rxq := []
  dropped := 0
  wake := false
  started := false
  phase := .idle
  midPhase := false
  waitStart := 0
  sub := List.replicate 8 none
  sess := []
  decodeErr := 0
  poolFree := 4
  txq := []
  popped := none
  delivering := none
  sup := resetSupervisor
  schedule := []
  recurring := []
  log := []
  freeCount := 0

end Sys2Proof.Machine
end

