-- ==== Sys2Proof/Machine/Ops.lean ====
section
/-! DEFINITION. The primitives of R13 and of spec/20_memory.md, the raising of an error class (R220: the block's one
"exception"), the session table, the ports to agent BUS, and the guards that say who may issue what. -/

namespace Sys2Proof.Machine

/-- The outcome of one operation. -/
abbrev Result := Host.Outcome State Fault Refusal

/-- Go on with `k` where the first operation answers a next state; stop as it stops otherwise. -/
def andThen (o : Result) (k : State → Result) : Result :=
  match o with
  | .next s => k s
  | .fault r => .fault r
  | .refused r => .refused r

/-! ## Events and counters -/

/-- `emit EVENT(args)` (R13, R14). -/
def emit (e : Event) (s : State) : State := { s with log := s.log ++ [e] }

/-- `CNT_MAX` = 4294967295 (R10). -/
def cntMax : Count := 0xFFFFFFFF#32

/-- `sat_inc` (R13). -/
def satInc (c : Count) : Count := if c < cntMax then c + 1 else cntMax

/-- `decode_err <- sat_inc(decode_err)`: what `NOTE_DECODE_ERROR` does (R144). -/
def countDecodeError (s : State) : State := { s with decodeErr := satInc s.decodeErr }

/-- The column "effect on counters" of R220. `CommandStale` counts in the supervisor, at the transition only (R205). -/
def errorEffect (e : ErrorClass) (s : State) : State :=
  match e with
  | .rxOverflow => { s with dropped := satInc s.dropped }
  | .malformedFrame _ => countDecodeError s
  | .extentViolation => if s.params.countExtentViolation then countDecodeError s else s
  | .poolExhaustedRx => countDecodeError s
  | .codecError => countDecodeError s
  | .unmatched | .staleTransfer _ | .incompleteSequence _ | .txQueueFull | .poolExhaustedTx | .txExpired | .mailboxFull
  | .commandStale => s

/-- `raise <Error>(info)` (R13, R220): the effect on the counters and an entry in the model's log, and nothing else. No
state is saved, no mode changes and control is not transferred; ending the operation is its caller's part. -/
def raiseError (e : ErrorClass) (s : State) : State := emit (.raised e) (errorEffect e s)

/-- The class codes of R220. -/
def errorCode : ErrorClass → Byte
  | .rxOverflow => 0x01
  | .unmatched => 0x02
  | .malformedFrame _ => 0x03
  | .extentViolation => 0x04
  | .staleTransfer _ => 0x05
  | .incompleteSequence _ => 0x06
  | .poolExhaustedRx => 0x07
  | .txQueueFull => 0x08
  | .poolExhaustedTx => 0x09
  | .txExpired => 0x0A
  | .mailboxFull => 0x0B
  | .codecError => 0x0C
  | .commandStale => 0x0D

/-- What an accessor of P8 does: return a counter, with no side effect (R68, R114, R146, R186). -/
def readCounter (c : Count) (s : State) : State := emit (.result (.counter c)) s

/-! ## The pool -/

/-- `pool_alloc()`: `none` is `fail`, which changes nothing (R64). -/
def poolAlloc (s : State) : Option State :=
  if s.poolFree = 0 then none else some { s with poolFree := s.poolFree - 1 }

/-- `pool_free_one()` (R65). -/
def poolFreeOne (s : State) : State := { s with poolFree := s.poolFree + 1 }

/-! ## The frame queue -/

/-- `slot_write(f)` (R62). -/
def slotWrite (f : Frame) (s : State) : State := { s with rxq := s.rxq ++ [f] }

/-- `RX_POP` as a step of TASK: `r <- RX_POP()` with `r` in `popped` (R113, R131, R63). -/
def popFrame (s : State) : State :=
  match s.rxq with
  | [] => { s with popped := none }
  | f :: rest => { s with rxq := rest, popped := some f }

/-! ## The session table -/

/-- The key of `sess[i][src]` (R32). -/
def sessKey (i : Nat) (src : SourceId) : Nat := i * 128 + src.toNat

/-- The session at a key; a key not listed is in the reset state (R32, R41). -/
def sessGet : SessTable → Nat → Session
  | [], _ => {}
  | (k', v) :: rest, k => if k = k' then v else sessGet rest k

/-- Write the session at a key, keeping the canonical form: a reset session is not listed. -/
def sessSet : SessTable → Nat → Session → SessTable
  | [], k, v => if v = {} then [] else [(k, v)]
  | (k', v') :: rest, k, v =>
    if k < k' then if v = {} then (k', v') :: rest else (k, v) :: (k', v') :: rest
    else if k = k' then if v = {} then rest else (k, v) :: rest
    else (k', v') :: sessSet rest k v

/-- The canonical form: keys strictly rising, no entry equal to the reset session. -/
def sessWf : SessTable → Bool
  | [] => true
  | [(_, v)] => v != {}
  | (k, v) :: (k', v') :: rest => v != {} && decide (k < k') && sessWf ((k', v') :: rest)

/-- The session at a key of the state. -/
def State.session (s : State) (key : Nat) : Session := sessGet s.sess key

/-- Replace the session at a key. -/
def putSession (key : Nat) (v : Session) (s : State) : State := { s with sess := sessSet s.sess key v }

/-- `abandon(s)` (R143): the buffer goes back if one was held, and `have_last`, `last_tid`, `last_ts` stay. -/
def abandon (key : Nat) (s : State) : State :=
  match (s.session key).cur with
  | none => s
  | some _ => putSession key { s.session key with cur := none } (poolFreeOne s)

/-! ## The ports to agent BUS -/

/-- `next_rx()` on P1: the oldest frame of the controller, removed from it (R9, R37, R68). -/
def nextRx (s : State) : Option (BusFrame × State) :=
  match s.ctrlRx with
  | [] => none
  | r :: rest => some (r, { s with ctrlRx := rest })

/-- `TX_PUSH` (R163): `emit TX(frame)`, and BUS's answer, which is `success` while its counter lasts (R37, R102). -/
def pushFrame (f : BusFrame) (s : State) : PushAnswer × State :=
  if s.mboxFree = 0 then (.full, emit (.tx f .full) s)
  else (.success, emit (.tx f .success) { s with mboxFree := s.mboxFree - 1 })

/-! ## Who may issue what (R240) -/

/-- No operation but `INIT` is defined before the first `INIT` (R250, R252, U1). -/
def whenReady (s : State) (r : Result) : Result :=
  if s.initialised then r else .refused .beforeInit

/-- The receive interrupt and its steps are enabled only while `started` = 1 (R119, R234). -/
def whenInterruptEnabled (s : State) (r : Result) : Result :=
  whenReady s (if s.started then r else .refused .notEnabled)

/-- A whole TASK statement runs between two cycles: not inside a handler (R262), not before `START` (R240), and not
while TASK is stepping through a cycle (R22). -/
def whenTaskFree (s : State) (r : Result) : Result :=
  whenReady s (
    if s.delivering.isSome then .refused .handlerMayNotCall
    else
      match s.phase with
      | .wait => r
      | .idle => .refused .wrongContext
      | .drainRx | .drainTx | .apply => .refused .taskBusy)

/-- What other code calls in task context runs inside a handler or while TASK is in none of its operations: between two steps of
`PROCESS_PENDING` or `DRAIN` only interrupt context can run (R70, R161), and a call from there is refused (R261, U9; DEDUCED,
log 40). -/
def whenTaskCodeRuns (s : State) (r : Result) : Result :=
  if s.midPhase && s.delivering.isNone then .refused .taskBusy else r

/-- TASK is in the middle of a cycle. -/
def State.midCycle (s : State) : Bool :=
  s.delivering.isSome || match s.phase with
    | .idle | .wait => false
    | .drainRx | .drainTx | .apply => true

/-- HOST's operations run while TASK does not: before `START`, or while TASK is blocked in `WAIT` (R77, R240, U9; DEDUCED, log 14).
Code that a handler runs is not HOST's (R262, U10). -/
def whenHostRuns (s : State) (r : Result) : Result :=
  whenReady s (
    if s.delivering.isSome then .refused .handlerMayNotCall
    else if s.midCycle then .refused .taskBusy
    else r)

end Sys2Proof.Machine
end

