-- ==== Sys2Proof/Machine/Operands.lean ====
section
/-! DEFINITION. The operand forms: the fields of a frame (R83, R88), the transfer CRC (R93), the frame made from an
outbound item (R94, R95), the parsed identifier and tail byte. -/

namespace Sys2Proof.Machine

/-! ## Frames -/

/-- `tail(f)` (R88); only used where the frame has a last byte. -/
def Frame.tail (f : Frame) : Byte := f.data.getLastD 0

/-- `sot(f)` (R88). -/
def Frame.sot (f : Frame) : Bool := tailSot f.tail

/-- `eot(f)` (R88). -/
def Frame.eot (f : Frame) : Bool := tailEot f.tail

/-- `tog(f)` (R88). -/
def Frame.tog (f : Frame) : Bool := tailTog f.tail

/-- `pl(f)`: the bytes before the tail byte (R88). -/
def Frame.pl (f : Frame) : List Byte := f.data.dropLast

/-- The frame is SINGLE (R87). -/
def Frame.single (f : Frame) : Bool := f.sot && f.eot

/-- `TID_MOD` (R10). -/
def tidMod (p : Params) : Nat := 2 ^ p.tidBits

/-- `tid(f)` (R88): tail bits 4:0; DEDUCED (log 19): modulo `TID_MOD`, their low `TID_BITS` where `TID_BITS` is below 5. -/
def frameTid (p : Params) (f : Frame) : Nat := (tailTid f.tail).toNat % tidMod p

/-! ## The transfer CRC (R93) -/

/-- One bit of the CRC. -/
def crcBit (c : BitVec 16) : BitVec 16 := if c.msb then (c <<< 1) ^^^ 0x1021#16 else c <<< 1

/-- `n` bits of the CRC. -/
def crcBits : Nat → BitVec 16 → BitVec 16
  | 0, c => c
  | n + 1, c => crcBits n (crcBit c)

/-- One byte of the CRC. -/
def crcByte (c : BitVec 16) (x : Byte) : BitVec 16 := crcBits 8 (c ^^^ (x.setWidth 16 <<< 8))

/-- CRC-16/CCITT-FALSE (R93). -/
def crc16 (b : List Byte) : BitVec 16 := b.foldl crcByte 0xFFFF#16

/-- `crc_ok` (R93): the default, or another predicate. -/
def crcOk (p : Params) (b : List Byte) : Bool :=
  match p.crc with
  | .ccittFalse => decide (2 ≤ b.length) && crc16 b == 0#16
  | .other which => Config.otherCrcOk which b

/-! ## Transmitted frames -/

/-- `dlc_round` (R94). -/
def dlcRound (n : Nat) : Nat :=
  if n ≤ 8 then n
  else if n ≤ 12 then 12
  else if n ≤ 16 then 16
  else if n ≤ 20 then 20
  else if n ≤ 24 then 24
  else if n ≤ 32 then 32
  else if n ≤ 48 then 48
  else 64

/-- `build(item)` (R95): the identifier with `svc`, `anon`, `r23`, `r7` 0 and `r21` 11, the payload, zero padding to a legal
length, the tail byte. DEDUCED (log 20): the toggle is `TOGGLE_INIT`, R95's 1 at the default. DEDUCED (log 19): the field holds
the low 5 bits of the transfer id, all of it unless `TID_BITS` is above 5. -/
def build (p : Params) (e : Item) : BusFrame where
  id := messageId e.prio false false 3#2 e.subject false p.nodeId
  data := e.payload ++ List.replicate (dlcRound (e.payload.length + 1) - 1 - e.payload.length) 0
    ++ [tailByte true true p.toggleInit (BitVec.ofNat 5 e.tid)]

/-! ## Parsing -/

/-- `kind(id)` (R83): in a service frame bit 24 says request or response. -/
def idKind (id : CanId) : TransferKind :=
  if !idSvc id then .message else if idAnon id then .request else .response

/-- The configuration function `parse` on an identifier: the slices of R83, whatever its layout, and the fields of a service
frame (R82). -/
def parseId (id : CanId) : ParsedId where
  prio := idPrio id
  svc := idSvc id
  anon := idAnon id
  subject := idSubject id
  src := idSrc id
  kind := idKind id
  service := if idSvc id then some { service := idService id, dst := idDst id, src := idSrcBits id } else none

/-- The class of a tail byte (R87). -/
def tailClass (t : Byte) : FrameClass :=
  match tailSot t, tailEot t with
  | true, true => .single
  | true, false => .first
  | false, false => .middle
  | false, true => .last

/-- The configuration function `parse` on a tail byte (R87, R88). -/
def parseTail (t : Byte) : ParsedTail where
  cls := tailClass t
  tog := tailTog t
  tid := tailTid t

/-! ## The subscription table -/

/-- `match(id)` from index `i` on (R133). -/
def matchFrom (id : CanId) : Nat → List (Option Subscription) → Option (Nat × Subscription)
  | _, [] => none
  | i, none :: rest => matchFrom id (i + 1) rest
  | i, some sb :: rest => if idMatches id sb.subject then some (i, sb) else matchFrom id (i + 1) rest

/-- `match(id)`: the lowest valid index whose subject matches, with its entry (R84, R133). -/
def matchSub (sub : List (Option Subscription)) (id : CanId) : Option (Nat × Subscription) := matchFrom id 0 sub

/-- The lowest index with `valid` = 0 (R130). -/
def firstFree : List (Option Subscription) → Option Nat
  | [] => none
  | none :: _ => some 0
  | some _ :: rest => (firstFree rest).map (· + 1)

/-- Whether a valid entry has this subject (R130). -/
def subjectTaken (sub : List (Option Subscription)) (subject : Subject) : Bool :=
  sub.any fun e => match e with
    | none => false
    | some sb => sb.subject == subject

end Sys2Proof.Machine
end

