-- ==== Sys2Proof/Machine/Flags.lean ====
section
/-! DEFINITION. The block has no condition codes (R38); these are its tests: malformed frames (R97), transfer-id
staleness (R145), the comparisons of time (R237), and the constraints on the parameters (R11). -/

namespace Sys2Proof.Machine

/-- The checks V1 to V4, in this order (R97). -/
def malformed (p : Params) (f : Frame) : Option Malformed :=
  if f.data = [] then some .v1
  else if f.sot && f.tog != p.toggleInit then some .v2
  else if idAnon f.id && !f.single then some .v3
  else if !f.single && f.pl.isEmpty then some .v4
  else none

/-- `tid_diff(a, b)` is `(a - b) mod TID_MOD` (R13). -/
def tidDiff (p : Params) (a b : Nat) : Nat := (((a : Int) - (b : Int)) % (tidMod p : Int)).toNat

/-- The verdict on a transfer id against the last accepted one (R141, R145); `none` is new, accepted. -/
def staleness (p : Params) (t l : Nat) : Option Staleness :=
  if tidDiff p t l = 0 then some .duplicate
  else if tidMod p / 2 ≤ tidDiff p t l then some .stale
  else none

/-- `later - earlier > ticks`, as integers (R136, R205, R236). -/
def moreThan (later earlier : Time) (ticks : Nat) : Bool := decide (earlier.toNat + ticks < later.toNat)

/-- An item is expired at `t` exactly when `t > deadline` (R164). -/
def expired (t : Time) (e : Item) : Bool := decide (e.deadline < t)

/-- `now - wait_start >= MAX_WAIT` (R181). -/
def waitBoundReached (s : State) : Bool := decide (s.waitStart.toNat + s.params.maxWait ≤ s.now.toNat)

/-- `WAIT` can return (R181). -/
def waitReady (s : State) : Bool := s.wake || waitBoundReached s

/-- The six entries of this deployment, in the order in which HOST subscribes them (R31, R252). -/
def deploymentEntries (p : Params) : List Subscription :=
  p.deployment.readiness :: p.deployment.servo.toList ++ [p.deployment.pump]

/-- The constraints on the parameters: `TID_BITS` ≥ 2, `MTU` - 1 ≤ `POOL_BUF_BYTES` and the extents of the six entries of R11,
and the ranges of R10, which are no part of R11 (DEDUCED, log 21). `SUBSCRIBE` checks the extent of each subscription it makes;
R11's constraints on widths stand in the types. -/
def configOk (p : Params) : Bool :=
  decide (1 ≤ p.rxqCap) && decide (1 ≤ p.poolBufs) && decide (64 ≤ p.poolBufBytes) && decide (1 ≤ p.maxWait)
    && decide (2 ≤ p.tidBits) && decide ((deploymentEntries p).map (·.subject)).Nodup
    && (deploymentEntries p).all fun e => decide (e.extent + p.crcBytes ≤ p.poolBufBytes)

end Sys2Proof.Machine
end

