-- ==== Sys2Proof/Machine/Environment.lean ====
section
/-! DEFINITION. The environment statements of the trace language (R102): TICK, BUS, MBOX. -/

namespace Sys2Proof.Machine

/-- `TICK`, agent CLOCK: `now <- now + N`. A tick past the last 64-bit value is refused: `now` never wraps (R236, U14). -/
def execTick (n : Nat) (s : State) : Result :=
  whenReady s (
    if s.now.toNat + n < 2 ^ 64 then .next { s with now := BitVec.ofNat 64 (s.now.toNat + n) }
    else .refused .clockWouldWrap)

/-- `BUS`, agent BUS: a frame arrives in the controller. More than 64 bytes is outside the contract of P1 (U4). -/
def execBus (id : CanId) (data : List Byte) (s : State) : Result :=
  whenReady s (
    if data.length ≤ 64 then .next { s with ctrlRx := s.ctrlRx ++ [{ id := id, data := data }] }
    else .refused .frameTooLong)

/-- `MBOX`, agent BUS: the next `N` pushes succeed. -/
def execMbox (n : Nat) (s : State) : Result := whenReady s (.next { s with mboxFree := n })

end Sys2Proof.Machine
end

