-- ==== Sys2Proof/Machine/Ingestion.lean ====
section
/-! DEFINITION. U1, frame ingestion and the receive interrupt (spec/40_ingestion.md, R234 to R239): RX_IRQ,
ON_FRAME_RECEIVED, WAKE_SIGNAL, RX_POP, READ_DROPPED. -/

namespace Sys2Proof.Machine

/-- `ON_FRAME_RECEIVED(r)` (R111): store the frame with its arrival time, or drop it and count. A frame of more than 64
bytes is outside the contract of P1 and refused (U4). -/
def storeFrame (r : BusFrame) (s : State) : Result :=
  if 64 < r.data.length then .refused .frameTooLong
  else if s.rxq.length = s.params.rxqCap then .next (raiseError .rxOverflow s)
  else .next (slotWrite { id := r.id, data := r.data, ts := s.now } s)

/-- `WAKE_SIGNAL` (R112). -/
def signalWake (s : State) : State := { s with wake := true }

/-- At most `n` turns of the pull loop of `RX_IRQ` (R110). -/
def pullTurns : Nat → State → Result
  | 0, s => .next s
  | n + 1, s =>
    match nextRx s with
    | none => .next s
    | some (r, s1) => andThen (storeFrame r s1) (pullTurns n)

/-- The receive interrupt, taken and returned from (R110, R238, R239): nothing is saved or restored; pull until the controller
answers `none`, then signal once. Its first pull already hangs where `next_rx()` never returns (U11). -/
def takeInterrupt (s : State) : Result :=
  if s.params.rxPortReturns then andThen (pullTurns (s.ctrlRx.length + 1) s) fun s1 => .next (signalWake s1)
  else .fault .portNeverReturns

/-- `RX_IRQ` (R110): enabled only while `started` = 1 (R119). -/
def execRxIrq (s : State) : Result := whenInterruptEnabled s (takeInterrupt s)

/-- `ON_FRAME_RECEIVED` issued on its own (R111): its operand is the frame that `next_rx()` returns. -/
def execOnFrameReceived (s : State) : Result :=
  whenInterruptEnabled s
    (if s.params.rxPortReturns then
      match nextRx s with
      | none => .refused .noOperand
      | some (r, s1) => storeFrame r s1
    else .fault .portNeverReturns)

/-- `WAKE_SIGNAL` issued on its own (R112). -/
def execWakeSignal (s : State) : Result := whenInterruptEnabled s (.next (signalWake s))

/-- `RX_POP` issued between two cycles (R113): the frame is returned and held for `PROCESS_FRAME`. -/
def execRxPop (s : State) : Result :=
  whenTaskFree s (.next (emit (.result (.popped (popFrame s).popped)) (popFrame s)))

/-- `READ_DROPPED`, any context (R114). -/
def execReadDropped (s : State) : Result := whenReady s (.next (readCounter s.dropped s))

end Sys2Proof.Machine
end

