-- ==== Sys2Proof/Machine/Layouts.lean ====
section
/-! DEFINITION. The wire layouts of the opcode table: the identifier rows (R81, R82, R84) and the tail classes (R87). Reading
one is the configuration function `parse` of spec/30_encoding.md, and its value is the result. -/

namespace Sys2Proof.Machine

/-- Return what `parse` reads from an identifier. -/
def returnId (id : CanId) (s : State) : State := emit (.result (.identifier (parseId id))) s

/-- Return what `parse` reads from a tail byte. -/
def returnTail (t : Byte) (s : State) : State := emit (.result (.tail (parseTail t))) s

/-- `CANID_MESSAGE` (R81, R83). -/
def execCanidMessage (prio : Priority) (anon r23 : Bool) (r21 : BitVec 2) (subject : Subject) (r7 : Bool) (src : SourceId)
    (s : State) : Result :=
  .next (returnId (messageId prio anon r23 r21 subject r7 src) s)

/-- `CANID_SERVICE` (R82, R83). -/
def execCanidService (prio : Priority) (rnr r23 : Bool) (service : BitVec 9) (dst src : SourceId) (s : State) : Result :=
  .next (returnId (serviceId prio rnr r23 service dst src) s)

/-- `CANID_SUBJECT_MATCH` (R84, R133): the index of the subscription the identifier matches; none raises `Unmatched`. DESIGN
CHOICE (log 16): it reads the table from `INIT` on, also before `START`, where R75 has the block itself not read it. -/
def execCanidSubjectMatch (prio : Priority) (anon : Bool) (r21 : BitVec 2) (subject : Subject) (src : SourceId) (s : State) :
    Result :=
  whenReady s
    (match matchSub s.sub (messageId prio anon false r21 subject false src) with
    | some (i, _) => .next (emit (.result (.matched (some i))) s)
    | none => .next (emit (.result (.matched none)) (raiseError .unmatched s)))

/-- `TAIL_SINGLE` (R87). -/
def execTailSingle (tog : Bool) (tid : BitVec 5) (s : State) : Result := .next (returnTail (tailByte true true tog tid) s)

/-- `TAIL_FIRST` (R87). -/
def execTailFirst (tog : Bool) (tid : BitVec 5) (s : State) : Result := .next (returnTail (tailByte true false tog tid) s)

/-- `TAIL_MIDDLE` (R87). -/
def execTailMiddle (tog : Bool) (tid : BitVec 5) (s : State) : Result := .next (returnTail (tailByte false false tog tid) s)

/-- `TAIL_LAST` (R87). -/
def execTailLast (tog : Bool) (tid : BitVec 5) (s : State) : Result := .next (returnTail (tailByte false true tog tid) s)

end Sys2Proof.Machine
end

