-- ==== Sys2Proof/Machine/Outbound.lean ====
section
/-! DEFINITION. U3, the outbound queue and transmission scheduler (spec/42_outbound.md): ENQUEUE, DRAIN, TX_PUSH. -/

namespace Sys2Proof.Machine

/-- Put an item after the last one whose `prio` is not greater: priority order, first in first out within a priority
(R160, R161). -/
def insertItem (e : Item) (q : List Item) : List Item :=
  let k := q.countP fun x => decide (x.prio ≤ e.prio)
  q.take k ++ e :: q.drop k

/-- The body of `ENQUEUE` on an item (R161). -/
def enqueueItem (e : Item) (s : State) : State :=
  if s.txq.length = s.params.txqCap then emit (.result .rejected) (raiseError .txQueueFull s)
  else
    match poolAlloc s with
    | none => emit (.result .rejected) (raiseError .poolExhaustedTx s)
    | some s1 => emit (.result .ok) { s1 with txq := insertItem e s1.txq }

/-- The operands of `ENQUEUE` are within its contract (R161 corner (c), U6). -/
def enqueueInContract (subject priority : Nat) (payload : List Byte) : Bool :=
  decide (subject ≤ 8191) && decide (priority ≤ 7) && decide (payload.length ≤ 63)

/-- The item of an `ENQUEUE`: the transfer id is stored modulo `TID_MOD` (R161). -/
def enqueueOperand (p : Params) (subject transferId priority : Nat) (deadline : Time) (payload : List Byte) : Item where
  subject := BitVec.ofNat 13 subject
  tid := transferId % tidMod p
  prio := BitVec.ofNat 3 priority
  payload := payload
  deadline := deadline

/-- `ENQUEUE` called in task context; outside its contract the run is refused (R161, U6). -/
def enqueueCall (subject transferId priority : Nat) (deadline : Time) (payload : List Byte) (s : State) : Result :=
  if enqueueInContract subject priority payload then
    .next (enqueueItem (enqueueOperand s.params subject transferId priority deadline payload) s)
  else .refused .operandOutOfRange

/-- `ENQUEUE` (R161): legal from the first `INIT` on (R252), in a handler or between the phases of the cycle. -/
def execEnqueue (subject transferId priority : Nat) (deadline : Time) (payload : List Byte) (s : State) : Result :=
  whenReady s (whenTaskCodeRuns s (enqueueCall subject transferId priority deadline payload s))

/-- Take the head item away and give its buffer back (R162, R65). -/
def dropHead (s : State) : State := poolFreeOne { s with txq := s.txq.tail }

/-- One pass of the loop of `DRAIN`, one step of TASK (R162): the flag says whether another pass follows. -/
def drainPass (s : State) : Bool × State :=
  match s.txq with
  | [] => (false, s)
  | e :: _ =>
    if expired s.now e then (true, raiseError .txExpired (dropHead s))
    else
      match pushFrame (build s.params e) s with
      | (.full, s1) => (false, raiseError .mailboxFull s1)
      | (.success, s1) => (true, dropHead s1)

/-- At most `n` passes of `DRAIN`. -/
def drainPasses : Nat → State → State
  | 0, s => s
  | n + 1, s =>
    match drainPass s with
    | (true, s1) => drainPasses n s1
    | (false, s1) => s1

/-- The whole loop of `DRAIN` (R162): every pass but the last removes an item. -/
def drainQueue (s : State) : State := drainPasses (s.txq.length + 1) s

/-- The next pass of `DRAIN` calls a `tx_push` that never returns (U11): its item is not evicted. -/
def passHangs (s : State) : Bool :=
  !s.params.txPortReturns && match s.txq with
    | [] => false
    | e :: _ => !expired s.now e

/-- Some pass of `DRAIN` calls a `tx_push` that never returns (U11): some item is not evicted. -/
def drainHangs (s : State) : Bool := !s.params.txPortReturns && s.txq.any fun e => !expired s.now e

/-- `DRAIN` called by TASK (R162): it ends, unless a push never returns (U11). -/
def drainCall (s : State) : Result := if drainHangs s then .fault .portNeverReturns else .next (drainQueue s)

/-- `DRAIN` issued between two cycles (R162). -/
def execDrain (s : State) : Result := whenTaskFree s (drainCall s)

/-- `TX_PUSH` issued on its own (R163; DESIGN CHOICE, log 11): the hand-off of the frame of the item at the head. Taken, the
item leaves as in `DRAIN` (R162), so that it is sent at most once (R165 (e)); an expired head has no frame to hand over (R165 (a)). -/
def execTxPush (s : State) : Result :=
  whenTaskFree s
    (match s.txq with
    | [] => .refused .noOperand
    | e :: _ =>
      if expired s.now e then .refused .noOperand
      else if s.params.txPortReturns then
        match pushFrame (build s.params e) s with
        | (.full, s1) => .next s1
        | (.success, s1) => .next (dropHead s1)
      else .fault .portNeverReturns)

end Sys2Proof.Machine
end

