-- ==== Sys2Proof/Machine/Neighbours.lean ====
section
/-! DEFINITION. The environment behind ports P5 and P9: the codec, `decode` and `encode` (R200 to R202), the command
state (R203, R204) and the supervisor's control-cycle step (R205 to R211). -/

namespace Sys2Proof.Machine

/-! ## The codec -/

/-- An IEEE 754 binary32 word: infinities are read as a magnitude above every finite one (program P6 only). -/
def binary32 (w : BitVec 32) : ServoReading :=
  let e := (w.extractLsb' 23 8).toNat
  let m := (w.extractLsb' 0 23).toNat
  let magnitude : Rat :=
    if e = 255 then 2 ^ 128
    else if e = 0 then mkRat m (2 ^ 149)
    else if 150 ≤ e then ((2 ^ 23 + m) * 2 ^ (e - 150) : Nat)
    else mkRat (2 ^ 23 + m) (2 ^ (150 - e))
  if e = 255 ∧ m ≠ 0 then .notANumber else .number (if w.msb then -magnitude else magnitude)

/-- The binary32 word of a rational of magnitude at most 1 that has one (program P6 only); of any other, some word. -/
def toBinary32 (v : Rat) : BitVec 32 :=
  let top := v.num.natAbs.log2
  let scale := v.den.log2
  let fields : Nat :=
    if v.num = 0 then 0
    else if scale ≤ top + 126 then (127 + top - scale) * 2 ^ 23 + (v.num.natAbs * 2 ^ (23 - top) - 2 ^ 23)
    else v.num.natAbs * 2 ^ (149 - scale)
  BitVec.ofNat 32 (if v.num < 0 then 2 ^ 31 + fields else fields)

/-- The declared length of a message (R200), at least one byte (DEDUCED, log 25: a field of two values fits in no less); program
P6 has four bytes for a setpoint and one for the others. -/
def messageBytes (p : Params) (role : CommandRole) : Nat :=
  match p.layout with
  | .deployment => max 1 (Config.messageBytes role)
  | .vectorP6 =>
    match role with
    | .servo _ => 4
    | .pump | .readiness => 1

/-- The codec has the message's type: always where it is compiled in, else where the definition store resolves it (R201). -/
def schemaResolves (p : Params) (role : CommandRole) : Bool :=
  match p.strategy with
  | .compiled => true
  | .interpreted =>
    match p.layout with
    | .deployment => Config.schemaResolves role
    | .vectorP6 => true

/-- The bytes of the declared length, which are all that `decode` reads; `none` is `error`, for a truncated payload or a type that
does not resolve, and for nothing else (R200). -/
def messageBody (p : Params) (role : CommandRole) (payload : List Byte) : Option (List Byte) :=
  if schemaResolves p role && decide (messageBytes p role ≤ payload.length) then some (payload.take (messageBytes p role))
  else none

/-- Bytes of a given length: those given, cut off or filled with zeros. -/
def fitBytes (n : Nat) (bytes : List Byte) : List Byte := (bytes ++ List.replicate n 0).take n

/-- Every byte string of a given length. -/
def allBytes : Nat → List (List Byte)
  | 0 => [[]]
  | n + 1 => (allBytes n).flatMap fun rest => (List.range 256).map fun b => BitVec.ofNat 8 b :: rest

/-- The bytes, `n` of them, in which a field of `k` values writes the value `v`: the deployment's, where they differ from value
to value, as R201's round trip asks of them; else the value in the first byte. -/
def fieldCode (n k : Nat) (free : Nat → List Byte) (v : Nat) : List Byte :=
  if ((List.range k).map fun u => fitBytes n (free u)).Nodup then fitBytes n (free v)
  else fitBytes n [BitVec.ofNat 8 v]

/-- The value that bytes hold: the one that is written so, and the deployment's reading of any other bytes. -/
def fieldValue (k : Nat) (code : Nat → List Byte) (free : List Byte → Nat) (bytes : List Byte) : Nat :=
  ((List.range k).find? fun v => code v == bytes).getD (free bytes)

/-- The bytes in which a setpoint is written, where the deployment's encoder answers them. -/
def writeServo (p : Params) (i : Fin 4) (v : Rat) : List Byte :=
  match p.layout with
  | .deployment => Config.writeServo i v
  | .vectorP6 =>
    let w := toBinary32 v
    [w.extractLsb' 0 8, w.extractLsb' 8 8, w.extractLsb' 16 8, w.extractLsb' 24 8]

/-- The bytes in which a pump state is written. -/
def writePump (p : Params) (v : Bool) : List Byte :=
  match p.layout with
  | .deployment => fieldCode (messageBytes p .pump) 2 (fun u => Config.writePump (u == 1)) v.toNat
  | .vectorP6 => [if v then 1 else 0]

/-- The bytes in which a readiness level of 0 to 3 is written. -/
def writeReadiness (p : Params) (v : Nat) : List Byte :=
  match p.layout with
  | .deployment => fieldCode (messageBytes p .readiness) 4 Config.writeReadiness v
  | .vectorP6 => [BitVec.ofNat 8 v]

/-- The setpoint in the bytes of a servo message, the same under both strategies (R201); little-endian binary32 in program P6. -/
def readServo (p : Params) (i : Fin 4) (bytes : List Byte) : ServoReading :=
  match p.layout with
  | .deployment => Config.readServo i bytes
  | .vectorP6 => binary32 (bytes.getD 3 0 ++ bytes.getD 2 0 ++ bytes.getD 1 0 ++ bytes.getD 0 0)

/-- The pump state in the bytes of a pump message, the same under both strategies (R201); bit 0 of byte 0 in program P6. -/
def readPump (p : Params) (bytes : List Byte) : Bool :=
  match p.layout with
  | .deployment => fieldValue 2 (fun u => writePump p (u == 1)) (fun b => (Config.readPump b).toNat) bytes == 1
  | .vectorP6 => (bytes.getD 0 0).getLsbD 0

/-- The level in the bytes of a readiness message, the same under both strategies (R201); byte 0 in program P6. -/
def readReadiness (p : Params) (bytes : List Byte) : Nat :=
  match p.layout with
  | .deployment => fieldValue 4 (writeReadiness p) Config.readReadiness bytes
  | .vectorP6 => (bytes.getD 0 0).toNat

/-- `decode` of a servo setpoint message (R200). -/
def decodeServo (p : Params) (i : Fin 4) (payload : List Byte) : Option ServoReading :=
  (messageBody p (.servo i) payload).map (readServo p i)

/-- `decode` of a pump message (R200). -/
def decodePump (p : Params) (payload : List Byte) : Option Bool := (messageBody p .pump payload).map (readPump p)

/-- `decode` of a readiness message (R200). -/
def decodeReadiness (p : Params) (payload : List Byte) : Option Nat :=
  (messageBody p .readiness payload).map (readReadiness p)

/-- The outcome of `encode`: the bytes of the message, or `error` for a type that does not resolve (R200, R201). -/
def encoded (p : Params) (role : CommandRole) (bytes : List Byte) : Option (List Byte) :=
  if schemaResolves p role then some bytes else none

/-- `min(1, max(-1, v))` (R204). -/
def clampSetpoint (v : Rat) : Rat := min 1 (max (-1) v)

/-- The message of a setpoint: bytes that hold it, the deployment's if they do, where the field can hold it (R201). What a setpoint
between those that the field can hold is rounded to, the spec does not say: the deployment's bytes (DESIGN CHOICE, log 25). -/
def servoMessage (p : Params) (i : Fin 4) (v : Rat) : List Byte :=
  let n := messageBytes p (.servo i)
  let written := fitBytes n (writeServo p i v)
  ((written :: allBytes n).find? fun bytes => decide (readServo p i bytes = .number v)).getD written

/-- `encode` of a servo setpoint, an out-of-range one clamped (R200). -/
def encodeServo (p : Params) (i : Fin 4) (v : Rat) : Option (List Byte) :=
  encoded p (.servo i) (servoMessage p i (clampSetpoint v))

/-- `encode` of a pump state (R200). -/
def encodePump (p : Params) (v : Bool) : Option (List Byte) := encoded p .pump (writePump p v)

/-- `encode` of a readiness level, an out-of-range one masked (R200). -/
def encodeReadiness (p : Params) (v : Nat) : Option (List Byte) := encoded p .readiness (writeReadiness p (v &&& 3))

/-! ## The command state -/

/-- Write a servo setpoint and stamp the update time (R204). -/
def acceptServo (i : Fin 4) (v : Rat) (ts : Time) (s : State) : State :=
  { s with sup := { s.sup with servo := s.sup.servo.set i (clampSetpoint v), lastUpdate := ts, accepted := true } }

/-- A delivered message is decoded into its field (R204). On a decode error the fields and the update time stay and the
codec reports it: `CodecError`, that is one `NOTE_DECODE_ERROR` (R232). -/
def acceptCommand (role : CommandRole) (payload : List Byte) (ts : Time) (s : State) : State :=
  match role with
  | .servo i =>
    match decodeServo s.params i payload with
    | none => raiseError .codecError s
    | some (.number v) => acceptServo i v ts s
    | some .notANumber => acceptServo i (Config.freeSetpoint s.freeCount) ts { s with freeCount := s.freeCount + 1 }
  | .pump =>
    match decodePump s.params payload with
    | none => raiseError .codecError s
    | some v => { s with sup := { s.sup with pump := v, lastUpdate := ts, accepted := true } }
  | .readiness =>
    match decodeReadiness s.params payload with
    | none => raiseError .codecError s
    | some v => { s with sup := { s.sup with readiness := BitVec.ofNat 2 v, lastUpdate := ts, accepted := true } }

/-! ## The supervisor -/

/-- `(now - last_update) > STALE_TICKS`; stale while no message has been accepted (R205, R209). -/
def commandStale (s : State) : Bool :=
  !s.sup.accepted || moreThan s.now s.sup.lastUpdate s.params.staleTicks

/-- The mode after a control cycle, and the counted transition into SAFE_TIMEOUT (R205, R207). -/
def superviseMode (s : State) : State :=
  if commandStale s then
    raiseError .commandStale
      { s with sup := { s.sup with
          mode := .safeTimeout
          timeouts := match s.sup.mode with
            | .engagedLive => satInc s.sup.timeouts
            | .safeTimeout => s.sup.timeouts } }
  else { s with sup := { s.sup with mode := .engagedLive } }

/-- The one call of the actuator sink: the safe tuple in SAFE_TIMEOUT or below the engaged level, else the command state
(R205, R206, R208, R211). -/
def presentOutput (s : State) : State :=
  if s.sup.mode = .safeTimeout ∨ s.sup.readiness < s.params.engagedLevel then emit (.sink #v[0, 0, 0, 0] false 0) s
  else emit (.sink s.sup.servo s.sup.pump s.sup.readiness) s

/-- `APPLY`: the event on P9 and the supervisor's control-cycle step (R183, R205). -/
def applyCommand (s : State) : State := presentOutput (superviseMode (emit .apply s))

end Sys2Proof.Machine
end

