-- ==== Sys2Proof/Machine/Handlers.lean ====
section
/-! DEFINITION. The handler call on port P5 (R142, R187): what a handler does, and the release of the buffer after it
returns (R143). -/

namespace Sys2Proof.Machine

/-- One operation called by a handler: `ENQUEUE`, `NOTE_DECODE_ERROR` and the accessors; anything else is refused (R262). -/
def handlerCall (i : Instr) (s : State) : Result :=
  match i with
  | .enqueue subject transferId priority deadline payload => enqueueCall subject transferId priority deadline payload s
  | .noteDecodeError => .next (countDecodeError s)
  | .readDropped => .next (readCounter s.dropped s)
  | .readDecodeErrors => .next (readCounter s.decodeErr s)
  | .readTimeouts => .next (readCounter s.sup.timeouts s)
  | .init | .subscribe .. | .start | .rxIrq | .onFrameReceived | .wakeSignal | .rxPop | .processPending | .processFrame
  | .deliver | .drain | .txPush | .wait | .taskCycle | .apply | .tick _ | .bus .. | .mbox _ | .canidMessage ..
  | .canidService .. | .canidSubjectMatch .. | .tailSingle .. | .tailFirst .. | .tailMiddle .. | .tailLast .. =>
    .refused .handlerMayNotCall

/-- One move of a handler on a delivery: it decodes the payload into a command field (R204), calls an operation (R262), or
never returns (R187, U11). -/
def handlerMove (d : Delivery) (m : HandlerMove) (s : State) : Result :=
  match m with
  | .decode role => .next (acceptCommand role d.payload d.ts s)
  | .call i => handlerCall i s
  | .hang => .fault .handlerNeverReturns

/-- The moves of a handler, in order; then it returns. -/
def handlerRun (d : Delivery) : List HandlerMove → State → Result
  | [], s => .next s
  | m :: rest, s => andThen (handlerMove d m s) (handlerRun d rest)

/-- The moves a script makes on a delivery: the same each time, or a free choice (log 27). -/
def scriptMoves (sc : HandlerScript) (n : Nat) (d : Delivery) : List HandlerMove :=
  match sc with
  | .fixed moves => moves
  | .chosen which => Config.handlerMoves which n d.tag d.subject d.payload d.ts

/-- A choice of moves uses one free value. -/
def takeScript (sc : HandlerScript) (s : State) : State :=
  match sc with
  | .fixed _ => s
  | .chosen _ => { s with freeCount := s.freeCount + 1 }

/-- The handler attached to a tag, if any. -/
def handlerOf (p : Params) (tag : Byte) : Option Handler := p.handlers.find? fun h => h.tag == tag

/-- The handler's run on a delivery (R142, R187). A tag with no handler does nothing. -/
def runHandler (d : Delivery) (s : State) : Result :=
  match handlerOf s.params d.tag with
  | none => .next s
  | some h => handlerRun d (scriptMoves h.script s.freeCount d) (takeScript h.script s)

/-- Release the buffer of a delivery once the handler has returned (R143, R135). -/
def releaseDelivery (d : Delivery) (s : State) : State :=
  match d.holder with
  | some key => { abandon key s with delivering := none }
  | none => { poolFreeOne s with delivering := none }

/-- Step 10 of `PROCESS_FRAME`: `emit DELIVER`, the synchronous handler call, the release (R142, R143). -/
def deliverTransfer (d : Delivery) (s : State) : Result :=
  andThen (runHandler d (emit (.deliver d.tag d.subject d.payload d.payload.length d.ts) s))
    fun s1 => .next (releaseDelivery d s1)

/-- The due delivery of the state, if there is one. -/
def deliverDue (s : State) : Result :=
  match s.delivering with
  | none => .next s
  | some d => deliverTransfer d s

end Sys2Proof.Machine
end

