-- ==== Sys2Proof/Machine/Reassembly.lean ====
section
/-! DEFINITION. U2, the transfer reassembly engine (spec/41_reassembly.md): PROCESS_PENDING, PROCESS_FRAME, DELIVER,
NOTE_DECODE_ERROR, READ_DECODE_ERRORS. -/

namespace Sys2Proof.Machine

/-- How a step of R132 ends: the operation returns, or goes on to the next step. -/
inductive Gate where
  | done (s : State)
  | more (s : State)
  deriving DecidableEq, Repr

/-- Step 4, ageing the transfer in progress (R136). -/
def ageTransfer (key : Nat) (timeout : Time) (f : Frame) (s : State) : State :=
  match (s.session key).cur with
  | none => s
  | some r =>
    if moreThan f.ts r.tsFirst timeout.toNat then raiseError (.incompleteSequence .timedOut) (abandon key s) else s

/-- Step 4, forgetting the last transfer id, with `TID_EXPIRY` = on_timeout (R136, R148). -/
def forgetLast (key : Nat) (timeout : Time) (f : Frame) (s : State) : State :=
  match s.params.tidExpiry, (s.session key).last with
  | .onTimeout, some l =>
    if moreThan f.ts l.ts timeout.toNat then putSession key { s.session key with last := none } s else s
  | .onTimeout, none | .never, _ => s

/-- Step 4, ageing (R136, R148). -/
def ageOut (key : Nat) (timeout : Time) (f : Frame) (s : State) : State :=
  forgetLast key timeout f (ageTransfer key timeout f s)

/-- The bound of R137: the extent, and `CRC_BYTES` more for a frame that is not also the last. -/
def startLimit (p : Params) (extent : Nat) (f : Frame) : Nat := extent + if f.eot then 0 else p.crcBytes

/-- The transfer in progress that a start frame opens (R137). -/
def openReassembly (p : Params) (f : Frame) : Reassembly where
  tid := frameTid p f
  toggle := p.toggleInit
  multi := !f.eot
  buf := []
  tsFirst := f.ts

/-- A start frame ends the transfer in progress (R137). -/
def preempt (key : Nat) (s : State) : State :=
  match (s.session key).cur with
  | none => s
  | some _ => raiseError (.incompleteSequence .preempted) (abandon key s)

/-- Step 5 for a start frame, once no transfer is in progress (R137): check the extent, then take a buffer. -/
def openTransfer (key extent : Nat) (f : Frame) (s : State) : Gate :=
  if startLimit s.params extent f < f.pl.length then .done (raiseError .extentViolation s)
  else
    match poolAlloc s with
    | none => .done (raiseError .poolExhaustedRx s)
    | some s1 => .more (putSession key { s1.session key with cur := some (openReassembly s1.params f) } s1)

/-- Step 5 for a start frame (R137). -/
def startTransfer (key extent : Nat) (f : Frame) (s : State) : Gate := openTransfer key extent f (preempt key s)

/-- Step 5 for a continuation frame (R138). -/
def continueTransfer (key extent : Nat) (f : Frame) (s : State) : Gate :=
  match (s.session key).cur with
  | none => .done (raiseError (.incompleteSequence .orphan) s)
  | some r =>
    if frameTid s.params f ≠ r.tid ∨ f.tog ≠ r.toggle then .done (raiseError (.incompleteSequence .orphan) s)
    else if extent + s.params.crcBytes < r.buf.length + f.pl.length then
      .done (raiseError .extentViolation (abandon key s))
    else .more s

/-- Step 6, accumulate (R139). -/
def accumulate (key : Nat) (f : Frame) (s : State) : State :=
  match (s.session key).cur with
  | none => s
  | some r =>
    putSession key { s.session key with cur := some { r with buf := r.buf ++ f.pl, toggle := !r.toggle } } s

/-- The payload of a completed transfer: a multi-frame one ends with the CRC, which is stripped (R140). -/
def transferPayload (p : Params) (r : Reassembly) : List Byte :=
  if r.multi then r.buf.take (r.buf.length - p.crcBytes) else r.buf

/-- The transfer becomes the due delivery of step 10 (R132). -/
def handOver (d : Delivery) (s : State) : State := { s with delivering := some d }

/-- Step 9, transfer-id sequencing (R141). An accepted transfer becomes the due delivery of step 10. -/
def sequenceTransfer (key : Nat) (sb : Subscription) (r : Reassembly) (s : State) : State :=
  match (s.session key).last.bind fun l => staleness s.params r.tid l.tid with
  | some why => raiseError (.staleTransfer why) (abandon key s)
  | none =>
    handOver { tag := sb.tag, subject := sb.subject, payload := transferPayload s.params r, ts := r.tsFirst, holder := some key }
      (putSession key { s.session key with last := some { tid := r.tid, ts := r.tsFirst } } s)

/-- Steps 7 to 9: completion, CRC, sequencing (R140, R141). -/
def completeTransfer (key : Nat) (sb : Subscription) (f : Frame) (s : State) : State :=
  if !f.eot then s
  else
    match (s.session key).cur with
    | none => s
    | some r =>
      if r.multi && !crcOk s.params r.buf then raiseError (.incompleteSequence .badCrc) (abandon key s)
      else sequenceTransfer key sb r s

/-- Step 3, the anonymous path (R135): its delivery holds a buffer and no session. -/
def anonymousTransfer (sb : Subscription) (f : Frame) (s : State) : State :=
  if sb.extent < f.pl.length then raiseError .extentViolation s
  else
    match poolAlloc s with
    | none => raiseError .poolExhaustedRx s
    | some s1 => handOver { tag := sb.tag, subject := sb.subject, payload := f.pl, ts := f.ts, holder := none } s1

/-- Steps 4 to 9 for a frame with a source (R136 to R141). -/
def sessionTransfer (key : Nat) (sb : Subscription) (f : Frame) (s : State) : State :=
  let s1 := ageOut key sb.timeout f s
  match (if f.sot then startTransfer key sb.extent f s1 else continueTransfer key sb.extent f s1) with
  | .done s2 => s2
  | .more s2 => completeTransfer key sb f (accumulate key f s2)

/-- Steps 1 to 9 of `PROCESS_FRAME` (R132 to R141): the state with the due delivery, if the frame completes an accepted
transfer. -/
def reassemble (f : Frame) (s : State) : State :=
  match matchSub s.sub f.id with
  | none => raiseError .unmatched s
  | some (i, sb) =>
    match malformed s.params f with
    | some v => raiseError (.malformedFrame v) s
    | none =>
      if idAnon f.id then anonymousTransfer sb f s
      else sessionTransfer (sessKey i (idSrcBits f.id)) sb f s

/-- `PROCESS_FRAME` on a frame, one step of TASK (R132): steps 1 to 9, then the delivery. -/
def processFrame (f : Frame) (s : State) : Result := deliverDue (reassemble f s)

/-- At most `n` turns of the loop of `PROCESS_PENDING` (R131). -/
def pendingTurns : Nat → State → Result
  | 0, s => .next s
  | n + 1, s =>
    let s1 := popFrame s
    match s1.popped with
    | none => .next s1
    | some f => andThen (processFrame f { s1 with popped := none }) (pendingTurns n)

/-- The whole loop of `PROCESS_PENDING` (R131): nothing appends to `rxq` meanwhile, so it ends at the empty pop after as
many turns as there are frames. -/
def processQueue (s : State) : Result := pendingTurns (s.rxq.length + 1) s

/-- `PROCESS_PENDING` issued between two cycles (R131). -/
def execProcessPending (s : State) : Result := whenTaskFree s (processQueue s)

/-- `PROCESS_FRAME` issued on its own (R132): its operand is the frame popped by `RX_POP`. -/
def execProcessFrame (s : State) : Result :=
  whenTaskFree s
    (match s.popped with
    | none => .refused .noOperand
    | some f => processFrame f { s with popped := none })

/-- `DELIVER` issued on its own (R142; DESIGN CHOICE, log 11): its operand is the due delivery. `PROCESS_FRAME` runs it to its
end (R132), so no state of a run holds one between two statements. -/
def execDeliver (s : State) : Result :=
  whenReady s
    (match s.delivering with
    | none => .refused .noOperand
    | some d => deliverTransfer d s)

/-- `NOTE_DECODE_ERROR`, task context only (R144, R240, R261). -/
def execNoteDecodeError (s : State) : Result :=
  whenReady s (if s.phase = .idle then .refused .wrongContext else whenTaskCodeRuns s (.next (countDecodeError s)))

/-- `READ_DECODE_ERRORS`, any context (R146). -/
def execReadDecodeErrors (s : State) : Result := whenReady s (.next (readCounter s.decodeErr s))

end Sys2Proof.Machine
end

