-- ==== Sys2Proof/Machine/Startup.lean ====
section
/-! DEFINITION. The start-up operations of agent HOST (spec/43_task_cycle.md, R250 to R252): INIT, SUBSCRIBE, START. -/

namespace Sys2Proof.Machine

/-- The state after `INIT` (R184, R41): `now`, the controller's frames and its mailboxes are not touched; the supervisor takes
its reset state (R209); `wait_start` and `last_update` are unspecified, so free values. -/
def initState (s : State) : State :=
  { s with
    initialised := true
    rxq := []
    dropped := 0
    wake := false
    started := false
    phase := .idle
    midPhase := false
    waitStart := Config.freeWaitStart s.freeCount
    sub := List.replicate s.params.subCap none
    sess := []
    decodeErr := 0
    poolFree := s.params.poolBufs
    txq := []
    popped := none
    delivering := none
    sup := { resetSupervisor with lastUpdate := Config.freeLastUpdate s.freeCount }
    freeCount := s.freeCount + 1 }

/-- `INIT` (R184). Refused while TASK is in the middle of a cycle (R77, U9), and on parameters that break R11 (U8). Before
the first `INIT` nothing of the state may be assumed (R250). -/
def execInit (s : State) : Result :=
  if s.initialised && s.midCycle then .refused .taskBusy
  else if configOk s.params then .next (initState s)
  else .refused .badConfiguration

/-- The body of `SUBSCRIBE` (R130). -/
def addSubscription (sb : Subscription) (s : State) : State :=
  if s.started || subjectTaken s.sub sb.subject then emit (.result .rejected) s
  else
    match firstFree s.sub with
    | none => emit (.result .rejected) s
    | some i => emit (.result .ok) { s with sub := s.sub.set i (some sb) }

/-- The operands of `SUBSCRIBE` are within its contract (R130 corner (b), R11, U7). -/
def subscribeInContract (p : Params) (subject extent : Nat) : Bool :=
  decide (subject ≤ 8191) && decide (extent + p.crcBytes ≤ p.poolBufBytes)

/-- `SUBSCRIBE` (R130), HOST only (R240). -/
def execSubscribe (subject extent : Nat) (timeout : Time) (tag : Byte) (s : State) : Result :=
  whenHostRuns s (
    if subscribeInContract s.params subject extent then
      .next (addSubscription { subject := BitVec.ofNat 13 subject, extent := extent, timeout := timeout, tag := tag } s)
    else .refused .operandOutOfRange)

/-- `START` (R185), HOST only (R240): a second one has no effect. -/
def execStart (s : State) : Result :=
  whenHostRuns s (
    if s.started then .next s
    else .next { s with started := true, phase := .wait, waitStart := s.now })

/-- HOST's boot sequence (R252): `INIT`, one `SUBSCRIBE` for each of the six entries (R31), `START`. Its step 2, the choice of the
codec strategy, is a parameter (log 25). -/
def bootSequence (p : Params) : List Instr :=
  .init :: (deploymentEntries p).map (fun e => .subscribe e.subject.toNat e.extent e.timeout e.tag) ++ [.start]

end Sys2Proof.Machine
end

