-- ==== Sys2Proof/Machine/TaskCycle.lean ====
section
/-! DEFINITION. SEQ, the task cycle (spec/43_task_cycle.md): WAIT, TASK_CYCLE, APPLY, READ_TIMEOUTS, and the single steps of
agent TASK. -/

namespace Sys2Proof.Machine

/-- The effect of `WAIT` when it returns: the test-and-clear of `wake` (R181, R73). -/
def clearWake (s : State) : State := { s with wake := false }

/-- `WAIT` issued on its own: enabled when it can return (R181, U20). -/
def execWait (s : State) : Result :=
  whenTaskFree s (if waitReady s then .next (clearWake s) else .refused .notEnabled)

/-- `phase <- p`: TASK is between two phases, before the first step of the new one (R180). -/
def enterPhase (p : Phase) (s : State) : State := { s with phase := p, midPhase := false }

/-- The end of a cycle: `phase <- WAIT; wait_start <- now` (R180). -/
def endCycle (s : State) : State := { enterPhase .wait s with waitStart := s.now }

/-- WAIT has returned: `phase <- DRAIN_RX` (R180). TASK holds no frame yet. -/
def beginCycle (s : State) : State := { enterPhase .drainRx (clearWake s) with popped := none }

/-- One whole turn of the task loop, with no interrupt inside it (R180). -/
def runCycle (s : State) : Result :=
  andThen (processQueue (beginCycle s)) fun s1 =>
    andThen (drainCall (enterPhase .drainTx s1)) fun s2 =>
      .next (endCycle (applyCommand (enterPhase .apply s2)))

/-- `TASK_CYCLE` (R180): legal only when `WAIT` can return (R102). -/
def execTaskCycle (s : State) : Result :=
  whenTaskFree s (if waitReady s then runCycle s else .refused .notEnabled)

/-- `APPLY` issued on its own between two cycles (R183). -/
def execApply (s : State) : Result := whenTaskFree s (.next (applyCommand s))

/-- `READ_TIMEOUTS`, any context (R186). -/
def execReadTimeouts (s : State) : Result := whenReady s (.next (readCounter s.sup.timeouts s))

/-- Agent TASK's next step in phase DRAIN_RX (R131): the whole `PROCESS_FRAME` of the popped frame, handler call included
(R132), or the next pop; the empty pop ends the phase. No step leaves a handler call due; a state that holds one ends it. -/
def drainRxStep (s : State) : Result :=
  match s.delivering with
  | some d => deliverTransfer d s
  | none =>
    match s.popped with
    | some f => processFrame f { s with popped := none }
    | none =>
      match (popFrame s).popped with
      | some _ => .next { popFrame s with midPhase := true }
      | none => .next (enterPhase .drainTx (popFrame s))

/-- Agent TASK's next step in phase DRAIN_TX (R162). -/
def drainTxStep (s : State) : Result :=
  if passHangs s then .fault .portNeverReturns
  else
    match drainPass s with
    | (true, s1) => .next { s1 with midPhase := true }
    | (false, s1) => .next (enterPhase .apply s1)

/-- The next step of agent TASK (R180, R70): it does nothing before `START`, and stays in `WAIT` while `WAIT` cannot return
(R181). -/
def taskStep (s : State) : Result :=
  whenReady s
    (match s.phase with
    | .idle => .next s
    | .wait => if waitReady s then .next (beginCycle s) else .next s
    | .drainRx => drainRxStep s
    | .drainTx => drainTxStep s
    | .apply => .next (endCycle (applyCommand s)))

end Sys2Proof.Machine
end

