-- ==== Sys2Proof/Machine/Dispatch.lean ====
section
/-! DEFINITION. What each instruction does: one arm per constructor of Instr. -/

namespace Sys2Proof.Machine

def exec (i : Instr) (s : State) : Host.Outcome State Fault Refusal :=
  match i with
  | .init => Sys2Proof.Machine.execInit s
  | .subscribe subject extent timeout tag => Sys2Proof.Machine.execSubscribe subject extent timeout tag s
  | .start => Sys2Proof.Machine.execStart s
  | .rxIrq => Sys2Proof.Machine.execRxIrq s
  | .onFrameReceived => Sys2Proof.Machine.execOnFrameReceived s
  | .wakeSignal => Sys2Proof.Machine.execWakeSignal s
  | .rxPop => Sys2Proof.Machine.execRxPop s
  | .processPending => Sys2Proof.Machine.execProcessPending s
  | .processFrame => Sys2Proof.Machine.execProcessFrame s
  | .deliver => Sys2Proof.Machine.execDeliver s
  | .noteDecodeError => Sys2Proof.Machine.execNoteDecodeError s
  | .enqueue subject transferId priority deadline payload => Sys2Proof.Machine.execEnqueue subject transferId priority deadline payload s
  | .drain => Sys2Proof.Machine.execDrain s
  | .txPush => Sys2Proof.Machine.execTxPush s
  | .wait => Sys2Proof.Machine.execWait s
  | .taskCycle => Sys2Proof.Machine.execTaskCycle s
  | .apply => Sys2Proof.Machine.execApply s
  | .readDropped => Sys2Proof.Machine.execReadDropped s
  | .readDecodeErrors => Sys2Proof.Machine.execReadDecodeErrors s
  | .readTimeouts => Sys2Proof.Machine.execReadTimeouts s
  | .tick n => Sys2Proof.Machine.execTick n s
  | .bus id data => Sys2Proof.Machine.execBus id data s
  | .mbox n => Sys2Proof.Machine.execMbox n s
  | .canidMessage prio anon r23 r21 subject r7 src => Sys2Proof.Machine.execCanidMessage prio anon r23 r21 subject r7 src s
  | .canidService prio rnr r23 service dst src => Sys2Proof.Machine.execCanidService prio rnr r23 service dst src s
  | .canidSubjectMatch prio anon r21 subject src => Sys2Proof.Machine.execCanidSubjectMatch prio anon r21 subject src s
  | .tailSingle tog tid => Sys2Proof.Machine.execTailSingle tog tid s
  | .tailFirst tog tid => Sys2Proof.Machine.execTailFirst tog tid s
  | .tailMiddle tog tid => Sys2Proof.Machine.execTailMiddle tog tid s
  | .tailLast tog tid => Sys2Proof.Machine.execTailLast tog tid s

end Sys2Proof.Machine
end

