-- ==== Sys2Proof/Machine/Fetch.lean ====
section
/-! DEFINITION. Fetching from the schedule: the block runs no program (R251), so "the next instruction" is the statement at
the head of the schedule of agents' moves. -/

namespace Sys2Proof.Machine

/-- The schedule after an instruction was read from a packet: the bytes after it stay, since a program is the concatenation
of its statements (R103). -/
def afterFetch (fmt : Format) (rest : List Byte) (moves : List Move) : List Move :=
  if rest = [] then moves else .issue ⟨fmt, rest⟩ :: moves

/-- The moves to come: the schedule or, when it has run out, the recurring moves once more. -/
def nextMoves (s : State) : List Move := if s.schedule = [] then s.recurring else s.schedule

/-- Put a word of spec/opcode_table.json at the head of the schedule. -/
def placeWord (s : State) (nbits w : Nat) : State :=
  { s with schedule := .issue (tableWordPacket nbits w) :: s.schedule }

end Sys2Proof.Machine
end

