-- ==== Sys2Proof/Machine/Step.lean ====
section
/-! DEFINITION. One step of the machine: the next move of the schedule. -/

namespace Sys2Proof.Machine

/-- One step: an issued packet is decoded and its instruction runs; a `task` move, or no move to come, is a step of agent
TASK (R70, R180). -/
def step (s : State) : Host.Outcome State Fault Refusal :=
  match nextMoves s with
  | [] => taskStep s
  | .task :: rest => taskStep { s with schedule := rest }
  | .issue p :: rest =>
    match decode p with
    | .error e => .refused (.undecodable e)
    | .ok (i, left) => exec i { s with schedule := afterFetch p.fmt left rest }

/-- The state whose very next step reads a word of spec/opcode_table.json and runs it. -/
def State.withFetchWord (s : State) (nbits w : Nat) : State := placeWord s nbits w

end Sys2Proof.Machine
end

