-- ==== Sys2Proof/Machine/Ring.lean ====
section
/-! DEFINITION. The hardware realisation of the frame queue (R26, R71, R72, R96): a slot array with a write and a read
index. It is not part of State, since the abstract sequence is the architectural state (R25, R26); it stands here to be
proved a refinement of it. -/

namespace Sys2Proof.Machine

/-- One slot (R96): the identifier in a 32-bit word, the length, 64 data bytes, the timestamp. -/
structure RingSlot where
  id : BitVec 32
  len : BitVec 7
  data : List Byte
  ts : Time
  deriving DecidableEq, Repr

/-- The ring: the slots, the write index and the read index, each index modulo twice the capacity (R26). -/
structure Ring where
  slots : List RingSlot
  wr : Nat
  rd : Nat
  deriving DecidableEq, Repr

/-- `RXQ_CAP`: the number of slots (R26). -/
def ringCap (r : Ring) : Nat := r.slots.length

/-- `(wr - rd) mod (2 * RXQ_CAP)` (R26). -/
def ringCount (r : Ring) : Nat := (r.wr + 2 * ringCap r - r.rd) % (2 * ringCap r)

/-- A slot that is never read: what an index outside the array would give. -/
def noSlot : RingSlot := { id := 0, len := 0, data := [], ts := 0 }

/-- The slot that an index addresses: the index modulo the capacity (R26). -/
def ringSlotAt (r : Ring) (index : Nat) : RingSlot := r.slots.getD (index % ringCap r) noSlot

/-- `slot_write` into a slot: data bytes beyond `len` keep their old contents (R62). -/
def fillSlot (old : RingSlot) (f : Frame) : RingSlot where
  id := f.id.setWidth 32
  len := BitVec.ofNat 7 f.data.length
  data := f.data ++ old.data.drop f.data.length
  ts := f.ts

/-- `slot_read` from a slot: no byte at an index of `len` or above is returned (R63). -/
def slotFrame (sl : RingSlot) : Frame where
  id := sl.id.setWidth 29
  data := sl.data.take sl.len.toNat
  ts := sl.ts

/-- The frames of the ring, oldest first: the abstraction of R26. -/
def ringFrames (r : Ring) : List Frame :=
  (List.range (ringCount r)).map fun k => slotFrame (ringSlotAt r (r.rd + k))

/-- The ring is full (R26). -/
def ringFull (r : Ring) : Bool := ringCount r == ringCap r

/-- The ring is empty (R26). -/
def ringEmpty (r : Ring) : Bool := r.wr == r.rd

/-- The producer's append: the slot first, then the write index (R71). -/
def ringPush (f : Frame) (r : Ring) : Ring :=
  let filled := r.slots.set (r.wr % ringCap r) (fillSlot (ringSlotAt r r.wr) f)
  { slots := filled, wr := (r.wr + 1) % (2 * filled.length), rd := r.rd }

/-- The consumer's removal: the slot is copied out, then the read index moves (R72). -/
def ringPop (r : Ring) : Option (Frame × Ring) :=
  if ringEmpty r then none
  else some (slotFrame (ringSlotAt r r.rd), { r with rd := (r.rd + 1) % (2 * ringCap r) })

/-- The ring is a state that its operations keep: indices in range, at most `RXQ_CAP` frames, 64 bytes in every slot. -/
def ringWf (r : Ring) : Bool :=
  decide (0 < ringCap r) && decide (r.wr < 2 * ringCap r) && decide (r.rd < 2 * ringCap r)
    && decide (ringCount r ≤ ringCap r) && r.slots.all fun sl => sl.data.length == 64

/-- The ring at reset: `wr = rd = 0`, whatever the slots hold (R26, R41). -/
def ringReset (slots : List RingSlot) : Ring := { slots := slots, wr := 0, rd := 0 }

end Sys2Proof.Machine
end

