-- ==== Sys2Proof/Safety.lean ====
section
/-! DEFINITION. What holds of the machine between operations (R40), and what an environment keeps (R253, R262). -/

namespace Sys2Proof.Machine

/-- (I-1) and the frames' lengths: at most `RXQ_CAP` frames, none longer than the MTU (R40, R24). -/
def rxqBounded (s : State) : Prop := s.rxq.length ≤ s.params.rxqCap ∧ ∀ f ∈ s.rxq, f.data.length ≤ 64

/-- (I-2): timestamps never decrease from oldest to newest, and none is later than `now` (R40, R117). -/
def rxqOrdered (s : State) : Prop := s.rxq.Pairwise (fun a b => a.ts ≤ b.ts) ∧ ∀ f ∈ s.rxq, f.ts ≤ s.now

/-- (I-3): at most `TXQ_CAP` items, in priority order (R40, R35). -/
def txqOrdered (s : State) : Prop :=
  s.txq.length ≤ s.params.txqCap ∧ s.txq.Pairwise (fun a b => a.prio ≤ b.prio)

/-- The sessions with `active` = 1 (R34). -/
def activeCount (t : SessTable) : Nat := t.countP fun e => e.2.cur.isSome

/-- T of R66: 1 during an anonymous delivery. -/
def anonymousInProgress (s : State) : Nat :=
  match s.delivering with
  | some d => if d.holder = none then 1 else 0
  | none => 0

/-- (I-4): the pool equation, over a session table in canonical form (R34, R40, R66). -/
def poolBalanced (s : State) : Prop :=
  sessWf s.sess = true ∧ s.poolFree + activeCount s.sess + s.txq.length + anonymousInProgress s = s.params.poolBufs

/-- (I-5): the bytes of a transfer in progress are within the extent of its subscription, plus the CRC of a multi-frame one
(R40); a single-frame transfer stays in progress only while its own delivery is due. -/
def buffersBounded (s : State) : Prop :=
  sessWf s.sess = true ∧ ∀ key r, (s.session key).cur = some r →
    (∃ sb, s.sub[key / 128]? = some (some sb)
      ∧ r.buf.length ≤ sb.extent + if r.multi then s.params.crcBytes else 0)
    ∧ (r.multi = false → ∃ d, s.delivering = some d ∧ d.holder = some key)

/-- The start-up flag and the control position agree (R22, R29, R185), a delivery is due only in DRAIN_RX, and TASK is inside
an operation only in the two phases that have loops (R131, R162). -/
def controlConsistent (s : State) : Prop :=
  (s.started = true ↔ s.phase ≠ .idle) ∧ (s.delivering ≠ none → s.phase = .drainRx)
    ∧ (s.midPhase = true → s.phase = .drainRx ∨ s.phase = .drainTx)

/-- The valid subscriptions, in index order. -/
def validSubs (sub : List (Option Subscription)) : List Subscription := sub.filterMap id

/-- The table has `SUB_CAP` entries, and valid entries have pairwise distinct subjects (R30). -/
def tableDistinct (s : State) : Prop :=
  s.sub.length = s.params.subCap ∧ ((validSubs s.sub).map (·.subject)).Nodup

/-- The table holds the six entries of this deployment and nothing else (R31). -/
def holdsDeployment (s : State) : Prop :=
  s.sub = (deploymentEntries s.params).map some ++ List.replicate (s.params.subCap - 6) none

/-- The servo setpoints are within [-1, 1] (R203, R204). -/
def setpointsClamped (s : State) : Prop := ∀ v ∈ s.sup.servo.toList, -1 ≤ v ∧ v ≤ 1

/-- A call a handler may make, with operands within the contract (R262, R161). -/
def callInContract : Instr → Bool
  | .enqueue subject _ priority _ payload => enqueueInContract subject priority payload
  | .noteDecodeError | .readDropped | .readDecodeErrors | .readTimeouts => true
  | .init | .subscribe .. | .start | .rxIrq | .onFrameReceived | .wakeSignal | .rxPop | .processPending | .processFrame
  | .deliver | .drain | .txPush | .wait | .taskCycle | .apply | .tick _ | .bus .. | .mbox _ | .canidMessage ..
  | .canidService .. | .canidSubjectMatch .. | .tailSingle .. | .tailFirst .. | .tailMiddle .. | .tailLast .. => false

/-- A move that a handler may make: it decodes, or makes a call within its contract, and never hangs (R262, R253 (e)). -/
def moveInContract : HandlerMove → Bool
  | .decode _ => true
  | .call i => callInContract i
  | .hang => false

/-- The handlers return and keep rule R262 (R253 (e)), whatever they choose and whatever they are passed. -/
def handlersKeepContract (p : Params) : Prop :=
  ∀ h ∈ p.handlers, ∀ n d, ∀ m ∈ scriptMoves h.script n d, moveInContract m = true

/-- The events of R14: handler calls, frames with their answers, `APPLY`, the results of `enqueue` and `subscribe`, and the values
of the three counters. The sink's call is the supervisor's (R206); the rest of the trace is internal. -/
def observableEvent : Event → Bool
  | .deliver .. | .tx .. | .apply | .result .ok | .result .rejected | .result (.counter _) => true
  | .sink .. | .result (.popped _) | .result (.identifier _) | .result (.tail _) | .result (.matched _) | .raised _ => false

/-- The observable behaviour: the events of R14, in order. -/
def observable (log : List Event) : List Event := log.filter observableEvent

/-- Two states agree on everything but the order and content of the trace. -/
def agreeButLog (s t : State) : Prop := { s with log := [] } = { t with log := [] }

/-- A delivery. -/
def deliverEvent : Event → Bool
  | .deliver .. => true
  | .tx .. | .apply | .sink .. | .result _ | .raised _ => false

/-- An event but for the value that an accessor answered. -/
def maskCounter : Event → Event
  | .result (.counter _) => .result (.counter 0)
  | e => e

/-- Two states after the same two pieces of work done in either order, from a trace `log`: they agree but for the trace, to which
one piece added drops and the other its own events, these alike but for the values of counters; so is what can be observed. -/
def agreeButOrder (log : List Event) (c d : State) : Prop :=
  agreeButLog c d ∧ ∃ n ev ev', c.log = log ++ List.replicate n (.raised .rxOverflow) ++ ev
    ∧ d.log = log ++ ev' ++ List.replicate n (.raised .rxOverflow)
    ∧ ev.map maskCounter = ev'.map maskCounter ∧ ev.filter deliverEvent = ev'.filter deliverEvent
    ∧ (observable c.log).map maskCounter = (observable d.log).map maskCounter

/-! ## The words that statements use -/

/-- The calls that the block makes on agent BUS return (R190, R253 (b)). -/
def portsReturn (p : Params) : Prop := p.rxPortReturns = true ∧ p.txPortReturns = true

/-- TASK is between two cycles and no handler runs, so a whole TASK statement may be issued (R22, R102, R240). -/
def taskFree (s : State) : Prop := s.initialised = true ∧ s.delivering = none ∧ s.phase = .wait

/-- The receive interrupt is enabled (R119, R234). -/
def interruptEnabled (s : State) : Prop := s.initialised = true ∧ s.started = true

/-- Frames presented to `ON_FRAME_RECEIVED` one after another, with no `RX_POP` in between (R115). -/
def presentFrames : List BusFrame → State → Result
  | [], s => .next s
  | r :: rest, s => andThen (storeFrame r s) (presentFrames rest)

/-- `n` steps of the machine, stopping at the first fault or refusal. -/
def runSteps : Nat → State → Result
  | 0, s => .next s
  | n + 1, s => andThen (step s) (runSteps n)

/-- Instructions issued one after another, stopping at the first fault or refusal. -/
def runInstrs : List Instr → State → Result
  | [], s => .next s
  | i :: rest, s => andThen (exec i s) (runInstrs rest)

/-- What the agents beside TASK may do in the middle of a cycle without bringing a frame: time passes, mailboxes come free, the
interrupt is taken, accessors are read, a publisher enqueues (R8, R240). -/
def bringsNoFrame : Instr → Bool
  | .tick _ | .mbox _ | .rxIrq | .wakeSignal | .noteDecodeError | .enqueue .. | .readDropped | .readDecodeErrors
  | .readTimeouts | .start => true
  | .init | .subscribe .. | .onFrameReceived | .rxPop | .processPending | .processFrame | .deliver | .drain | .txPush | .wait
  | .taskCycle | .apply | .bus .. | .canidMessage .. | .canidService .. | .canidSubjectMatch .. | .tailSingle ..
  | .tailFirst .. | .tailMiddle .. | .tailLast .. => false

/-- A frame arrives in the controller (R102). -/
def bringsFrame : Instr → Bool
  | .bus .. => true
  | .init | .subscribe .. | .start | .rxIrq | .onFrameReceived | .wakeSignal | .rxPop | .processPending | .processFrame
  | .deliver | .noteDecodeError | .enqueue .. | .drain | .txPush | .wait | .taskCycle | .apply | .readDropped
  | .readDecodeErrors | .readTimeouts | .tick _ | .mbox _ | .canidMessage .. | .canidService .. | .canidSubjectMatch ..
  | .tailSingle .. | .tailFirst .. | .tailMiddle .. | .tailLast .. => false

/-- A turn of TASK, or one statement of another agent, of a kind allowed. -/
def moveAllowed (allowed : Instr → Bool) : Move → Bool
  | .task => true
  | .issue p =>
    match decode p with
    | .ok (i, []) => allowed i
    | .ok (_, _ :: _) => false
    | .error _ => false

/-- One session is written and every other reads as before. -/
def updatesSession (before after : SessTable) (key : Nat) (v : Session) : Prop :=
  sessWf after = true ∧ sessGet after key = v ∧ ∀ k, k ≠ key → sessGet after k = sessGet before k

/-- The buffer of a delivery is held, by its holder's transfer in progress or, with no holder, by the delivery alone (R135, R143). -/
def bufferHeld (s : State) (d : Delivery) : Prop :=
  d.holder = none ∨ ∃ key r, d.holder = some key ∧ (s.session key).cur = some r

/-- The table `after` once the handler has returned: the session that holds the delivery's buffer has ended, and no other differs
(R143). -/
def holderEnds (s : State) (d : Delivery) (after : SessTable) : Prop :=
  (d.holder = none → after = s.sess)
    ∧ ∀ key, d.holder = some key → updatesSession s.sess after key { last := (s.session key).last, cur := none }

/-- The popped frame `f` reaches the session `key` of the subscription `sb` at index `i`: it matches, is well formed and has a
source (R132 steps 1 to 4). -/
def reachesSession (s : State) (f : Frame) (sb : Subscription) (key : Nat) : Prop :=
  taskFree s ∧ sessWf s.sess = true ∧ s.popped = some f ∧ malformed s.params f = none ∧ idAnon f.id = false
    ∧ ∃ i, matchSub s.sub f.id = some (i, sb) ∧ key = sessKey i (idSrcBits f.id)

/-- Ageing has nothing to do for `f` (R136, R148): the transfer in progress is not older than the timeout, and the last
accepted transfer id is not forgotten. -/
def nothingToAge (s : State) (f : Frame) (sb : Subscription) (key : Nat) : Prop :=
  (∀ r, (s.session key).cur = some r → f.ts.toNat ≤ r.tsFirst.toNat + sb.timeout.toNat)
    ∧ ∀ l, (s.session key).last = some l → s.params.tidExpiry = .never ∨ f.ts.toNat ≤ l.ts.toNat + sb.timeout.toNat

/-- The transfer id of a reconstructed transfer is new to the session: the first one, or 1 to `TID_MOD / 2 - 1` ahead (R141,
R145). -/
def newToSession (p : Params) (last : Option LastAccepted) (tid : Nat) : Prop :=
  ∀ l, last = some l → staleness p tid l.tid = none

/-- `decode_err` after an extent violation (R139). -/
def afterExtentViolation (s : State) : Count := if s.params.countExtentViolation then satInc s.decodeErr else s.decodeErr

/-- An event of the phase DRAIN_RX: no transmission, no `APPLY`, no call of the actuator sink. -/
def dispatchEvent : Event → Bool
  | .deliver .. | .result _ | .raised _ => true
  | .tx .. | .apply | .sink .. => false

/-- An event of `DRAIN`. -/
def drainEvent : Event → Bool
  | .tx .. | .raised .txExpired | .raised .mailboxFull => true
  | .deliver .. | .apply | .sink .. | .result _ | .raised _ => false

/-- A row of the opcode table that is a wire layout read by `parse` alone (R81 to R83, R86 to R88). -/
def rowIsParse : Instr → Bool
  | .canidMessage .. | .canidService .. | .tailSingle .. | .tailFirst .. | .tailMiddle .. | .tailLast .. => true
  | .init | .subscribe .. | .start | .rxIrq | .onFrameReceived | .wakeSignal | .rxPop | .processPending | .processFrame
  | .deliver | .noteDecodeError | .enqueue .. | .drain | .txPush | .wait | .taskCycle | .apply | .readDropped
  | .readDecodeErrors | .readTimeouts | .tick _ | .bus .. | .mbox _ | .canidSubjectMatch .. => false

/-- The operations that a handler must not call (R262). -/
def forbiddenToHandlers : Instr → Bool
  | .processPending | .rxPop | .drain | .taskCycle | .wait | .init | .subscribe .. | .start => true
  | .rxIrq | .onFrameReceived | .wakeSignal | .processFrame | .deliver | .noteDecodeError | .enqueue .. | .txPush | .apply
  | .readDropped | .readDecodeErrors | .readTimeouts | .tick _ | .bus .. | .mbox _ | .canidMessage .. | .canidService ..
  | .canidSubjectMatch .. | .tailSingle .. | .tailFirst .. | .tailMiddle .. | .tailLast .. => false

/-- The safe tuple presented to the actuator sink (R208). -/
def safeOutput : Event := .sink #v[0, 0, 0, 0] false 0

/-- `next_rx()`'s frames are within the contract of P1 (R9, R253 (b)). -/
def controllerInContract (s : State) : Prop := ∀ r ∈ s.ctrlRx, r.data.length ≤ 64

end Sys2Proof.Machine
end

