-- ==== Sys2Proof/Certificates/Slice0/Obligations.lean ====
section
/-! DEFINITION. The statements for the provers, in the order of spec/: encodings, start-up, ingestion, reassembly, outbound
queue, task cycle, the step, and the invariants. -/

open Sys2Proof Sys2Proof.Machine

/-! ## Encodings (spec/30_encoding.md) -/

/-- Decoding an encoded well-formed instruction gives it back and leaves the bytes after it (R81 to R87, R100 to R103). -/
def Obligations.DecodeOfEncode : Prop :=
  ∀ (i : Instr) (rest : List Byte), i.wellFormed = true →
    decode ⟨(encode i).fmt, (encode i).bytes ++ rest⟩ = .ok (i, rest)

/-- Whatever decodes is well formed, and its encoding is the bytes it was read from (R81 to R87, R100 to R103). -/
def Obligations.EncodeOfDecode : Prop :=
  ∀ (p : Packet) (i : Instr) (rest : List Byte), decode p = .ok (i, rest) →
    i.wellFormed = true ∧ (encode i).fmt = p.fmt ∧ (encode i).bytes ++ rest = p.bytes

/-- Words written out from the spec's encodings decode to the instructions they stand for (R81, R84, R86, R100, R103). -/
def Obligations.SampleWordsDecode : Prop :=
  decode ⟨.statement, [0x61, 0x10, 0x60, 0x64, 0x2A, 0x05, 0x00, 0x00, 0x00, 0x3F, 0xE5]⟩
      = .ok (.bus 0x1060642A [0x00, 0x00, 0x00, 0x3F, 0xE5], [])
    ∧ decode ⟨.statement, [0x01, 0x00, 0x64, 0x00, 0x04, 0x00, 0x1E, 0x84, 0x80, 0x01]⟩ = .ok (.subscribe 100 4 2000000 1, [])
    ∧ decode ⟨.statement, [0x60, 0x00, 0x00, 0x00, 0xFA]⟩ = .ok (.tick 250, [])
    ∧ decode ⟨.statement, [0x41]⟩ = .ok (.taskCycle, [])
    ∧ decode ⟨.identifier, [0x10, 0x60, 0x64, 0x2A]⟩ = .ok (.canidMessage 4 false false 3 100 false 42, [])
    ∧ decode ⟨.subjectMatch, [0x10, 0x60, 0x64, 0x2A]⟩ = .ok (.canidSubjectMatch 4 false 3 100 42, [])
    ∧ decode ⟨.tail, [0xE5]⟩ = .ok (.tailSingle true 5, [])

/-- A code that is none of rule R100's and none of the trace language's is reported as invalid (R100, U20). -/
def Obligations.OtherCodesAreInvalid : Prop :=
  ∀ (code : Byte) (rest : List Byte),
    code ∉ ([0x00, 0x01, 0x02, 0x10, 0x11, 0x12, 0x13, 0x20, 0x21, 0x22, 0x23, 0x30, 0x31, 0x32, 0x40, 0x41, 0x42, 0x50,
      0x51, 0x52, 0x60, 0x61, 0x62] : List Byte) →
    decode ⟨.statement, code :: rest⟩ = .error (.unknownCode code)

/-- The subscription match pattern (R84): the masked comparison, what it says field by field, the bits of the mask, and the
rule's example. -/
def Obligations.SubjectMatchPattern : Prop :=
  idMatches 0x1060642A 100 = true ∧ ∀ (id : CanId) (subject : Subject),
    (idMatches id subject = true ↔ id.toNat &&& 0x029FFF80 = subject.toNat <<< 8)
    ∧ (idMatches id subject = true ↔
        id.getLsbD 25 = false ∧ id.getLsbD 23 = false ∧ id.getLsbD 7 = false ∧ id.extractLsb' 8 13 = subject)
    ∧ ∀ k, matchMask.getLsbD k = true ↔ k = 25 ∨ k = 23 ∨ (8 ≤ k ∧ k ≤ 20) ∨ k = 7

/-- Reading a wire layout completes, changes nothing but the trace, and answers the fields of rules R81 to R83 and R86 to R88:
the formulas of R83 whatever the layout (in a service frame `subject` is bits 20:8, and `anon` is bit 24, so a request has no
`src`), and the fields that R82 gives a service frame. That these rows can be issued is the model's choice (log 16). -/
def Obligations.WireLayoutsParse : Prop :=
  (∀ (prio : Priority) (anon r23 : Bool) (r21 : BitVec 2) (subject : Subject) (r7 : Bool) (src : SourceId) (s : State),
    exec (.canidMessage prio anon r23 r21 subject r7 src) s = .next { s with
      log := s.log ++ [.result (.identifier
        { prio := prio, svc := false, anon := anon, subject := subject, src := if anon then none else some src, kind := .message, service := none })] })
  ∧ (∀ (prio : Priority) (rnr r23 : Bool) (service : BitVec 9) (dst src : SourceId) (s : State),
    exec (.canidService prio rnr r23 service dst src) s = .next { s with
      log := s.log ++ [.result (.identifier
        { prio := prio, svc := true, anon := rnr, subject := service.extractLsb' 0 7 ++ dst.extractLsb' 1 6, src := if rnr then none else some src, kind := if rnr then .request else .response, service := some { service := service, dst := dst, src := src } })] })
  ∧ ∀ (tog : Bool) (tid : BitVec 5) (s : State),
    exec (.tailSingle tog tid) s
        = .next { s with log := s.log ++ [.result (.tail { cls := .single, tog := tog, tid := tid })] }
      ∧ exec (.tailFirst tog tid) s
        = .next { s with log := s.log ++ [.result (.tail { cls := .first, tog := tog, tid := tid })] }
      ∧ exec (.tailMiddle tog tid) s
        = .next { s with log := s.log ++ [.result (.tail { cls := .middle, tog := tog, tid := tid })] }
      ∧ exec (.tailLast tog tid) s
        = .next { s with log := s.log ++ [.result (.tail { cls := .last, tog := tog, tid := tid })] }

/-- An identifier of the match pattern answers the lowest valid index with its subject, or `Unmatched` (R84, R133). -/
def Obligations.SubjectMatchAnswer : Prop :=
  ∀ (prio : Priority) (anon : Bool) (r21 : BitVec 2) (subject : Subject) (src : SourceId) (s : State),
    s.initialised = true →
    (∀ (i : Nat) (sb : Subscription), s.sub[i]? = some (some sb) → sb.subject = subject →
      (∀ (j : Nat) (sb' : Subscription), j < i → s.sub[j]? = some (some sb') → sb'.subject ≠ subject) →
      exec (.canidSubjectMatch prio anon r21 subject src) s
        = .next { s with log := s.log ++ [.result (.matched (some i))] })
    ∧ ((∀ (i : Nat) (sb : Subscription), s.sub[i]? = some (some sb) → sb.subject ≠ subject) →
      exec (.canidSubjectMatch prio anon r21 subject src) s
        = .next { s with log := s.log ++ [.raised .unmatched, .result (.matched none)] })

/-- The transfer CRC (R93): its check value, that appending it high byte first gives 0, and the default `crc_ok`. -/
def Obligations.TransferCrc : Prop :=
  crc16 [0x31, 0x32, 0x33, 0x34, 0x35, 0x36, 0x37, 0x38, 0x39] = 0x29B1#16
    ∧ (∀ b : List Byte, crc16 (b ++ [(crc16 b).extractLsb' 8 8, (crc16 b).extractLsb' 0 8]) = 0#16)
    ∧ ∀ (p : Params) (b : List Byte), p.crc = .ccittFalse → (crcOk p b = true ↔ 2 ≤ b.length ∧ crc16 b = 0#16)

/-- `dlc_round(n)` is the smallest legal length not below `n`, and reception does not check lengths against the list (R94). -/
def Obligations.DlcRoundIsLeastLegal : Prop :=
  (∀ n, n ≤ 64 → dlcRound n ∈ ([0, 1, 2, 3, 4, 5, 6, 7, 8, 12, 16, 20, 24, 32, 48, 64] : List Nat) ∧ n ≤ dlcRound n
    ∧ ∀ m ∈ ([0, 1, 2, 3, 4, 5, 6, 7, 8, 12, 16, 20, 24, 32, 48, 64] : List Nat), n ≤ m → dlcRound n ≤ m)
  ∧ ∀ (r : BusFrame) (s : State), r.data.length ≤ 64 → s.rxq.length ≠ s.params.rxqCap →
    storeFrame r s = .next { s with rxq := s.rxq ++ [{ id := r.id, data := r.data, ts := s.now }] }

/-- The frame that U3 transmits for an item (R95); the tail byte's `0xE0` is for the default `TOGGLE_INIT` = 1. -/
def Obligations.BuiltFrame : Prop :=
  ∀ (p : Params) (e : Item), e.payload.length ≤ 63 → e.tid < 32 → p.toggleInit = true →
    (build p e).id.toNat = (e.prio.toNat <<< 26) ||| (3 <<< 21) ||| (e.subject.toNat <<< 8) ||| p.nodeId.toNat
    ∧ (build p e).data = e.payload ++ List.replicate (dlcRound (e.payload.length + 1) - 1 - e.payload.length) 0
        ++ [0xE0#8 ||| BitVec.ofNat 8 e.tid]
    ∧ (build p e).data.length = dlcRound (e.payload.length + 1)

/-- A receiver of a built frame reads the item back: well formed, SINGLE, the subject, source, priority and transfer id of
the item, and its payload with the padding (R83, R84, R88, R95, R97). -/
def Obligations.BuiltFrameParsesBack : Prop :=
  ∀ (p : Params) (e : Item) (ts : Time), e.payload.length ≤ 63 → p.tidBits ≤ 5 → e.tid < tidMod p →
    let f : Frame := { id := (build p e).id, data := (build p e).data, ts := ts }
    malformed p f = none ∧ f.single = true ∧ frameTid p f = e.tid ∧ idPrio f.id = e.prio ∧ idSrc f.id = some p.nodeId
      ∧ (∀ subject, idMatches f.id subject = true ↔ subject = e.subject)
      ∧ f.pl = e.payload ++ List.replicate (dlcRound (e.payload.length + 1) - 1 - e.payload.length) 0

/-! ## Start-up (spec/43_task_cycle.md, spec/70_reset_and_hazards.md) -/

/-- The state after `INIT` is the reset table (R41, R184), the supervisor takes its reset state (R209), and `now` and the BUS
state are not touched. `wait_start` and `last_update` are unspecified: the statement holds for every value. -/
def Obligations.InitGivesResetTable : Prop :=
  ∀ s : State, configOk s.params = true → (s.initialised = false ∨ s.midCycle = false) →
    ∃ t, exec .init s = .next t ∧ t.rxq = [] ∧ t.dropped = 0 ∧ t.wake = false ∧ t.started = false ∧ t.phase = .idle
      ∧ t.midPhase = false
      ∧ t.sub = List.replicate s.params.subCap none
      ∧ (∀ key, (t.session key).last = none ∧ (t.session key).cur = none)
      ∧ t.decodeErr = 0 ∧ t.poolFree = s.params.poolBufs ∧ t.txq = []
      ∧ t.sup.servo = #v[0, 0, 0, 0] ∧ t.sup.pump = false ∧ t.sup.readiness = 0 ∧ t.sup.mode = .safeTimeout
      ∧ t.sup.timeouts = 0 ∧ t.sup.accepted = false
      ∧ t.now = s.now ∧ t.ctrlRx = s.ctrlRx ∧ t.mboxFree = s.mboxFree
      ∧ t.params = s.params ∧ t.initialised = true ∧ t.popped = none ∧ t.delivering = none ∧ t.schedule = s.schedule
      ∧ t.recurring = s.recurring ∧ t.log = s.log

/-- `INIT` is refused where HOST may not issue it: in the middle of a cycle (R77, U9), or on parameters that break R11:
`TID_BITS` below 2, `POOL_BUF_BYTES` below 63, or the extent of one of the six entries (U8). That it refuses the same way on
parameters outside the ranges of R10 alone is the model's reading (log 21). -/
def Obligations.InitRefused : Prop :=
  ∀ s : State, (s.initialised = true → s.midCycle = true → exec .init s = .refused .taskBusy)
    ∧ ((s.initialised = false ∨ s.midCycle = false) →
      ¬ (1 ≤ s.params.rxqCap ∧ 1 ≤ s.params.poolBufs ∧ 64 ≤ s.params.poolBufBytes ∧ 1 ≤ s.params.maxWait
        ∧ 2 ≤ s.params.tidBits
        ∧ ((deploymentEntries s.params).map (·.subject)).Nodup
        ∧ ∀ e ∈ deploymentEntries s.params, e.extent + s.params.crcBytes ≤ s.params.poolBufBytes) →
      exec .init s = .refused .badConfiguration)

/-- Before the first `INIT` no operation and no environment statement is defined but `INIT` (R250, R252, U1); reading a wire
layout is the function `parse`, no operation of the block. -/
def Obligations.OnlyInitBeforeInit : Prop :=
  ∀ (i : Instr) (s : State), s.initialised = false → i ≠ .init → rowIsParse i = false → exec i s = .refused .beforeInit

/-- `SUBSCRIBE` (R130), issued while TASK does not run (R240): it fills the lowest free entry, or is rejected after `START`, on a repeated subject and on a full
table; outside its contract the run is refused (U7). HOST's boot sequence leaves the six entries of the deployment in the table
(R31, R252). -/
def Obligations.SubscribeFillsLowestFree : Prop :=
  (∀ s : State, configOk s.params = true → 6 ≤ s.params.subCap → (s.initialised = false ∨ s.midCycle = false) →
    ∃ t, runInstrs (bootSequence s.params) s = .next t ∧ holdsDeployment t ∧ t.params = s.params ∧ t.started = true
      ∧ t.phase = .wait ∧ t.log = s.log ++ List.replicate 6 (.result .ok))
  ∧ ∀ (subject extent : Nat) (timeout : Time) (tag : Byte) (s : State), s.initialised = true → s.midCycle = false →
    (subject ≤ 8191 ∧ extent + s.params.crcBytes ≤ s.params.poolBufBytes →
      (s.started = true →
        exec (.subscribe subject extent timeout tag) s = .next { s with log := s.log ++ [.result .rejected] })
      ∧ ((∃ (j : Nat) (sb : Subscription), s.sub[j]? = some (some sb) ∧ sb.subject.toNat = subject) →
        exec (.subscribe subject extent timeout tag) s = .next { s with log := s.log ++ [.result .rejected] })
      ∧ ((∀ i, i < s.sub.length → s.sub[i]? ≠ some none) →
        exec (.subscribe subject extent timeout tag) s = .next { s with log := s.log ++ [.result .rejected] })
      ∧ ∀ i, s.started = false → (∀ (j : Nat) (sb : Subscription), s.sub[j]? = some (some sb) → sb.subject.toNat ≠ subject) →
        s.sub[i]? = some none → (∀ j, j < i → s.sub[j]? ≠ some none) →
        exec (.subscribe subject extent timeout tag) s = .next { s with
          sub := s.sub.set i (some
            { subject := BitVec.ofNat 13 subject, extent := extent, timeout := timeout, tag := tag })
          log := s.log ++ [.result .ok] })
    ∧ (¬ (subject ≤ 8191 ∧ extent + s.params.crcBytes ≤ s.params.poolBufBytes) →
      exec (.subscribe subject extent timeout tag) s = .refused .operandOutOfRange)

/-- `START` (R185), issued while TASK does not run (R240): it ends start-up once; a second one has no effect. -/
def Obligations.StartEndsStartUp : Prop :=
  ∀ s : State, s.initialised = true → s.midCycle = false →
    (s.started = false → exec .start s = .next { s with started := true, phase := .wait, waitStart := s.now })
    ∧ (s.started = true → exec .start s = .next s)

/-- Who may issue what (R119, R240, R262, U9, U10, U20): the interrupt's steps only after `START`; a whole TASK statement
only between two cycles; HOST's operations only while TASK does not run; nothing but what R262 allows while a handler call is
due; `ENQUEUE` and `NOTE_DECODE_ERROR` not between two steps of `PROCESS_PENDING` or `DRAIN`, where only interrupt context runs
(R70, R161, R261). -/
def Obligations.WrongContextsRefused : Prop :=
  ∀ s : State, s.initialised = true →
    (s.delivering = none → s.midPhase = true → ∀ subject transferId priority deadline payload,
      exec (.enqueue subject transferId priority deadline payload) s = .refused .taskBusy)
    ∧ (s.delivering = none → s.midPhase = true → s.phase ≠ .idle → exec .noteDecodeError s = .refused .taskBusy)
    ∧ (s.started = false → ∀ i ∈ [Instr.rxIrq, .onFrameReceived, .wakeSignal], exec i s = .refused .notEnabled)
    ∧ (s.delivering = none → s.phase = .idle →
      ∀ i ∈ [Instr.rxPop, .processPending, .processFrame, .drain, .txPush, .wait, .taskCycle, .apply, .noteDecodeError],
        exec i s = .refused .wrongContext)
    ∧ (s.delivering = none → s.phase ≠ .idle → s.phase ≠ .wait →
      (∀ i ∈ [Instr.init, .start, .rxPop, .processPending, .processFrame, .drain, .txPush, .wait, .taskCycle, .apply],
        exec i s = .refused .taskBusy)
      ∧ ∀ subject extent timeout tag, exec (.subscribe subject extent timeout tag) s = .refused .taskBusy)
    ∧ (s.delivering ≠ none →
      (∀ i ∈ [Instr.rxPop, .processPending, .processFrame, .drain, .txPush, .wait, .taskCycle, .apply, .start],
        exec i s = .refused .handlerMayNotCall)
      ∧ ∀ subject extent timeout tag,
        exec (.subscribe subject extent timeout tag) s = .refused .handlerMayNotCall)

/-- A statement that cannot begin is refused (R102, U20): `WAIT`'s cycle while `WAIT` cannot return, and a step or event issued
on its own when the state holds no operand for it, an expired item being none for `TX_PUSH` (the model's choice, log 11). -/
def Obligations.NotEnabledRefused : Prop :=
  (∀ s : State, taskFree s → waitReady s = false → exec .taskCycle s = .refused .notEnabled)
  ∧ (∀ s : State, taskFree s → s.popped = none → exec .processFrame s = .refused .noOperand)
  ∧ (∀ s : State, taskFree s → s.txq = [] → exec .txPush s = .refused .noOperand)
  ∧ (∀ (s : State) (e : Item) (rest : List Item), taskFree s → s.txq = e :: rest → e.deadline < s.now →
    exec .txPush s = .refused .noOperand)
  ∧ (∀ s : State, s.initialised = true → s.delivering = none → exec .deliver s = .refused .noOperand)
  ∧ ∀ s : State, interruptEnabled s → s.params.rxPortReturns = true → s.ctrlRx = [] →
    exec .onFrameReceived s = .refused .noOperand

/-! ## Ingestion (spec/40_ingestion.md) -/

/-- One invocation of the receive interrupt (R110, R111, R112): the controller is emptied, the frames that fit are appended
in order with the arrival time, every other is dropped and counted, and the latch is set once, whatever was stored. -/
def Obligations.RxIrqTakesEveryFrame : Prop :=
  ∀ s : State, interruptEnabled s → s.params.rxPortReturns = true → s.rxq.length ≤ s.params.rxqCap →
    (controllerInContract s →
      exec .rxIrq s = .next { s with
        ctrlRx := []
        rxq := s.rxq ++ (s.ctrlRx.take (s.params.rxqCap - s.rxq.length)).map
          fun r => { id := r.id, data := r.data, ts := s.now }
        dropped := BitVec.ofNat 32
          (min 4294967295 (s.dropped.toNat + (s.ctrlRx.length - (s.params.rxqCap - s.rxq.length))))
        wake := true
        log := s.log ++ List.replicate (s.ctrlRx.length - (s.params.rxqCap - s.rxq.length)) (.raised .rxOverflow) })
    ∧ (¬ controllerInContract s → exec .rxIrq s = .refused .frameTooLong)

/-- The capacity property (R115). -/
def Obligations.CapacityProperty : Prop :=
  (∀ (rs : List BusFrame) (s : State), s.rxq = [] → (∀ r ∈ rs, r.data.length ≤ 64) →
    s.dropped.toNat + (rs.length - s.params.rxqCap) ≤ 4294967295 →
    ∃ t, presentFrames rs s = .next t ∧ t.rxq.length = min rs.length s.params.rxqCap
      ∧ t.dropped.toNat = s.dropped.toNat + (rs.length - s.params.rxqCap)
      ∧ t.rxq = (rs.take (min rs.length s.params.rxqCap)).map fun r => { id := r.id, data := r.data, ts := s.now })
  ∧ ∀ (r : BusFrame) (s t : State), storeFrame r s = .next t →
    (t.rxq = s.rxq ↔ s.rxq.length = s.params.rxqCap)
      ∧ (t.rxq ≠ s.rxq → t.rxq = s.rxq ++ [{ id := r.id, data := r.data, ts := s.now }] ∧ t.dropped = s.dropped)

/-- The steps of ingestion issued on their own (R111, R112, R113): storing or dropping the frame that `next_rx()` gives,
setting the latch, and popping the oldest frame. That they can be issued alone is the model's choice (log 11). -/
def Obligations.IngestionStepsAlone : Prop :=
  (∀ (r : BusFrame) (rest : List BusFrame) (s : State), interruptEnabled s → s.params.rxPortReturns = true →
    s.ctrlRx = r :: rest → r.data.length ≤ 64 →
    (s.rxq.length = s.params.rxqCap → exec .onFrameReceived s = .next { s with
      ctrlRx := rest, dropped := satInc s.dropped, log := s.log ++ [.raised .rxOverflow] })
    ∧ (s.rxq.length ≠ s.params.rxqCap → exec .onFrameReceived s = .next { s with
      ctrlRx := rest, rxq := s.rxq ++ [{ id := r.id, data := r.data, ts := s.now }] }))
  ∧ (∀ s : State, interruptEnabled s → exec .wakeSignal s = .next { s with wake := true })
  ∧ ∀ s : State, taskFree s →
    (s.rxq = [] → exec .rxPop s = .next { s with popped := none, log := s.log ++ [.result (.popped none)] })
    ∧ ∀ f rest, s.rxq = f :: rest → exec .rxPop s = .next { s with
      rxq := rest, popped := some f, log := s.log ++ [.result (.popped (some f))] }

/-- The accessors return their counter and change nothing but the trace (R114, R146, R186); `NOTE_DECODE_ERROR` adds 1,
saturating (R144), called by a handler or between the phases (R261, log 40). -/
def Obligations.CounterPorts : Prop :=
  ∀ s : State, s.initialised = true →
    exec .readDropped s = .next { s with log := s.log ++ [.result (.counter s.dropped)] }
    ∧ exec .readDecodeErrors s = .next { s with log := s.log ++ [.result (.counter s.decodeErr)] }
    ∧ exec .readTimeouts s = .next { s with log := s.log ++ [.result (.counter s.sup.timeouts)] }
    ∧ (s.phase ≠ .idle → s.midPhase = false ∨ s.delivering ≠ none → exec .noteDecodeError s
      = .next { s with decodeErr := BitVec.ofNat 32 (min 4294967295 (s.decodeErr.toNat + 1)) })

/-- A pending wake is never lost (R112, R73): only `INIT`, `WAIT` and the cycle, whose first step is `WAIT`, clear the latch.
-/
def Obligations.WakeNeverLost : Prop :=
  (∀ (i : Instr) (s t : State), exec i s = .next t → s.wake = true → i ≠ .init → i ≠ .wait → i ≠ .taskCycle →
    t.wake = true)
  ∧ ∀ s t : State, taskStep s = .next t → s.wake = true → t.wake = true ∨ (s.phase = .wait ∧ t.phase = .drainRx)

/-- The hardware realisation of the queue (R26, R71, R72) refines the sequence: an append is an append, a removal takes the
oldest, full and empty agree, and reset is empty. -/
def Obligations.RingRefinesQueue : Prop :=
  (∀ slots, ringFrames (ringReset slots) = [])
  ∧ ∀ r : Ring, ringWf r = true →
    (ringFrames r).length = ringCount r
    ∧ (ringEmpty r = true ↔ ringFrames r = [])
    ∧ (ringFull r = true ↔ (ringFrames r).length = ringCap r)
    ∧ (∀ f : Frame, f.data.length ≤ 64 → ringFull r = false →
      ringWf (ringPush f r) = true ∧ ringCap (ringPush f r) = ringCap r
        ∧ ringFrames (ringPush f r) = ringFrames r ++ [f])
    ∧ (ringEmpty r = true → ringPop r = none)
    ∧ (ringEmpty r = false → ∃ f r', ringPop r = some (f, r') ∧ ringWf r' = true ∧ ringCap r' = ringCap r
        ∧ ringFrames r = f :: ringFrames r')

/-! ## Reassembly (spec/41_reassembly.md) -/

/-- `match(id)` is the lowest valid index whose subject matches, or none (R133). -/
def Obligations.MatchIsLowestIndex : Prop :=
  ∀ (sub : List (Option Subscription)) (id : CanId),
    (∀ (i : Nat) (sb : Subscription), matchSub sub id = some (i, sb) ↔
      sub[i]? = some (some sb) ∧ idMatches id sb.subject = true
        ∧ ∀ (j : Nat) (sb' : Subscription), j < i → sub[j]? = some (some sb') → idMatches id sb'.subject = false)
    ∧ (matchSub sub id = none ↔ ∀ (i : Nat) (sb : Subscription), sub[i]? = some (some sb) → idMatches id sb.subject = false)

/-- When a frame that matched is malformed, and which check reports it: V1 to V4, tested in this order (R97). -/
def Obligations.MalformedFrames : Prop :=
  ∀ (p : Params) (f : Frame),
    let v1 := f.data.length = 0
    let v2 := f.sot = true ∧ f.tog ≠ p.toggleInit
    let v3 := f.id.getLsbD 24 = true ∧ ¬ (f.sot = true ∧ f.eot = true)
    let v4 := ¬ (f.sot = true ∧ f.eot = true) ∧ f.pl.length = 0
    (malformed p f = some .v1 ↔ v1) ∧ (malformed p f = some .v2 ↔ ¬ v1 ∧ v2)
      ∧ (malformed p f = some .v3 ↔ ¬ v1 ∧ ¬ v2 ∧ v3) ∧ (malformed p f = some .v4 ↔ ¬ v1 ∧ ¬ v2 ∧ ¬ v3 ∧ v4)
      ∧ (malformed p f = none ↔ ¬ v1 ∧ ¬ v2 ∧ ¬ v3 ∧ ¬ v4)

/-- Steps 1 and 2 of `PROCESS_FRAME` (R133, R134): an unmatched frame changes nothing, a malformed one is counted. -/
def Obligations.DiscardedFrames : Prop :=
  ∀ (s : State) (f : Frame), taskFree s → s.popped = some f →
    (matchSub s.sub f.id = none →
      exec .processFrame s = .next { s with popped := none, log := s.log ++ [.raised .unmatched] })
    ∧ ∀ i sb v, matchSub s.sub f.id = some (i, sb) → malformed s.params f = some v →
      exec .processFrame s = .next { s with
        popped := none, decodeErr := satInc s.decodeErr, log := s.log ++ [.raised (.malformedFrame v)] }

/-- The anonymous path (R135): the extent before the pool; a delivery holds one buffer and no session. -/
def Obligations.AnonymousTransfers : Prop :=
  ∀ (s : State) (f : Frame) (i : Nat) (sb : Subscription), taskFree s → s.popped = some f →
    matchSub s.sub f.id = some (i, sb) → malformed s.params f = none → idAnon f.id = true →
    (sb.extent < f.pl.length → exec .processFrame s = .next { s with
      popped := none, decodeErr := afterExtentViolation s, log := s.log ++ [.raised .extentViolation] })
    ∧ (f.pl.length ≤ sb.extent → s.poolFree = 0 → exec .processFrame s = .next { s with
      popped := none, decodeErr := satInc s.decodeErr, log := s.log ++ [.raised .poolExhaustedRx] })
    ∧ (f.pl.length ≤ sb.extent → 0 < s.poolFree → exec .processFrame s = exec .deliver { s with
      popped := none
      poolFree := s.poolFree - 1
      delivering := some { tag := sb.tag, subject := sb.subject, payload := f.pl, ts := f.ts, holder := none } })

/-- What ends the old transfer before the frame is looked at further (R136, R137, R148): ageing out, pre-emption by a start
frame, and, with `TID_EXPIRY` = on_timeout, forgetting the last transfer id. Each is as if it had happened before. -/
def Obligations.OldTransferEndsFirst : Prop :=
  ∀ (s : State) (f : Frame) (sb : Subscription) (key : Nat), reachesSession s f sb key →
    (∀ r, (s.session key).cur = some r → r.tsFirst.toNat + sb.timeout.toNat < f.ts.toNat →
      ∃ sess, updatesSession s.sess sess key { last := (s.session key).last, cur := none }
        ∧ exec .processFrame s = exec .processFrame { s with
          sess := sess, poolFree := s.poolFree + 1, log := s.log ++ [.raised (.incompleteSequence .timedOut)] })
    ∧ (∀ r, (s.session key).cur = some r → f.sot = true → f.ts.toNat ≤ r.tsFirst.toNat + sb.timeout.toNat →
      ∃ sess, updatesSession s.sess sess key { last := (s.session key).last, cur := none }
        ∧ exec .processFrame s = exec .processFrame { s with
          sess := sess, poolFree := s.poolFree + 1, log := s.log ++ [.raised (.incompleteSequence .preempted)] })
    ∧ ∀ l, (s.session key).last = some l → s.params.tidExpiry = .onTimeout →
      l.ts.toNat + sb.timeout.toNat < f.ts.toNat →
      ∃ sess, updatesSession s.sess sess key { last := none, cur := (s.session key).cur }
        ∧ exec .processFrame s = exec .processFrame { s with sess := sess }

/-- A start frame on a session with no transfer in progress (R137, R139): the extent before the pool; a FIRST frame opens
the transfer with its payload and the toggle turned. -/
def Obligations.StartFrames : Prop :=
  ∀ (s : State) (f : Frame) (sb : Subscription) (key : Nat), reachesSession s f sb key → nothingToAge s f sb key →
    (s.session key).cur = none → f.sot = true →
    (sb.extent + (if f.eot then 0 else s.params.crcBytes) < f.pl.length → exec .processFrame s = .next { s with
      popped := none, decodeErr := afterExtentViolation s, log := s.log ++ [.raised .extentViolation] })
    ∧ (f.pl.length ≤ sb.extent + (if f.eot then 0 else s.params.crcBytes) → s.poolFree = 0 →
      exec .processFrame s = .next { s with
        popped := none, decodeErr := satInc s.decodeErr, log := s.log ++ [.raised .poolExhaustedRx] })
    ∧ (f.eot = false → f.pl.length ≤ sb.extent + s.params.crcBytes → 0 < s.poolFree →
      ∃ sess, updatesSession s.sess sess key
          { last := (s.session key).last
            cur := some { tid := frameTid s.params f, toggle := !s.params.toggleInit, multi := true, buf := f.pl, tsFirst := f.ts } }
        ∧ exec .processFrame s = .next { s with popped := none, poolFree := s.poolFree - 1, sess := sess })

/-- A SINGLE frame within the extent (R137, R139 to R142): a new transfer id is recorded and its payload delivered, the
session holding the buffer meanwhile; a stale or duplicate one is dropped, the session and the pool as before. -/
def Obligations.SingleFrameTransfers : Prop :=
  ∀ (s : State) (f : Frame) (sb : Subscription) (key : Nat), reachesSession s f sb key → nothingToAge s f sb key →
    (s.session key).cur = none → f.single = true → f.pl.length ≤ sb.extent → 0 < s.poolFree →
    (newToSession s.params (s.session key).last (frameTid s.params f) →
      ∃ sess, updatesSession s.sess sess key
          { last := some { tid := frameTid s.params f, ts := f.ts }
            cur := some { tid := frameTid s.params f, toggle := !s.params.toggleInit, multi := false, buf := f.pl, tsFirst := f.ts } }
        ∧ exec .processFrame s = exec .deliver { s with
          popped := none
          poolFree := s.poolFree - 1
          sess := sess
          delivering := some { tag := sb.tag, subject := sb.subject, payload := f.pl, ts := f.ts, holder := some key } })
    ∧ ∀ l why, (s.session key).last = some l → staleness s.params (frameTid s.params f) l.tid = some why →
      ∃ sess, (∀ k, sessGet sess k = sessGet s.sess k) ∧ sessWf sess = true
        ∧ exec .processFrame s = .next { s with
          popped := none, sess := sess, log := s.log ++ [.raised (.staleTransfer why)] }

/-- A continuation frame (R138, R139): an orphan is ignored and the session stays, one that would exceed the bound ends the
transfer, and a MIDDLE frame is accumulated. -/
def Obligations.ContinuationFrames : Prop :=
  ∀ (s : State) (f : Frame) (sb : Subscription) (key : Nat), reachesSession s f sb key → nothingToAge s f sb key →
    f.sot = false →
    ((s.session key).cur = none → exec .processFrame s = .next { s with
      popped := none, log := s.log ++ [.raised (.incompleteSequence .orphan)] })
    ∧ ∀ r, (s.session key).cur = some r →
      (frameTid s.params f ≠ r.tid ∨ f.tog ≠ r.toggle → exec .processFrame s = .next { s with
        popped := none, log := s.log ++ [.raised (.incompleteSequence .orphan)] })
      ∧ (frameTid s.params f = r.tid → f.tog = r.toggle →
        sb.extent + s.params.crcBytes < r.buf.length + f.pl.length →
        ∃ sess, updatesSession s.sess sess key { last := (s.session key).last, cur := none }
          ∧ exec .processFrame s = .next { s with
            popped := none, sess := sess, poolFree := s.poolFree + 1, decodeErr := afterExtentViolation s, log := s.log ++ [.raised .extentViolation] })
      ∧ (frameTid s.params f = r.tid → f.tog = r.toggle →
        r.buf.length + f.pl.length ≤ sb.extent + s.params.crcBytes → f.eot = false →
        ∃ sess, updatesSession s.sess sess key
            { last := (s.session key).last, cur := some { r with buf := r.buf ++ f.pl, toggle := !r.toggle } }
          ∧ exec .processFrame s = .next { s with popped := none, sess := sess })

/-- A LAST frame that completes a multi-frame transfer (R139 to R142): a bad CRC ends it uncounted, a stale or duplicate id
drops it, and otherwise the payload without the CRC is delivered with the time of the first frame. -/
def Obligations.MultiFrameCompletion : Prop :=
  ∀ (s : State) (f : Frame) (sb : Subscription) (key : Nat) (r : Reassembly), reachesSession s f sb key →
    nothingToAge s f sb key → (s.session key).cur = some r → r.multi = true → f.sot = false → f.eot = true →
    frameTid s.params f = r.tid → f.tog = r.toggle → r.buf.length + f.pl.length ≤ sb.extent + s.params.crcBytes →
    (crcOk s.params (r.buf ++ f.pl) = false →
      ∃ sess, updatesSession s.sess sess key { last := (s.session key).last, cur := none }
        ∧ exec .processFrame s = .next { s with
          popped := none, sess := sess, poolFree := s.poolFree + 1, log := s.log ++ [.raised (.incompleteSequence .badCrc)] })
    ∧ (crcOk s.params (r.buf ++ f.pl) = true → ∀ l why, (s.session key).last = some l →
      staleness s.params r.tid l.tid = some why →
      ∃ sess, updatesSession s.sess sess key { last := (s.session key).last, cur := none }
        ∧ exec .processFrame s = .next { s with
          popped := none, sess := sess, poolFree := s.poolFree + 1, log := s.log ++ [.raised (.staleTransfer why)] })
    ∧ (crcOk s.params (r.buf ++ f.pl) = true → newToSession s.params (s.session key).last r.tid →
      ∃ sess, updatesSession s.sess sess key
          { last := some { tid := r.tid, ts := r.tsFirst }
            cur := some { r with buf := r.buf ++ f.pl, toggle := !r.toggle } }
        ∧ exec .processFrame s = exec .deliver { s with
          popped := none
          sess := sess
          delivering := some
            { tag := sb.tag, subject := sb.subject, payload := (r.buf ++ f.pl).take ((r.buf ++ f.pl).length - s.params.crcBytes), ts := r.tsFirst, holder := some key } })

/-- The staleness relation (R145), with its equivalent form by the backward distance. -/
def Obligations.StalenessRelation : Prop :=
  ∀ (p : Params) (t l : Nat), 1 ≤ p.tidBits → t < tidMod p → l < tidMod p →
    let d := ((t : Int) - l) % (tidMod p : Int)
    let b := ((l : Int) - t) % (tidMod p : Int)
    0 ≤ d ∧ d < tidMod p
      ∧ (staleness p t l = some .duplicate ↔ d = 0) ∧ (staleness p t l = some .duplicate ↔ t = l)
      ∧ (staleness p t l = none ↔ 1 ≤ d ∧ d ≤ (tidMod p / 2 : Nat) - 1)
      ∧ (staleness p t l = some .stale ↔ (tidMod p / 2 : Nat) ≤ d)
      ∧ (staleness p t l = some .stale ↔ 1 ≤ b ∧ b ≤ (tidMod p / 2 : Nat))

/-- At most one delivery for one frame, and never more payload than the subscription's extent (R149 (c) and (e)), from a
state in which the bytes of every transfer in progress are within their bound. -/
def Obligations.DeliveriesWithinExtent : Prop :=
  ∀ s t : State, buffersBounded s → taskFree s → exec .processFrame s = .next t →
    ∃ ev, t.log = s.log ++ ev ∧ ev.countP deliverEvent ≤ 1
      ∧ ∀ tag subject payload size ts, Event.deliver tag subject payload size ts ∈ ev →
        size = payload.length ∧ ∃ sb, some sb ∈ s.sub ∧ sb.tag = tag ∧ sb.subject = subject ∧ payload.length ≤ sb.extent

/-- `DELIVER` (R142, R143): with a handler that keeps its contract it completes: the event, the handler's run, then the
buffer goes back (the handler's items take theirs) and the holder's session ends; what the handler may not touch is as
before. With no handler that is all. A handler's call has the effect of the statement it calls (R161, R144, R114, R146, R186, R262):
with one call the item is inserted or rejected, the error counted, or the counter answered, and with any number of calls, issued
one after another, each acts on what the one before it left. -/
def Obligations.DeliverCompletes : Prop :=
  ∀ (s : State) (d : Delivery), s.initialised = true → s.delivering = some d → sessWf s.sess = true →
    (handlersKeepContract s.params →
      ∃ t ev, exec .deliver s = .next t
        ∧ t.log = s.log ++ .deliver d.tag d.subject d.payload d.payload.length d.ts :: ev ∧ ev.countP deliverEvent = 0
        ∧ t.delivering = none
        ∧ holderEnds s d t.sess
        ∧ (bufferHeld s d → t.poolFree + t.txq.length = s.poolFree + s.txq.length + 1)
        ∧ t.params = s.params ∧ t.initialised = s.initialised ∧ t.now = s.now ∧ t.ctrlRx = s.ctrlRx
        ∧ t.mboxFree = s.mboxFree ∧ t.rxq = s.rxq ∧ t.dropped = s.dropped ∧ t.wake = s.wake ∧ t.started = s.started
        ∧ t.phase = s.phase ∧ t.midPhase = s.midPhase ∧ t.waitStart = s.waitStart ∧ t.sub = s.sub ∧ t.popped = s.popped
        ∧ t.schedule = s.schedule ∧ t.recurring = s.recurring)
    ∧ (handlerOf s.params d.tag = none → d.holder = none → exec .deliver s = .next { s with
      delivering := none
      poolFree := s.poolFree + 1
      log := s.log ++ [.deliver d.tag d.subject d.payload d.payload.length d.ts] })
    ∧ (∀ key r, handlerOf s.params d.tag = none → d.holder = some key → (s.session key).cur = some r →
      ∃ sess, updatesSession s.sess sess key { last := (s.session key).last, cur := none }
        ∧ exec .deliver s = .next { s with
          delivering := none
          poolFree := s.poolFree + 1
          sess := sess
          log := s.log ++ [.deliver d.tag d.subject d.payload d.payload.length d.ts] })
    ∧ (∀ (h : Handler) (i : Instr), handlerOf s.params d.tag = some h → scriptMoves h.script s.freeCount d = [.call i] →
      callInContract i = true → bufferHeld s d →
      ∃ sess, holderEnds s d sess ∧
        let t : State := { s with
          delivering := none
          freeCount := (takeScript h.script s).freeCount
          poolFree := s.poolFree + 1
          sess := sess
          log := s.log ++ [.deliver d.tag d.subject d.payload d.payload.length d.ts] }
        (∀ subject transferId priority deadline payload, i = .enqueue subject transferId priority deadline payload →
          (s.txq.length = s.params.txqCap → exec .deliver s
            = .next { t with log := t.log ++ [.raised .txQueueFull, .result .rejected] })
          ∧ (s.txq.length ≠ s.params.txqCap → s.poolFree = 0 → exec .deliver s
            = .next { t with log := t.log ++ [.raised .poolExhaustedTx, .result .rejected] })
          ∧ (s.txq.length ≠ s.params.txqCap → 0 < s.poolFree → txqOrdered s → exec .deliver s = .next { t with
            txq := s.txq.filter (fun x => decide (x.prio.toNat ≤ priority))
              ++ { subject := BitVec.ofNat 13 subject, tid := transferId % 2 ^ s.params.tidBits, prio := BitVec.ofNat 3 priority, payload := payload, deadline := deadline }
              :: s.txq.filter (fun x => decide (priority < x.prio.toNat))
            poolFree := s.poolFree - 1 + 1
            log := t.log ++ [.result .ok] }))
        ∧ (i = .noteDecodeError → exec .deliver s
          = .next { t with decodeErr := BitVec.ofNat 32 (min 4294967295 (s.decodeErr.toNat + 1)) })
        ∧ (i = .readDropped → exec .deliver s = .next { t with log := t.log ++ [.result (.counter s.dropped)] })
        ∧ (i = .readDecodeErrors → exec .deliver s = .next { t with log := t.log ++ [.result (.counter s.decodeErr)] })
        ∧ (i = .readTimeouts → exec .deliver s = .next { t with log := t.log ++ [.result (.counter s.sup.timeouts)] }))
    ∧ ∀ (h : Handler) (calls : List Instr), handlerOf s.params d.tag = some h →
      scriptMoves h.script s.freeCount d = calls.map .call → (∀ i ∈ calls, callInContract i = true) → s.phase ≠ .idle →
      bufferHeld s d →
      ∃ u sess, holderEnds s d sess
        ∧ calls.foldl (fun o i => andThen o (exec i)) (.next { s with
          freeCount := (takeScript h.script s).freeCount
          log := s.log ++ [.deliver d.tag d.subject d.payload d.payload.length d.ts] }) = .next u
        ∧ exec .deliver s = .next { u with delivering := none, sess := sess, poolFree := u.poolFree + 1 }

/-- A handler that calls what R262 forbids is refused (U10), and one that never returns hangs the block (R187, U11), at
whichever move of its run that is. -/
def Obligations.HandlerHazards : Prop :=
  ∀ (s : State) (d : Delivery) (h : Handler), s.initialised = true → s.delivering = some d →
    handlerOf s.params d.tag = some h →
    (∀ pre i post, scriptMoves h.script s.freeCount d = pre ++ .call i :: post → (∀ m ∈ pre, moveInContract m = true) →
      forbiddenToHandlers i = true → exec .deliver s = .refused .handlerMayNotCall)
    ∧ ∀ pre post, scriptMoves h.script s.freeCount d = pre ++ .hang :: post → (∀ m ∈ pre, moveInContract m = true) →
      exec .deliver s = .fault .handlerNeverReturns

/-- The codec's contract, under either strategy (R200, R201): `decode` is an error for a payload that is truncated or whose type does
not resolve and for nothing else, and it reads no byte beyond the declared length; `encode` is an error for such a type and for
nothing else, and the declared number of bytes it writes decodes to the value, clamped or masked: every pump state, every level and
every setpoint that some payload holds (the rounding of any other is open, log 25). An accepted decoded message updates its one field,
clamped or masked, and stamps the update time; a decode error leaves the command state and is counted once (R200, R204, R232). A
clamped value that is not a number is any value (U26). -/
def Obligations.CommandStateUpdate : Prop :=
  (∀ (p : Params) (payload bytes : List Byte),
    (∀ i, (decodeServo p i payload = none ↔ schemaResolves p (.servo i) = false ∨ payload.length < messageBytes p (.servo i))
      ∧ (messageBytes p (.servo i) ≤ payload.length → decodeServo p i (payload ++ bytes) = decodeServo p i payload)
      ∧ ∀ v, (encodeServo p i v = none ↔ schemaResolves p (.servo i) = false)
        ∧ (encodeServo p i v = some bytes → bytes.length = messageBytes p (.servo i))
        ∧ (encodeServo p i v = some bytes → decodeServo p i payload = some (.number (min 1 (max (-1) v))) →
          decodeServo p i bytes = some (.number (min 1 (max (-1) v)))))
    ∧ (decodePump p payload = none ↔ schemaResolves p .pump = false ∨ payload.length < messageBytes p .pump)
    ∧ (messageBytes p .pump ≤ payload.length → decodePump p (payload ++ bytes) = decodePump p payload)
    ∧ (∀ v, (encodePump p v = none ↔ schemaResolves p .pump = false)
      ∧ (encodePump p v = some bytes → bytes.length = messageBytes p .pump ∧ decodePump p bytes = some v))
    ∧ (decodeReadiness p payload = none ↔ schemaResolves p .readiness = false ∨ payload.length < messageBytes p .readiness)
    ∧ (messageBytes p .readiness ≤ payload.length → decodeReadiness p (payload ++ bytes) = decodeReadiness p payload)
    ∧ ∀ v, (encodeReadiness p v = none ↔ schemaResolves p .readiness = false)
      ∧ (encodeReadiness p v = some bytes →
        bytes.length = messageBytes p .readiness ∧ decodeReadiness p bytes = some (v &&& 3)))
  ∧ (∀ (p q : Params) (payload : List Byte), q = { p with strategy := q.strategy } →
    (∀ i v w, decodeServo p i payload = some v → decodeServo q i payload = some w → v = w)
    ∧ (∀ v w, decodePump p payload = some v → decodePump q payload = some w → v = w)
    ∧ ∀ v w, decodeReadiness p payload = some v → decodeReadiness q payload = some w → v = w)
  ∧ ∀ (s : State) (d : Delivery) (h : Handler) (role : CommandRole), s.initialised = true → s.delivering = some d →
    handlerOf s.params d.tag = some h → scriptMoves h.script s.freeCount d = [.decode role] →
    ∃ t, exec .deliver s = .next t ∧
      (∀ i v, role = .servo i → decodeServo s.params i d.payload = some (.number v) →
        t.sup = { s.sup with servo := s.sup.servo.set i (min 1 (max (-1) v)), lastUpdate := d.ts, accepted := true }
          ∧ t.decodeErr = s.decodeErr)
      ∧ (∀ i, role = .servo i → decodeServo s.params i d.payload = some .notANumber →
        ∃ v, -1 ≤ v ∧ v ≤ 1 ∧ t.sup = { s.sup with servo := s.sup.servo.set i v, lastUpdate := d.ts, accepted := true }
          ∧ t.decodeErr = s.decodeErr)
      ∧ (∀ v, role = .pump → decodePump s.params d.payload = some v →
        t.sup = { s.sup with pump := v, lastUpdate := d.ts, accepted := true } ∧ t.decodeErr = s.decodeErr)
      ∧ (∀ v, role = .readiness → decodeReadiness s.params d.payload = some v →
        t.sup = { s.sup with readiness := BitVec.ofNat 2 (v &&& 3), lastUpdate := d.ts, accepted := true }
          ∧ t.decodeErr = s.decodeErr)
      ∧ ((∀ i, role = .servo i → decodeServo s.params i d.payload = none)
          ∧ (role = .pump → decodePump s.params d.payload = none)
          ∧ (role = .readiness → decodeReadiness s.params d.payload = none) →
        t.sup = s.sup ∧ t.decodeErr = satInc s.decodeErr)

/-- `PROCESS_PENDING` (R131) pops and processes one frame after another, in arrival order, until a pop finds the queue empty;
with handlers that keep their contract it completes, the queue empty. -/
def Obligations.PendingDrainsQueue : Prop :=
  (∀ s : State, taskFree s →
    (s.rxq = [] → exec .processPending s = .next { s with popped := none })
    ∧ ∀ f rest, s.rxq = f :: rest → exec .processPending s
      = andThen (exec .processFrame { s with rxq := rest, popped := some f }) (exec .processPending))
  ∧ ∀ s : State, taskFree s → handlersKeepContract s.params →
    ∃ t ev, exec .processPending s = .next t ∧ t.log = s.log ++ ev ∧ (∀ e ∈ ev, dispatchEvent e = true)
      ∧ t.rxq = [] ∧ t.popped = none ∧ t.delivering = none
      ∧ t.params = s.params ∧ t.initialised = s.initialised ∧ t.now = s.now ∧ t.ctrlRx = s.ctrlRx
      ∧ t.mboxFree = s.mboxFree ∧ t.dropped = s.dropped ∧ t.wake = s.wake ∧ t.started = s.started ∧ t.phase = s.phase
      ∧ t.midPhase = s.midPhase ∧ t.waitStart = s.waitStart ∧ t.sub = s.sub ∧ t.schedule = s.schedule ∧ t.recurring = s.recurring

/-! ## The outbound queue (spec/42_outbound.md) -/

/-- An accepted `ENQUEUE` (R160, R161): the item goes behind every item of its own or a higher priority and before the rest,
its transfer id reduced, and takes one buffer; nothing else changes. It is issued in a handler or between two phases of the
cycle (R161, log 40). -/
def Obligations.EnqueueInserts : Prop :=
  ∀ (subject transferId priority : Nat) (deadline : Time) (payload : List Byte) (s : State), s.initialised = true →
    s.midPhase = false ∨ s.delivering ≠ none → txqOrdered s → subject ≤ 8191 → priority ≤ 7 → payload.length ≤ 63 →
    s.txq.length ≠ s.params.txqCap → 0 < s.poolFree →
    exec (.enqueue subject transferId priority deadline payload) s = .next { s with
      txq := s.txq.filter (fun x => decide (x.prio.toNat ≤ priority))
        ++ { subject := BitVec.ofNat 13 subject, tid := transferId % 2 ^ s.params.tidBits, prio := BitVec.ofNat 3 priority, payload := payload, deadline := deadline }
        :: s.txq.filter (fun x => decide (priority < x.prio.toNat))
      poolFree := s.poolFree - 1
      log := s.log ++ [.result .ok] }

/-- `ENQUEUE` rejects when the queue is full and, with room, when the pool is empty, and changes nothing but the trace (R161,
R228, R229); outside its contract the run is refused (U6). -/
def Obligations.EnqueueRejects : Prop :=
  ∀ (subject transferId priority : Nat) (deadline : Time) (payload : List Byte) (s : State), s.initialised = true →
    s.midPhase = false ∨ s.delivering ≠ none →
    (subject ≤ 8191 ∧ priority ≤ 7 ∧ payload.length ≤ 63 →
      (s.txq.length = s.params.txqCap → exec (.enqueue subject transferId priority deadline payload) s
        = .next { s with log := s.log ++ [.raised .txQueueFull, .result .rejected] })
      ∧ (s.txq.length ≠ s.params.txqCap → s.poolFree = 0 →
        exec (.enqueue subject transferId priority deadline payload) s
          = .next { s with log := s.log ++ [.raised .poolExhaustedTx, .result .rejected] }))
    ∧ (¬ (subject ≤ 8191 ∧ priority ≤ 7 ∧ payload.length ≤ 63) →
      exec (.enqueue subject transferId priority deadline payload) s = .refused .operandOutOfRange)

/-- `DRAIN` (R162): in service order, every item up to the first refused push is evicted if expired and sent otherwise, each
gives its buffer back, and the first item refused by the mailbox stays with all behind it. -/
def Obligations.DrainServesInOrder : Prop :=
  ∀ s : State, taskFree s → s.params.txPortReturns = true →
    ∃ pre post stop, s.txq = pre ++ post
      ∧ (pre.filter fun e => decide (s.now ≤ e.deadline)).length ≤ s.mboxFree
      ∧ ((post = [] ∧ stop = []) ∨ ∃ e rest, post = e :: rest ∧ s.now ≤ e.deadline
          ∧ (pre.filter fun e => decide (s.now ≤ e.deadline)).length = s.mboxFree
          ∧ stop = [.tx (build s.params e) .full, .raised .mailboxFull])
      ∧ exec .drain s = .next { s with
          txq := post
          poolFree := s.poolFree + pre.length
          mboxFree := s.mboxFree - (pre.filter fun e => decide (s.now ≤ e.deadline)).length
          log := s.log ++ pre.map (fun e =>
            if e.deadline < s.now then .raised .txExpired else .tx (build s.params e) .success) ++ stop }

/-- When an item is expired (R164): strictly after its deadline, both as unsigned 64-bit integers; and no `TX` is emitted by
a pass of `DRAIN` whose item is expired at the sample of `now` of that pass. -/
def Obligations.ExpiryIsStrict : Prop :=
  (∀ (t : Time) (e : Item), expired t e = true ↔ e.deadline.toNat < t.toNat)
  ∧ ∀ (s : State) (e : Item) (rest : List Item), s.txq = e :: rest →
    (e.deadline.toNat < s.now.toNat → drainPass s = (true, { s with
      txq := rest, poolFree := s.poolFree + 1, log := s.log ++ [.raised .txExpired] }))
    ∧ (s.now.toNat ≤ e.deadline.toNat → ∃ answer tail, (drainPass s).2.log
        = s.log ++ .tx (build s.params e) answer :: tail)

/-- Liveness and what it rests on. A call on agent BUS that never returns hangs the block (R253 (b), U11): the first pull of the
interrupt, and the first push of `DRAIN`, which is that of an item it does not evict. With ports and handlers that return, a
cycle ends from wherever in it the arrivals stop (R190): when no other agent moves, and under weak fairness, whatever the others do
that brings no frame while TASK is in DRAIN_RX, within 2|rxq| + TXQ_CAP + 4 turns of TASK, unless their moves leave the spec (a
clock that wraps, U14; an `ENQUEUE` or `NOTE_DECODE_ERROR` inside a phase or a `START` inside the cycle, U9). While arrivals do not stop it need never end (R273): with one frame that
matches nothing arriving for every two steps of TASK, `DRAIN` and `APPLY` are never reached. -/
def Obligations.PortHazards : Prop :=
  (∀ s : State, interruptEnabled s → s.params.rxPortReturns = false → exec .rxIrq s = .fault .portNeverReturns)
  ∧ (∀ s : State, taskFree s → s.params.txPortReturns = false →
    ((∃ e ∈ s.txq, s.now ≤ e.deadline) → exec .drain s = .fault .portNeverReturns)
    ∧ ((∀ e ∈ s.txq, e.deadline < s.now) → exec .drain s = .next { s with
      txq := [], poolFree := s.poolFree + s.txq.length, log := s.log ++ s.txq.map fun _ => .raised .txExpired }))
  ∧ (∀ s : State, s.initialised = true → s.midCycle = true → (s.delivering ≠ none → s.phase = .drainRx) →
    handlersKeepContract s.params → s.params.txPortReturns = true → s.schedule = [] → s.recurring = [] →
    ∃ n t, runSteps n s = .next t ∧ t.phase = .wait ∧ t.waitStart = s.now)
  ∧ (∀ s : State, interruptEnabled s → s.midCycle = true → s.delivering = none → s.txq.length ≤ s.params.txqCap →
    controllerInContract s → (s.phase = .drainRx → s.ctrlRx = []) → handlersKeepContract s.params → portsReturn s.params →
    (∀ m ∈ s.schedule, moveAllowed (fun i => bringsNoFrame i || (decide (s.phase ≠ .drainRx) && bringsFrame i)) m = true) →
    2 * s.rxq.length + s.params.txqCap + 4 ≤ s.schedule.count .task →
    ∃ n ≤ s.schedule.length, (∃ t, runSteps n s = .next t ∧ t.phase = .wait ∧ t.waitStart = t.now)
      ∨ runSteps n s = .refused .clockWouldWrap ∨ runSteps n s = .refused .taskBusy)
  ∧ ∀ (s : State) (r : BusFrame) (bus irq : Packet), interruptEnabled s → s.params.rxPortReturns = true →
    decode bus = .ok (.bus r.id r.data, []) → decode irq = .ok (.rxIrq, []) →
    matchSub s.sub r.id = none → r.data.length ≤ 64 → 1 ≤ s.params.rxqCap →
    s.phase = .drainRx → s.delivering = none → s.popped = none → s.rxq = [] → s.ctrlRx = [] → s.schedule = [] →
    s.recurring = [.issue bus, .issue irq, .task, .task] →
    ∀ n, ∃ t ev, runSteps n s = .next t ∧ t.phase = .drainRx ∧ t.log = s.log ++ ev ∧ ∀ e ∈ ev, dispatchEvent e = true

/-- `TX_PUSH` (R163): the frame of the item served next is handed over, and BUS answers `success` while its counter lasts
(R37, R102). That it can be issued alone, on an item that has not expired and which leaves the queue when it is taken, is the
model's choice (log 11). -/
def Obligations.TxPushAlone : Prop :=
  ∀ (s : State) (e : Item) (rest : List Item), taskFree s → s.params.txPortReturns = true → s.txq = e :: rest →
    s.now ≤ e.deadline →
    (s.mboxFree = 0 → exec .txPush s = .next { s with log := s.log ++ [.tx (build s.params e) .full] })
    ∧ (0 < s.mboxFree → exec .txPush s = .next { s with
      txq := rest
      poolFree := s.poolFree + 1
      mboxFree := s.mboxFree - 1
      log := s.log ++ [.tx (build s.params e) .success] })

/-! ## The task cycle (spec/43_task_cycle.md) and the supervisor (spec/44_neighbours.md) -/

/-- `WAIT` (R181): it returns when the latch is set or the bound is reached and clears the latch either way; while it cannot
return it is not enabled (U20). As TASK's own step, its return begins the next cycle, and TASK stays blocked until then. -/
def Obligations.WaitReturns : Prop :=
  ∀ s : State, taskFree s →
    (s.wake = true ∨ (s.params.maxWait : Int) ≤ (s.now.toNat : Int) - s.waitStart.toNat →
      exec .wait s = .next { s with wake := false }
        ∧ taskStep s = .next { s with wake := false, phase := .drainRx, midPhase := false, popped := none })
    ∧ (s.wake = false → (s.now.toNat : Int) - s.waitStart.toNat < s.params.maxWait →
      exec .wait s = .refused .notEnabled ∧ taskStep s = .next s)

/-- One `TASK_CYCLE` (R180): `WAIT` clears the latch, then `PROCESS_PENDING`, `DRAIN` and `APPLY` run on the state that each
leaves the next, so that a command received in a cycle affects that cycle's output (R189), and `wait_start` is then `now`. It
completes where handlers and ports return; every delivery comes before every transmission, and both before the one `APPLY`
(R183). -/
def Obligations.CycleOrder : Prop :=
  ∀ s : State, taskFree s → waitReady s = true →
    exec .taskCycle s = andThen (exec .processPending { s with wake := false }) (fun a =>
      andThen (exec .drain a) fun b => andThen (exec .apply b) fun c =>
        .next { c with midPhase := false, waitStart := c.now })
    ∧ (handlersKeepContract s.params → s.params.txPortReturns = true →
      ∃ t dispatch drained applied, exec .taskCycle s = .next t
        ∧ t.log = s.log ++ dispatch ++ drained ++ .apply :: applied
        ∧ (∀ e ∈ dispatch, dispatchEvent e = true) ∧ (∀ e ∈ drained, drainEvent e = true)
        ∧ (∃ servo pump readiness, applied = [.sink servo pump readiness]
            ∨ applied = [.raised .commandStale, .sink servo pump readiness])
        ∧ t.phase = .wait ∧ t.midPhase = false ∧ t.waitStart = s.now ∧ t.wake = false ∧ t.rxq = [] ∧ t.popped = none
        ∧ t.delivering = none
        ∧ t.params = s.params ∧ t.initialised = s.initialised ∧ t.now = s.now ∧ t.ctrlRx = s.ctrlRx
        ∧ t.dropped = s.dropped ∧ t.started = s.started ∧ t.sub = s.sub ∧ t.schedule = s.schedule
        ∧ t.recurring = s.recurring)

/-- A whole `TASK_CYCLE` is the run of agent TASK's single steps with no interrupt between them (R70, R180): from a state
with no move to come, some number of steps ends as the cycle ends, in the same state or with the same stop. -/
def Obligations.CycleIsItsSteps : Prop :=
  ∀ s : State, taskFree s → waitReady s = true → s.schedule = [] → s.recurring = [] →
    ∃ n, runSteps n s = exec .taskCycle s

/-- `APPLY` (R183, R205, R207, R208): the event, then the supervisor's step. `mode` follows staleness alone, the transition
into SAFE_TIMEOUT is counted, and the sink gets the command state only when fresh and engaged. -/
def Obligations.ApplyPresentsOutput : Prop :=
  ∀ s : State, taskFree s →
    (s.sup.accepted = false ∨ s.sup.lastUpdate.toNat + s.params.staleTicks < s.now.toNat →
      exec .apply s = .next { s with
        sup := { s.sup with
          mode := .safeTimeout
          timeouts := if s.sup.mode = .engagedLive then satInc s.sup.timeouts else s.sup.timeouts }
        log := s.log ++ [.apply, .raised .commandStale, safeOutput] })
    ∧ (s.sup.accepted = true → s.now.toNat ≤ s.sup.lastUpdate.toNat + s.params.staleTicks →
      (s.sup.readiness < s.params.engagedLevel → exec .apply s = .next { s with
        sup := { s.sup with mode := .engagedLive }, log := s.log ++ [.apply, safeOutput] })
      ∧ (s.params.engagedLevel ≤ s.sup.readiness → exec .apply s = .next { s with
        sup := { s.sup with mode := .engagedLive }
        log := s.log ++ [.apply, .sink s.sup.servo s.sup.pump s.sup.readiness] }))

/-- Idempotence (R210): in SAFE_TIMEOUT with no new command, any number of control cycles present the identical safe output
and count nothing further. -/
def Obligations.SafeTimeoutIdempotent : Prop :=
  ∀ (n : Nat) (s : State), taskFree s → s.sup.mode = .safeTimeout → commandStale s = true →
    (List.range n).foldl (fun o _ => andThen o (exec .apply)) (.next s)
      = .next { s with log := s.log ++ (List.replicate n [.apply, .raised .commandStale, safeOutput]).flatten }

/-- The environment's statements (R102): `now` advances and nothing else, a frame arrives behind the others, the mailbox
counter is set; a tick past the last value of the clock and a frame above the MTU are refused (R236, U4, U14). -/
def Obligations.EnvironmentStatements : Prop :=
  ∀ s : State, s.initialised = true →
    (∀ n, s.now.toNat + n < 2 ^ 64 →
      ∃ t : Time, t.toNat = s.now.toNat + n ∧ exec (.tick n) s = .next { s with now := t })
    ∧ (∀ n, 2 ^ 64 ≤ s.now.toNat + n → exec (.tick n) s = .refused .clockWouldWrap)
    ∧ (∀ id (data : List Byte), data.length ≤ 64 →
      exec (.bus id data) s = .next { s with ctrlRx := s.ctrlRx ++ [{ id := id, data := data }] })
    ∧ (∀ id (data : List Byte), 64 < data.length → exec (.bus id data) s = .refused .frameTooLong)
    ∧ ∀ n, exec (.mbox n) s = .next { s with mboxFree := n }

/-! ## The step -/

/-- A step runs the instruction that the packet at the head of the schedule decodes to; what is left of the packet stays
scheduled; an undecodable packet is refused (U20); a schedule that has run out is refilled with the recurring moves; with none
it is a step of agent TASK. The schedule and the recurring moves are the model's own (log 8). -/
def Obligations.StepRunsDecoded : Prop :=
  (∀ (s : State) (p : Packet) (rest : List Move) (i : Instr) (left : List Byte), s.schedule = .issue p :: rest →
    decode p = .ok (i, left) →
    step s = exec i { s with schedule := if left = [] then rest else .issue ⟨p.fmt, left⟩ :: rest })
  ∧ (∀ (s : State) (p : Packet) (rest : List Move) (e : DecodeError), s.schedule = .issue p :: rest →
    decode p = .error e → step s = .refused (.undecodable e))
  ∧ (∀ (s : State) (rest : List Move), s.schedule = .task :: rest → step s = taskStep { s with schedule := rest })
  ∧ (∀ s : State, s.schedule = [] → s.recurring ≠ [] → step s = step { s with schedule := s.recurring })
  ∧ ∀ s : State, s.schedule = [] → s.recurring = [] → step s = taskStep s

/-- `RX_IRQ` and `PROCESS_FRAME` commute (R131, R188), issued between two cycles and as TASK's own step: either order gives the
same state but for the trace. The interrupt adds its drops and `PROCESS_FRAME` its own events, the same deliveries either way:
only the order of the two parts, and what accessors called by a handler answer, differ, and what can be observed (R14) but for
such answers does not. That the state is the same although such
an answer may differ rests on the model's handlers, whose moves do not depend on what an accessor answers (log 27, unsafe for a
claim that compares two runs). -/
def Obligations.IrqCommutesWithProcessFrame : Prop :=
  (∀ s a b : State, taskFree s → exec .rxIrq s = .next a → exec .processFrame s = .next b →
    ∃ c d, exec .processFrame a = .next c ∧ exec .rxIrq b = .next d ∧ agreeButOrder s.log c d)
  ∧ ∀ s a b : State, s.phase = .drainRx → s.delivering = none → s.popped ≠ none →
    exec .rxIrq s = .next a → taskStep s = .next b →
    ∃ c d, taskStep a = .next c ∧ exec .rxIrq b = .next d ∧ agreeButOrder s.log c d

/-! ## Invariants (R40) -/

/-- Every step keeps (I-1), (I-2) and (I-3): the ingestion queue within capacity and in time order, the outbound queue within
capacity and in priority order (R40, R24, R35, R117). -/
def Obligations.QueueInvariantsKept : Prop :=
  ∀ s t : State, rxqBounded s → rxqOrdered s → txqOrdered s → step s = .next t →
    rxqBounded t ∧ rxqOrdered t ∧ txqOrdered t

/-- Every step keeps (I-4), the pool equation, with the session table in canonical form (R34, R40, R66). -/
def Obligations.PoolEquationKept : Prop :=
  ∀ s t : State, poolBalanced s → step s = .next t → poolBalanced t

/-- Every step keeps (I-5): the bytes of a transfer in progress stay within its subscription's extent, plus the CRC of a
multi-frame one (R40). -/
def Obligations.BufferBoundsKept : Prop :=
  ∀ s t : State, buffersBounded s → step s = .next t → buffersBounded t

/-- Every step keeps the control position, the start-up flag and the place inside a phase in agreement (R22, R29, R131, R162,
R185), and the subscription table at `SUB_CAP` entries with distinct subjects (R30). -/
def Obligations.ControlAndTableKept : Prop :=
  ∀ s t : State, controlConsistent s → tableDistinct s → step s = .next t → controlConsistent t ∧ tableDistinct t

/-- Every step keeps the servo setpoints within [-1, 1] (R203, R204). -/
def Obligations.SetpointsKept : Prop :=
  ∀ s t : State, setpointsClamped s → step s = .next t → setpointsClamped t

/-- The reset state meets every invariant (R40, R41). -/
def Obligations.ResetMeetsInvariants : Prop :=
  rxqBounded State.reset ∧ rxqOrdered State.reset ∧ txqOrdered State.reset ∧ poolBalanced State.reset
    ∧ buffersBounded State.reset ∧ controlConsistent State.reset ∧ tableDistinct State.reset ∧ setpointsClamped State.reset

/-- (I-6), (I-7) and the fixed parameters (R10, R27, R33, R40, R207, R236): over any step that is not `INIT` the counters and
the clock do not decrease, and the table does not change while `started` = 1; `INIT` alone clears the counters. -/
def Obligations.CountersTableParameters : Prop :=
  ∀ s t : State, step s = .next t → t.params = s.params ∧ s.now ≤ t.now
    ∧ ((s.dropped ≤ t.dropped ∧ s.decodeErr ≤ t.decodeErr ∧ s.sup.timeouts ≤ t.sup.timeouts
        ∧ (s.started = true → t.started = true ∧ t.sub = s.sub))
      ∨ ∃ p rest left, nextMoves s = .issue p :: rest ∧ decode p = .ok (.init, left)
        ∧ t.dropped = 0 ∧ t.decodeErr = 0 ∧ t.sup.timeouts = 0 ∧ t.started = false)
end

