-- ==== Sys2Proof/Laws/State.lean ====
section
/-! SUPPORT. One lemma per field per named update of the state, so that no proof unfolds a record update. -/

namespace Sys2Proof.Laws

open Sys2Proof.Machine

/-! ## emit -/

@[simp] theorem emit_params (e : Event) (s : State) : (emit e s).params = s.params := rfl

@[simp] theorem emit_initialised (e : Event) (s : State) : (emit e s).initialised = s.initialised := rfl

@[simp] theorem emit_now (e : Event) (s : State) : (emit e s).now = s.now := rfl

@[simp] theorem emit_ctrlRx (e : Event) (s : State) : (emit e s).ctrlRx = s.ctrlRx := rfl

@[simp] theorem emit_mboxFree (e : Event) (s : State) : (emit e s).mboxFree = s.mboxFree := rfl

@[simp] theorem emit_rxq (e : Event) (s : State) : (emit e s).rxq = s.rxq := rfl

@[simp] theorem emit_dropped (e : Event) (s : State) : (emit e s).dropped = s.dropped := rfl

@[simp] theorem emit_wake (e : Event) (s : State) : (emit e s).wake = s.wake := rfl

@[simp] theorem emit_started (e : Event) (s : State) : (emit e s).started = s.started := rfl

@[simp] theorem emit_phase (e : Event) (s : State) : (emit e s).phase = s.phase := rfl

@[simp] theorem emit_midPhase (e : Event) (s : State) : (emit e s).midPhase = s.midPhase := rfl

@[simp] theorem emit_waitStart (e : Event) (s : State) : (emit e s).waitStart = s.waitStart := rfl

@[simp] theorem emit_sub (e : Event) (s : State) : (emit e s).sub = s.sub := rfl

@[simp] theorem emit_sess (e : Event) (s : State) : (emit e s).sess = s.sess := rfl

@[simp] theorem emit_decodeErr (e : Event) (s : State) : (emit e s).decodeErr = s.decodeErr := rfl

@[simp] theorem emit_poolFree (e : Event) (s : State) : (emit e s).poolFree = s.poolFree := rfl

@[simp] theorem emit_txq (e : Event) (s : State) : (emit e s).txq = s.txq := rfl

@[simp] theorem emit_popped (e : Event) (s : State) : (emit e s).popped = s.popped := rfl

@[simp] theorem emit_delivering (e : Event) (s : State) : (emit e s).delivering = s.delivering := rfl

@[simp] theorem emit_sup (e : Event) (s : State) : (emit e s).sup = s.sup := rfl

@[simp] theorem emit_schedule (e : Event) (s : State) : (emit e s).schedule = s.schedule := rfl

@[simp] theorem emit_recurring (e : Event) (s : State) : (emit e s).recurring = s.recurring := rfl

@[simp] theorem emit_log (e : Event) (s : State) : (emit e s).log = s.log ++ [e] := rfl

@[simp] theorem emit_freeCount (e : Event) (s : State) : (emit e s).freeCount = s.freeCount := rfl

/-! ## countDecodeError -/

@[simp] theorem countDecodeError_params (s : State) : (countDecodeError s).params = s.params := rfl

@[simp] theorem countDecodeError_initialised (s : State) : (countDecodeError s).initialised = s.initialised := rfl

@[simp] theorem countDecodeError_now (s : State) : (countDecodeError s).now = s.now := rfl

@[simp] theorem countDecodeError_ctrlRx (s : State) : (countDecodeError s).ctrlRx = s.ctrlRx := rfl

@[simp] theorem countDecodeError_mboxFree (s : State) : (countDecodeError s).mboxFree = s.mboxFree := rfl

@[simp] theorem countDecodeError_rxq (s : State) : (countDecodeError s).rxq = s.rxq := rfl

@[simp] theorem countDecodeError_dropped (s : State) : (countDecodeError s).dropped = s.dropped := rfl

@[simp] theorem countDecodeError_wake (s : State) : (countDecodeError s).wake = s.wake := rfl

@[simp] theorem countDecodeError_started (s : State) : (countDecodeError s).started = s.started := rfl

@[simp] theorem countDecodeError_phase (s : State) : (countDecodeError s).phase = s.phase := rfl

@[simp] theorem countDecodeError_midPhase (s : State) : (countDecodeError s).midPhase = s.midPhase := rfl

@[simp] theorem countDecodeError_waitStart (s : State) : (countDecodeError s).waitStart = s.waitStart := rfl

@[simp] theorem countDecodeError_sub (s : State) : (countDecodeError s).sub = s.sub := rfl

@[simp] theorem countDecodeError_sess (s : State) : (countDecodeError s).sess = s.sess := rfl

@[simp] theorem countDecodeError_decodeErr (s : State) : (countDecodeError s).decodeErr = satInc s.decodeErr := rfl

@[simp] theorem countDecodeError_poolFree (s : State) : (countDecodeError s).poolFree = s.poolFree := rfl

@[simp] theorem countDecodeError_txq (s : State) : (countDecodeError s).txq = s.txq := rfl

@[simp] theorem countDecodeError_popped (s : State) : (countDecodeError s).popped = s.popped := rfl

@[simp] theorem countDecodeError_delivering (s : State) : (countDecodeError s).delivering = s.delivering := rfl

@[simp] theorem countDecodeError_sup (s : State) : (countDecodeError s).sup = s.sup := rfl

@[simp] theorem countDecodeError_schedule (s : State) : (countDecodeError s).schedule = s.schedule := rfl

@[simp] theorem countDecodeError_recurring (s : State) : (countDecodeError s).recurring = s.recurring := rfl

@[simp] theorem countDecodeError_log (s : State) : (countDecodeError s).log = s.log := rfl

@[simp] theorem countDecodeError_freeCount (s : State) : (countDecodeError s).freeCount = s.freeCount := rfl

/-! ## raiseError -/

@[simp] theorem raiseError_params (e : ErrorClass) (s : State) : (raiseError e s).params = s.params := by
  cases e <;> first | rfl | (simp only [raiseError, errorEffect]; split <;> rfl)

@[simp] theorem raiseError_initialised (e : ErrorClass) (s : State) : (raiseError e s).initialised = s.initialised := by
  cases e <;> first | rfl | (simp only [raiseError, errorEffect]; split <;> rfl)

@[simp] theorem raiseError_now (e : ErrorClass) (s : State) : (raiseError e s).now = s.now := by
  cases e <;> first | rfl | (simp only [raiseError, errorEffect]; split <;> rfl)

@[simp] theorem raiseError_ctrlRx (e : ErrorClass) (s : State) : (raiseError e s).ctrlRx = s.ctrlRx := by
  cases e <;> first | rfl | (simp only [raiseError, errorEffect]; split <;> rfl)

@[simp] theorem raiseError_mboxFree (e : ErrorClass) (s : State) : (raiseError e s).mboxFree = s.mboxFree := by
  cases e <;> first | rfl | (simp only [raiseError, errorEffect]; split <;> rfl)

@[simp] theorem raiseError_rxq (e : ErrorClass) (s : State) : (raiseError e s).rxq = s.rxq := by
  cases e <;> first | rfl | (simp only [raiseError, errorEffect]; split <;> rfl)

@[simp] theorem raiseError_wake (e : ErrorClass) (s : State) : (raiseError e s).wake = s.wake := by
  cases e <;> first | rfl | (simp only [raiseError, errorEffect]; split <;> rfl)

@[simp] theorem raiseError_started (e : ErrorClass) (s : State) : (raiseError e s).started = s.started := by
  cases e <;> first | rfl | (simp only [raiseError, errorEffect]; split <;> rfl)

@[simp] theorem raiseError_phase (e : ErrorClass) (s : State) : (raiseError e s).phase = s.phase := by
  cases e <;> first | rfl | (simp only [raiseError, errorEffect]; split <;> rfl)

@[simp] theorem raiseError_midPhase (e : ErrorClass) (s : State) : (raiseError e s).midPhase = s.midPhase := by
  cases e <;> first | rfl | (simp only [raiseError, errorEffect]; split <;> rfl)

@[simp] theorem raiseError_waitStart (e : ErrorClass) (s : State) : (raiseError e s).waitStart = s.waitStart := by
  cases e <;> first | rfl | (simp only [raiseError, errorEffect]; split <;> rfl)

@[simp] theorem raiseError_sub (e : ErrorClass) (s : State) : (raiseError e s).sub = s.sub := by
  cases e <;> first | rfl | (simp only [raiseError, errorEffect]; split <;> rfl)

@[simp] theorem raiseError_sess (e : ErrorClass) (s : State) : (raiseError e s).sess = s.sess := by
  cases e <;> first | rfl | (simp only [raiseError, errorEffect]; split <;> rfl)

@[simp] theorem raiseError_poolFree (e : ErrorClass) (s : State) : (raiseError e s).poolFree = s.poolFree := by
  cases e <;> first | rfl | (simp only [raiseError, errorEffect]; split <;> rfl)

@[simp] theorem raiseError_txq (e : ErrorClass) (s : State) : (raiseError e s).txq = s.txq := by
  cases e <;> first | rfl | (simp only [raiseError, errorEffect]; split <;> rfl)

@[simp] theorem raiseError_popped (e : ErrorClass) (s : State) : (raiseError e s).popped = s.popped := by
  cases e <;> first | rfl | (simp only [raiseError, errorEffect]; split <;> rfl)

@[simp] theorem raiseError_delivering (e : ErrorClass) (s : State) : (raiseError e s).delivering = s.delivering := by
  cases e <;> first | rfl | (simp only [raiseError, errorEffect]; split <;> rfl)

@[simp] theorem raiseError_sup (e : ErrorClass) (s : State) : (raiseError e s).sup = s.sup := by
  cases e <;> first | rfl | (simp only [raiseError, errorEffect]; split <;> rfl)

@[simp] theorem raiseError_schedule (e : ErrorClass) (s : State) : (raiseError e s).schedule = s.schedule := by
  cases e <;> first | rfl | (simp only [raiseError, errorEffect]; split <;> rfl)

@[simp] theorem raiseError_recurring (e : ErrorClass) (s : State) : (raiseError e s).recurring = s.recurring := by
  cases e <;> first | rfl | (simp only [raiseError, errorEffect]; split <;> rfl)

@[simp] theorem raiseError_log (e : ErrorClass) (s : State) : (raiseError e s).log = s.log ++ [.raised e] := by
  cases e <;> first | rfl | (simp only [raiseError, errorEffect]; split <;> rfl)

@[simp] theorem raiseError_freeCount (e : ErrorClass) (s : State) : (raiseError e s).freeCount = s.freeCount := by
  cases e <;> first | rfl | (simp only [raiseError, errorEffect]; split <;> rfl)

/-! ## readCounter -/

@[simp] theorem readCounter_params (c : Count) (s : State) : (readCounter c s).params = s.params := rfl

@[simp] theorem readCounter_initialised (c : Count) (s : State) : (readCounter c s).initialised = s.initialised := rfl

@[simp] theorem readCounter_now (c : Count) (s : State) : (readCounter c s).now = s.now := rfl

@[simp] theorem readCounter_ctrlRx (c : Count) (s : State) : (readCounter c s).ctrlRx = s.ctrlRx := rfl

@[simp] theorem readCounter_mboxFree (c : Count) (s : State) : (readCounter c s).mboxFree = s.mboxFree := rfl

@[simp] theorem readCounter_rxq (c : Count) (s : State) : (readCounter c s).rxq = s.rxq := rfl

@[simp] theorem readCounter_dropped (c : Count) (s : State) : (readCounter c s).dropped = s.dropped := rfl

@[simp] theorem readCounter_wake (c : Count) (s : State) : (readCounter c s).wake = s.wake := rfl

@[simp] theorem readCounter_started (c : Count) (s : State) : (readCounter c s).started = s.started := rfl

@[simp] theorem readCounter_phase (c : Count) (s : State) : (readCounter c s).phase = s.phase := rfl

@[simp] theorem readCounter_midPhase (c : Count) (s : State) : (readCounter c s).midPhase = s.midPhase := rfl

@[simp] theorem readCounter_waitStart (c : Count) (s : State) : (readCounter c s).waitStart = s.waitStart := rfl

@[simp] theorem readCounter_sub (c : Count) (s : State) : (readCounter c s).sub = s.sub := rfl

@[simp] theorem readCounter_sess (c : Count) (s : State) : (readCounter c s).sess = s.sess := rfl

@[simp] theorem readCounter_decodeErr (c : Count) (s : State) : (readCounter c s).decodeErr = s.decodeErr := rfl

@[simp] theorem readCounter_poolFree (c : Count) (s : State) : (readCounter c s).poolFree = s.poolFree := rfl

@[simp] theorem readCounter_txq (c : Count) (s : State) : (readCounter c s).txq = s.txq := rfl

@[simp] theorem readCounter_popped (c : Count) (s : State) : (readCounter c s).popped = s.popped := rfl

@[simp] theorem readCounter_delivering (c : Count) (s : State) : (readCounter c s).delivering = s.delivering := rfl

@[simp] theorem readCounter_sup (c : Count) (s : State) : (readCounter c s).sup = s.sup := rfl

@[simp] theorem readCounter_schedule (c : Count) (s : State) : (readCounter c s).schedule = s.schedule := rfl

@[simp] theorem readCounter_recurring (c : Count) (s : State) : (readCounter c s).recurring = s.recurring := rfl

@[simp] theorem readCounter_log (c : Count) (s : State) : (readCounter c s).log = s.log ++ [.result (.counter c)] := rfl

@[simp] theorem readCounter_freeCount (c : Count) (s : State) : (readCounter c s).freeCount = s.freeCount := rfl

/-! ## poolFreeOne -/

@[simp] theorem poolFreeOne_params (s : State) : (poolFreeOne s).params = s.params := rfl

@[simp] theorem poolFreeOne_initialised (s : State) : (poolFreeOne s).initialised = s.initialised := rfl

@[simp] theorem poolFreeOne_now (s : State) : (poolFreeOne s).now = s.now := rfl

@[simp] theorem poolFreeOne_ctrlRx (s : State) : (poolFreeOne s).ctrlRx = s.ctrlRx := rfl

@[simp] theorem poolFreeOne_mboxFree (s : State) : (poolFreeOne s).mboxFree = s.mboxFree := rfl

@[simp] theorem poolFreeOne_rxq (s : State) : (poolFreeOne s).rxq = s.rxq := rfl

@[simp] theorem poolFreeOne_dropped (s : State) : (poolFreeOne s).dropped = s.dropped := rfl

@[simp] theorem poolFreeOne_wake (s : State) : (poolFreeOne s).wake = s.wake := rfl

@[simp] theorem poolFreeOne_started (s : State) : (poolFreeOne s).started = s.started := rfl

@[simp] theorem poolFreeOne_phase (s : State) : (poolFreeOne s).phase = s.phase := rfl

@[simp] theorem poolFreeOne_midPhase (s : State) : (poolFreeOne s).midPhase = s.midPhase := rfl

@[simp] theorem poolFreeOne_waitStart (s : State) : (poolFreeOne s).waitStart = s.waitStart := rfl

@[simp] theorem poolFreeOne_sub (s : State) : (poolFreeOne s).sub = s.sub := rfl

@[simp] theorem poolFreeOne_sess (s : State) : (poolFreeOne s).sess = s.sess := rfl

@[simp] theorem poolFreeOne_decodeErr (s : State) : (poolFreeOne s).decodeErr = s.decodeErr := rfl

@[simp] theorem poolFreeOne_poolFree (s : State) : (poolFreeOne s).poolFree = s.poolFree + 1 := rfl

@[simp] theorem poolFreeOne_txq (s : State) : (poolFreeOne s).txq = s.txq := rfl

@[simp] theorem poolFreeOne_popped (s : State) : (poolFreeOne s).popped = s.popped := rfl

@[simp] theorem poolFreeOne_delivering (s : State) : (poolFreeOne s).delivering = s.delivering := rfl

@[simp] theorem poolFreeOne_sup (s : State) : (poolFreeOne s).sup = s.sup := rfl

@[simp] theorem poolFreeOne_schedule (s : State) : (poolFreeOne s).schedule = s.schedule := rfl

@[simp] theorem poolFreeOne_recurring (s : State) : (poolFreeOne s).recurring = s.recurring := rfl

@[simp] theorem poolFreeOne_log (s : State) : (poolFreeOne s).log = s.log := rfl

@[simp] theorem poolFreeOne_freeCount (s : State) : (poolFreeOne s).freeCount = s.freeCount := rfl

/-! ## slotWrite -/

@[simp] theorem slotWrite_params (f : Frame) (s : State) : (slotWrite f s).params = s.params := rfl

@[simp] theorem slotWrite_initialised (f : Frame) (s : State) : (slotWrite f s).initialised = s.initialised := rfl

@[simp] theorem slotWrite_now (f : Frame) (s : State) : (slotWrite f s).now = s.now := rfl

@[simp] theorem slotWrite_ctrlRx (f : Frame) (s : State) : (slotWrite f s).ctrlRx = s.ctrlRx := rfl

@[simp] theorem slotWrite_mboxFree (f : Frame) (s : State) : (slotWrite f s).mboxFree = s.mboxFree := rfl

@[simp] theorem slotWrite_rxq (f : Frame) (s : State) : (slotWrite f s).rxq = s.rxq ++ [f] := rfl

@[simp] theorem slotWrite_dropped (f : Frame) (s : State) : (slotWrite f s).dropped = s.dropped := rfl

@[simp] theorem slotWrite_wake (f : Frame) (s : State) : (slotWrite f s).wake = s.wake := rfl

@[simp] theorem slotWrite_started (f : Frame) (s : State) : (slotWrite f s).started = s.started := rfl

@[simp] theorem slotWrite_phase (f : Frame) (s : State) : (slotWrite f s).phase = s.phase := rfl

@[simp] theorem slotWrite_midPhase (f : Frame) (s : State) : (slotWrite f s).midPhase = s.midPhase := rfl

@[simp] theorem slotWrite_waitStart (f : Frame) (s : State) : (slotWrite f s).waitStart = s.waitStart := rfl

@[simp] theorem slotWrite_sub (f : Frame) (s : State) : (slotWrite f s).sub = s.sub := rfl

@[simp] theorem slotWrite_sess (f : Frame) (s : State) : (slotWrite f s).sess = s.sess := rfl

@[simp] theorem slotWrite_decodeErr (f : Frame) (s : State) : (slotWrite f s).decodeErr = s.decodeErr := rfl

@[simp] theorem slotWrite_poolFree (f : Frame) (s : State) : (slotWrite f s).poolFree = s.poolFree := rfl

@[simp] theorem slotWrite_txq (f : Frame) (s : State) : (slotWrite f s).txq = s.txq := rfl

@[simp] theorem slotWrite_popped (f : Frame) (s : State) : (slotWrite f s).popped = s.popped := rfl

@[simp] theorem slotWrite_delivering (f : Frame) (s : State) : (slotWrite f s).delivering = s.delivering := rfl

@[simp] theorem slotWrite_sup (f : Frame) (s : State) : (slotWrite f s).sup = s.sup := rfl

@[simp] theorem slotWrite_schedule (f : Frame) (s : State) : (slotWrite f s).schedule = s.schedule := rfl

@[simp] theorem slotWrite_recurring (f : Frame) (s : State) : (slotWrite f s).recurring = s.recurring := rfl

@[simp] theorem slotWrite_log (f : Frame) (s : State) : (slotWrite f s).log = s.log := rfl

@[simp] theorem slotWrite_freeCount (f : Frame) (s : State) : (slotWrite f s).freeCount = s.freeCount := rfl

/-! ## putSession -/

@[simp] theorem putSession_params (key : Nat) (v : Session) (s : State) : (putSession key v s).params = s.params := rfl

@[simp] theorem putSession_initialised (key : Nat) (v : Session) (s : State) : (putSession key v s).initialised = s.initialised := rfl

@[simp] theorem putSession_now (key : Nat) (v : Session) (s : State) : (putSession key v s).now = s.now := rfl

@[simp] theorem putSession_ctrlRx (key : Nat) (v : Session) (s : State) : (putSession key v s).ctrlRx = s.ctrlRx := rfl

@[simp] theorem putSession_mboxFree (key : Nat) (v : Session) (s : State) : (putSession key v s).mboxFree = s.mboxFree := rfl

@[simp] theorem putSession_rxq (key : Nat) (v : Session) (s : State) : (putSession key v s).rxq = s.rxq := rfl

@[simp] theorem putSession_dropped (key : Nat) (v : Session) (s : State) : (putSession key v s).dropped = s.dropped := rfl

@[simp] theorem putSession_wake (key : Nat) (v : Session) (s : State) : (putSession key v s).wake = s.wake := rfl

@[simp] theorem putSession_started (key : Nat) (v : Session) (s : State) : (putSession key v s).started = s.started := rfl

@[simp] theorem putSession_phase (key : Nat) (v : Session) (s : State) : (putSession key v s).phase = s.phase := rfl

@[simp] theorem putSession_midPhase (key : Nat) (v : Session) (s : State) : (putSession key v s).midPhase = s.midPhase := rfl

@[simp] theorem putSession_waitStart (key : Nat) (v : Session) (s : State) : (putSession key v s).waitStart = s.waitStart := rfl

@[simp] theorem putSession_sub (key : Nat) (v : Session) (s : State) : (putSession key v s).sub = s.sub := rfl

@[simp] theorem putSession_sess (key : Nat) (v : Session) (s : State) : (putSession key v s).sess = sessSet s.sess key v := rfl

@[simp] theorem putSession_decodeErr (key : Nat) (v : Session) (s : State) : (putSession key v s).decodeErr = s.decodeErr := rfl

@[simp] theorem putSession_poolFree (key : Nat) (v : Session) (s : State) : (putSession key v s).poolFree = s.poolFree := rfl

@[simp] theorem putSession_txq (key : Nat) (v : Session) (s : State) : (putSession key v s).txq = s.txq := rfl

@[simp] theorem putSession_popped (key : Nat) (v : Session) (s : State) : (putSession key v s).popped = s.popped := rfl

@[simp] theorem putSession_delivering (key : Nat) (v : Session) (s : State) : (putSession key v s).delivering = s.delivering := rfl

@[simp] theorem putSession_sup (key : Nat) (v : Session) (s : State) : (putSession key v s).sup = s.sup := rfl

@[simp] theorem putSession_schedule (key : Nat) (v : Session) (s : State) : (putSession key v s).schedule = s.schedule := rfl

@[simp] theorem putSession_recurring (key : Nat) (v : Session) (s : State) : (putSession key v s).recurring = s.recurring := rfl

@[simp] theorem putSession_log (key : Nat) (v : Session) (s : State) : (putSession key v s).log = s.log := rfl

@[simp] theorem putSession_freeCount (key : Nat) (v : Session) (s : State) : (putSession key v s).freeCount = s.freeCount := rfl

/-! ## abandon -/

@[simp] theorem abandon_params (key : Nat) (s : State) : (abandon key s).params = s.params := by
  unfold abandon; split <;> rfl

@[simp] theorem abandon_initialised (key : Nat) (s : State) : (abandon key s).initialised = s.initialised := by
  unfold abandon; split <;> rfl

@[simp] theorem abandon_now (key : Nat) (s : State) : (abandon key s).now = s.now := by
  unfold abandon; split <;> rfl

@[simp] theorem abandon_ctrlRx (key : Nat) (s : State) : (abandon key s).ctrlRx = s.ctrlRx := by
  unfold abandon; split <;> rfl

@[simp] theorem abandon_mboxFree (key : Nat) (s : State) : (abandon key s).mboxFree = s.mboxFree := by
  unfold abandon; split <;> rfl

@[simp] theorem abandon_rxq (key : Nat) (s : State) : (abandon key s).rxq = s.rxq := by
  unfold abandon; split <;> rfl

@[simp] theorem abandon_dropped (key : Nat) (s : State) : (abandon key s).dropped = s.dropped := by
  unfold abandon; split <;> rfl

@[simp] theorem abandon_wake (key : Nat) (s : State) : (abandon key s).wake = s.wake := by
  unfold abandon; split <;> rfl

@[simp] theorem abandon_started (key : Nat) (s : State) : (abandon key s).started = s.started := by
  unfold abandon; split <;> rfl

@[simp] theorem abandon_phase (key : Nat) (s : State) : (abandon key s).phase = s.phase := by
  unfold abandon; split <;> rfl

@[simp] theorem abandon_midPhase (key : Nat) (s : State) : (abandon key s).midPhase = s.midPhase := by
  unfold abandon; split <;> rfl

@[simp] theorem abandon_waitStart (key : Nat) (s : State) : (abandon key s).waitStart = s.waitStart := by
  unfold abandon; split <;> rfl

@[simp] theorem abandon_sub (key : Nat) (s : State) : (abandon key s).sub = s.sub := by
  unfold abandon; split <;> rfl

@[simp] theorem abandon_decodeErr (key : Nat) (s : State) : (abandon key s).decodeErr = s.decodeErr := by
  unfold abandon; split <;> rfl

@[simp] theorem abandon_txq (key : Nat) (s : State) : (abandon key s).txq = s.txq := by
  unfold abandon; split <;> rfl

@[simp] theorem abandon_popped (key : Nat) (s : State) : (abandon key s).popped = s.popped := by
  unfold abandon; split <;> rfl

@[simp] theorem abandon_delivering (key : Nat) (s : State) : (abandon key s).delivering = s.delivering := by
  unfold abandon; split <;> rfl

@[simp] theorem abandon_sup (key : Nat) (s : State) : (abandon key s).sup = s.sup := by
  unfold abandon; split <;> rfl

@[simp] theorem abandon_schedule (key : Nat) (s : State) : (abandon key s).schedule = s.schedule := by
  unfold abandon; split <;> rfl

@[simp] theorem abandon_recurring (key : Nat) (s : State) : (abandon key s).recurring = s.recurring := by
  unfold abandon; split <;> rfl

@[simp] theorem abandon_log (key : Nat) (s : State) : (abandon key s).log = s.log := by
  unfold abandon; split <;> rfl

@[simp] theorem abandon_freeCount (key : Nat) (s : State) : (abandon key s).freeCount = s.freeCount := by
  unfold abandon; split <;> rfl

/-! ## handOver -/

@[simp] theorem handOver_params (d : Delivery) (s : State) : (handOver d s).params = s.params := rfl

@[simp] theorem handOver_initialised (d : Delivery) (s : State) : (handOver d s).initialised = s.initialised := rfl

@[simp] theorem handOver_now (d : Delivery) (s : State) : (handOver d s).now = s.now := rfl

@[simp] theorem handOver_ctrlRx (d : Delivery) (s : State) : (handOver d s).ctrlRx = s.ctrlRx := rfl

@[simp] theorem handOver_mboxFree (d : Delivery) (s : State) : (handOver d s).mboxFree = s.mboxFree := rfl

@[simp] theorem handOver_rxq (d : Delivery) (s : State) : (handOver d s).rxq = s.rxq := rfl

@[simp] theorem handOver_dropped (d : Delivery) (s : State) : (handOver d s).dropped = s.dropped := rfl

@[simp] theorem handOver_wake (d : Delivery) (s : State) : (handOver d s).wake = s.wake := rfl

@[simp] theorem handOver_started (d : Delivery) (s : State) : (handOver d s).started = s.started := rfl

@[simp] theorem handOver_phase (d : Delivery) (s : State) : (handOver d s).phase = s.phase := rfl

@[simp] theorem handOver_midPhase (d : Delivery) (s : State) : (handOver d s).midPhase = s.midPhase := rfl

@[simp] theorem handOver_waitStart (d : Delivery) (s : State) : (handOver d s).waitStart = s.waitStart := rfl

@[simp] theorem handOver_sub (d : Delivery) (s : State) : (handOver d s).sub = s.sub := rfl

@[simp] theorem handOver_sess (d : Delivery) (s : State) : (handOver d s).sess = s.sess := rfl

@[simp] theorem handOver_decodeErr (d : Delivery) (s : State) : (handOver d s).decodeErr = s.decodeErr := rfl

@[simp] theorem handOver_poolFree (d : Delivery) (s : State) : (handOver d s).poolFree = s.poolFree := rfl

@[simp] theorem handOver_txq (d : Delivery) (s : State) : (handOver d s).txq = s.txq := rfl

@[simp] theorem handOver_popped (d : Delivery) (s : State) : (handOver d s).popped = s.popped := rfl

@[simp] theorem handOver_delivering (d : Delivery) (s : State) : (handOver d s).delivering = some d := rfl

@[simp] theorem handOver_sup (d : Delivery) (s : State) : (handOver d s).sup = s.sup := rfl

@[simp] theorem handOver_schedule (d : Delivery) (s : State) : (handOver d s).schedule = s.schedule := rfl

@[simp] theorem handOver_recurring (d : Delivery) (s : State) : (handOver d s).recurring = s.recurring := rfl

@[simp] theorem handOver_log (d : Delivery) (s : State) : (handOver d s).log = s.log := rfl

@[simp] theorem handOver_freeCount (d : Delivery) (s : State) : (handOver d s).freeCount = s.freeCount := rfl

/-! ## signalWake -/

@[simp] theorem signalWake_params (s : State) : (signalWake s).params = s.params := rfl

@[simp] theorem signalWake_initialised (s : State) : (signalWake s).initialised = s.initialised := rfl

@[simp] theorem signalWake_now (s : State) : (signalWake s).now = s.now := rfl

@[simp] theorem signalWake_ctrlRx (s : State) : (signalWake s).ctrlRx = s.ctrlRx := rfl

@[simp] theorem signalWake_mboxFree (s : State) : (signalWake s).mboxFree = s.mboxFree := rfl

@[simp] theorem signalWake_rxq (s : State) : (signalWake s).rxq = s.rxq := rfl

@[simp] theorem signalWake_dropped (s : State) : (signalWake s).dropped = s.dropped := rfl

@[simp] theorem signalWake_wake (s : State) : (signalWake s).wake = true := rfl

@[simp] theorem signalWake_started (s : State) : (signalWake s).started = s.started := rfl

@[simp] theorem signalWake_phase (s : State) : (signalWake s).phase = s.phase := rfl

@[simp] theorem signalWake_midPhase (s : State) : (signalWake s).midPhase = s.midPhase := rfl

@[simp] theorem signalWake_waitStart (s : State) : (signalWake s).waitStart = s.waitStart := rfl

@[simp] theorem signalWake_sub (s : State) : (signalWake s).sub = s.sub := rfl

@[simp] theorem signalWake_sess (s : State) : (signalWake s).sess = s.sess := rfl

@[simp] theorem signalWake_decodeErr (s : State) : (signalWake s).decodeErr = s.decodeErr := rfl

@[simp] theorem signalWake_poolFree (s : State) : (signalWake s).poolFree = s.poolFree := rfl

@[simp] theorem signalWake_txq (s : State) : (signalWake s).txq = s.txq := rfl

@[simp] theorem signalWake_popped (s : State) : (signalWake s).popped = s.popped := rfl

@[simp] theorem signalWake_delivering (s : State) : (signalWake s).delivering = s.delivering := rfl

@[simp] theorem signalWake_sup (s : State) : (signalWake s).sup = s.sup := rfl

@[simp] theorem signalWake_schedule (s : State) : (signalWake s).schedule = s.schedule := rfl

@[simp] theorem signalWake_recurring (s : State) : (signalWake s).recurring = s.recurring := rfl

@[simp] theorem signalWake_log (s : State) : (signalWake s).log = s.log := rfl

@[simp] theorem signalWake_freeCount (s : State) : (signalWake s).freeCount = s.freeCount := rfl

/-! ## clearWake -/

@[simp] theorem clearWake_params (s : State) : (clearWake s).params = s.params := rfl

@[simp] theorem clearWake_initialised (s : State) : (clearWake s).initialised = s.initialised := rfl

@[simp] theorem clearWake_now (s : State) : (clearWake s).now = s.now := rfl

@[simp] theorem clearWake_ctrlRx (s : State) : (clearWake s).ctrlRx = s.ctrlRx := rfl

@[simp] theorem clearWake_mboxFree (s : State) : (clearWake s).mboxFree = s.mboxFree := rfl

@[simp] theorem clearWake_rxq (s : State) : (clearWake s).rxq = s.rxq := rfl

@[simp] theorem clearWake_dropped (s : State) : (clearWake s).dropped = s.dropped := rfl

@[simp] theorem clearWake_wake (s : State) : (clearWake s).wake = false := rfl

@[simp] theorem clearWake_started (s : State) : (clearWake s).started = s.started := rfl

@[simp] theorem clearWake_phase (s : State) : (clearWake s).phase = s.phase := rfl

@[simp] theorem clearWake_midPhase (s : State) : (clearWake s).midPhase = s.midPhase := rfl

@[simp] theorem clearWake_waitStart (s : State) : (clearWake s).waitStart = s.waitStart := rfl

@[simp] theorem clearWake_sub (s : State) : (clearWake s).sub = s.sub := rfl

@[simp] theorem clearWake_sess (s : State) : (clearWake s).sess = s.sess := rfl

@[simp] theorem clearWake_decodeErr (s : State) : (clearWake s).decodeErr = s.decodeErr := rfl

@[simp] theorem clearWake_poolFree (s : State) : (clearWake s).poolFree = s.poolFree := rfl

@[simp] theorem clearWake_txq (s : State) : (clearWake s).txq = s.txq := rfl

@[simp] theorem clearWake_popped (s : State) : (clearWake s).popped = s.popped := rfl

@[simp] theorem clearWake_delivering (s : State) : (clearWake s).delivering = s.delivering := rfl

@[simp] theorem clearWake_sup (s : State) : (clearWake s).sup = s.sup := rfl

@[simp] theorem clearWake_schedule (s : State) : (clearWake s).schedule = s.schedule := rfl

@[simp] theorem clearWake_recurring (s : State) : (clearWake s).recurring = s.recurring := rfl

@[simp] theorem clearWake_log (s : State) : (clearWake s).log = s.log := rfl

@[simp] theorem clearWake_freeCount (s : State) : (clearWake s).freeCount = s.freeCount := rfl

/-! ## enterPhase -/

@[simp] theorem enterPhase_params (p : Phase) (s : State) : (enterPhase p s).params = s.params := rfl

@[simp] theorem enterPhase_initialised (p : Phase) (s : State) : (enterPhase p s).initialised = s.initialised := rfl

@[simp] theorem enterPhase_now (p : Phase) (s : State) : (enterPhase p s).now = s.now := rfl

@[simp] theorem enterPhase_ctrlRx (p : Phase) (s : State) : (enterPhase p s).ctrlRx = s.ctrlRx := rfl

@[simp] theorem enterPhase_mboxFree (p : Phase) (s : State) : (enterPhase p s).mboxFree = s.mboxFree := rfl

@[simp] theorem enterPhase_rxq (p : Phase) (s : State) : (enterPhase p s).rxq = s.rxq := rfl

@[simp] theorem enterPhase_dropped (p : Phase) (s : State) : (enterPhase p s).dropped = s.dropped := rfl

@[simp] theorem enterPhase_wake (p : Phase) (s : State) : (enterPhase p s).wake = s.wake := rfl

@[simp] theorem enterPhase_started (p : Phase) (s : State) : (enterPhase p s).started = s.started := rfl

@[simp] theorem enterPhase_phase (p : Phase) (s : State) : (enterPhase p s).phase = p := rfl

@[simp] theorem enterPhase_midPhase (p : Phase) (s : State) : (enterPhase p s).midPhase = false := rfl

@[simp] theorem enterPhase_waitStart (p : Phase) (s : State) : (enterPhase p s).waitStart = s.waitStart := rfl

@[simp] theorem enterPhase_sub (p : Phase) (s : State) : (enterPhase p s).sub = s.sub := rfl

@[simp] theorem enterPhase_sess (p : Phase) (s : State) : (enterPhase p s).sess = s.sess := rfl

@[simp] theorem enterPhase_decodeErr (p : Phase) (s : State) : (enterPhase p s).decodeErr = s.decodeErr := rfl

@[simp] theorem enterPhase_poolFree (p : Phase) (s : State) : (enterPhase p s).poolFree = s.poolFree := rfl

@[simp] theorem enterPhase_txq (p : Phase) (s : State) : (enterPhase p s).txq = s.txq := rfl

@[simp] theorem enterPhase_popped (p : Phase) (s : State) : (enterPhase p s).popped = s.popped := rfl

@[simp] theorem enterPhase_delivering (p : Phase) (s : State) : (enterPhase p s).delivering = s.delivering := rfl

@[simp] theorem enterPhase_sup (p : Phase) (s : State) : (enterPhase p s).sup = s.sup := rfl

@[simp] theorem enterPhase_schedule (p : Phase) (s : State) : (enterPhase p s).schedule = s.schedule := rfl

@[simp] theorem enterPhase_recurring (p : Phase) (s : State) : (enterPhase p s).recurring = s.recurring := rfl

@[simp] theorem enterPhase_log (p : Phase) (s : State) : (enterPhase p s).log = s.log := rfl

@[simp] theorem enterPhase_freeCount (p : Phase) (s : State) : (enterPhase p s).freeCount = s.freeCount := rfl

/-! ## beginCycle -/

@[simp] theorem beginCycle_params (s : State) : (beginCycle s).params = s.params := rfl

@[simp] theorem beginCycle_initialised (s : State) : (beginCycle s).initialised = s.initialised := rfl

@[simp] theorem beginCycle_now (s : State) : (beginCycle s).now = s.now := rfl

@[simp] theorem beginCycle_ctrlRx (s : State) : (beginCycle s).ctrlRx = s.ctrlRx := rfl

@[simp] theorem beginCycle_mboxFree (s : State) : (beginCycle s).mboxFree = s.mboxFree := rfl

@[simp] theorem beginCycle_rxq (s : State) : (beginCycle s).rxq = s.rxq := rfl

@[simp] theorem beginCycle_dropped (s : State) : (beginCycle s).dropped = s.dropped := rfl

@[simp] theorem beginCycle_wake (s : State) : (beginCycle s).wake = false := rfl

@[simp] theorem beginCycle_started (s : State) : (beginCycle s).started = s.started := rfl

@[simp] theorem beginCycle_phase (s : State) : (beginCycle s).phase = .drainRx := rfl

@[simp] theorem beginCycle_midPhase (s : State) : (beginCycle s).midPhase = false := rfl

@[simp] theorem beginCycle_waitStart (s : State) : (beginCycle s).waitStart = s.waitStart := rfl

@[simp] theorem beginCycle_sub (s : State) : (beginCycle s).sub = s.sub := rfl

@[simp] theorem beginCycle_sess (s : State) : (beginCycle s).sess = s.sess := rfl

@[simp] theorem beginCycle_decodeErr (s : State) : (beginCycle s).decodeErr = s.decodeErr := rfl

@[simp] theorem beginCycle_poolFree (s : State) : (beginCycle s).poolFree = s.poolFree := rfl

@[simp] theorem beginCycle_txq (s : State) : (beginCycle s).txq = s.txq := rfl

@[simp] theorem beginCycle_popped (s : State) : (beginCycle s).popped = none := rfl

@[simp] theorem beginCycle_delivering (s : State) : (beginCycle s).delivering = s.delivering := rfl

@[simp] theorem beginCycle_sup (s : State) : (beginCycle s).sup = s.sup := rfl

@[simp] theorem beginCycle_schedule (s : State) : (beginCycle s).schedule = s.schedule := rfl

@[simp] theorem beginCycle_recurring (s : State) : (beginCycle s).recurring = s.recurring := rfl

@[simp] theorem beginCycle_log (s : State) : (beginCycle s).log = s.log := rfl

@[simp] theorem beginCycle_freeCount (s : State) : (beginCycle s).freeCount = s.freeCount := rfl

/-! ## endCycle -/

@[simp] theorem endCycle_params (s : State) : (endCycle s).params = s.params := rfl

@[simp] theorem endCycle_initialised (s : State) : (endCycle s).initialised = s.initialised := rfl

@[simp] theorem endCycle_now (s : State) : (endCycle s).now = s.now := rfl

@[simp] theorem endCycle_ctrlRx (s : State) : (endCycle s).ctrlRx = s.ctrlRx := rfl

@[simp] theorem endCycle_mboxFree (s : State) : (endCycle s).mboxFree = s.mboxFree := rfl

@[simp] theorem endCycle_rxq (s : State) : (endCycle s).rxq = s.rxq := rfl

@[simp] theorem endCycle_dropped (s : State) : (endCycle s).dropped = s.dropped := rfl

@[simp] theorem endCycle_wake (s : State) : (endCycle s).wake = s.wake := rfl

@[simp] theorem endCycle_started (s : State) : (endCycle s).started = s.started := rfl

@[simp] theorem endCycle_phase (s : State) : (endCycle s).phase = .wait := rfl

@[simp] theorem endCycle_midPhase (s : State) : (endCycle s).midPhase = false := rfl

@[simp] theorem endCycle_waitStart (s : State) : (endCycle s).waitStart = s.now := rfl

@[simp] theorem endCycle_sub (s : State) : (endCycle s).sub = s.sub := rfl

@[simp] theorem endCycle_sess (s : State) : (endCycle s).sess = s.sess := rfl

@[simp] theorem endCycle_decodeErr (s : State) : (endCycle s).decodeErr = s.decodeErr := rfl

@[simp] theorem endCycle_poolFree (s : State) : (endCycle s).poolFree = s.poolFree := rfl

@[simp] theorem endCycle_txq (s : State) : (endCycle s).txq = s.txq := rfl

@[simp] theorem endCycle_popped (s : State) : (endCycle s).popped = s.popped := rfl

@[simp] theorem endCycle_delivering (s : State) : (endCycle s).delivering = s.delivering := rfl

@[simp] theorem endCycle_sup (s : State) : (endCycle s).sup = s.sup := rfl

@[simp] theorem endCycle_schedule (s : State) : (endCycle s).schedule = s.schedule := rfl

@[simp] theorem endCycle_recurring (s : State) : (endCycle s).recurring = s.recurring := rfl

@[simp] theorem endCycle_log (s : State) : (endCycle s).log = s.log := rfl

@[simp] theorem endCycle_freeCount (s : State) : (endCycle s).freeCount = s.freeCount := rfl

/-! ## dropHead -/

@[simp] theorem dropHead_params (s : State) : (dropHead s).params = s.params := rfl

@[simp] theorem dropHead_initialised (s : State) : (dropHead s).initialised = s.initialised := rfl

@[simp] theorem dropHead_now (s : State) : (dropHead s).now = s.now := rfl

@[simp] theorem dropHead_ctrlRx (s : State) : (dropHead s).ctrlRx = s.ctrlRx := rfl

@[simp] theorem dropHead_mboxFree (s : State) : (dropHead s).mboxFree = s.mboxFree := rfl

@[simp] theorem dropHead_rxq (s : State) : (dropHead s).rxq = s.rxq := rfl

@[simp] theorem dropHead_dropped (s : State) : (dropHead s).dropped = s.dropped := rfl

@[simp] theorem dropHead_wake (s : State) : (dropHead s).wake = s.wake := rfl

@[simp] theorem dropHead_started (s : State) : (dropHead s).started = s.started := rfl

@[simp] theorem dropHead_phase (s : State) : (dropHead s).phase = s.phase := rfl

@[simp] theorem dropHead_midPhase (s : State) : (dropHead s).midPhase = s.midPhase := rfl

@[simp] theorem dropHead_waitStart (s : State) : (dropHead s).waitStart = s.waitStart := rfl

@[simp] theorem dropHead_sub (s : State) : (dropHead s).sub = s.sub := rfl

@[simp] theorem dropHead_sess (s : State) : (dropHead s).sess = s.sess := rfl

@[simp] theorem dropHead_decodeErr (s : State) : (dropHead s).decodeErr = s.decodeErr := rfl

@[simp] theorem dropHead_poolFree (s : State) : (dropHead s).poolFree = s.poolFree + 1 := rfl

@[simp] theorem dropHead_txq (s : State) : (dropHead s).txq = s.txq.tail := rfl

@[simp] theorem dropHead_popped (s : State) : (dropHead s).popped = s.popped := rfl

@[simp] theorem dropHead_delivering (s : State) : (dropHead s).delivering = s.delivering := rfl

@[simp] theorem dropHead_sup (s : State) : (dropHead s).sup = s.sup := rfl

@[simp] theorem dropHead_schedule (s : State) : (dropHead s).schedule = s.schedule := rfl

@[simp] theorem dropHead_recurring (s : State) : (dropHead s).recurring = s.recurring := rfl

@[simp] theorem dropHead_log (s : State) : (dropHead s).log = s.log := rfl

@[simp] theorem dropHead_freeCount (s : State) : (dropHead s).freeCount = s.freeCount := rfl

/-! ## takeScript -/

@[simp] theorem takeScript_params (sc : HandlerScript) (s : State) : (takeScript sc s).params = s.params := by
  cases sc <;> rfl

@[simp] theorem takeScript_initialised (sc : HandlerScript) (s : State) : (takeScript sc s).initialised = s.initialised := by
  cases sc <;> rfl

@[simp] theorem takeScript_now (sc : HandlerScript) (s : State) : (takeScript sc s).now = s.now := by
  cases sc <;> rfl

@[simp] theorem takeScript_ctrlRx (sc : HandlerScript) (s : State) : (takeScript sc s).ctrlRx = s.ctrlRx := by
  cases sc <;> rfl

@[simp] theorem takeScript_mboxFree (sc : HandlerScript) (s : State) : (takeScript sc s).mboxFree = s.mboxFree := by
  cases sc <;> rfl

@[simp] theorem takeScript_rxq (sc : HandlerScript) (s : State) : (takeScript sc s).rxq = s.rxq := by
  cases sc <;> rfl

@[simp] theorem takeScript_dropped (sc : HandlerScript) (s : State) : (takeScript sc s).dropped = s.dropped := by
  cases sc <;> rfl

@[simp] theorem takeScript_wake (sc : HandlerScript) (s : State) : (takeScript sc s).wake = s.wake := by
  cases sc <;> rfl

@[simp] theorem takeScript_started (sc : HandlerScript) (s : State) : (takeScript sc s).started = s.started := by
  cases sc <;> rfl

@[simp] theorem takeScript_phase (sc : HandlerScript) (s : State) : (takeScript sc s).phase = s.phase := by
  cases sc <;> rfl

@[simp] theorem takeScript_midPhase (sc : HandlerScript) (s : State) : (takeScript sc s).midPhase = s.midPhase := by
  cases sc <;> rfl

@[simp] theorem takeScript_waitStart (sc : HandlerScript) (s : State) : (takeScript sc s).waitStart = s.waitStart := by
  cases sc <;> rfl

@[simp] theorem takeScript_sub (sc : HandlerScript) (s : State) : (takeScript sc s).sub = s.sub := by
  cases sc <;> rfl

@[simp] theorem takeScript_sess (sc : HandlerScript) (s : State) : (takeScript sc s).sess = s.sess := by
  cases sc <;> rfl

@[simp] theorem takeScript_decodeErr (sc : HandlerScript) (s : State) : (takeScript sc s).decodeErr = s.decodeErr := by
  cases sc <;> rfl

@[simp] theorem takeScript_poolFree (sc : HandlerScript) (s : State) : (takeScript sc s).poolFree = s.poolFree := by
  cases sc <;> rfl

@[simp] theorem takeScript_txq (sc : HandlerScript) (s : State) : (takeScript sc s).txq = s.txq := by
  cases sc <;> rfl

@[simp] theorem takeScript_popped (sc : HandlerScript) (s : State) : (takeScript sc s).popped = s.popped := by
  cases sc <;> rfl

@[simp] theorem takeScript_delivering (sc : HandlerScript) (s : State) : (takeScript sc s).delivering = s.delivering := by
  cases sc <;> rfl

@[simp] theorem takeScript_sup (sc : HandlerScript) (s : State) : (takeScript sc s).sup = s.sup := by
  cases sc <;> rfl

@[simp] theorem takeScript_schedule (sc : HandlerScript) (s : State) : (takeScript sc s).schedule = s.schedule := by
  cases sc <;> rfl

@[simp] theorem takeScript_recurring (sc : HandlerScript) (s : State) : (takeScript sc s).recurring = s.recurring := by
  cases sc <;> rfl

@[simp] theorem takeScript_log (sc : HandlerScript) (s : State) : (takeScript sc s).log = s.log := by
  cases sc <;> rfl

/-! ## popFrame -/

@[simp] theorem popFrame_params (s : State) : (popFrame s).params = s.params := by
  unfold popFrame; split <;> simp_all

@[simp] theorem popFrame_initialised (s : State) : (popFrame s).initialised = s.initialised := by
  unfold popFrame; split <;> simp_all

@[simp] theorem popFrame_now (s : State) : (popFrame s).now = s.now := by
  unfold popFrame; split <;> simp_all

@[simp] theorem popFrame_ctrlRx (s : State) : (popFrame s).ctrlRx = s.ctrlRx := by
  unfold popFrame; split <;> simp_all

@[simp] theorem popFrame_mboxFree (s : State) : (popFrame s).mboxFree = s.mboxFree := by
  unfold popFrame; split <;> simp_all

@[simp] theorem popFrame_rxq (s : State) : (popFrame s).rxq = s.rxq.tail := by
  unfold popFrame; split <;> simp_all

@[simp] theorem popFrame_dropped (s : State) : (popFrame s).dropped = s.dropped := by
  unfold popFrame; split <;> simp_all

@[simp] theorem popFrame_wake (s : State) : (popFrame s).wake = s.wake := by
  unfold popFrame; split <;> simp_all

@[simp] theorem popFrame_started (s : State) : (popFrame s).started = s.started := by
  unfold popFrame; split <;> simp_all

@[simp] theorem popFrame_phase (s : State) : (popFrame s).phase = s.phase := by
  unfold popFrame; split <;> simp_all

@[simp] theorem popFrame_midPhase (s : State) : (popFrame s).midPhase = s.midPhase := by
  unfold popFrame; split <;> simp_all

@[simp] theorem popFrame_waitStart (s : State) : (popFrame s).waitStart = s.waitStart := by
  unfold popFrame; split <;> simp_all

@[simp] theorem popFrame_sub (s : State) : (popFrame s).sub = s.sub := by
  unfold popFrame; split <;> simp_all

@[simp] theorem popFrame_sess (s : State) : (popFrame s).sess = s.sess := by
  unfold popFrame; split <;> simp_all

@[simp] theorem popFrame_decodeErr (s : State) : (popFrame s).decodeErr = s.decodeErr := by
  unfold popFrame; split <;> simp_all

@[simp] theorem popFrame_poolFree (s : State) : (popFrame s).poolFree = s.poolFree := by
  unfold popFrame; split <;> simp_all

@[simp] theorem popFrame_txq (s : State) : (popFrame s).txq = s.txq := by
  unfold popFrame; split <;> simp_all

@[simp] theorem popFrame_popped (s : State) : (popFrame s).popped = s.rxq.head? := by
  unfold popFrame; split <;> simp_all

@[simp] theorem popFrame_delivering (s : State) : (popFrame s).delivering = s.delivering := by
  unfold popFrame; split <;> simp_all

@[simp] theorem popFrame_sup (s : State) : (popFrame s).sup = s.sup := by
  unfold popFrame; split <;> simp_all

@[simp] theorem popFrame_schedule (s : State) : (popFrame s).schedule = s.schedule := by
  unfold popFrame; split <;> simp_all

@[simp] theorem popFrame_recurring (s : State) : (popFrame s).recurring = s.recurring := by
  unfold popFrame; split <;> simp_all

@[simp] theorem popFrame_log (s : State) : (popFrame s).log = s.log := by
  unfold popFrame; split <;> simp_all

@[simp] theorem popFrame_freeCount (s : State) : (popFrame s).freeCount = s.freeCount := by
  unfold popFrame; split <;> simp_all

end Sys2Proof.Laws
end

