-- ==== Sys2Proof/Laws/Ops.lean ====
section
/-! SUPPORT. For each shared operation, once, everything it can do; the provers cite these instead of unfolding. -/

namespace Sys2Proof.Laws

open Sys2Proof.Machine

/-! ## Sequencing and guards -/

@[simp] theorem andThen_next_left (s : State) (k : State → Result) : andThen (.next s) k = k s := rfl

@[simp] theorem andThen_fault_left (r : Fault) (k : State → Result) : andThen (.fault r) k = .fault r := rfl

@[simp] theorem andThen_refused_left (r : Refusal) (k : State → Result) : andThen (.refused r) k = .refused r := rfl

theorem andThen_eq_next {o : Result} {k : State → Result} {t : State} :
    andThen o k = .next t ↔ ∃ s, o = .next s ∧ k s = .next t := by
  cases o <;> simp [andThen]

theorem andThen_assoc (o : Result) (k l : State → Result) :
    andThen (andThen o k) l = andThen o fun s => andThen (k s) l := by
  cases o <;> rfl

theorem whenReady_eq_next {s t : State} {r : Result} : whenReady s r = .next t ↔ s.initialised = true ∧ r = .next t := by
  unfold whenReady; split <;> simp_all

theorem whenReady_of {s : State} (h : s.initialised = true) (r : Result) : whenReady s r = r := by simp [whenReady, h]

theorem whenInterruptEnabled_eq_next {s t : State} {r : Result} :
    whenInterruptEnabled s r = .next t ↔ s.initialised = true ∧ s.started = true ∧ r = .next t := by
  unfold whenInterruptEnabled; rw [whenReady_eq_next]; split <;> simp_all

theorem whenInterruptEnabled_of {s : State} (h : s.initialised = true) (h' : s.started = true) (r : Result) :
    whenInterruptEnabled s r = r := by simp [whenInterruptEnabled, whenReady, h, h']

theorem whenTaskFree_eq_next {s t : State} {r : Result} :
    whenTaskFree s r = .next t ↔ s.initialised = true ∧ s.delivering = none ∧ s.phase = .wait ∧ r = .next t := by
  unfold whenTaskFree; rw [whenReady_eq_next]
  cases hd : s.delivering <;> cases hp : s.phase <;> simp

theorem whenTaskFree_of {s : State} (h : s.initialised = true) (hd : s.delivering = none) (hp : s.phase = .wait)
    (r : Result) : whenTaskFree s r = r := by simp [whenTaskFree, whenReady, h, hd, hp]

theorem midCycle_eq_false {s : State} : s.midCycle = false ↔ s.delivering = none ∧ (s.phase = .idle ∨ s.phase = .wait) := by
  unfold State.midCycle; cases s.delivering <;> cases s.phase <;> simp

theorem whenHostRuns_eq_next {s t : State} {r : Result} :
    whenHostRuns s r = .next t ↔ s.initialised = true ∧ s.midCycle = false ∧ r = .next t := by
  unfold whenHostRuns State.midCycle; rw [whenReady_eq_next]
  cases s.delivering <;> cases s.phase <;> simp

theorem whenHostRuns_of {s : State} (h : s.initialised = true) (hm : s.midCycle = false) (r : Result) :
    whenHostRuns s r = r := by
  simp [whenHostRuns, whenReady_of h, hm, (midCycle_eq_false.1 hm).1]

theorem whenTaskCodeRuns_eq_next {s t : State} {r : Result} :
    whenTaskCodeRuns s r = .next t ↔ (s.midPhase = false ∨ s.delivering ≠ none) ∧ r = .next t := by
  unfold whenTaskCodeRuns; cases s.midPhase <;> cases s.delivering <;> simp

theorem whenTaskCodeRuns_of {s : State} (h : s.midPhase = false ∨ s.delivering ≠ none) (r : Result) :
    whenTaskCodeRuns s r = r := by
  unfold whenTaskCodeRuns; cases hd : s.delivering <;> simp_all

/-! ## Counters -/

theorem satInc_toNat (c : Count) : (satInc c).toNat = min (c.toNat + 1) 4294967295 := by
  unfold satInc cntMax; split <;> rename_i h <;> simp only [BitVec.lt_def] at h
  · rw [BitVec.toNat_add]; simp at h ⊢; omega
  · have := c.isLt; simp at h ⊢; omega

theorem le_satInc (c : Count) : c ≤ satInc c := by
  have := c.isLt; rw [BitVec.le_def, satInc_toNat]; omega

theorem raiseError_dropped (e : ErrorClass) (s : State) :
    (raiseError e s).dropped = if e = .rxOverflow then satInc s.dropped else s.dropped := by
  cases e <;> simp [raiseError, errorEffect, emit]; split <;> rfl

/-- The error classes whose row in R220 adds 1 to `decode_err`. -/
def countsDecode (p : Params) : ErrorClass → Bool
  | .malformedFrame _ | .poolExhaustedRx | .codecError => true
  | .extentViolation => p.countExtentViolation
  | _ => false

theorem raiseError_decodeErr (e : ErrorClass) (s : State) :
    (raiseError e s).decodeErr = if countsDecode s.params e then satInc s.decodeErr else s.decodeErr := by
  cases e <;> simp [raiseError, errorEffect, emit, countsDecode, countDecodeError]; split <;> simp_all

/-- The error classes that touch no counter when raised. -/
def countsNothing : ErrorClass → Bool
  | .unmatched | .staleTransfer _ | .incompleteSequence _ | .txQueueFull | .poolExhaustedTx | .txExpired | .mailboxFull
  | .commandStale => true
  | .rxOverflow | .malformedFrame _ | .extentViolation | .poolExhaustedRx | .codecError => false

theorem raiseError_uncounted {e : ErrorClass} (h : countsNothing e = true) (s : State) :
    raiseError e s = { s with log := s.log ++ [.raised e] } := by
  cases e <;> simp_all [countsNothing, raiseError, errorEffect, emit]

theorem raiseError_malformed (v : Malformed) (s : State) :
    raiseError (.malformedFrame v) s
      = { s with decodeErr := satInc s.decodeErr, log := s.log ++ [.raised (.malformedFrame v)] } := rfl

theorem raiseError_poolExhaustedRx (s : State) :
    raiseError .poolExhaustedRx s
      = { s with decodeErr := satInc s.decodeErr, log := s.log ++ [.raised .poolExhaustedRx] } := rfl

theorem raiseError_codecError (s : State) :
    raiseError .codecError s = { s with decodeErr := satInc s.decodeErr, log := s.log ++ [.raised .codecError] } := rfl

theorem raiseError_rxOverflow (s : State) :
    raiseError .rxOverflow s = { s with dropped := satInc s.dropped, log := s.log ++ [.raised .rxOverflow] } := rfl

theorem raiseError_extentViolation (s : State) :
    raiseError .extentViolation s
      = { s with
          decodeErr := if s.params.countExtentViolation then satInc s.decodeErr else s.decodeErr
          log := s.log ++ [.raised .extentViolation] } := by
  unfold raiseError errorEffect; dsimp only; split <;> simp_all [emit, countDecodeError]

/-! ## Time -/

/-- `ticksIn` is the most ticks that the time holds, so to last longer than it is to last more ticks (R10, R205). -/
theorem le_ticksIn {milliseconds n : Nat} {tick : Rat} (h : 0 < tick) :
    n ≤ ticksIn milliseconds tick ↔ (n : Rat) * tick ≤ milliseconds := by
  have hn : 0 < tick.num := Rat.num_pos.2 h
  have hd : (0 : Rat) < tick.den := by exact_mod_cast tick.den_pos
  have hk : 0 < tick.num.toNat := by omega
  have hc : ((tick.num.toNat : Nat) : Rat) = tick.num := by exact_mod_cast Int.toNat_of_nonneg hn.le
  rw [ticksIn, Nat.le_div_iff_mul_le hk, ← @Nat.cast_le Rat, Nat.cast_mul, Nat.cast_mul, hc]
  conv_rhs => rw [← Rat.num_div_den tick, ← mul_div_assoc, div_le_iff₀ hd]

/-! ## The pool -/

theorem poolAlloc_eq_some {s t : State} :
    poolAlloc s = some t ↔ 0 < s.poolFree ∧ t = { s with poolFree := s.poolFree - 1 } := by
  unfold poolAlloc; split <;> simp_all [eq_comm]; omega

theorem poolAlloc_eq_none {s : State} : poolAlloc s = none ↔ s.poolFree = 0 := by
  unfold poolAlloc; split <;> simp_all

theorem abandon_of_inactive {key : Nat} {s : State} (h : (s.session key).cur = none) : abandon key s = s := by
  simp [abandon, h]

theorem abandon_of_active {key : Nat} {s : State} {r : Reassembly} (h : (s.session key).cur = some r) :
    abandon key s
      = { s with sess := sessSet s.sess key { last := (s.session key).last, cur := none }, poolFree := s.poolFree + 1 } := by
  simp [abandon, h, putSession, poolFreeOne]

/-! ## Ports and queues -/

theorem popFrame_of_empty {s : State} (h : s.rxq = []) : popFrame s = { s with popped := none } := by simp [popFrame, h]

theorem popFrame_of_cons {s : State} {f : Frame} {rest : List Frame} (h : s.rxq = f :: rest) :
    popFrame s = { s with rxq := rest, popped := some f } := by simp [popFrame, h]

theorem nextRx_eq_some {s t : State} {r : BusFrame} :
    nextRx s = some (r, t) ↔ ∃ rest, s.ctrlRx = r :: rest ∧ t = { s with ctrlRx := rest } := by
  unfold nextRx; split <;> simp_all [eq_comm]

theorem nextRx_eq_none {s : State} : nextRx s = none ↔ s.ctrlRx = [] := by
  unfold nextRx; split <;> simp_all

theorem pushFrame_eq (f : BusFrame) (s : State) :
    (s.mboxFree = 0 ∧ pushFrame f s = (.full, { s with log := s.log ++ [.tx f .full] }))
    ∨ (0 < s.mboxFree ∧ pushFrame f s
        = (.success, { s with mboxFree := s.mboxFree - 1, log := s.log ++ [.tx f .success] })) := by
  unfold pushFrame emit; split
  · left; simp_all
  · right; simp_all; omega

theorem storeFrame_eq_next {r : BusFrame} {s t : State} :
    storeFrame r s = .next t ↔ r.data.length ≤ 64 ∧
      ((s.rxq.length = s.params.rxqCap ∧ t = raiseError .rxOverflow s)
      ∨ (s.rxq.length ≠ s.params.rxqCap ∧ t = { s with rxq := s.rxq ++ [{ id := r.id, data := r.data, ts := s.now }] })) := by
  unfold storeFrame slotWrite; split
  · simp; omega
  · split <;> simp_all [eq_comm]

/-- One pass of `DRAIN`: the queue is empty, or its head is evicted, refused by the mailbox, or sent. -/
theorem drainPass_cases (s : State) :
    (s.txq = [] ∧ drainPass s = (false, s))
    ∨ (∃ e rest, s.txq = e :: rest ∧ expired s.now e = true
        ∧ drainPass s = (true, { s with txq := rest, poolFree := s.poolFree + 1, log := s.log ++ [.raised .txExpired] }))
    ∨ (∃ e rest, s.txq = e :: rest ∧ expired s.now e = false ∧ s.mboxFree = 0
        ∧ drainPass s
          = (false, { s with log := s.log ++ [.tx (build s.params e) .full] ++ [.raised .mailboxFull] }))
    ∨ (∃ e rest, s.txq = e :: rest ∧ expired s.now e = false ∧ 0 < s.mboxFree
        ∧ drainPass s
          = (true, { s with txq := rest, poolFree := s.poolFree + 1, mboxFree := s.mboxFree - 1, log := s.log ++ [.tx (build s.params e) .success] })) := by
  cases hq : s.txq with
  | nil => left; simp [drainPass, hq]
  | cons e rest =>
    right
    cases hx : expired s.now e with
    | true =>
      left; refine ⟨e, rest, rfl, hx, ?_⟩
      simp [drainPass, hq, hx, raiseError, errorEffect, emit, dropHead, poolFreeOne]
    | false =>
      right
      rcases pushFrame_eq (build s.params e) s with ⟨hm, h⟩ | ⟨hm, h⟩
      · left; refine ⟨e, rest, rfl, hx, hm, ?_⟩
        simp [drainPass, hq, hx, h, raiseError, errorEffect, emit]
      · right; refine ⟨e, rest, rfl, hx, hm, ?_⟩
        simp [drainPass, hq, hx, h, dropHead, poolFreeOne]

theorem takeInterrupt_eq_next {s t : State} :
    takeInterrupt s = .next t
      ↔ s.params.rxPortReturns = true ∧ ∃ u, pullTurns (s.ctrlRx.length + 1) s = .next u ∧ t = signalWake u := by
  unfold takeInterrupt; split
  · rename_i h
    rw [andThen_eq_next]
    exact ⟨fun ⟨u, hu, ht⟩ => ⟨h, u, hu, by cases ht; rfl⟩, fun ⟨_, u, hu, ht⟩ => ⟨u, hu, by rw [ht]⟩⟩
  · rename_i h; simp [h]

theorem drainHangs_of_returns {s : State} (h : s.params.txPortReturns = true) : drainHangs s = false := by
  simp [drainHangs, h]

theorem passHangs_of_returns {s : State} (h : s.params.txPortReturns = true) : passHangs s = false := by
  simp [passHangs, h]

/-- `DRAIN` as TASK calls it: its whole loop, or the first push of an item that is not evicted hangs. -/
theorem drainCall_eq_next {s t : State} : drainCall s = .next t ↔ drainHangs s = false ∧ t = drainQueue s := by
  unfold drainCall; split <;> rename_i h
  · simp [h]
  · simp only [Bool.not_eq_true] at h
    exact ⟨fun ht => ⟨h, by cases ht; rfl⟩, fun ht => by rw [ht.2]⟩

theorem drainTxStep_eq_next {s t : State} :
    drainTxStep s = .next t ↔ passHangs s = false
      ∧ t = if (drainPass s).1 then { (drainPass s).2 with midPhase := true } else enterPhase .apply (drainPass s).2 := by
  unfold drainTxStep; split <;> rename_i h
  · simp [h]
  · simp only [Bool.not_eq_true] at h
    split <;> rename_i hp <;> rw [hp] <;>
      exact ⟨fun ht => ⟨h, by cases ht; rfl⟩, fun ht => by rw [ht.2]; rfl⟩

/-- A delivery: the event, the handler's run, the release. -/
theorem deliverTransfer_eq_next {d : Delivery} {s t : State} :
    deliverTransfer d s = .next t
      ↔ ∃ s1, runHandler d (emit (.deliver d.tag d.subject d.payload d.payload.length d.ts) s) = .next s1
        ∧ t = releaseDelivery d s1 := by
  unfold deliverTransfer; rw [andThen_eq_next]; simp [eq_comm]

/-- `PROCESS_FRAME` without a completed transfer is steps 1 to 9; with one, the delivery follows. -/
theorem processFrame_eq (f : Frame) (s : State) :
    processFrame f s = match (reassemble f s).delivering with
      | none => .next (reassemble f s)
      | some d => deliverTransfer d (reassemble f s) := by
  unfold processFrame deliverDue; rfl

/-! ## The outbound queue -/

/-- Where an item goes in a queue in priority order: behind its own and higher priorities (R160, R161). -/
theorem insertItem_of_sorted (e : Item) {q : List Item} (h : q.Pairwise fun a b => a.prio ≤ b.prio) :
    insertItem e q = q.filter (fun x => decide (x.prio ≤ e.prio)) ++ e :: q.filter (fun x => decide (e.prio < x.prio)) := by
  have key : q.take (q.countP fun x => decide (x.prio ≤ e.prio)) = q.filter (fun x => decide (x.prio ≤ e.prio))
      ∧ q.drop (q.countP fun x => decide (x.prio ≤ e.prio)) = q.filter (fun x => decide (e.prio < x.prio)) := by
    induction q with
    | nil => simp
    | cons a q ih =>
      obtain ⟨h1, h2⟩ := List.pairwise_cons.1 h
      obtain ⟨i1, i2⟩ := ih h2
      by_cases hc : a.prio ≤ e.prio
      · simp [hc, BitVec.not_lt.2 hc, i1, i2]
      · have hall : ∀ x ∈ q, ¬ x.prio ≤ e.prio := fun x hx hle => hc (BitVec.le_trans (h1 x hx) hle)
        have hc0 : q.countP (fun x => decide (x.prio ≤ e.prio)) = 0 := by
          rw [List.countP_eq_zero]; simpa using hall
        have hf : q.filter (fun x => decide (x.prio ≤ e.prio)) = [] := by
          rw [List.filter_eq_nil_iff]; simpa using hall
        have hg : q.filter (fun x => decide (e.prio < x.prio)) = q := by
          rw [List.filter_eq_self]; intro x hx; simpa using hall x hx
        simp [hc, hc0, hf, hg, BitVec.not_le.1 hc]
  unfold insertItem; simp only; rw [key.1, key.2]

/-! ## The codec -/

/-- What `decode` reads: the bytes of the declared length, if the type resolves and the payload has them. -/
theorem messageBody_eq_some {p : Params} {role : CommandRole} {payload bytes : List Byte} :
    messageBody p role payload = some bytes
      ↔ schemaResolves p role = true ∧ messageBytes p role ≤ payload.length ∧ bytes = payload.take (messageBytes p role) := by
  simp [messageBody, and_assoc, @eq_comm _ bytes]

theorem messageBody_eq_none {p : Params} {role : CommandRole} {payload : List Byte} :
    messageBody p role payload = none ↔ schemaResolves p role = false ∨ payload.length < messageBytes p role := by
  simp only [messageBody, ite_eq_right_iff, Bool.and_eq_true, decide_eq_true_eq, reduceCtorEq, imp_false, not_and_or, Nat.not_le,
    Bool.not_eq_true]

/-- What `encode` answers: the message, if the type resolves. -/
theorem encoded_eq_some {p : Params} {role : CommandRole} {bytes b : List Byte} :
    encoded p role bytes = some b ↔ schemaResolves p role = true ∧ b = bytes := by
  simp [encoded, @eq_comm _ b]

/-- `encode` is an error for a type that does not resolve and for nothing else. -/
theorem encoded_eq_none {p : Params} {role : CommandRole} {bytes : List Byte} :
    encoded p role bytes = none ↔ schemaResolves p role = false := by
  simp [encoded]

@[simp] theorem length_fitBytes (n : Nat) (bytes : List Byte) : (fitBytes n bytes).length = n := by simp [fitBytes]

theorem fitBytes_of_length {n : Nat} {bytes : List Byte} (h : bytes.length = n) : fitBytes n bytes = bytes := by
  simp [fitBytes, ← h]

theorem mem_allBytes {n : Nat} {bytes : List Byte} : bytes ∈ allBytes n ↔ bytes.length = n := by
  induction n generalizing bytes with
  | zero => simp [allBytes]
  | succ n ih =>
    simp only [allBytes, List.mem_flatMap, List.mem_map, List.mem_range, ih]
    constructor
    · rintro ⟨rest, rfl, b, _, rfl⟩; simp
    · intro h
      cases bytes with
      | nil => simp at h
      | cons b rest => exact ⟨rest, by simpa using h, b.toNat, b.isLt, by simp⟩

@[simp] theorem length_fieldCode (n k : Nat) (free : Nat → List Byte) (v : Nat) : (fieldCode n k free v).length = n := by
  unfold fieldCode; split <;> simp

/-- Different values of a field are written in different bytes. -/
theorem fieldCode_inj {n k : Nat} {free : Nat → List Byte} (hn : 1 ≤ n) (hk : k ≤ 256) {u v : Nat} (hu : u < k) (hv : v < k)
    (h : fieldCode n k free u = fieldCode n k free v) : u = v := by
  unfold fieldCode at h
  split at h
  · rename_i hd
    exact List.inj_on_of_nodup_map hd (List.mem_range.2 hu) (List.mem_range.2 hv) h
  · obtain ⟨n, rfl⟩ : ∃ m, n = m + 1 := ⟨n - 1, by omega⟩
    simp only [fitBytes, List.cons_append, List.take_succ_cons, List.cons.injEq] at h
    have := congrArg BitVec.toNat h.1
    simp only [BitVec.toNat_ofNat] at this; omega

/-- What a value is written in holds that value. -/
theorem fieldValue_code {k : Nat} {code : Nat → List Byte} {free : List Byte → Nat}
    (hc : ∀ u v, u < k → v < k → code u = code v → u = v) {v : Nat} (hv : v < k) : fieldValue k code free (code v) = v := by
  unfold fieldValue
  cases h : (List.range k).find? fun u => code u == code v with
  | none => simpa using List.find?_eq_none.1 h v (List.mem_range.2 hv)
  | some u => exact hc u v (List.mem_range.1 (List.mem_of_find?_eq_some h)) hv (by simpa using List.find?_some h)

theorem messageBytes_pos (p : Params) (role : CommandRole) : 1 ≤ messageBytes p role := by
  unfold messageBytes; split
  · exact Nat.le_max_left ..
  · split <;> decide

/-- A pump state is written in a message that holds it (R201). -/
theorem readPump_writePump (p : Params) (v : Bool) :
    (writePump p v).length = messageBytes p .pump ∧ readPump p (writePump p v) = v := by
  cases hl : p.layout with
  | vectorP6 => cases v <;> simp [writePump, readPump, messageBytes, hl]
  | deployment =>
    refine ⟨by simp [writePump, hl], ?_⟩
    have hv : fieldValue 2 (fun u => writePump p (u == 1)) (fun b => (Config.readPump b).toNat) (writePump p v) = v.toNat := by
      have hw : writePump p v = (fun u => writePump p (u == 1)) v.toNat := by cases v <;> rfl
      rw [hw]
      refine fieldValue_code (fun u w hu hw h => ?_) v.toNat_lt
      simp only [writePump, hl] at h
      have := fieldCode_inj (messageBytes_pos p .pump) (by omega) (Bool.toNat_lt _) (Bool.toNat_lt _) h
      interval_cases u <;> interval_cases w <;> simp_all
    simp only [readPump, hl, hv]
    cases v <;> rfl

/-- A readiness level is written in a message that holds it (R201). -/
theorem readReadiness_writeReadiness (p : Params) {v : Nat} (h : v < 4) :
    (writeReadiness p v).length = messageBytes p .readiness ∧ readReadiness p (writeReadiness p v) = v := by
  cases hl : p.layout with
  | vectorP6 => simp [writeReadiness, readReadiness, messageBytes, hl]; omega
  | deployment =>
    refine ⟨by simp [writeReadiness, hl], ?_⟩
    simp only [readReadiness, hl]
    refine fieldValue_code (fun u w hu hw h => ?_) h
    simp only [writeReadiness, hl] at h
    exact fieldCode_inj (messageBytes_pos p .readiness) (by omega) hu hw h

/-- A setpoint that some bytes of the declared length hold is written in such bytes (R201). -/
theorem readServo_servoMessage {p : Params} {i : Fin 4} {v : Rat} {bytes : List Byte}
    (hl : bytes.length = messageBytes p (.servo i)) (h : readServo p i bytes = .number v) :
    readServo p i (servoMessage p i v) = .number v := by
  unfold servoMessage
  cases hf : List.find? (fun b => decide (readServo p i b = .number v))
      (fitBytes (messageBytes p (.servo i)) (writeServo p i v) :: allBytes (messageBytes p (.servo i))) with
  | none => simpa [h] using List.find?_eq_none.1 hf bytes (List.mem_cons_of_mem _ (mem_allBytes.2 hl))
  | some b => simpa [hf] using List.find?_some hf

theorem length_servoMessage (p : Params) (i : Fin 4) (v : Rat) :
    (servoMessage p i v).length = messageBytes p (.servo i) := by
  unfold servoMessage
  cases hf : List.find? (fun b => decide (readServo p i b = .number v))
      (fitBytes (messageBytes p (.servo i)) (writeServo p i v) :: allBytes (messageBytes p (.servo i))) with
  | none => simp [hf]
  | some b =>
    rcases List.mem_cons.1 (List.mem_of_find?_eq_some hf) with rfl | hb
    · simp [hf]
    · simpa [hf] using mem_allBytes.1 hb

/-! ## Handlers -/

/-- The run of an attached handler, moves and free choice together. -/
theorem runHandler_of {d : Delivery} {s : State} {h : Handler} (hh : handlerOf s.params d.tag = some h) :
    runHandler d s = handlerRun d (scriptMoves h.script s.freeCount d) (takeScript h.script s) := by
  simp [runHandler, hh]

theorem runHandler_of_none {d : Delivery} {s : State} (hh : handlerOf s.params d.tag = none) : runHandler d s = .next s := by
  simp [runHandler, hh]

theorem handlerRun_append (d : Delivery) (a b : List HandlerMove) (s : State) :
    handlerRun d (a ++ b) s = andThen (handlerRun d a s) (handlerRun d b) := by
  induction a generalizing s with
  | nil => rfl
  | cons m a ih =>
    simp only [List.cons_append, handlerRun, andThen_assoc]
    cases handlerMove d m s <;> simp [ih]

/-! ## The step -/

theorem nextMoves_of_schedule {s : State} (h : s.schedule ≠ []) : nextMoves s = s.schedule := by simp [nextMoves, h]

theorem nextMoves_of_empty {s : State} (h : s.schedule = []) : nextMoves s = s.recurring := by simp [nextMoves, h]

theorem step_of_empty {s : State} (h : nextMoves s = []) : step s = taskStep s := by simp [step, h]

theorem step_of_task {s : State} {rest : List Move} (h : nextMoves s = .task :: rest) :
    step s = taskStep { s with schedule := rest } := by simp [step, h]

theorem step_of_issue {s : State} {p : Packet} {rest : List Move} {i : Instr} {left : List Byte}
    (h : nextMoves s = .issue p :: rest) (hd : decode p = .ok (i, left)) :
    step s = exec i { s with schedule := afterFetch p.fmt left rest } := by
  simp [step, h, hd]

theorem step_of_undecodable {s : State} {p : Packet} {rest : List Move} {e : DecodeError}
    (h : nextMoves s = .issue p :: rest) (hd : decode p = .error e) : step s = .refused (.undecodable e) := by
  simp [step, h, hd]

end Sys2Proof.Laws
end

