-- ==== Sys2Proof/Laws/Sess.lean ====
section
/-! SUPPORT. The session table: reading after writing, and the canonical form that every write keeps. -/

namespace Sys2Proof.Laws

open Sys2Proof.Machine

/-- The keys of the table are all above `k`. -/
def keysAbove (k : Nat) (t : SessTable) : Prop := ∀ e ∈ t, k < e.1

@[simp] theorem sessGet_nil (k : Nat) : sessGet [] k = {} := rfl

@[simp] theorem sessWf_nil : sessWf [] = true := rfl

theorem sessWf_cons {k : Nat} {v : Session} {t : SessTable} :
    sessWf ((k, v) :: t) = true ↔ v ≠ {} ∧ keysAbove k t ∧ sessWf t = true := by
  induction t generalizing k v with
  | nil => simp [sessWf, keysAbove]
  | cons e t ih =>
    obtain ⟨k', v'⟩ := e
    have step : sessWf ((k, v) :: (k', v') :: t) = true ↔ v ≠ {} ∧ k < k' ∧ sessWf ((k', v') :: t) = true := by
      simp [sessWf, and_assoc]
    rw [step]
    constructor
    · rintro ⟨hv, hk, hw⟩
      refine ⟨hv, ?_, hw⟩
      intro e he
      rcases List.mem_cons.1 he with rfl | he
      · exact hk
      · exact lt_trans hk ((ih.1 hw).2.1 e he)
    · rintro ⟨hv, hk, hw⟩
      exact ⟨hv, hk _ List.mem_cons_self, hw⟩

theorem sessGet_of_keysAbove {k : Nat} {t : SessTable} (h : keysAbove k t) : sessGet t k = {} := by
  induction t with
  | nil => rfl
  | cons e t ih =>
    obtain ⟨k', v'⟩ := e
    have hk : k < k' := h (k', v') List.mem_cons_self
    simp only [sessGet, if_neg (Nat.ne_of_lt hk)]
    exact ih fun e he => h e (List.mem_cons_of_mem _ he)

theorem keysAbove_cons {b k : Nat} {v : Session} {t : SessTable} : keysAbove b ((k, v) :: t) ↔ b < k ∧ keysAbove b t := by
  simp [keysAbove]

theorem keysAbove_sessSet {b k : Nat} {v : Session} {t : SessTable} (hb : b < k) (h : keysAbove b t) :
    keysAbove b (sessSet t k v) := by
  induction t with
  | nil =>
    unfold sessSet; split
    · exact h
    · exact keysAbove_cons.2 ⟨hb, h⟩
  | cons e t ih =>
    obtain ⟨k', v'⟩ := e
    obtain ⟨hk', ht⟩ := keysAbove_cons.1 h
    unfold sessSet
    split_ifs
    · exact h
    · exact keysAbove_cons.2 ⟨hb, h⟩
    · exact ht
    · exact keysAbove_cons.2 ⟨hb, ht⟩
    · exact keysAbove_cons.2 ⟨hk', ih ht⟩

/-- Every write keeps the canonical form. -/
theorem sessWf_sessSet {t : SessTable} (h : sessWf t = true) (k : Nat) (v : Session) : sessWf (sessSet t k v) = true := by
  induction t with
  | nil => unfold sessSet; split <;> simp_all [sessWf]
  | cons e t ih =>
    obtain ⟨k', v'⟩ := e
    obtain ⟨hv', hk', ht⟩ := sessWf_cons.1 h
    unfold sessSet
    split_ifs with h1 h2 h3 h4
    · exact h
    · refine sessWf_cons.2 ⟨h2, ?_, h⟩
      intro e he
      rcases List.mem_cons.1 he with rfl | he
      · exact h1
      · exact lt_trans h1 (hk' e he)
    · exact ht
    · exact sessWf_cons.2 ⟨h4, h3 ▸ hk', ht⟩
    · exact sessWf_cons.2 ⟨hv', keysAbove_sessSet (by omega) hk', ih ht⟩

/-- Reading the key just written gives what was written. -/
theorem sessGet_sessSet_same {t : SessTable} (h : sessWf t = true) (k : Nat) (v : Session) :
    sessGet (sessSet t k v) k = v := by
  induction t with
  | nil => unfold sessSet; split <;> simp_all [sessGet]
  | cons e t ih =>
    obtain ⟨k', v'⟩ := e
    obtain ⟨_, hk', ht⟩ := sessWf_cons.1 h
    unfold sessSet
    split_ifs with h1 h2 h3 h4
    · subst h2
      exact sessGet_of_keysAbove (t := (k', v') :: t) fun e he => by
        rcases List.mem_cons.1 he with rfl | he
        · exact h1
        · exact lt_trans h1 (hk' e he)
    · simp [sessGet]
    · subst h3 h4; exact sessGet_of_keysAbove hk'
    · simp [sessGet]
    · simp [sessGet, h3, ih ht]

/-- Writing one key leaves every other session alone. -/
theorem sessGet_sessSet_other {t : SessTable} {k j : Nat} (h : j ≠ k) (v : Session) :
    sessGet (sessSet t k v) j = sessGet t j := by
  induction t with
  | nil => unfold sessSet; split <;> simp_all [sessGet]
  | cons e t ih =>
    obtain ⟨k', v'⟩ := e
    unfold sessSet
    split_ifs with h1 h2 h3 h4
    · rfl
    · simp [sessGet, h]
    · subst h3; simp [sessGet, h]
    · subst h3; simp [sessGet, h]
    · simp [sessGet, ih]

theorem keysAbove_of_lt {a b : Nat} {t : SessTable} (h : a < b) (h' : keysAbove b t) : keysAbove a t :=
  fun e he => lt_trans h (h' e he)

theorem sessSet_of_keysAbove {k : Nat} {t : SessTable} (h : keysAbove k t) (v : Session) :
    sessSet t k v = if v = {} then t else (k, v) :: t := by
  cases t with
  | nil => rfl
  | cons e t =>
    obtain ⟨k', v'⟩ := e
    simp [sessSet, (keysAbove_cons.1 h).1]

/-- The last write to a key is the one that counts. -/
theorem sessSet_sessSet {t : SessTable} (h : sessWf t = true) (k : Nat) (a b : Session) :
    sessSet (sessSet t k a) k b = sessSet t k b := by
  induction t with
  | nil => by_cases ha : a = {} <;> by_cases hb : b = {} <;> simp [sessSet, ha, hb]
  | cons e t ih =>
    obtain ⟨k', v'⟩ := e
    obtain ⟨hv, hk, ht⟩ := sessWf_cons.1 h
    rcases Nat.lt_trichotomy k k' with hlt | rfl | hgt
    · by_cases ha : a = {} <;> simp [sessSet, hlt, ha]
    · by_cases ha : a = {}
      · have h1 : sessSet ((k, v') :: t) k a = t := by simp [sessSet, ha]
        rw [h1, sessSet_of_keysAbove hk]
        simp [sessSet]
      · simp [sessSet, ha]
    · simp [sessSet, show ¬ k < k' by omega, show ¬ k = k' by omega, ih ht]

/-- Writing back what is there changes nothing. -/
theorem sessSet_sessGet {t : SessTable} (h : sessWf t = true) (k : Nat) : sessSet t k (sessGet t k) = t := by
  induction t with
  | nil => simp [sessSet]
  | cons e t ih =>
    obtain ⟨k', v'⟩ := e
    obtain ⟨hv, hk, ht⟩ := sessWf_cons.1 h
    rcases Nat.lt_trichotomy k k' with hlt | rfl | hgt
    · have : sessGet ((k', v') :: t) k = {} :=
        sessGet_of_keysAbove (keysAbove_cons.2 ⟨hlt, keysAbove_of_lt hlt hk⟩)
      simp [this, sessSet, hlt]
    · simp [sessGet, sessSet, hv]
    · simp [sessSet, sessGet, show ¬ k < k' by omega, show ¬ k = k' by omega, ih ht]

/-- A session that is not in the reset state is listed. -/
theorem mem_of_sessGet {t : SessTable} {k : Nat} (h : sessGet t k ≠ {}) : (k, sessGet t k) ∈ t := by
  induction t with
  | nil => simp [sessGet] at h
  | cons e t ih =>
    obtain ⟨k', v'⟩ := e
    unfold sessGet at h ⊢
    split_ifs at h ⊢ with hk
    · subst hk; simp
    · exact List.mem_cons_of_mem _ (ih h)

/-- In canonical form, what is listed is what is read. -/
theorem sessGet_of_mem {t : SessTable} (h : sessWf t = true) {k : Nat} {v : Session} (hm : (k, v) ∈ t) :
    sessGet t k = v := by
  induction t with
  | nil => simp at hm
  | cons e t ih =>
    obtain ⟨k', v'⟩ := e
    obtain ⟨_, hk', ht⟩ := sessWf_cons.1 h
    rcases List.mem_cons.1 hm with heq | hm
    · obtain ⟨rfl, rfl⟩ := Prod.mk.inj heq; simp [sessGet]
    · have : k' < k := hk' (k, v) hm
      simp [sessGet, Nat.ne_of_gt this, ih ht hm]

end Sys2Proof.Laws
end

