-- ==== Sys2Proof/Laws/Frame.lean ====
section
/-! SUPPORT. What the reassembly steps, the handlers and `DRAIN` leave unchanged, once for each operation. -/

namespace Sys2Proof.Laws

open Sys2Proof.Machine

/-! ## The session table -/

theorem updatesSession_sessSet {t : SessTable} (h : sessWf t = true) (k : Nat) (v : Session) :
    updatesSession t (sessSet t k v) k v :=
  ⟨sessWf_sessSet h k v, sessGet_sessSet_same h k v, fun _ hj => sessGet_sessSet_other hj v⟩

/-! ## Fields no step of DRAIN_RX touches -/

/-- The fields that `PROCESS_FRAME` and a handler leave alone (R77, R188): everything but the sessions, the counter of decode
errors, the pool, the outbound queue, the popped frame, the due delivery, the supervisor, the trace and the free values. -/
structure RxFrame (s t : State) : Prop where
  params : t.params = s.params
  initialised : t.initialised = s.initialised
  now : t.now = s.now
  ctrlRx : t.ctrlRx = s.ctrlRx
  mboxFree : t.mboxFree = s.mboxFree
  rxq : t.rxq = s.rxq
  dropped : t.dropped = s.dropped
  wake : t.wake = s.wake
  started : t.started = s.started
  phase : t.phase = s.phase
  midPhase : t.midPhase = s.midPhase
  waitStart : t.waitStart = s.waitStart
  sub : t.sub = s.sub
  schedule : t.schedule = s.schedule
  recurring : t.recurring = s.recurring

theorem RxFrame.rfl {s : State} : RxFrame s s := by constructor <;> exact Eq.refl _

theorem RxFrame.trans {s t u : State} (h : RxFrame s t) (h' : RxFrame t u) : RxFrame s u := by
  constructor
  · exact h'.params.trans h.params
  · exact h'.initialised.trans h.initialised
  · exact h'.now.trans h.now
  · exact h'.ctrlRx.trans h.ctrlRx
  · exact h'.mboxFree.trans h.mboxFree
  · exact h'.rxq.trans h.rxq
  · exact h'.dropped.trans h.dropped
  · exact h'.wake.trans h.wake
  · exact h'.started.trans h.started
  · exact h'.phase.trans h.phase
  · exact h'.midPhase.trans h.midPhase
  · exact h'.waitStart.trans h.waitStart
  · exact h'.sub.trans h.sub
  · exact h'.schedule.trans h.schedule
  · exact h'.recurring.trans h.recurring

/-- The error classes raised in task context. -/
def taskError : ErrorClass → Bool
  | .rxOverflow => false
  | _ => true

theorem rxFrame_raiseError {e : ErrorClass} (h : taskError e = true) (s : State) : RxFrame s (raiseError e s) := by
  cases e <;> simp_all [taskError] <;> constructor <;> simp [raiseError, errorEffect, emit, countDecodeError] <;>
    split <;> rfl

theorem rxFrame_emit (e : Event) (s : State) : RxFrame s (emit e s) := by constructor <;> exact Eq.refl _

theorem rxFrame_putSession (key : Nat) (v : Session) (s : State) : RxFrame s (putSession key v s) := by
  constructor <;> exact Eq.refl _

theorem rxFrame_abandon (key : Nat) (s : State) : RxFrame s (abandon key s) := by
  unfold abandon; split
  · exact RxFrame.rfl
  · constructor <;> exact Eq.refl _

theorem rxFrame_poolAlloc {s t : State} (h : poolAlloc s = some t) : RxFrame s t := by
  obtain ⟨_, rfl⟩ := poolAlloc_eq_some.1 h; constructor <;> exact Eq.refl _

theorem rxFrame_handOver (d : Delivery) (s : State) : RxFrame s (handOver d s) := by constructor <;> exact Eq.refl _

/-! ## Steps 1 to 9 of PROCESS_FRAME -/

/-- A part of steps 1 to 9: the frame, the popped frame, and a trace that grows by raised classes only. -/
structure Quiet (s t : State) : Prop extends RxFrame s t where
  popped : t.popped = s.popped
  log : ∃ cs : List ErrorClass, t.log = s.log ++ cs.map .raised

theorem Quiet.rfl {s : State} : Quiet s s := ⟨RxFrame.rfl, Eq.refl _, [], by simp⟩

theorem Quiet.trans {s t u : State} (h : Quiet s t) (h' : Quiet t u) : Quiet s u := by
  obtain ⟨cs, hc⟩ := h.log
  obtain ⟨cs', hc'⟩ := h'.log
  exact ⟨h.toRxFrame.trans h'.toRxFrame, h'.popped.trans h.popped, cs ++ cs', by simp [hc', hc]⟩

theorem quiet_raiseError {e : ErrorClass} (h : taskError e = true) (s : State) : Quiet s (raiseError e s) := by
  refine ⟨rxFrame_raiseError h s, ?_, [e], ?_⟩ <;> cases e <;>
    simp [raiseError, errorEffect, emit, countDecodeError] <;> split <;> rfl

theorem quiet_putSession (key : Nat) (v : Session) (s : State) : Quiet s (putSession key v s) :=
  ⟨rxFrame_putSession key v s, Eq.refl _, [], by simp [putSession]⟩

theorem quiet_abandon (key : Nat) (s : State) : Quiet s (abandon key s) := by
  refine ⟨rxFrame_abandon key s, ?_, [], ?_⟩ <;> unfold abandon <;> split <;> simp [putSession, poolFreeOne]

theorem quiet_poolAlloc {s t : State} (h : poolAlloc s = some t) : Quiet s t := by
  refine ⟨rxFrame_poolAlloc h, ?_, [], ?_⟩ <;> obtain ⟨_, rfl⟩ := poolAlloc_eq_some.1 h <;> simp

theorem quiet_handOver (d : Delivery) (s : State) : Quiet s (handOver d s) :=
  ⟨rxFrame_handOver d s, Eq.refl _, [], by simp [handOver]⟩

theorem quiet_ageTransfer (key : Nat) (timeout : Time) (f : Frame) (s : State) : Quiet s (ageTransfer key timeout f s) := by
  unfold ageTransfer; split
  · exact Quiet.rfl
  · split
    · exact (quiet_abandon key s).trans (quiet_raiseError (by decide) _)
    · exact Quiet.rfl

theorem quiet_forgetLast (key : Nat) (timeout : Time) (f : Frame) (s : State) : Quiet s (forgetLast key timeout f s) := by
  unfold forgetLast; split
  · split
    · exact quiet_putSession ..
    · exact Quiet.rfl
  all_goals exact Quiet.rfl

theorem quiet_ageOut (key : Nat) (timeout : Time) (f : Frame) (s : State) : Quiet s (ageOut key timeout f s) :=
  (quiet_ageTransfer ..).trans (quiet_forgetLast ..)

/-- The state a gate ends with. -/
def gateState : Gate → State
  | .done s => s
  | .more s => s

theorem quiet_preempt (key : Nat) (s : State) : Quiet s (preempt key s) := by
  unfold preempt; split
  · exact Quiet.rfl
  · exact (quiet_abandon key s).trans (quiet_raiseError (by decide) _)

theorem quiet_openTransfer (key extent : Nat) (f : Frame) (s : State) :
    Quiet s (gateState (openTransfer key extent f s)) := by
  unfold openTransfer; split
  · exact quiet_raiseError (by decide) _
  · split
    · exact quiet_raiseError (by decide) _
    · rename_i h; exact (quiet_poolAlloc h).trans (quiet_putSession ..)

theorem quiet_startTransfer (key extent : Nat) (f : Frame) (s : State) :
    Quiet s (gateState (startTransfer key extent f s)) :=
  (quiet_preempt key s).trans (quiet_openTransfer ..)

theorem quiet_continueTransfer (key extent : Nat) (f : Frame) (s : State) :
    Quiet s (gateState (continueTransfer key extent f s)) := by
  unfold continueTransfer
  split
  · exact quiet_raiseError (by decide) _
  · split
    · exact quiet_raiseError (by decide) _
    · split
      · exact (quiet_abandon key s).trans (quiet_raiseError (by decide) _)
      · exact Quiet.rfl

theorem quiet_accumulate (key : Nat) (f : Frame) (s : State) : Quiet s (accumulate key f s) := by
  unfold accumulate; split
  · exact Quiet.rfl
  · exact quiet_putSession ..

theorem quiet_sequenceTransfer (key : Nat) (sb : Subscription) (r : Reassembly) (s : State) :
    Quiet s (sequenceTransfer key sb r s) := by
  unfold sequenceTransfer; split
  · exact (quiet_abandon key s).trans (quiet_raiseError rfl _)
  · exact (quiet_putSession ..).trans (quiet_handOver ..)

theorem quiet_completeTransfer (key : Nat) (sb : Subscription) (f : Frame) (s : State) :
    Quiet s (completeTransfer key sb f s) := by
  unfold completeTransfer; split
  · exact Quiet.rfl
  · split
    · exact Quiet.rfl
    · split
      · exact (quiet_abandon key s).trans (quiet_raiseError (by decide) _)
      · exact quiet_sequenceTransfer ..

theorem quiet_anonymousTransfer (sb : Subscription) (f : Frame) (s : State) : Quiet s (anonymousTransfer sb f s) := by
  unfold anonymousTransfer; split
  · exact quiet_raiseError (by decide) _
  · split
    · exact quiet_raiseError (by decide) _
    · rename_i h; exact (quiet_poolAlloc h).trans (quiet_handOver ..)

theorem quiet_sessionTransfer (key : Nat) (sb : Subscription) (f : Frame) (s : State) :
    Quiet s (sessionTransfer key sb f s) := by
  have h1 := quiet_ageOut key sb.timeout f s
  have h2 : Quiet s (gateState (if f.sot then startTransfer key sb.extent f (ageOut key sb.timeout f s)
      else continueTransfer key sb.extent f (ageOut key sb.timeout f s))) := by
    split
    · exact h1.trans (quiet_startTransfer ..)
    · exact h1.trans (quiet_continueTransfer ..)
  unfold sessionTransfer
  dsimp only
  split
  · rename_i h; rw [h] at h2; exact h2
  · rename_i h; rw [h] at h2
    exact (h2.trans (quiet_accumulate ..)).trans (quiet_completeTransfer ..)

/-- Steps 1 to 9 touch only what RxFrame leaves out, and raise. -/
theorem quiet_reassemble (f : Frame) (s : State) : Quiet s (reassemble f s) := by
  unfold reassemble; split
  · exact quiet_raiseError (by decide) _
  · split
    · exact quiet_raiseError rfl _
    · split
      · exact quiet_anonymousTransfer ..
      · exact quiet_sessionTransfer ..

/-! ## Handlers -/

/-- What a handler's run leaves alone (R262): besides RxFrame, the sessions, the popped frame and the due delivery; the trace
grows by results and raised classes. -/
structure Handled (s t : State) : Prop extends RxFrame s t where
  popped : t.popped = s.popped
  sess : t.sess = s.sess
  delivering : t.delivering = s.delivering
  log : ∃ ev, t.log = s.log ++ ev ∧ ev.countP deliverEvent = 0 ∧ ∀ e ∈ ev, dispatchEvent e = true

theorem Handled.rfl {s : State} : Handled s s := ⟨RxFrame.rfl, Eq.refl _, Eq.refl _, Eq.refl _, [], by simp⟩

theorem Handled.trans {s t u : State} (h : Handled s t) (h' : Handled t u) : Handled s u := by
  obtain ⟨ev, he, hn, hd⟩ := h.log
  obtain ⟨ev', he', hn', hd'⟩ := h'.log
  refine ⟨h.toRxFrame.trans h'.toRxFrame, h'.popped.trans h.popped, h'.sess.trans h.sess,
    h'.delivering.trans h.delivering, ev ++ ev', by simp [he', he], by simp [hn, hn'], ?_⟩
  intro e hm
  rcases List.mem_append.1 hm with hm | hm
  · exact hd e hm
  · exact hd' e hm

theorem handled_raiseError {e : ErrorClass} (h : taskError e = true) (s : State) : Handled s (raiseError e s) := by
  refine ⟨rxFrame_raiseError h s, ?_, ?_, ?_, [.raised e], ?_, ?_, ?_⟩ <;> cases e <;>
    simp [raiseError, errorEffect, emit, countDecodeError, deliverEvent, dispatchEvent] <;> split <;> rfl

theorem handled_emit (r : OpResult) (s : State) : Handled s (emit (.result r) s) :=
  ⟨rxFrame_emit _ s, Eq.refl _, Eq.refl _, Eq.refl _, [.result r], by simp [deliverEvent, dispatchEvent]⟩

theorem handled_enqueueItem (e : Item) (s : State) : Handled s (enqueueItem e s) := by
  unfold enqueueItem; split
  · exact (handled_raiseError (by decide) s).trans (handled_emit ..)
  · split
    · exact (handled_raiseError (by decide) s).trans (handled_emit ..)
    · rename_i h
      obtain ⟨_, rfl⟩ := poolAlloc_eq_some.1 h
      have h1 : Handled s { s with poolFree := s.poolFree - 1, txq := insertItem e s.txq } :=
        ⟨by constructor <;> exact Eq.refl _, Eq.refl _, Eq.refl _, Eq.refl _, [], by simp⟩
      exact h1.trans (handled_emit _ _)

theorem handled_handlerCall {i : Instr} {s t : State} (h : handlerCall i s = .next t) : Handled s t := by
  unfold handlerCall at h
  split at h <;> try cases h
  · unfold enqueueCall at h; split at h <;> cases h
    exact handled_enqueueItem ..
  · refine ⟨?_, Eq.refl _, Eq.refl _, Eq.refl _, [], by simp [countDecodeError]⟩
    constructor <;> exact Eq.refl _
  all_goals exact handled_emit ..

theorem handled_acceptCommand (role : CommandRole) (payload : List Byte) (ts : Time) (s : State) :
    Handled s (acceptCommand role payload ts s) := by
  have same : ∀ t : State, RxFrame s t → t.popped = s.popped → t.sess = s.sess → t.delivering = s.delivering →
      t.log = s.log → Handled s t := fun t h h1 h2 h3 h4 => ⟨h, h1, h2, h3, [], by simp [h4]⟩
  unfold acceptCommand
  split <;> split <;> first
    | exact handled_raiseError (by decide) s
    | (refine same _ ?_ (Eq.refl _) (Eq.refl _) (Eq.refl _) (Eq.refl _); constructor <;> exact Eq.refl _)

theorem handled_takeScript (sc : HandlerScript) (s : State) : Handled s (takeScript sc s) := by
  cases sc
  · exact Handled.rfl
  · refine ⟨?_, Eq.refl _, Eq.refl _, Eq.refl _, [], by simp⟩
    constructor <;> exact Eq.refl _

theorem handled_handlerMove {d : Delivery} {m : HandlerMove} {s t : State} (h : handlerMove d m s = .next t) :
    Handled s t := by
  cases m with
  | decode role => cases h; exact handled_acceptCommand ..
  | call i => exact handled_handlerCall h
  | hang => cases h

theorem handled_handlerRun {d : Delivery} {ms : List HandlerMove} {s t : State} (h : handlerRun d ms s = .next t) :
    Handled s t := by
  induction ms generalizing s with
  | nil => cases h; exact Handled.rfl
  | cons m ms ih =>
    obtain ⟨u, hu, ht⟩ := andThen_eq_next.1 h
    exact (handled_handlerMove hu).trans (ih ht)

theorem handled_runHandler {d : Delivery} {s t : State} (h : runHandler d s = .next t) : Handled s t := by
  unfold runHandler at h
  split at h
  · cases h; exact Handled.rfl
  · exact (handled_takeScript ..).trans (handled_handlerRun h)

theorem handlerCall_completes {i : Instr} (h : callInContract i = true) (s : State) : ∃ t, handlerCall i s = .next t := by
  cases i <;> simp_all [callInContract, handlerCall, enqueueCall]

theorem handlerMove_completes {m : HandlerMove} (h : moveInContract m = true) (d : Delivery) (s : State) :
    ∃ t, handlerMove d m s = .next t := by
  cases m with
  | decode role => exact ⟨_, Eq.refl _⟩
  | call i => exact handlerCall_completes h s
  | hang => cases h

theorem handlerRun_completes {ms : List HandlerMove} (h : ∀ m ∈ ms, moveInContract m = true) (d : Delivery) (s : State) :
    ∃ t, handlerRun d ms s = .next t := by
  induction ms generalizing s with
  | nil => exact ⟨s, Eq.refl _⟩
  | cons m ms ih =>
    obtain ⟨u, hu⟩ := handlerMove_completes (h m List.mem_cons_self) d s
    obtain ⟨t, ht⟩ := ih (fun j hj => h j (List.mem_cons_of_mem _ hj)) u
    exact ⟨t, andThen_eq_next.2 ⟨u, hu, ht⟩⟩

/-- A handler that keeps its contract returns. -/
theorem runHandler_completes {s : State} (h : handlersKeepContract s.params) (d : Delivery) :
    ∃ t, runHandler d s = .next t := by
  unfold runHandler
  split
  · exact ⟨s, Eq.refl _⟩
  · rename_i hd heq
    exact handlerRun_completes (h hd (List.mem_of_find?_eq_some heq) _ _) d _

/-- A handler's call has the effect of the statement it calls (R262). -/
theorem handlerCall_eq_exec {i : Instr} {s : State} (hc : callInContract i = true) (hi : s.initialised = true)
    (hd : s.delivering ≠ none) (hp : s.phase ≠ .idle) : handlerCall i s = exec i s := by
  obtain ⟨d, hd⟩ := Option.ne_none_iff_exists'.1 hd
  cases i <;> first
    | (simp [callInContract] at hc; done)
    | simp [handlerCall, exec, execEnqueue, execNoteDecodeError, execReadDropped, execReadDecodeErrors, execReadTimeouts,
        whenReady, whenTaskCodeRuns, hi, hd, hp]

/-- What a handler's calls do, one after another: the effects of the statements they call (R262). -/
theorem handlerRun_calls {calls : List Instr} {s : State} (hc : ∀ i ∈ calls, callInContract i = true)
    (hi : s.initialised = true) (hd : s.delivering ≠ none) (hp : s.phase ≠ .idle) (d : Delivery) :
    handlerRun d (calls.map .call) s = calls.foldl (fun o i => andThen o (exec i)) (.next s) := by
  induction calls generalizing s with
  | nil => rfl
  | cons i calls ih =>
    obtain ⟨t, ht⟩ := handlerCall_completes (hc i List.mem_cons_self) s
    have hh := handled_handlerCall ht
    have he := handlerCall_eq_exec (hc i List.mem_cons_self) hi hd hp
    simp only [List.map_cons, handlerRun, handlerMove, List.foldl_cons]
    rw [ht, show andThen (.next s) (exec i) = .next t from he.symm.trans ht]
    exact ih (fun j hj => hc j (List.mem_cons_of_mem _ hj)) (hh.initialised.trans hi) (hh.delivering ▸ hd) (hh.phase ▸ hp)

/-! ## Deliveries and whole frames -/

/-- What `PROCESS_FRAME` does to the rest of the state: RxFrame, the popped frame, and a trace that grows by events of DRAIN_RX
with at most one delivery; no delivery is due at its end. -/
structure Processed (s t : State) : Prop extends RxFrame s t where
  popped : t.popped = s.popped
  delivering : t.delivering = none
  log : ∃ ev, t.log = s.log ++ ev ∧ ev.countP deliverEvent ≤ 1 ∧ ∀ e ∈ ev, dispatchEvent e = true

@[simp] theorem releaseDelivery_log (d : Delivery) (s : State) : (releaseDelivery d s).log = s.log := by
  unfold releaseDelivery; split
  · exact abandon_log _ s
  · exact Eq.refl _

theorem processed_releaseDelivery (d : Delivery) (s : State) : Processed s (releaseDelivery d s) := by
  refine ⟨?_, ?_, ?_, [], by rw [releaseDelivery_log, List.append_nil], by simp, by simp⟩ <;> unfold releaseDelivery <;>
    split
  · rename_i key _
    have hq := rxFrame_abandon key s
    exact ⟨hq.params, hq.initialised, hq.now, hq.ctrlRx, hq.mboxFree, hq.rxq, hq.dropped, hq.wake, hq.started,
      hq.phase, hq.midPhase, hq.waitStart, hq.sub, hq.schedule, hq.recurring⟩
  · constructor <;> exact Eq.refl _
  · exact (quiet_abandon _ s).popped
  all_goals exact Eq.refl _

theorem processed_deliverTransfer {d : Delivery} {s t : State} (h : deliverTransfer d s = .next t) : Processed s t := by
  obtain ⟨u, hu, rfl⟩ := deliverTransfer_eq_next.1 h
  have hh := handled_runHandler hu
  have hr := processed_releaseDelivery d u
  obtain ⟨ev, he, hn, hd⟩ := hh.log
  refine ⟨((rxFrame_emit _ s).trans hh.toRxFrame).trans hr.toRxFrame, by rw [hr.popped, hh.popped]; simp, hr.delivering,
    .deliver d.tag d.subject d.payload d.payload.length d.ts :: ev, ?_, ?_, ?_⟩
  · rw [releaseDelivery_log, he]; simp
  · rw [List.countP_cons, hn]; split <;> omega
  · intro e hm
    rcases List.mem_cons.1 hm with rfl | hm
    · rfl
    · exact hd e hm

theorem deliverTransfer_completes {s : State} (h : handlersKeepContract s.params) (d : Delivery) :
    ∃ t, deliverTransfer d s = .next t := by
  obtain ⟨u, hu⟩ := runHandler_completes (s := emit (.deliver d.tag d.subject d.payload d.payload.length d.ts) s) h d
  exact ⟨_, deliverTransfer_eq_next.2 ⟨u, hu, Eq.refl _⟩⟩

/-- What the release of a held buffer does (R135, R143). -/
theorem releaseDelivery_eq {s : State} {d : Delivery} (hw : sessWf s.sess = true) (hb : bufferHeld s d) :
    ∃ sess, holderEnds s d sess
      ∧ releaseDelivery d s = { s with delivering := none, sess := sess, poolFree := s.poolFree + 1 } := by
  rcases hb with hn | ⟨key, r, hk, hr⟩
  · exact ⟨s.sess, ⟨fun _ => rfl, fun key hk => (by rw [hn] at hk; cases hk)⟩, by simp [releaseDelivery, hn, poolFreeOne]⟩
  · refine ⟨sessSet s.sess key { last := (s.session key).last, cur := none },
      ⟨fun hn => (by rw [hn] at hk; cases hk), fun key' hk' => ?_⟩, ?_⟩
    · obtain rfl : key = key' := by rw [hk] at hk'; exact Option.some.inj hk'
      exact updatesSession_sessSet hw ..
    · simp [releaseDelivery, hk, abandon, hr, putSession, poolFreeOne]

theorem holderEnds_congr {s t : State} {d : Delivery} {after : SessTable} (h : t.sess = s.sess) :
    holderEnds t d after ↔ holderEnds s d after := by simp [holderEnds, State.session, h]

theorem bufferHeld_congr {s t : State} {d : Delivery} (h : t.sess = s.sess) : bufferHeld t d ↔ bufferHeld s d := by
  simp [bufferHeld, State.session, h]

/-- `DELIVER` with an attached handler that returns, its buffer held: the event, the run, the release (R142, R143). -/
theorem deliver_eq {s u : State} {d : Delivery} {h : Handler} (hi : s.initialised = true) (hd : s.delivering = some d)
    (hw : sessWf s.sess = true) (hb : bufferHeld s d) (hh : handlerOf s.params d.tag = some h)
    (hr : handlerRun d (scriptMoves h.script s.freeCount d) { s with
      freeCount := (takeScript h.script s).freeCount
      log := s.log ++ [.deliver d.tag d.subject d.payload d.payload.length d.ts] } = .next u) :
    ∃ sess, holderEnds s d sess
      ∧ exec .deliver s = .next { u with delivering := none, sess := sess, poolFree := u.poolFree + 1 } := by
  have hu := handled_handlerRun hr
  have hs : u.sess = s.sess := hu.sess
  obtain ⟨sess, he, hx⟩ := releaseDelivery_eq (s := u) (hs ▸ hw) ((bufferHeld_congr hs).2 hb)
  refine ⟨sess, (holderEnds_congr hs).1 he, ?_⟩
  have hrun : runHandler d (emit (.deliver d.tag d.subject d.payload d.payload.length d.ts) s) = .next u := by
    rw [runHandler_of (h := h) (by exact hh), ← hr]
    cases h.script <;> rfl
  simp only [exec, execDeliver, whenReady_of hi, hd]
  exact deliverTransfer_eq_next.2 ⟨u, hrun, hx.symm⟩

theorem processed_processFrame {f : Frame} {s t : State} (h : processFrame f s = .next t) : Processed s t := by
  have hq := quiet_reassemble f s
  obtain ⟨cs, hc⟩ := hq.log
  have h0 : (cs.map Event.raised).countP deliverEvent = 0 := by
    rw [List.countP_eq_zero]; intro e he; obtain ⟨c, _, rfl⟩ := List.mem_map.1 he; simp [deliverEvent]
  have hd : ∀ e ∈ cs.map Event.raised, dispatchEvent e = true := by
    intro e he; obtain ⟨c, _, rfl⟩ := List.mem_map.1 he; rfl
  rw [processFrame_eq] at h
  split at h
  · rename_i hn; cases h
    exact ⟨hq.toRxFrame, hq.popped, hn, cs.map .raised, hc, by omega, hd⟩
  · have hp := processed_deliverTransfer h
    obtain ⟨ev, he, hn, hd'⟩ := hp.log
    refine ⟨hq.toRxFrame.trans hp.toRxFrame, hp.popped.trans hq.popped, hp.delivering, cs.map .raised ++ ev,
      by rw [he, hc, List.append_assoc], by rw [List.countP_append]; omega, ?_⟩
    intro e hm
    rcases List.mem_append.1 hm with hm | hm
    · exact hd e hm
    · exact hd' e hm

theorem processFrame_completes {s : State} (h : handlersKeepContract s.params) (f : Frame) :
    ∃ t, processFrame f s = .next t := by
  rw [processFrame_eq]
  split
  · exact ⟨_, Eq.refl _⟩
  · exact deliverTransfer_completes (by rw [(quiet_reassemble f s).params]; exact h) _

/-! ## The loop of PROCESS_PENDING -/

theorem pendingTurns_of_empty {s : State} (n : Nat) (h : s.rxq = []) :
    pendingTurns (n + 1) s = .next { s with popped := none } := by
  simp [pendingTurns, popFrame, h]

theorem pendingTurns_of_cons {s : State} (n : Nat) {f : Frame} {rest : List Frame} (h : s.rxq = f :: rest) :
    pendingTurns (n + 1) s
      = andThen (processFrame f { s with rxq := rest, popped := none }) (pendingTurns n) := by
  simp [pendingTurns, popFrame, h]

end Sys2Proof.Laws
end

