-- ==== Sys2Proof/Laws/Closed.lean ====
section
/-! SUPPORT. The induction over what a step can do, packaged once: a property of states that every single update keeps is
kept by every instruction and every step. An invariant, or a bound relative to a fixed earlier state, is then one small
goal per update. -/

namespace Sys2Proof.Laws

open Sys2Proof.Machine

/-- A property that every single update of the machine but `INIT` keeps. -/
structure Closed (P : State → Prop) : Prop where
  log : ∀ s l, P s → P { s with log := l }
  schedule : ∀ s l, P s → P { s with schedule := l }
  freeCount : ∀ s n, P s → P { s with freeCount := n }
  decodeErr : ∀ s, P s → P { s with decodeErr := satInc s.decodeErr }
  dropped : ∀ s, P s → P { s with dropped := satInc s.dropped }
  subscribe : ∀ s (sb : Subscription) i, P s → s.started = false → subjectTaken s.sub sb.subject = false → firstFree s.sub = some i →
    P { s with sub := s.sub.set i (some sb) }
  start : ∀ s, P s → s.started = false → s.delivering = none →
    P { s with started := true, phase := .wait, waitStart := s.now }
  store : ∀ s (r : BusFrame), P s → r.data.length ≤ 64 → s.rxq.length ≠ s.params.rxqCap →
    P { s with rxq := s.rxq ++ [{ id := r.id, data := r.data, ts := s.now }] }
  pulled : ∀ s (r : BusFrame) rest, P s → s.ctrlRx = r :: rest → P { s with ctrlRx := rest }
  wake : ∀ s b, P s → P { s with wake := b }
  pop : ∀ s f rest, P s → s.rxq = f :: rest → P { s with rxq := rest, popped := some f }
  unpop : ∀ s, P s → P { s with popped := none }
  reassemble : ∀ s f, P s → s.delivering = none → P (reassemble f s)
  accept : ∀ s role payload ts, P s → P (acceptCommand role payload ts s)
  enqueue : ∀ s e, P s → s.txq.length ≠ s.params.txqCap → 0 < s.poolFree →
    P { s with poolFree := s.poolFree - 1, txq := insertItem e s.txq }
  release : ∀ s d, P s → s.delivering = some d → P (releaseDelivery d s)
  sent : ∀ s e rest, P s → s.txq = e :: rest → P { s with txq := rest, poolFree := s.poolFree + 1 }
  mailbox : ∀ s n, P s → P { s with mboxFree := n }
  apply : ∀ s, P s → P (applyCommand s)
  tick : ∀ s n, P s → s.now.toNat + n < 2 ^ 64 → P { s with now := BitVec.ofNat 64 (s.now.toNat + n) }
  bus : ∀ s (r : BusFrame), P s → P { s with ctrlRx := s.ctrlRx ++ [r] }
  toDrainRx : ∀ s, P s → s.phase = .wait → P (enterPhase .drainRx s)
  toDrainTx : ∀ s, P s → s.phase = .drainRx → s.delivering = none → P (enterPhase .drainTx s)
  toApply : ∀ s, P s → s.phase = .drainTx → P (enterPhase .apply s)
  toWait : ∀ s, P s → s.phase = .apply → P (endCycle s)
  midPhase : ∀ s, P s → s.phase = .drainRx ∨ s.phase = .drainTx → P { s with midPhase := true }

namespace Closed

variable {P : State → Prop}

theorem emit (h : Closed P) {s : State} (e : Event) (hs : P s) : P (emit e s) := h.log s _ hs

theorem raise (h : Closed P) {s : State} (e : ErrorClass) (hs : P s) : P (raiseError e s) := by
  refine h.emit _ ?_
  unfold errorEffect
  split
  · exact h.dropped s hs
  · exact h.decodeErr s hs
  · split
    · exact h.decodeErr s hs
    · exact hs
  · exact h.decodeErr s hs
  · exact h.decodeErr s hs
  all_goals exact hs

theorem popFrame (h : Closed P) {s : State} (hs : P s) : P (popFrame s) := by
  cases hq : s.rxq with
  | nil => rw [popFrame_of_empty hq]; exact h.unpop s hs
  | cons f rest => rw [popFrame_of_cons hq]; exact h.pop s f rest hs hq

theorem storeFrame (h : Closed P) {r : BusFrame} {s t : State} (hs : P s) (hn : storeFrame r s = .next t) : P t := by
  obtain ⟨hl, ⟨_, rfl⟩ | ⟨hc, rfl⟩⟩ := storeFrame_eq_next.1 hn
  · exact h.raise _ hs
  · exact h.store s r hs hl hc

theorem pullTurns (h : Closed P) (n : Nat) {s t : State} (hs : P s) (hn : pullTurns n s = .next t) : P t := by
  induction n generalizing s with
  | zero => cases hn; exact hs
  | succ n ih =>
    unfold Machine.pullTurns at hn
    split at hn
    · cases hn; exact hs
    · rename_i r s1 hx
      obtain ⟨rest, hq, rfl⟩ := nextRx_eq_some.1 hx
      obtain ⟨u, hu, ht⟩ := andThen_eq_next.1 hn
      exact ih (h.storeFrame (h.pulled s r rest hs hq) hu) ht

theorem enqueueItem (h : Closed P) {s : State} (e : Item) (hs : P s) : P (enqueueItem e s) := by
  unfold Machine.enqueueItem; split
  · exact h.emit _ (h.raise _ hs)
  · rename_i hc
    split
    · exact h.emit _ (h.raise _ hs)
    · rename_i hp
      obtain ⟨hpos, rfl⟩ := poolAlloc_eq_some.1 hp
      exact h.emit _ (h.enqueue s e hs hc hpos)

theorem enqueueCall (h : Closed P) {subject transferId priority : Nat} {deadline : Time} {payload : List Byte} {s t : State}
    (hs : P s) (hn : enqueueCall subject transferId priority deadline payload s = .next t) : P t := by
  unfold Machine.enqueueCall at hn; split at hn <;> cases hn
  exact h.enqueueItem _ hs

theorem handlerCall (h : Closed P) {i : Instr} {s t : State} (hs : P s) (hn : handlerCall i s = .next t) : P t := by
  unfold Machine.handlerCall at hn
  split at hn <;> try cases hn
  · exact h.enqueueCall hs hn
  · exact h.decodeErr s hs
  all_goals exact h.emit _ hs

theorem handlerMove (h : Closed P) {d : Delivery} {m : HandlerMove} {s t : State} (hs : P s)
    (hn : handlerMove d m s = .next t) : P t := by
  cases m with
  | decode role => cases hn; exact h.accept s _ _ _ hs
  | call i => exact h.handlerCall hs hn
  | hang => cases hn

theorem handlerRun (h : Closed P) {d : Delivery} {ms : List HandlerMove} {s t : State} (hs : P s)
    (hn : handlerRun d ms s = .next t) : P t := by
  induction ms generalizing s with
  | nil => cases hn; exact hs
  | cons m ms ih =>
    obtain ⟨u, hu, ht⟩ := andThen_eq_next.1 hn
    exact ih (h.handlerMove hs hu) ht

theorem takeScript (h : Closed P) {s : State} (sc : HandlerScript) (hs : P s) : P (takeScript sc s) := by
  cases sc
  · exact hs
  · exact h.freeCount s _ hs

theorem runHandler (h : Closed P) {d : Delivery} {s t : State} (hs : P s) (hn : runHandler d s = .next t) : P t := by
  unfold Machine.runHandler at hn
  split at hn
  · cases hn; exact hs
  · exact h.handlerRun (h.takeScript _ hs) hn

theorem deliverTransfer (h : Closed P) {d : Delivery} {s t : State} (hs : P s) (hd : s.delivering = some d)
    (hn : deliverTransfer d s = .next t) : P t := by
  obtain ⟨u, hu, rfl⟩ := deliverTransfer_eq_next.1 hn
  exact h.release u d (h.runHandler (h.emit _ hs) hu) ((handled_runHandler hu).delivering.trans hd)

theorem processFrame (h : Closed P) {f : Frame} {s t : State} (hs : P s) (hd : s.delivering = none)
    (hn : processFrame f s = .next t) : P t := by
  have hr := h.reassemble s f hs hd
  rw [processFrame_eq] at hn
  split at hn
  · cases hn; exact hr
  · rename_i d hd'; exact h.deliverTransfer hr hd' hn

theorem pendingTurns (h : Closed P) (n : Nat) {s t : State} (hs : P s) (hd : s.delivering = none)
    (hn : pendingTurns n s = .next t) : P t ∧ t.delivering = none ∧ t.phase = s.phase := by
  induction n generalizing s with
  | zero => cases hn; exact ⟨hs, hd, rfl⟩
  | succ n ih =>
    cases hq : s.rxq with
    | nil => rw [pendingTurns_of_empty _ hq] at hn; cases hn; exact ⟨h.unpop s hs, hd, rfl⟩
    | cons f rest =>
      rw [pendingTurns_of_cons _ hq] at hn
      obtain ⟨u, hu, ht⟩ := andThen_eq_next.1 hn
      have hp := processed_processFrame hu
      have hu' : P u := h.processFrame (s := { s with rxq := rest, popped := none })
        (h.unpop _ (h.pop s f rest hs hq)) hd hu
      obtain ⟨h1, h2, h3⟩ := ih hu' hp.delivering ht
      exact ⟨h1, h2, h3.trans hp.phase⟩

theorem drainPass (h : Closed P) {s : State} (hs : P s) : P (drainPass s).2 := by
  rcases drainPass_cases s with ⟨_, hp⟩ | ⟨e, rest, hq, _, hp⟩ | ⟨e, rest, hq, _, _, hp⟩ | ⟨e, rest, hq, _, _, hp⟩ <;> rw [hp]
  · exact hs
  · exact h.log _ _ (h.sent s e rest hs hq)
  · exact h.log _ _ hs
  · exact h.log _ _ (h.mailbox _ _ (h.sent s e rest hs hq))

theorem drainPass_phase (s : State) : (Machine.drainPass s).2.phase = s.phase := by
  rcases drainPass_cases s with ⟨_, hp⟩ | ⟨e, rest, hq, _, hp⟩ | ⟨e, rest, hq, _, _, hp⟩ | ⟨e, rest, hq, _, _, hp⟩ <;> rw [hp]

theorem drainPasses (h : Closed P) (n : Nat) {s : State} (hs : P s) :
    P (drainPasses n s) ∧ (Machine.drainPasses n s).phase = s.phase := by
  induction n generalizing s with
  | zero => exact ⟨hs, rfl⟩
  | succ n ih =>
    have hp := h.drainPass hs
    have hph := drainPass_phase s
    unfold Machine.drainPasses
    split
    · rename_i heq; rw [heq] at hp hph
      exact ⟨(ih hp).1, (ih hp).2.trans hph⟩
    · rename_i heq; rw [heq] at hp hph
      exact ⟨hp, hph⟩

theorem runCycle (h : Closed P) {s t : State} (hs : P s) (hp : s.phase = .wait) (hd : s.delivering = none)
    (hn : runCycle s = .next t) : P t := by
  obtain ⟨u, hu, hd'⟩ := andThen_eq_next.1 hn
  obtain ⟨v, hv, ht⟩ := andThen_eq_next.1 hd'
  obtain ⟨_, rfl⟩ := drainCall_eq_next.1 hv
  have hb : P (beginCycle s) := h.unpop _ (h.toDrainRx _ (h.wake s false hs) hp)
  obtain ⟨h1, h2, h3⟩ := h.pendingTurns _ hb hd hu
  cases ht
  obtain ⟨h4, h5⟩ := h.drainPasses (u.txq.length + 1) (h.toDrainTx u h1 h3 h2)
  have h6 := h.apply _ (h.toApply _ h4 h5)
  refine h.toWait _ h6 ?_
  unfold applyCommand presentOutput superviseMode
  split <;> split <;> rfl

/-- Every instruction but `INIT` keeps a closed property. -/
theorem exec (h : Closed P) {i : Instr} {s t : State} (hs : P s) (hi : i = .init → configOk s.params = true → P (initState s))
    (hn : exec i s = .next t) : P t := by
  cases i <;> simp only [Machine.exec] at hn
  case init =>
    unfold execInit at hn
    split at hn
    · cases hn
    · split at hn <;> cases hn
      rename_i hc; exact hi rfl hc
  case subscribe =>
    obtain ⟨_, _, hn⟩ := whenHostRuns_eq_next.1 hn
    split at hn <;> cases hn
    unfold addSubscription
    split
    · exact h.emit _ hs
    · rename_i hx
      simp only [Bool.or_eq_true, not_or, Bool.not_eq_true] at hx
      split
      · exact h.emit _ hs
      · rename_i j hj; exact h.emit _ (h.subscribe s _ j hs hx.1 hx.2 hj)
  case start =>
    obtain ⟨_, hm, hn⟩ := whenHostRuns_eq_next.1 hn
    split at hn <;> cases hn
    · exact hs
    · rename_i hst; exact h.start s hs (by simpa using hst) (midCycle_eq_false.1 hm).1
  case rxIrq =>
    obtain ⟨_, _, hn⟩ := whenInterruptEnabled_eq_next.1 hn
    obtain ⟨_, u, hu, rfl⟩ := takeInterrupt_eq_next.1 hn
    exact h.wake _ true (h.pullTurns _ hs hu)
  case onFrameReceived =>
    obtain ⟨_, _, hn⟩ := whenInterruptEnabled_eq_next.1 hn
    split at hn <;> try cases hn
    split at hn
    · cases hn
    · rename_i r s1 hx
      obtain ⟨rest, hq, rfl⟩ := nextRx_eq_some.1 hx
      exact h.storeFrame (h.pulled s r rest hs hq) hn
  case wakeSignal =>
    obtain ⟨_, _, hn⟩ := whenInterruptEnabled_eq_next.1 hn
    cases hn; exact h.wake s true hs
  case rxPop =>
    obtain ⟨_, _, _, hn⟩ := whenTaskFree_eq_next.1 hn
    cases hn; exact h.emit _ (h.popFrame hs)
  case processPending =>
    obtain ⟨_, hd, _, hn⟩ := whenTaskFree_eq_next.1 hn
    exact (h.pendingTurns _ hs hd hn).1
  case processFrame =>
    obtain ⟨_, hd, _, hn⟩ := whenTaskFree_eq_next.1 hn
    split at hn
    · cases hn
    · exact h.processFrame (h.unpop s hs) hd hn
  case deliver =>
    obtain ⟨_, hn⟩ := whenReady_eq_next.1 hn
    split at hn
    · cases hn
    · rename_i d hd; exact h.deliverTransfer hs hd hn
  case noteDecodeError =>
    obtain ⟨_, hn⟩ := whenReady_eq_next.1 hn
    split at hn
    · cases hn
    · obtain ⟨_, hn⟩ := whenTaskCodeRuns_eq_next.1 hn
      cases hn; exact h.decodeErr s hs
  case enqueue =>
    obtain ⟨_, hn⟩ := whenReady_eq_next.1 hn
    exact h.enqueueCall hs (whenTaskCodeRuns_eq_next.1 hn).2
  case drain =>
    obtain ⟨_, _, _, hn⟩ := whenTaskFree_eq_next.1 hn
    obtain ⟨_, rfl⟩ := drainCall_eq_next.1 hn
    exact (h.drainPasses _ hs).1
  case txPush =>
    obtain ⟨_, _, _, hn⟩ := whenTaskFree_eq_next.1 hn
    split at hn
    · cases hn
    · rename_i e rest hq
      split at hn
      · cases hn
      split at hn
      · rcases pushFrame_eq (build s.params e) s with ⟨_, hp⟩ | ⟨_, hp⟩ <;> rw [hp] at hn <;> cases hn
        · exact h.log _ _ hs
        · have hsent := h.sent s e rest hs hq
          rw [show rest = s.txq.tail by rw [hq]; rfl] at hsent
          exact h.log _ (s.log ++ [.tx (build s.params e) .success]) (h.mailbox _ (s.mboxFree - 1) hsent)
      · cases hn
  case wait =>
    obtain ⟨_, _, _, hn⟩ := whenTaskFree_eq_next.1 hn
    split at hn <;> cases hn
    exact h.wake s false hs
  case taskCycle =>
    obtain ⟨_, hd, hp, hn⟩ := whenTaskFree_eq_next.1 hn
    split at hn
    · exact h.runCycle hs hp hd hn
    · cases hn
  case apply =>
    obtain ⟨_, _, _, hn⟩ := whenTaskFree_eq_next.1 hn
    cases hn; exact h.apply s hs
  case readDropped => obtain ⟨_, hn⟩ := whenReady_eq_next.1 hn; cases hn; exact h.emit _ hs
  case readDecodeErrors => obtain ⟨_, hn⟩ := whenReady_eq_next.1 hn; cases hn; exact h.emit _ hs
  case readTimeouts => obtain ⟨_, hn⟩ := whenReady_eq_next.1 hn; cases hn; exact h.emit _ hs
  case tick n =>
    obtain ⟨_, hn⟩ := whenReady_eq_next.1 hn
    split at hn <;> cases hn
    rename_i hlt; exact h.tick s n hs hlt
  case bus =>
    obtain ⟨_, hn⟩ := whenReady_eq_next.1 hn
    split at hn <;> cases hn
    exact h.bus s _ hs
  case mbox => obtain ⟨_, hn⟩ := whenReady_eq_next.1 hn; cases hn; exact h.mailbox s _ hs
  case canidSubjectMatch =>
    obtain ⟨_, hn⟩ := whenReady_eq_next.1 hn
    split at hn <;> cases hn
    · exact h.emit _ hs
    · exact h.emit _ (h.raise _ hs)
  all_goals (cases hn; exact h.emit _ hs)

/-- Every step of agent TASK keeps a closed property. -/
theorem taskStep (h : Closed P) {s t : State} (hs : P s) (hn : taskStep s = .next t) : P t := by
  obtain ⟨_, hn⟩ := whenReady_eq_next.1 hn
  split at hn
  · cases hn; exact hs
  · rename_i hp
    split at hn <;> cases hn
    · exact h.unpop _ (h.toDrainRx _ (h.wake s false hs) hp)
    · exact hs
  · rename_i hp
    unfold drainRxStep at hn
    split at hn
    · rename_i d hd; exact h.deliverTransfer hs hd hn
    · rename_i hd
      split at hn
      · exact h.processFrame (h.unpop s hs) hd hn
      · split at hn <;> cases hn
        · refine h.midPhase _ (h.popFrame hs) (.inl ?_); unfold Machine.popFrame; split <;> assumption
        · refine h.toDrainTx _ (h.popFrame hs) ?_ ?_ <;> unfold Machine.popFrame <;> split <;> assumption
  · rename_i hp
    obtain ⟨_, rfl⟩ := drainTxStep_eq_next.1 hn
    split
    · exact h.midPhase _ (h.drainPass hs) (.inr ((drainPass_phase s).trans hp))
    · exact h.toApply _ (h.drainPass hs) ((drainPass_phase s).trans hp)
  · rename_i hp
    cases hn
    refine h.toWait _ (h.apply s hs) ?_
    unfold applyCommand presentOutput superviseMode
    split <;> split <;> exact hp

/-- Every step keeps a closed property, if `INIT` does. -/
theorem step (h : Closed P) {s t : State} (hs : P s)
    (hi : ∀ u, P u → configOk u.params = true → P (initState u)) (hn : step s = .next t) : P t := by
  unfold Machine.step at hn
  split at hn
  · exact h.taskStep hs hn
  · exact h.taskStep (h.schedule s _ hs) hn
  · split at hn
    · cases hn
    · exact h.exec (h.schedule s _ hs) (fun _ hc => hi _ (h.schedule s _ hs) hc) hn

end Closed

end Sys2Proof.Laws
end

