-- ==== Sys2Proof/Laws/Decode.lean ====
section
/-! SUPPORT. Byte strings, identifier fields and tail fields: what reading gives after writing. -/

namespace Sys2Proof.Laws

/-! ## Big-endian operands -/

@[simp] theorem beBytes_length (n v : Nat) : (beBytes n v).length = n := by
  induction n with
  | zero => rfl
  | succ n ih => simp [beBytes, ih]

theorem beNat_append_singleton (bs : List Byte) (b : Byte) : beNat (bs ++ [b]) = beNat bs * 256 + b.toNat := by
  simp [beNat]

theorem beNat_foldl (bs : List Byte) (a : Nat) :
    bs.foldl (fun acc b => acc * 256 + b.toNat) a = a * 256 ^ bs.length + beNat bs := by
  induction bs generalizing a with
  | nil => simp [beNat]
  | cons b bs ih =>
    simp only [beNat, List.foldl_cons, List.length_cons] at ih ⊢
    rw [ih, ih (0 * 256 + b.toNat)]; ring

theorem beNat_cons (b : Byte) (bs : List Byte) : beNat (b :: bs) = b.toNat * 256 ^ bs.length + beNat bs := by
  have := beNat_foldl bs (0 * 256 + b.toNat)
  simp only [beNat, List.foldl_cons] at this ⊢
  rw [this]; simp

theorem beNat_lt (bs : List Byte) : beNat bs < 256 ^ bs.length := by
  induction bs with
  | nil => simp [beNat]
  | cons b bs ih =>
    rw [beNat_cons, List.length_cons, Nat.pow_succ]
    have := b.isLt
    nlinarith

/-- Reading `n` bytes back gives the value modulo `256 ^ n`. -/
theorem beNat_beBytes_mod (n v : Nat) : beNat (beBytes n v) = v % 256 ^ n := by
  induction n generalizing v with
  | zero => simp [beBytes, beNat, Nat.mod_one]
  | succ n ih =>
    rw [beBytes, beNat_cons, ih, beBytes_length, BitVec.toNat_ofNat, pow_succ 256 n, Nat.mod_mul]
    ring

theorem beNat_beBytes {n v : Nat} (h : v < 256 ^ n) : beNat (beBytes n v) = v := by
  rw [beNat_beBytes_mod, Nat.mod_eq_of_lt h]

theorem takeBytes_append {n : Nat} {bs : List Byte} (h : bs.length = n) (rest : List Byte) :
    takeBytes n (bs ++ rest) = .ok (bs, rest) := by
  subst h; simp [takeBytes]

theorem takeNat_append {n v : Nat} (h : v < 256 ^ n) (rest : List Byte) :
    takeNat n (beBytes n v ++ rest) = .ok (v, rest) := by
  simp [takeNat, takeBytes_append, beNat_beBytes h, bind, Except.bind, pure, Except.pure]

theorem takeId_append (id : CanId) (rest : List Byte) : takeId (beBytes 4 id.toNat ++ rest) = .ok (id, rest) := by
  have h : id.toNat < 2 ^ 29 := id.isLt
  have h' : id.toNat < 256 ^ 4 := by omega
  unfold takeId
  rw [takeNat_append h']
  simp [bind, Except.bind, pure, Except.pure]
  omega

/-! ## Bits of an identifier -/

theorem messageId_getLsbD (prio : Priority) (anon r23 : Bool) (r21 : BitVec 2) (subject : Subject) (r7 : Bool)
    (src : SourceId) (k : Nat) :
    (messageId prio anon r23 r21 subject r7 src).getLsbD k =
      if k < 7 then src.getLsbD k
      else if k = 7 then r7
      else if k < 21 then subject.getLsbD (k - 8)
      else if k < 23 then r21.getLsbD (k - 21)
      else if k = 23 then r23
      else if k = 24 then anon
      else if k = 25 then false
      else prio.getLsbD (k - 26) := by
  simp only [messageId, BitVec.getLsbD_append, BitVec.getLsbD_ofBool]
  by_cases h : k < 29
  · interval_cases k <;> simp
  · have h' : 29 ≤ k := Nat.le_of_not_lt h
    simp only [show ¬ k < 7 by omega, show ¬ k = 7 by omega, show ¬ k < 21 by omega, show ¬ k < 23 by omega,
      show ¬ k = 23 by omega, show ¬ k = 24 by omega, show ¬ k = 25 by omega, show ¬ k - 7 < 1 by omega,
      show ¬ k - 7 - 1 < 13 by omega, show ¬ k - 7 - 1 - 13 < 2 by omega, show ¬ k - 7 - 1 - 13 - 2 < 1 by omega,
      show ¬ k - 7 - 1 - 13 - 2 - 1 < 1 by omega, show ¬ k - 7 - 1 - 13 - 2 - 1 - 1 < 1 by omega, if_false]
    rw [BitVec.getLsbD_of_ge _ _ (by omega), BitVec.getLsbD_of_ge _ _ (by omega)]

theorem serviceId_getLsbD (prio : Priority) (rnr r23 : Bool) (service : BitVec 9) (dst src : SourceId) (k : Nat) :
    (serviceId prio rnr r23 service dst src).getLsbD k =
      if k < 7 then src.getLsbD k
      else if k < 14 then dst.getLsbD (k - 7)
      else if k < 23 then service.getLsbD (k - 14)
      else if k = 23 then r23
      else if k = 24 then rnr
      else if k = 25 then true
      else prio.getLsbD (k - 26) := by
  simp only [serviceId, BitVec.getLsbD_append, BitVec.getLsbD_ofBool]
  by_cases h : k < 29
  · interval_cases k <;> simp
  · have h' : 29 ≤ k := Nat.le_of_not_lt h
    simp only [show ¬ k < 7 by omega, show ¬ k < 14 by omega, show ¬ k < 23 by omega, show ¬ k = 23 by omega,
      show ¬ k = 24 by omega, show ¬ k = 25 by omega, show ¬ k - 7 < 7 by omega, show ¬ k - 7 - 7 < 9 by omega,
      show ¬ k - 7 - 7 - 9 < 1 by omega, show ¬ k - 7 - 7 - 9 - 1 < 1 by omega,
      show ¬ k - 7 - 7 - 9 - 1 - 1 < 1 by omega, if_false]
    rw [BitVec.getLsbD_of_ge _ _ (by omega), BitVec.getLsbD_of_ge _ _ (by omega)]

/-! ## Fields of an identifier -/

@[simp] theorem idPrio_messageId (prio : Priority) (anon r23 : Bool) (r21 : BitVec 2) (subject : Subject) (r7 : Bool)
    (src : SourceId) :
    idPrio (messageId prio anon r23 r21 subject r7 src) = prio := by
  refine BitVec.eq_of_getLsbD_eq fun k hk => ?_
  rw [idPrio, BitVec.getLsbD_extractLsb', messageId_getLsbD]
  interval_cases k <;> simp

@[simp] theorem idSvc_messageId (prio : Priority) (anon r23 : Bool) (r21 : BitVec 2) (subject : Subject) (r7 : Bool)
    (src : SourceId) :
    idSvc (messageId prio anon r23 r21 subject r7 src) = false := by
  rw [idSvc, messageId_getLsbD]; rfl

@[simp] theorem idAnon_messageId (prio : Priority) (anon r23 : Bool) (r21 : BitVec 2) (subject : Subject) (r7 : Bool)
    (src : SourceId) :
    idAnon (messageId prio anon r23 r21 subject r7 src) = anon := by
  rw [idAnon, messageId_getLsbD]; rfl

@[simp] theorem idR23_messageId (prio : Priority) (anon r23 : Bool) (r21 : BitVec 2) (subject : Subject) (r7 : Bool)
    (src : SourceId) :
    idR23 (messageId prio anon r23 r21 subject r7 src) = r23 := by
  rw [idR23, messageId_getLsbD]; rfl

@[simp] theorem idR21_messageId (prio : Priority) (anon r23 : Bool) (r21 : BitVec 2) (subject : Subject) (r7 : Bool)
    (src : SourceId) :
    idR21 (messageId prio anon r23 r21 subject r7 src) = r21 := by
  refine BitVec.eq_of_getLsbD_eq fun k hk => ?_
  rw [idR21, BitVec.getLsbD_extractLsb', messageId_getLsbD]
  interval_cases k <;> simp

@[simp] theorem idSubject_messageId (prio : Priority) (anon r23 : Bool) (r21 : BitVec 2) (subject : Subject) (r7 : Bool)
    (src : SourceId) :
    idSubject (messageId prio anon r23 r21 subject r7 src) = subject := by
  refine BitVec.eq_of_getLsbD_eq fun k hk => ?_
  rw [idSubject, BitVec.getLsbD_extractLsb', messageId_getLsbD]
  interval_cases k <;> simp

@[simp] theorem idR7_messageId (prio : Priority) (anon r23 : Bool) (r21 : BitVec 2) (subject : Subject) (r7 : Bool)
    (src : SourceId) :
    idR7 (messageId prio anon r23 r21 subject r7 src) = r7 := by
  rw [idR7, messageId_getLsbD]; rfl

@[simp] theorem idSrcBits_messageId (prio : Priority) (anon r23 : Bool) (r21 : BitVec 2) (subject : Subject) (r7 : Bool)
    (src : SourceId) :
    idSrcBits (messageId prio anon r23 r21 subject r7 src) = src := by
  refine BitVec.eq_of_getLsbD_eq fun k hk => ?_
  rw [idSrcBits, BitVec.getLsbD_extractLsb', messageId_getLsbD]
  interval_cases k <;> simp

@[simp] theorem idPrio_serviceId (prio : Priority) (rnr r23 : Bool) (service : BitVec 9) (dst src : SourceId) :
    idPrio (serviceId prio rnr r23 service dst src) = prio := by
  refine BitVec.eq_of_getLsbD_eq fun k hk => ?_
  rw [idPrio, BitVec.getLsbD_extractLsb', serviceId_getLsbD]
  interval_cases k <;> simp

@[simp] theorem idSvc_serviceId (prio : Priority) (rnr r23 : Bool) (service : BitVec 9) (dst src : SourceId) :
    idSvc (serviceId prio rnr r23 service dst src) = true := by
  rw [idSvc, serviceId_getLsbD]; rfl

@[simp] theorem idAnon_serviceId (prio : Priority) (rnr r23 : Bool) (service : BitVec 9) (dst src : SourceId) :
    idAnon (serviceId prio rnr r23 service dst src) = rnr := by
  rw [idAnon, serviceId_getLsbD]; rfl

@[simp] theorem idR23_serviceId (prio : Priority) (rnr r23 : Bool) (service : BitVec 9) (dst src : SourceId) :
    idR23 (serviceId prio rnr r23 service dst src) = r23 := by
  rw [idR23, serviceId_getLsbD]; rfl

@[simp] theorem idService_serviceId (prio : Priority) (rnr r23 : Bool) (service : BitVec 9) (dst src : SourceId) :
    idService (serviceId prio rnr r23 service dst src) = service := by
  refine BitVec.eq_of_getLsbD_eq fun k hk => ?_
  rw [idService, BitVec.getLsbD_extractLsb', serviceId_getLsbD]
  interval_cases k <;> simp

@[simp] theorem idDst_serviceId (prio : Priority) (rnr r23 : Bool) (service : BitVec 9) (dst src : SourceId) :
    idDst (serviceId prio rnr r23 service dst src) = dst := by
  refine BitVec.eq_of_getLsbD_eq fun k hk => ?_
  rw [idDst, BitVec.getLsbD_extractLsb', serviceId_getLsbD]
  interval_cases k <;> simp

@[simp] theorem idSrcBits_serviceId (prio : Priority) (rnr r23 : Bool) (service : BitVec 9) (dst src : SourceId) :
    idSrcBits (serviceId prio rnr r23 service dst src) = src := by
  refine BitVec.eq_of_getLsbD_eq fun k hk => ?_
  rw [idSrcBits, BitVec.getLsbD_extractLsb', serviceId_getLsbD]
  interval_cases k <;> simp

/-! ## Bits of a tail byte -/

theorem tailByte_getLsbD (sot eot tog : Bool) (tid : BitVec 5) (k : Nat) :
    (tailByte sot eot tog tid).getLsbD k =
      if k < 5 then tid.getLsbD k else if k = 5 then tog else if k = 6 then eot else if k = 7 then sot else false := by
  simp only [tailByte, BitVec.getLsbD_append, BitVec.getLsbD_ofBool]
  by_cases h : k < 8
  · interval_cases k <;> simp
  · simp only [show ¬ k < 5 by omega, show ¬ k = 5 by omega, show ¬ k = 6 by omega, show ¬ k = 7 by omega,
      show ¬ k - 5 < 1 by omega, show ¬ k - 5 - 1 < 1 by omega, if_false]
    simp; omega

@[simp] theorem tailSot_tailByte (sot eot tog : Bool) (tid : BitVec 5) : tailSot (tailByte sot eot tog tid) = sot := by
  rw [tailSot, tailByte_getLsbD]; rfl

@[simp] theorem tailEot_tailByte (sot eot tog : Bool) (tid : BitVec 5) : tailEot (tailByte sot eot tog tid) = eot := by
  rw [tailEot, tailByte_getLsbD]; rfl

@[simp] theorem tailTog_tailByte (sot eot tog : Bool) (tid : BitVec 5) : tailTog (tailByte sot eot tog tid) = tog := by
  rw [tailTog, tailByte_getLsbD]; rfl

@[simp] theorem tailTid_tailByte (sot eot tog : Bool) (tid : BitVec 5) : tailTid (tailByte sot eot tog tid) = tid := by
  refine BitVec.eq_of_getLsbD_eq fun k hk => ?_
  rw [tailTid, BitVec.getLsbD_extractLsb', tailByte_getLsbD]
  interval_cases k <;> simp

end Sys2Proof.Laws
end

