-- ==== Sys2Proof/Laws/Independent.lean ====
section
/-! SUPPORT. What `PROCESS_FRAME` neither reads nor writes (R131, R188): the fields of the interrupt and of TASK's control
position. It does the same whatever they hold, and appends to the trace the same events, but for the values of counters. -/

namespace Sys2Proof.Laws

open Sys2Proof.Machine

theorem observable_append (l m : List Event) : observable (l ++ m) = observable l ++ observable m := List.filter_append ..
/-- What can be observed does not depend on what the counters hold, these apart (R14). -/
theorem observable_map_maskCounter (l : List Event) :
    (observable l).map maskCounter = observable (l.map maskCounter) := by
  induction l with
  | nil => rfl
  | cons e l ih =>
    have he : observableEvent (maskCounter e) = observableEvent e := by
      unfold maskCounter; split <;> rfl
    simp only [observable, List.filter_cons, List.map_cons, he] at ih ⊢
    split <;> simp [ih]

/-- The interrupt's fields, the control position and the trace. -/
structure Control where
  ctrlRx : List BusFrame
  rxq : List Frame
  dropped : Count
  wake : Bool
  phase : Phase
  midPhase : Bool
  waitStart : Time
  log : List Event

/-- The same with events appended to the trace. -/
def Control.add (k : Control) (ev : List Event) : Control := { k with log := k.log ++ ev }

@[simp] theorem Control.add_nil (k : Control) : k.add [] = k := by simp [Control.add]

theorem Control.add_add (k : Control) (a b : List Event) : (k.add a).add b = k.add (a ++ b) := by simp [Control.add]

/-- A state with these fields replaced. -/
def withControl (k : Control) (s : State) : State :=
  { s with
    ctrlRx := k.ctrlRx
    rxq := k.rxq
    dropped := k.dropped
    wake := k.wake
    phase := k.phase
    midPhase := k.midPhase
    waitStart := k.waitStart
    log := k.log }

@[simp] theorem withControl_params (k : Control) (s : State) : (withControl k s).params = s.params := rfl

@[simp] theorem withControl_sub (k : Control) (s : State) : (withControl k s).sub = s.sub := rfl

@[simp] theorem withControl_sess (k : Control) (s : State) : (withControl k s).sess = s.sess := rfl

@[simp] theorem withControl_session (k : Control) (s : State) (key : Nat) : (withControl k s).session key = s.session key := rfl

@[simp] theorem withControl_poolFree (k : Control) (s : State) : (withControl k s).poolFree = s.poolFree := rfl

@[simp] theorem withControl_txq (k : Control) (s : State) : (withControl k s).txq = s.txq := rfl

@[simp] theorem withControl_sup (k : Control) (s : State) : (withControl k s).sup = s.sup := rfl

@[simp] theorem withControl_decodeErr (k : Control) (s : State) : (withControl k s).decodeErr = s.decodeErr := rfl

@[simp] theorem withControl_delivering (k : Control) (s : State) : (withControl k s).delivering = s.delivering := rfl

@[simp] theorem withControl_freeCount (k : Control) (s : State) : (withControl k s).freeCount = s.freeCount := rfl

/-! ## Operations that always go on -/

/-- The operation does the same whatever the fields of `Control` hold, and adds the same events to the trace. -/
def Independent (f : State → State) : Prop :=
  ∀ s, ∃ ev, (f s).log = s.log ++ ev ∧ ∀ k, f (withControl k s) = withControl (k.add ev) (f s)

theorem Independent.of_silent {f : State → State} (h : ∀ s, (f s).log = s.log) (h' : ∀ k s, f (withControl k s) = withControl k (f s)) :
    Independent f := fun s => ⟨[], by simp [h], fun k => by simp [h']⟩

theorem Independent.refl : Independent fun s => s := .of_silent (fun _ => rfl) fun _ _ => rfl

theorem Independent.comp {f g : State → State} (hf : Independent f) (hg : Independent g) : Independent fun s => g (f s) := by
  intro s
  obtain ⟨a, ha, hfa⟩ := hf s
  obtain ⟨b, hb, hgb⟩ := hg (f s)
  refine ⟨a ++ b, by rw [hb, ha, List.append_assoc], fun k => ?_⟩
  show g (f _) = _
  rw [hfa, hgb, Control.add_add]

/-- At each state the operation may be read as another one, as long as it is the same one for every `Control`. -/
theorem Independent.of_at {f : State → State}
    (h : ∀ s, ∃ g, Independent g ∧ f s = g s ∧ ∀ k, f (withControl k s) = g (withControl k s)) : Independent f := by
  intro s
  obtain ⟨g, hg, h1, h2⟩ := h s
  obtain ⟨a, ha, hga⟩ := hg s
  exact ⟨a, by rw [h1, ha], fun k => by rw [h2, hga, h1]⟩

theorem Independent.ite (b : Bool) {f g : State → State} (hf : Independent f) (hg : Independent g) :
    Independent fun s => if b then f s else g s := by cases b <;> simpa

theorem independent_emit (e : Event) : Independent (emit e) := fun _ => ⟨[e], rfl, fun _ => rfl⟩

theorem independent_raiseError {e : ErrorClass} (h : taskError e = true) : Independent (raiseError e) := by
  intro s
  refine ⟨[.raised e], by simp, fun k => ?_⟩
  cases e
  case rxOverflow => cases h
  case extentViolation => rw [raiseError_extentViolation, raiseError_extentViolation]; rfl
  all_goals rfl

theorem independent_putSession (key : Nat) (v : Session) : Independent (putSession key v) :=
  .of_silent (by simp) fun _ _ => rfl

theorem independent_handOver (d : Delivery) : Independent (handOver d) := .of_silent (fun _ => rfl) fun _ _ => rfl

theorem independent_abandon (key : Nat) : Independent (abandon key) := by
  refine .of_silent (by simp) fun k s => ?_
  unfold abandon; rw [withControl_session]; split <;> rfl

theorem independent_ageTransfer (key : Nat) (timeout : Time) (f : Frame) : Independent (ageTransfer key timeout f) := by
  refine .of_at fun s => ?_
  cases h : (s.session key).cur with
  | none => exact ⟨_, .refl, by simp [ageTransfer, h], by simp [ageTransfer, h]⟩
  | some r =>
    exact ⟨_, .ite (moreThan f.ts r.tsFirst timeout.toNat)
      ((independent_abandon key).comp (independent_raiseError (e := .incompleteSequence .timedOut) rfl)) .refl,
      by simp only [ageTransfer, h], by simp only [ageTransfer, withControl_session, h, implies_true]⟩

theorem independent_forgetLast (key : Nat) (timeout : Time) (f : Frame) : Independent (forgetLast key timeout f) := by
  refine .of_at fun s => ?_
  cases h : (s.session key).last with
  | none => exact ⟨_, .refl, by unfold forgetLast; split <;> simp_all, fun k => by unfold forgetLast; split <;> simp_all⟩
  | some l =>
    refine ⟨_, .ite (decide (s.params.tidExpiry = .onTimeout) && moreThan f.ts l.ts timeout.toNat)
      (independent_putSession key { s.session key with last := none }) .refl, ?_, fun k => ?_⟩ <;>
      cases hx : s.params.tidExpiry <;> simp [forgetLast, h, hx]

theorem independent_sequenceTransfer (key : Nat) (sb : Subscription) (r : Reassembly) :
    Independent (sequenceTransfer key sb r) := by
  refine .of_at fun s => ?_
  cases h : (s.session key).last.bind fun l => staleness s.params r.tid l.tid with
  | some why =>
    exact ⟨_, (independent_abandon key).comp (independent_raiseError (e := .staleTransfer why) rfl), by simp [sequenceTransfer, h],
      by simp [sequenceTransfer, h]⟩
  | none =>
    exact ⟨_, (independent_putSession key { s.session key with last := some { tid := r.tid, ts := r.tsFirst } }).comp
        (independent_handOver
          { tag := sb.tag, subject := sb.subject, payload := transferPayload s.params r, ts := r.tsFirst, holder := some key }),
      by simp [sequenceTransfer, h], by simp [sequenceTransfer, h]⟩

theorem independent_accumulate (key : Nat) (f : Frame) : Independent (accumulate key f) := by
  refine .of_at fun s => ?_
  cases h : (s.session key).cur with
  | none => exact ⟨_, .refl, by simp [accumulate, h], by simp [accumulate, h]⟩
  | some r =>
    exact ⟨_, independent_putSession key { s.session key with cur := some { r with buf := r.buf ++ f.pl, toggle := !r.toggle } },
      by simp [accumulate, h], by simp [accumulate, h]⟩

theorem independent_completeTransfer (key : Nat) (sb : Subscription) (f : Frame) : Independent (completeTransfer key sb f) := by
  refine .of_at fun s => ?_
  cases he : f.eot with
  | false => exact ⟨_, .refl, by simp [completeTransfer, he], by simp [completeTransfer, he]⟩
  | true =>
    cases h : (s.session key).cur with
    | none => exact ⟨_, .refl, by simp [completeTransfer, he, h], by simp [completeTransfer, he, h]⟩
    | some r =>
      exact ⟨_, .ite (r.multi && !crcOk s.params r.buf)
        ((independent_abandon key).comp (independent_raiseError (e := .incompleteSequence .badCrc) rfl))
        (independent_sequenceTransfer key sb r), by simp [completeTransfer, he, h], by simp [completeTransfer, he, h]⟩

theorem independent_preempt (key : Nat) : Independent (preempt key) := by
  refine .of_at fun s => ?_
  cases h : (s.session key).cur with
  | none => exact ⟨_, .refl, by simp [preempt, h], by simp [preempt, h]⟩
  | some r =>
    exact ⟨_, (independent_abandon key).comp (independent_raiseError (e := .incompleteSequence .preempted) rfl), by simp [preempt, h],
      by simp [preempt, h]⟩

/-- Steps 6 to 9 after a gate of step 5. -/
def afterGate (key : Nat) (sb : Subscription) (f : Frame) : Gate → State
  | .done s => s
  | .more s => completeTransfer key sb f (accumulate key f s)

theorem independent_steps6to9 (key : Nat) (sb : Subscription) (f : Frame) :
    Independent fun s => completeTransfer key sb f (accumulate key f s) :=
  (independent_accumulate key f).comp (independent_completeTransfer key sb f)

theorem independent_takeBuffer (n : Nat) : Independent fun s => { s with poolFree := n } :=
  .of_silent (fun _ => rfl) fun _ _ => rfl

theorem independent_openTransfer (key : Nat) (sb : Subscription) (f : Frame) :
    Independent fun s => afterGate key sb f (openTransfer key sb.extent f s) := by
  refine .of_at fun s => ?_
  by_cases hx : startLimit s.params sb.extent f < f.pl.length
  · exact ⟨_, independent_raiseError (e := .extentViolation) rfl, by simp [openTransfer, hx, afterGate],
      by simp [openTransfer, hx, afterGate]⟩
  · cases hp : s.poolFree with
    | zero =>
      exact ⟨_, independent_raiseError (e := .poolExhaustedRx) rfl, by simp [openTransfer, hx, afterGate, poolAlloc, hp],
        by simp [openTransfer, hx, afterGate, poolAlloc, hp]⟩
    | succ n =>
      exact ⟨_, ((independent_takeBuffer n).comp
          (independent_putSession key { s.session key with cur := some (openReassembly s.params f) })).comp
          (independent_steps6to9 key sb f),
        by simp [openTransfer, hx, afterGate, poolAlloc, hp, State.session],
        by simp [openTransfer, hx, afterGate, poolAlloc, hp, State.session]⟩

theorem independent_continueTransfer (key : Nat) (sb : Subscription) (f : Frame) :
    Independent fun s => afterGate key sb f (continueTransfer key sb.extent f s) := by
  refine .of_at fun s => ?_
  cases h : (s.session key).cur with
  | none =>
    exact ⟨_, independent_raiseError (e := .incompleteSequence .orphan) rfl, by simp [continueTransfer, h, afterGate],
      by simp [continueTransfer, h, afterGate]⟩
  | some r =>
    by_cases h1 : frameTid s.params f ≠ r.tid ∨ f.tog ≠ r.toggle
    · exact ⟨_, independent_raiseError (e := .incompleteSequence .orphan) rfl, by simp only [continueTransfer, h, h1, afterGate, if_true],
        by simp only [continueTransfer, withControl_session, withControl_params, h, h1, afterGate, if_true, implies_true]⟩
    · by_cases h2 : sb.extent + s.params.crcBytes < r.buf.length + f.pl.length
      · exact ⟨_, (independent_abandon key).comp (independent_raiseError (e := .extentViolation) rfl),
          by simp only [continueTransfer, h, h1, h2, afterGate, if_true, if_false],
          by simp only [continueTransfer, withControl_session, withControl_params, h, h1, h2, afterGate, if_true, if_false, implies_true]⟩
      · exact ⟨_, independent_steps6to9 key sb f, by simp only [continueTransfer, h, h1, h2, afterGate, if_false],
          by simp only [continueTransfer, withControl_session, withControl_params, h, h1, h2, afterGate, if_false, implies_true]⟩

theorem independent_sessionTransfer (key : Nat) (sb : Subscription) (f : Frame) : Independent (sessionTransfer key sb f) := by
  have h : sessionTransfer key sb f = fun s =>
      if f.sot then afterGate key sb f (openTransfer key sb.extent f (preempt key (ageOut key sb.timeout f s)))
      else afterGate key sb f (continueTransfer key sb.extent f (ageOut key sb.timeout f s)) := by
    funext s; unfold sessionTransfer; cases f.sot <;> rfl
  have age : Independent (ageOut key sb.timeout f) :=
    (independent_ageTransfer key sb.timeout f).comp (independent_forgetLast key sb.timeout f)
  rw [h]
  exact .ite f.sot ((age.comp (independent_preempt key)).comp (independent_openTransfer key sb f))
    (age.comp (independent_continueTransfer key sb f))

theorem independent_anonymousTransfer (sb : Subscription) (f : Frame) : Independent (anonymousTransfer sb f) := by
  refine .of_at fun s => ?_
  by_cases hx : sb.extent < f.pl.length
  · exact ⟨_, independent_raiseError (e := .extentViolation) rfl, by simp [anonymousTransfer, hx], by simp [anonymousTransfer, hx]⟩
  · cases hp : s.poolFree with
    | zero =>
      exact ⟨_, independent_raiseError (e := .poolExhaustedRx) rfl, by simp [anonymousTransfer, hx, poolAlloc, hp],
        by simp [anonymousTransfer, hx, poolAlloc, hp]⟩
    | succ n =>
      exact ⟨_, (independent_takeBuffer n).comp (independent_handOver
          { tag := sb.tag, subject := sb.subject, payload := f.pl, ts := f.ts, holder := none }),
        by simp [anonymousTransfer, hx, poolAlloc, hp], by simp [anonymousTransfer, hx, poolAlloc, hp]⟩

/-- Steps 1 to 9 of `PROCESS_FRAME`. -/
theorem independent_reassemble (f : Frame) : Independent (reassemble f) := by
  refine .of_at fun s => ?_
  cases hm : matchSub s.sub f.id with
  | none => exact ⟨_, independent_raiseError (e := .unmatched) rfl, by simp [reassemble, hm], by simp [reassemble, hm]⟩
  | some x =>
    cases hv : malformed s.params f with
    | some v =>
      exact ⟨_, independent_raiseError (e := .malformedFrame v) rfl, by simp [reassemble, hm, hv], by simp [reassemble, hm, hv]⟩
    | none =>
      exact ⟨_, .ite (idAnon f.id) (independent_anonymousTransfer x.2 f)
          (independent_sessionTransfer (sessKey x.1 (idSrcBits f.id)) x.2 f),
        by simp [reassemble, hm, hv], by simp [reassemble, hm, hv]⟩

/-! ## Operations that may stop -/

/-- Two lists of events are the same but for the values of counters, with the same deliveries. -/
def sameEvents (a b : List Event) : Prop :=
  a.map maskCounter = b.map maskCounter ∧ a.filter deliverEvent = b.filter deliverEvent

theorem sameEvents.refl {a : List Event} : sameEvents a a := ⟨rfl, rfl⟩

theorem sameEvents.append {a b c d : List Event} (h : sameEvents a b) (h' : sameEvents c d) : sameEvents (a ++ c) (b ++ d) := by
  simp [sameEvents, h.1, h.2, h'.1, h'.2]

/-- Where the operation completes, it completes alike whatever the fields of `Control` hold; where it stops, it stops alike. Only
accessors that a handler calls show a difference, and only where `dropped` differs. -/
def IndependentResult (f : State → Result) : Prop :=
  ∀ s, (∃ t ev, f s = .next t ∧ t.log = s.log ++ ev
      ∧ ∀ k, ∃ ev', sameEvents ev ev' ∧ (k.dropped = s.dropped → ev' = ev)
        ∧ f (withControl k s) = .next (withControl (k.add ev') t))
    ∨ (∃ r, f s = .fault r ∧ ∀ k, f (withControl k s) = .fault r)
    ∨ ∃ r, f s = .refused r ∧ ∀ k, f (withControl k s) = .refused r

theorem Independent.result {f : State → State} (h : Independent f) : IndependentResult fun s => .next (f s) := by
  intro s
  obtain ⟨a, ha, hf⟩ := h s
  exact .inl ⟨_, a, rfl, ha, fun k => ⟨a, .refl, fun _ => rfl, by rw [← hf]⟩⟩

/-- The fields of a state that make up `Control`. -/
def controlOf (s : State) : Control where
  ctrlRx := s.ctrlRx
  rxq := s.rxq
  dropped := s.dropped
  wake := s.wake
  phase := s.phase
  midPhase := s.midPhase
  waitStart := s.waitStart
  log := s.log

@[simp] theorem withControl_controlOf (s : State) : withControl (controlOf s) s = s := rfl

/-- An independent operation leaves the fields of `Control` but the trace as they are. -/
theorem IndependentResult.controlOf {f : State → Result} (h : IndependentResult f) {s t : State} (hn : f s = .next t) :
    ∃ ev, t = withControl ((controlOf s).add ev) t ∧ t.log = s.log ++ ev
      ∧ ∀ k, ∃ ev', sameEvents ev ev' ∧ (k.dropped = s.dropped → ev' = ev)
        ∧ f (withControl k s) = .next (withControl (k.add ev') t) := by
  rcases h s with ⟨u, ev, hu, hl, hk⟩ | ⟨r, hr, _⟩ | ⟨r, hr, _⟩
  · rw [hn] at hu; cases hu
    obtain ⟨ev', _, he, h'⟩ := hk (Laws.controlOf s)
    rw [withControl_controlOf, hn, he rfl] at h'
    exact ⟨ev, by injection h', hl, hk⟩
  · rw [hn] at hr; cases hr
  · rw [hn] at hr; cases hr

theorem IndependentResult.andThen {f g : State → Result} (hf : IndependentResult f) (hg : IndependentResult g) :
    IndependentResult fun s => andThen (f s) g := by
  intro s
  rcases hf s with ⟨t, ev, h, hl, hk⟩ | ⟨r, h, hk⟩ | ⟨r, h, hk⟩
  · have hd : t.dropped = s.dropped := by
      obtain ⟨_, he, _⟩ := hf.controlOf h
      rw [he]; rfl
    rcases hg t with ⟨u, ev2, h2, hl2, hk2⟩ | ⟨r, h2, hk2⟩ | ⟨r, h2, hk2⟩
    · refine .inl ⟨u, ev ++ ev2, by simp [h, h2], by rw [hl2, hl, List.append_assoc], fun k => ?_⟩
      obtain ⟨a, ha, hae, hfa⟩ := hk k
      obtain ⟨b, hb, hbe, hgb⟩ := hk2 (k.add a)
      exact ⟨a ++ b, ha.append hb, fun h => by rw [hae h, hbe (h.trans hd.symm)], by simp [hfa, hgb, Control.add_add]⟩
    · refine .inr (.inl ⟨r, by simp [h, h2], fun k => ?_⟩)
      obtain ⟨a, _, _, hfa⟩ := hk k; simp [hfa, hk2]
    · refine .inr (.inr ⟨r, by simp [h, h2], fun k => ?_⟩)
      obtain ⟨a, _, _, hfa⟩ := hk k; simp [hfa, hk2]
  · exact .inr (.inl ⟨r, by simp [h], fun k => by simp [hk]⟩)
  · exact .inr (.inr ⟨r, by simp [h], fun k => by simp [hk]⟩)

theorem IndependentResult.of_at {f : State → Result}
    (h : ∀ s, ∃ g, IndependentResult g ∧ f s = g s ∧ ∀ k, f (withControl k s) = g (withControl k s)) : IndependentResult f := by
  intro s
  obtain ⟨g, hg, h1, h2⟩ := h s
  simp only [h1, h2]; exact hg s

theorem independentResult_refused (r : Refusal) : IndependentResult fun _ => .refused r := fun _ => .inr (.inr ⟨r, rfl, fun _ => rfl⟩)

theorem independent_enqueueItem (e : Item) : Independent (enqueueItem e) := by
  refine .of_at fun s => ?_
  by_cases hc : s.txq.length = s.params.txqCap
  · exact ⟨_, (independent_raiseError (e := .txQueueFull) rfl).comp (independent_emit (.result .rejected)), by simp [enqueueItem, hc],
      by simp [enqueueItem, hc]⟩
  · cases hp : s.poolFree with
    | zero =>
      exact ⟨_, (independent_raiseError (e := .poolExhaustedTx) rfl).comp (independent_emit (.result .rejected)),
        by simp [enqueueItem, hc, poolAlloc, hp], by simp [enqueueItem, hc, poolAlloc, hp]⟩
    | succ n =>
      refine ⟨fun u => emit (.result .ok) { u with poolFree := n, txq := insertItem e s.txq },
        Independent.comp (f := fun u : State => { u with poolFree := n, txq := insertItem e s.txq })
          (.of_silent (fun _ => rfl) fun _ _ => rfl) (independent_emit _), ?_, fun k => ?_⟩ <;>
        simp [enqueueItem, hc, poolAlloc, hp]

theorem independentResult_handlerCall (i : Instr) : IndependentResult (handlerCall i) := by
  cases i
  case enqueue subject transferId priority deadline payload =>
    refine .of_at fun s => ?_
    by_cases h : enqueueInContract subject priority payload = true
    · exact ⟨_, (independent_enqueueItem (enqueueOperand s.params subject transferId priority deadline payload)).result,
        by simp [handlerCall, enqueueCall, h], by simp [handlerCall, enqueueCall, h]⟩
    · exact ⟨_, independentResult_refused .operandOutOfRange, by simp [handlerCall, enqueueCall, h],
        by simp [handlerCall, enqueueCall, h]⟩
  case noteDecodeError => exact (Independent.of_silent (fun _ => rfl) fun _ _ => rfl : Independent countDecodeError).result
  case readDropped =>
    exact fun s => .inl ⟨_, _, rfl, rfl, fun k => ⟨[.result (.counter k.dropped)], by simp [sameEvents, maskCounter, deliverEvent], fun h => by rw [h], rfl⟩⟩
  case readDecodeErrors => exact fun s => .inl ⟨_, _, rfl, rfl, fun k => ⟨_, .refl, fun _ => rfl, rfl⟩⟩
  case readTimeouts => exact fun s => .inl ⟨_, _, rfl, rfl, fun k => ⟨_, .refl, fun _ => rfl, rfl⟩⟩
  all_goals exact independentResult_refused _

theorem independent_acceptCommand (role : CommandRole) (payload : List Byte) (ts : Time) :
    Independent (acceptCommand role payload ts) := by
  have put : ∀ (v : Supervisor → Supervisor) (n : Nat → Nat),
      Independent fun u : State => { u with sup := v u.sup, freeCount := n u.freeCount } :=
    fun v n => .of_silent (fun _ => rfl) fun _ _ => rfl
  have err := independent_raiseError (e := .codecError) rfl
  refine .of_at fun s => ?_
  cases role with
  | servo i =>
    cases h : decodeServo s.params i payload with
    | none => exact ⟨_, err, by simp [acceptCommand, h], by simp [acceptCommand, h]⟩
    | some v =>
      cases v with
      | number v =>
        exact ⟨_, put (fun x => { x with servo := x.servo.set i (clampSetpoint v), lastUpdate := ts, accepted := true }) id,
          by simp [acceptCommand, h, acceptServo], by simp [acceptCommand, h, acceptServo]⟩
      | notANumber =>
        exact ⟨_, put (fun x => { x with servo := x.servo.set i (clampSetpoint (Config.freeSetpoint s.freeCount)), lastUpdate := ts, accepted := true }) (· + 1),
          by simp [acceptCommand, h, acceptServo], by simp [acceptCommand, h, acceptServo]⟩
  | pump =>
    cases h : decodePump s.params payload with
    | none => exact ⟨_, err, by simp [acceptCommand, h], by simp [acceptCommand, h]⟩
    | some v =>
      exact ⟨_, put (fun x => { x with pump := v, lastUpdate := ts, accepted := true }) id, by simp [acceptCommand, h],
        by simp [acceptCommand, h]⟩
  | readiness =>
    cases h : decodeReadiness s.params payload with
    | none => exact ⟨_, err, by simp [acceptCommand, h], by simp [acceptCommand, h]⟩
    | some v =>
      exact ⟨_, put (fun x => { x with readiness := BitVec.ofNat 2 v, lastUpdate := ts, accepted := true }) id,
        by simp [acceptCommand, h], by simp [acceptCommand, h]⟩

theorem independentResult_handlerRun (d : Delivery) (ms : List HandlerMove) : IndependentResult (handlerRun d ms) := by
  induction ms with
  | nil => exact Independent.refl.result
  | cons m ms ih =>
    refine IndependentResult.andThen ?_ ih
    cases m with
    | decode role => exact (independent_acceptCommand role d.payload d.ts).result
    | call i => exact independentResult_handlerCall i
    | hang => exact fun s => .inr (.inl ⟨_, rfl, fun _ => rfl⟩)

theorem independentResult_runHandler (d : Delivery) : IndependentResult (runHandler d) := by
  refine .of_at fun s => ?_
  cases h : handlerOf s.params d.tag with
  | none => exact ⟨_, Independent.refl.result, by simp [runHandler, h], by simp [runHandler, h]⟩
  | some hd =>
    have take : Independent (takeScript hd.script) := by
      cases hd.script
      · exact .refl
      · exact .of_silent (fun _ => rfl) fun _ _ => rfl
    exact ⟨_, take.result.andThen (independentResult_handlerRun d (scriptMoves hd.script s.freeCount d)), by simp [runHandler, h],
      by simp [runHandler, h]⟩

theorem independent_releaseDelivery (d : Delivery) : Independent (releaseDelivery d) := by
  cases h : d.holder with
  | none => exact .of_at fun s => ⟨fun u => { poolFreeOne u with delivering := none }, .of_silent (fun _ => rfl) fun _ _ => rfl, by simp [releaseDelivery, h], by simp [releaseDelivery, h]⟩
  | some key =>
    exact .of_at fun s => ⟨fun u => { abandon key u with delivering := none },
      (independent_abandon key).comp (g := fun u => { u with delivering := none }) (.of_silent (fun _ => rfl) fun _ _ => rfl),
      by simp [releaseDelivery, h], by simp [releaseDelivery, h]⟩

theorem independentResult_deliverTransfer (d : Delivery) : IndependentResult (deliverTransfer d) := by
  have h : deliverTransfer d = fun s =>
      andThen (andThen (.next (emit (.deliver d.tag d.subject d.payload d.payload.length d.ts) s)) (runHandler d))
        fun s1 => .next (releaseDelivery d s1) := rfl
  rw [h]
  exact ((independent_emit _).result.andThen (independentResult_runHandler d)).andThen (independent_releaseDelivery d).result

/-- `PROCESS_FRAME` neither reads nor writes the interrupt's fields and TASK's control position (R131, R188). -/
theorem independentResult_processFrame (f : Frame) : IndependentResult (processFrame f) := by
  refine (independent_reassemble f).result.andThen (.of_at fun s => ?_)
  cases h : s.delivering with
  | none => exact ⟨_, Independent.refl.result, by simp [deliverDue, h], by simp [deliverDue, h]⟩
  | some d => exact ⟨_, independentResult_deliverTransfer d, by simp [deliverDue, h], by simp [deliverDue, h]⟩

/-- `PROCESS_FRAME` in another control position. -/
theorem processFrame_phase (f : Frame) (s : State) (p : Phase) (b : Bool) (w : Time) :
    processFrame f { s with phase := p, midPhase := b, waitStart := w }
      = andThen (processFrame f s) fun t => .next { t with phase := p, midPhase := b, waitStart := w } := by
  have h := independentResult_processFrame f
  have hs : { s with phase := p, midPhase := b, waitStart := w } = withControl { controlOf s with phase := p, midPhase := b, waitStart := w } s := rfl
  rcases h s with ⟨t, _, hn, _, _⟩ | ⟨r, hr, hk⟩ | ⟨r, hr, hk⟩
  · obtain ⟨ev, ht, _, hk⟩ := h.controlOf hn
    obtain ⟨ev', _, he, h'⟩ := hk { controlOf s with phase := p, midPhase := b, waitStart := w }
    rw [hs, h', hn, andThen_next_left, he rfl, ht]; rfl
  · rw [hs, hk, hr]; rfl
  · rw [hs, hk, hr]; rfl

/-- The loop of `PROCESS_PENDING` in another control position. -/
theorem pendingTurns_phase (n : Nat) (s : State) (p : Phase) (b : Bool) (w : Time) :
    pendingTurns n { s with phase := p, midPhase := b, waitStart := w }
      = andThen (pendingTurns n s) fun t => .next { t with phase := p, midPhase := b, waitStart := w } := by
  induction n generalizing s with
  | zero => rfl
  | succ n ih =>
    obtain hq | ⟨f, rest, hq⟩ : s.rxq = [] ∨ ∃ f rest, s.rxq = f :: rest := by cases s.rxq <;> simp
    · rw [pendingTurns_of_empty n hq, pendingTurns_of_empty n (s := { s with phase := p, midPhase := b, waitStart := w }) hq]; rfl
    · rw [pendingTurns_of_cons n hq, pendingTurns_of_cons n (s := { s with phase := p, midPhase := b, waitStart := w }) hq, andThen_assoc]
      have h := processFrame_phase f { s with rxq := rest, popped := none } p b w
      refine (congrArg (andThen · (pendingTurns n)) h).trans ?_
      rw [andThen_assoc]
      congr 1; funext t; exact ih t

end Sys2Proof.Laws
end

