-- ==== Sys2Proof/Laws/PerInstr.lean ====
section
/-! SUPPORT. What holds of every instruction as syntax, one lemma per constructor: its encoding stands in the format of its
row of spec/opcode_table.json and carries the bits that the row's mask and match fix. -/

namespace Sys2Proof.Laws.TableMatch

/-- The format of the row. -/
def rowFormat : Instr → Format
  | .canidMessage .. | .canidService .. => .identifier
  | .canidSubjectMatch .. => .subjectMatch
  | .tailSingle .. | .tailFirst .. | .tailMiddle .. | .tailLast .. => .tail
  | .init | .subscribe .. | .start | .rxIrq | .onFrameReceived | .wakeSignal | .rxPop | .processPending | .processFrame
  | .deliver | .noteDecodeError | .enqueue .. | .drain | .txPush | .wait | .taskCycle | .apply | .readDropped
  | .readDecodeErrors | .readTimeouts | .tick _ | .bus .. | .mbox _ => .statement

/-- The mask of the row. -/
def rowMask : Instr → BitVec 29
  | .canidMessage .. | .canidService .. => 0x02000000
  | .canidSubjectMatch .. => 0x029FFF80
  | .tailSingle .. | .tailFirst .. | .tailMiddle .. | .tailLast .. => 0xC0
  | .init | .subscribe .. | .start | .rxIrq | .onFrameReceived | .wakeSignal | .rxPop | .processPending | .processFrame
  | .deliver | .noteDecodeError | .enqueue .. | .drain | .txPush | .wait | .taskCycle | .apply | .readDropped
  | .readDecodeErrors | .readTimeouts | .tick _ | .bus .. | .mbox _ => 0xFF

/-- The match of the row. -/
def rowMatch : Instr → BitVec 29
  | .init => 0x00
  | .subscribe .. => 0x01
  | .start => 0x02
  | .rxIrq => 0x10
  | .onFrameReceived => 0x11
  | .wakeSignal => 0x12
  | .rxPop => 0x13
  | .processPending => 0x20
  | .processFrame => 0x21
  | .deliver => 0x22
  | .noteDecodeError => 0x23
  | .enqueue .. => 0x30
  | .drain => 0x31
  | .txPush => 0x32
  | .wait => 0x40
  | .taskCycle => 0x41
  | .apply => 0x42
  | .readDropped => 0x50
  | .readDecodeErrors => 0x51
  | .readTimeouts => 0x52
  | .tick _ => 0x60
  | .bus .. => 0x61
  | .mbox _ => 0x62
  | .canidMessage .. => 0x00000000
  | .canidService .. => 0x02000000
  | .canidSubjectMatch _ _ _ subject _ => subject.setWidth 29 <<< 8
  | .tailSingle .. => 0xC0
  | .tailFirst .. => 0x80
  | .tailMiddle .. => 0x00
  | .tailLast .. => 0x40

/-- The word that the mask is applied to: the identifier, or the first byte. -/
def rowWord (p : Packet) : BitVec 29 :=
  match p.fmt with
  | .identifier | .subjectMatch => BitVec.ofNat 29 (beNat p.bytes)
  | .statement | .tail => (p.bytes.headD 0).setWidth 29

/-- The encoding carries the row's fixed bits. -/
def Statement (i : Instr) : Prop := (encode i).fmt = rowFormat i ∧ rowWord (encode i) &&& rowMask i = rowMatch i

theorem init : Statement .init := ⟨rfl, rfl⟩
theorem subscribe (subject extent : Nat) (timeout : Time) (tag : Byte) :
    Statement (.subscribe subject extent timeout tag) := ⟨rfl, by simp [encode, rowWord, rowMask, rowMatch]⟩
theorem start : Statement .start := ⟨rfl, rfl⟩
theorem rxIrq : Statement .rxIrq := ⟨rfl, rfl⟩
theorem onFrameReceived : Statement .onFrameReceived := ⟨rfl, rfl⟩
theorem wakeSignal : Statement .wakeSignal := ⟨rfl, rfl⟩
theorem rxPop : Statement .rxPop := ⟨rfl, rfl⟩
theorem processPending : Statement .processPending := ⟨rfl, rfl⟩
theorem processFrame : Statement .processFrame := ⟨rfl, rfl⟩
theorem deliver : Statement .deliver := ⟨rfl, rfl⟩
theorem noteDecodeError : Statement .noteDecodeError := ⟨rfl, rfl⟩
theorem enqueue (subject transferId priority : Nat) (deadline : Time) (payload : List Byte) :
    Statement (.enqueue subject transferId priority deadline payload) := ⟨rfl, by simp [encode, rowWord, rowMask, rowMatch]⟩
theorem drain : Statement .drain := ⟨rfl, rfl⟩
theorem txPush : Statement .txPush := ⟨rfl, rfl⟩
theorem wait : Statement .wait := ⟨rfl, rfl⟩
theorem taskCycle : Statement .taskCycle := ⟨rfl, rfl⟩
theorem apply : Statement .apply := ⟨rfl, rfl⟩
theorem readDropped : Statement .readDropped := ⟨rfl, rfl⟩
theorem readDecodeErrors : Statement .readDecodeErrors := ⟨rfl, rfl⟩
theorem readTimeouts : Statement .readTimeouts := ⟨rfl, rfl⟩
theorem tick (n : Nat) : Statement (.tick n) := ⟨rfl, by simp [encode, rowWord, rowMask, rowMatch]⟩
theorem bus (id : CanId) (data : List Byte) : Statement (.bus id data) := ⟨rfl, by simp [encode, rowWord, rowMask, rowMatch]⟩
theorem mbox (n : Nat) : Statement (.mbox n) := ⟨rfl, by simp [encode, rowWord, rowMask, rowMatch]⟩

theorem rowWord_identifier (id : CanId) : rowWord ⟨.identifier, beBytes 4 id.toNat⟩ = id := by
  have h : id.toNat < 256 ^ 4 := lt_trans id.isLt (by norm_num)
  simp [rowWord, beNat_beBytes h]

theorem canidMessage (prio : Priority) (anon r23 : Bool) (r21 : BitVec 2) (subject : Subject) (r7 : Bool) (src : SourceId) :
    Statement (.canidMessage prio anon r23 r21 subject r7 src) := by
  refine ⟨rfl, ?_⟩
  rw [encode, rowWord_identifier]
  refine BitVec.eq_of_getLsbD_eq fun k hk => ?_
  rw [BitVec.getLsbD_and, messageId_getLsbD]
  interval_cases k <;> simp [rowMask, rowMatch]

theorem canidService (prio : Priority) (rnr r23 : Bool) (service : BitVec 9) (dst src : SourceId) :
    Statement (.canidService prio rnr r23 service dst src) := by
  refine ⟨rfl, ?_⟩
  rw [encode, rowWord_identifier]
  refine BitVec.eq_of_getLsbD_eq fun k hk => ?_
  rw [BitVec.getLsbD_and, serviceId_getLsbD]
  interval_cases k <;> simp [rowMask, rowMatch]

theorem canidSubjectMatch (prio : Priority) (anon : Bool) (r21 : BitVec 2) (subject : Subject) (src : SourceId) :
    Statement (.canidSubjectMatch prio anon r21 subject src) := by
  refine ⟨rfl, ?_⟩
  have h := rowWord_identifier (messageId prio anon false r21 subject false src)
  simp only [rowWord] at h
  simp only [encode, rowWord, h]
  refine BitVec.eq_of_getLsbD_eq fun k hk => ?_
  rw [BitVec.getLsbD_and, messageId_getLsbD]
  interval_cases k <;> simp [rowMask, rowMatch]

theorem tailSingle (tog : Bool) (tid : BitVec 5) : Statement (.tailSingle tog tid) := by
  revert tog tid; unfold Statement; decide
theorem tailFirst (tog : Bool) (tid : BitVec 5) : Statement (.tailFirst tog tid) := by
  revert tog tid; unfold Statement; decide
theorem tailMiddle (tog : Bool) (tid : BitVec 5) : Statement (.tailMiddle tog tid) := by
  revert tog tid; unfold Statement; decide
theorem tailLast (tog : Bool) (tid : BitVec 5) : Statement (.tailLast tog tid) := by
  revert tog tid; unfold Statement; decide

end Sys2Proof.Laws.TableMatch
end

