-- ==== Sys2Proof/Tests/Slice0.lean ====
section
/-! SUPPORT. The model's own tests: what WellFormed refuses, every constructor's word written out from the spec's encoding,
single steps against spec/95_test_vectors.md or a hand reading of a rule, and for each statement a state that meets its
hypotheses. -/

namespace Sys2Proof.Tests

open Sys2Proof Sys2Proof.Machine

/-! ## WellFormed refuses what no encoding holds -/

theorem test_wellFormed_accepts_limits :
    (Instr.subscribe 8191 65535 4294967295 255).wellFormed = true
      ∧ (Instr.enqueue 8191 255 7 (-1) (List.replicate 63 0)).wellFormed = true
      ∧ (Instr.tick 4294967295).wellFormed = true ∧ (Instr.bus 0 (List.replicate 64 0)).wellFormed = true
      ∧ (Instr.mbox 255).wellFormed = true := by decide

theorem test_wellFormed_refuses_subject : (Instr.subscribe 8192 0 0 0).wellFormed = false := by decide

theorem test_wellFormed_refuses_extent : (Instr.subscribe 0 65536 0 0).wellFormed = false := by decide

theorem test_wellFormed_refuses_timeout : (Instr.subscribe 0 0 4294967296 0).wellFormed = false := by decide

theorem test_wellFormed_refuses_item_subject : (Instr.enqueue 8192 0 0 0 []).wellFormed = false := by decide

theorem test_wellFormed_refuses_transfer_id : (Instr.enqueue 0 256 0 0 []).wellFormed = false := by decide

theorem test_wellFormed_refuses_priority : (Instr.enqueue 0 0 8 0 []).wellFormed = false := by decide

theorem test_wellFormed_refuses_payload : (Instr.enqueue 0 0 0 0 (List.replicate 64 0)).wellFormed = false := by decide

theorem test_wellFormed_refuses_tick : (Instr.tick 4294967296).wellFormed = false := by decide

theorem test_wellFormed_refuses_frame : (Instr.bus 0 (List.replicate 65 0)).wellFormed = false := by decide

theorem test_wellFormed_refuses_mbox : (Instr.mbox 256).wellFormed = false := by decide

/-! ## Decoding words written out by hand -/

/-- The 20 operation codes of R100 that carry no operands. -/
theorem test_decode_bare_codes :
    ([0x00, 0x02, 0x10, 0x11, 0x12, 0x13, 0x20, 0x21, 0x22, 0x23, 0x31, 0x32, 0x40, 0x41, 0x42, 0x50, 0x51, 0x52]
        : List Byte).map (fun c => decode ⟨.statement, [c]⟩)
      = ([.init, .start, .rxIrq, .onFrameReceived, .wakeSignal, .rxPop, .processPending, .processFrame, .deliver,
        .noteDecodeError, .drain, .txPush, .wait, .taskCycle, .apply, .readDropped, .readDecodeErrors, .readTimeouts]
        : List Instr).map (fun i => .ok (i, [])) := by decide

/-- Program P6's third line, with the next statement behind it (R103). -/
theorem test_decode_subscribe :
    decode ⟨.statement, [0x01, 0x00, 0x65, 0x00, 0x04, 0x00, 0x00, 0x07, 0xD0, 0x02, 0x02]⟩
      = .ok (.subscribe 101 4 2000 2, [0x02]) := by decide

/-- V-E-33. -/
theorem test_decode_enqueue :
    decode ⟨.statement, [0x30, 0x00, 0x64, 0x25, 0x04, 0, 0, 0, 0, 0, 0, 0, 0x64, 0x09, 1, 2, 3, 4, 5, 6, 7, 8, 9]⟩
      = .ok (.enqueue 100 37 4 100 [1, 2, 3, 4, 5, 6, 7, 8, 9], []) := by decide

/-- Programs P1 and P3: `tick 5000` is 60 00 00 13 88; `mbox 2` is 62 02. -/
theorem test_decode_environment :
    decode ⟨.statement, [0x60, 0x00, 0x00, 0x13, 0x88]⟩ = .ok (.tick 5000, [])
      ∧ decode ⟨.statement, [0x62, 0x02]⟩ = .ok (.mbox 2, []) := by decide

/-- V-E-32. -/
theorem test_decode_bus :
    decode ⟨.statement, [0x61, 0x10, 0x60, 0x64, 0x2A, 0x05, 0x00, 0x00, 0x00, 0x3F, 0xE5]⟩
      = .ok (.bus 0x1060642A [0x00, 0x00, 0x00, 0x3F, 0xE5], []) := by decide

/-- V-E-34, and the reasons of rejection. -/
theorem test_decode_rejects :
    decode ⟨.statement, [0x14]⟩ = .error (.unknownCode 0x14) ∧ decode ⟨.statement, [0x33]⟩ = .error (.unknownCode 0x33)
      ∧ decode ⟨.statement, [0x7F]⟩ = .error (.unknownCode 0x7F) ∧ decode ⟨.statement, [0x60, 0]⟩ = .error .truncated
      ∧ decode ⟨.statement, [0x01, 0x20, 0x00, 0, 0, 0, 0, 0, 0, 0]⟩ = .error .subjectOutOfRange
      ∧ decode ⟨.statement, [0x61, 0x20, 0, 0, 0, 0]⟩ = .error .identifierTooWide
      ∧ decode ⟨.statement, [0x30, 0, 0, 0, 8, 0, 0, 0, 0, 0, 0, 0, 0, 0]⟩ = .error .priorityOutOfRange := by decide

/-- V-E-1, V-E-2, V-E-4 and V-E-9: the identifier rows. -/
theorem test_decode_identifiers :
    decode ⟨.identifier, [0x10, 0x60, 0x64, 0x2A]⟩ = .ok (.canidMessage 4 false false 3 100 false 42, [])
      ∧ decode ⟨.identifier, [0x1C, 0x7F, 0xFF, 0x7F]⟩ = .ok (.canidMessage 7 false false 3 8191 false 127, [])
      ∧ decode ⟨.identifier, [0x11, 0x60, 0x64, 0x2A]⟩ = .ok (.canidMessage 4 true false 3 100 false 42, [])
      ∧ decode ⟨.identifier, [0x12, 0x60, 0x64, 0x2A]⟩ = .ok (.canidService 4 false false 0x181 0x48 42, []) := by decide

/-- V-E-6 to V-E-9: the match pattern ignores `r21` and admits no `r23`, `r7` or `svc`. -/
theorem test_decode_subject_match :
    decode ⟨.subjectMatch, [0x10, 0x00, 0x64, 0x2A]⟩ = .ok (.canidSubjectMatch 4 false 0 100 42, [])
      ∧ decode ⟨.subjectMatch, [0x10, 0xE0, 0x64, 0x2A]⟩ = .error .outsideMatchPattern
      ∧ decode ⟨.subjectMatch, [0x10, 0x60, 0x64, 0xAA]⟩ = .error .outsideMatchPattern
      ∧ decode ⟨.subjectMatch, [0x12, 0x60, 0x64, 0x2A]⟩ = .error .outsideMatchPattern := by decide

/-- V-E-11 to V-E-14. -/
theorem test_decode_tails :
    decode ⟨.tail, [0xE5]⟩ = .ok (.tailSingle true 5, []) ∧ decode ⟨.tail, [0xA7]⟩ = .ok (.tailFirst true 7, [])
      ∧ decode ⟨.tail, [0x07]⟩ = .ok (.tailMiddle false 7, []) ∧ decode ⟨.tail, [0x27]⟩ = .ok (.tailMiddle true 7, [])
      ∧ decode ⟨.tail, [0x47]⟩ = .ok (.tailLast false 7, []) ∧ decode ⟨.tail, [0x67]⟩ = .ok (.tailLast true 7, []) := by
  decide

/-- Words numbered as spec/opcode_table.json numbers them: the code in the low byte. -/
theorem test_decode_table_words :
    decodeTableWord 8 0x41 = some .taskCycle ∧ decodeTableWord 8 0x01 = some (.subscribe 0 0 0 0)
      ∧ decodeTableWord 8 0xE5 = some (.tailSingle true 5) ∧ decodeTableWord 8 0x33 = some (.tailMiddle true 19)
      ∧ decodeTableWord 32 0x02000000 = some (.canidService 0 false false 0 0 0)
      ∧ decodeTableWord 32 0x1060642A = some (.canidMessage 4 false false 3 100 false 42) := by decide

/-! ## Encodings of rules R93 to R97 -/

/-- V-E-19, V-E-20, V-E-21, V-E-24 and V-E-25. -/
theorem test_crc16 :
    crc16 [0x31, 0x32, 0x33, 0x34, 0x35, 0x36, 0x37, 0x38, 0x39] = 0x29B1 ∧ crc16 [] = 0xFFFF ∧ crc16 [0] = 0xE1F0
      ∧ crc16 [0x21, 0x22, 0x23] = 0x09EF ∧ crcOk resetParams [0] = false := by decide +kernel

/-- V-E-26. -/
theorem test_dlc_round :
    [0, 8, 9, 12, 13, 17, 21, 25, 33, 49, 64].map dlcRound = [0, 8, 12, 12, 16, 20, 24, 32, 48, 64, 64] := by decide

/-- V-E-28 and V-E-29: the stored id of 37 is 5, two padding zeros; an empty payload. -/
theorem test_build :
    build resetParams (enqueueOperand resetParams 100 37 4 100 [1, 2, 3, 4, 5, 6, 7, 8, 9])
        = { id := 0x1060642A, data := [1, 2, 3, 4, 5, 6, 7, 8, 9, 0, 0, 0xE5] }
      ∧ build resetParams (enqueueOperand resetParams 8191 31 7 0 []) = { id := 0x1C7FFF2A, data := [0xFF] } := by decide

/-- V-E-15, V-U2-22 to V-U2-26: which malformed-frame check answers. -/
theorem test_malformed :
    malformed resetParams ⟨0x1060642A, [], 0⟩ = some .v1 ∧ malformed resetParams ⟨0x1060642A, [0x01, 0xC8], 0⟩ = some .v2
      ∧ malformed resetParams ⟨0x1060642A, [0x88], 0⟩ = some .v2 ∧ malformed resetParams ⟨0x1060642A, [0xA8], 0⟩ = some .v4
      ∧ malformed resetParams ⟨0x1160642A, [0x01, 0xA8], 0⟩ = some .v3
      ∧ malformed resetParams ⟨0x1060642A, [0xE0], 0⟩ = none := by decide

/-- V-U2-2 to V-U2-13 and V-U2-15. -/
theorem test_staleness :
    staleness resetParams 6 5 = none ∧ staleness resetParams 5 5 = some .duplicate
      ∧ staleness resetParams 4 5 = some .stale ∧ staleness resetParams 20 5 = none ∧ staleness resetParams 21 5 = some .stale
      ∧ staleness resetParams 0 31 = none ∧ staleness resetParams 31 0 = some .stale
      ∧ staleness resetParams 15 31 = some .stale ∧ staleness resetParams 0 17 = none
      ∧ staleness { resetParams with tidBits := 3 } 1 6 = none
      ∧ staleness { resetParams with tidBits := 3 } 2 6 = some .stale := by decide

/-! ## Single steps -/

/-- A value of the next state, if there is one. -/
def after {α : Type} (o : Result) (get : State → α) : Option α :=
  match o with
  | .next s => some (get s)
  | .fault _ | .refused _ => none

/-- The refusal, if it is one. -/
def refusal (o : Result) : Option Refusal :=
  match o with
  | .refused r => some r
  | .next _ | .fault _ => none

/-- The subscription of the single-step tests: subject 100, extent 10, timeout 1000, tag 1. -/
def sub100 : Subscription := { subject := 100, extent := 10, timeout := 1000, tag := 1 }

/-- Between two cycles, after `INIT`, one `SUBSCRIBE` and `START`. -/
def ready : State :=
  { State.reset with started := true, phase := .wait, sub := some sub100 :: List.replicate 7 none }

/-- A frame of subject 100 from source 42. -/
def frame (data : List Byte) : Frame := { id := 0x1060642A, data := data, ts := 50 }

/-- The same, anonymous. -/
def anonFrame (data : List Byte) : Frame := { id := 0x1160642A, data := data, ts := 50 }

/-- `ready` with a popped frame and the session of source 42. -/
def holding (f : Frame) (v : Session) : State :=
  { ready with now := 50, popped := some f, sess := if v = {} then [] else [(42, v)] }

/-- The transfer of program P4 after its first frame, `10 .. 16 A7`. -/
def inProgress : Reassembly :=
  { tid := 7, toggle := false, multi := true, buf := [0x10, 0x11, 0x12, 0x13, 0x14, 0x15, 0x16], tsFirst := 50 }

/-- An item of subject 100. -/
def item (prio : Priority) (deadline : Time) (payload : List Byte) : Item :=
  { subject := 100, tid := 5, prio := prio, payload := payload, deadline := deadline }

/-- A delivery of subject 100, its buffer held by the session of source 42. -/
def due (holder : Option Nat) : Delivery := { tag := 1, subject := 100, payload := [3], ts := 50, holder := holder }

/-- R184: the queue is emptied and the pool refilled; in the middle of a cycle it is refused (R77). -/
theorem test_init :
    after (exec .init { ready with rxq := [frame [1]], poolFree := 1 }) (fun t => (t.rxq, t.poolFree, t.started))
        = some ([], 4, false)
      ∧ refusal (exec .init { ready with phase := .drainTx }) = some .taskBusy := by decide

/-- R240: HOST does nothing while TASK runs; while TASK waits, V-U2-51 and R185's second START. -/
theorem test_host_midCycle :
    (∀ p ∈ [Phase.drainRx, .drainTx, .apply],
      refusal (exec (.subscribe 106 4 9 2) { ready with phase := p }) = some .taskBusy
        ∧ refusal (exec .start { ready with phase := p }) = some .taskBusy)
      ∧ after (exec (.subscribe 106 4 9 2) ready) (fun t => t.log) = some [.result .rejected]
      ∧ after (exec .start { ready with now := 7 }) (fun t => t.waitStart) = some 0 := by decide

/-- R130: the lowest free entry; 63 extent bytes and the CRC do not fit a buffer of 64 (R11). -/
theorem test_subscribe :
    after (exec (.subscribe 101 4 9 2) { State.reset with sub := [some sub100, none, none] }) (fun t => t.sub)
        = some [some sub100, some { subject := 101, extent := 4, timeout := 9, tag := 2 }, none]
      ∧ refusal (exec (.subscribe 101 63 9 2) State.reset) = some .operandOutOfRange := by decide

/-- R185. -/
theorem test_start :
    after (exec .start { State.reset with now := 7 }) (fun t => (t.started, t.phase, t.waitStart))
      = some (true, .wait, 7) := by decide

/-- V-U1-2 and V-U1-5: the fifth frame of an interrupt is lost; an empty controller still sets the latch. -/
theorem test_rxIrq :
    after (exec .rxIrq { ready with ctrlRx := List.replicate 5 ⟨0x1060642A, [0xE0]⟩ })
        (fun t => (t.rxq.length, t.dropped, t.wake, t.ctrlRx)) = some (4, 1, true, [])
      ∧ after (exec .rxIrq ready) (fun t => (t.rxq, t.dropped, t.wake)) = some ([], 0, true) := by decide

/-- V-U1-8 and V-U1-12: the arrival time; the counter saturates. -/
theorem test_onFrameReceived :
    after (exec .onFrameReceived { ready with now := 250, ctrlRx := [⟨0x1060642A, [0, 0, 0, 0x3F, 0xE5]⟩] }) (fun t => t.rxq)
        = some [⟨0x1060642A, [0, 0, 0, 0x3F, 0xE5], 250⟩]
      ∧ after (exec .onFrameReceived { ready with rxq := List.replicate 4 (frame []), dropped := 0xFFFFFFFF, ctrlRx := [⟨0, []⟩] }) (fun t => (t.rxq.length, t.dropped)) = some (4, 0xFFFFFFFF) := by decide

/-- V-U1-7 and V-U1-15. -/
theorem test_wakeSignal :
    after (exec .wakeSignal { ready with wake := true }) (fun t => t.wake) = some true
      ∧ refusal (exec .wakeSignal State.reset) = some .notEnabled := by decide

/-- V-U1-13. -/
theorem test_rxPop :
    after (exec .rxPop { ready with rxq := [frame [1], frame [2]] }) (fun t => (t.rxq, t.log))
        = some ([frame [2]], [.result (.popped (some (frame [1])))])
      ∧ after (exec .rxPop ready) (fun t => t.log) = some [.result (.popped none)] := by decide

/-- Program P2: ids 6 then 5 of one source, the second is stale. -/
theorem test_processPending :
    after (exec .processPending { ready with rxq := [frame [0xBA, 0xE6], frame [0xBB, 0xE5]] })
        (fun t => (t.rxq, t.log, t.poolFree))
      = some ([], [.deliver 1 100 [0xBA] 1 50, .raised (.staleTransfer .stale)], 4) := by decide

/-- Program P4, frames 5 and 4: the CRC 58 BE is good, and is stripped; the wrong toggle is an orphan. -/
theorem test_processFrame :
    after (exec .processFrame (holding (frame [0x17, 0x18, 0x19, 0x58, 0xBE, 0x47]) { cur := some inProgress }))
        (fun t => (t.log, t.session 42))
        = some ([.deliver 1 100 [0x10, 0x11, 0x12, 0x13, 0x14, 0x15, 0x16, 0x17, 0x18, 0x19] 10 50],
          { last := some { tid := 7, ts := 50 }, cur := none })
      ∧ after (exec .processFrame (holding (frame [0x17, 0x18, 0x19, 0x58, 0xBE, 0x67]) { cur := some inProgress }))
        (fun t => (t.log, t.session 42))
        = some ([.raised (.incompleteSequence .orphan)], { last := none, cur := some inProgress }) := by decide +kernel

/-- Program P6's layout: a servo message of 2.0 is clamped to 1 (R204), the time is the delivery's. -/
theorem test_deliver :
    after (exec .deliver { ready with params := { resetParams with layout := .vectorP6, handlers := [⟨1, .fixed [.decode (.servo 1)]⟩] }, phase := .drainRx, delivering := some { due (some 42) with payload := [0, 0, 0, 0x40] }, sess := [(42, { cur := some inProgress })] }) (fun t => (t.sup.servo, t.sup.lastUpdate, t.sup.accepted, t.poolFree, t.sess.isEmpty))
      = some (#v[0, 1, 0, 0], 50, true, 5, true) := by decide +kernel

/-- R144: saturating. -/
theorem test_noteDecodeError :
    after (exec .noteDecodeError { ready with decodeErr := 0xFFFFFFFF }) (fun t => t.decodeErr) = some 0xFFFFFFFF := by decide

/-- R160 and R161: behind the items of its own priority and before the lower ones; a full queue rejects. -/
theorem test_enqueue :
    after (exec (.enqueue 100 37 4 9 [8]) { ready with txq := [item 1 0 [1], item 4 0 [2], item 6 0 [3]] }) (fun t => (t.txq, t.poolFree))
        = some ([item 1 0 [1], item 4 0 [2], item 4 9 [8], item 6 0 [3]], 3)
      ∧ after (exec (.enqueue 100 37 4 9 [8]) { ready with params := { resetParams with txqCap := 0 } }) (fun t => t.log)
        = some [.raised .txQueueFull, .result .rejected] := by decide

/-- R162 and R164: the deadline 99 has passed at 100, 100 has not; one push succeeds, the next is refused. -/
theorem test_drain :
    after (exec .drain { ready with now := 100, mboxFree := 1, poolFree := 0, txq := [item 1 99 [1], item 2 100 [2], item 3 100 [3]] })
        (fun t => (t.txq, t.poolFree, t.log))
      = some ([item 3 100 [3]], 2, [.raised .txExpired, .tx ⟨0x0860642A, [2, 0xE5]⟩ .success,
          .tx ⟨0x0C60642A, [3, 0xE5]⟩ .full, .raised .mailboxFull]) := by decide

/-- V-E-27: the frame handed over, and the item gone with it (R165 (e)); past its deadline it is not sent (R165 (a)). -/
theorem test_txPush :
    after (exec .txPush { ready with mboxFree := 1, poolFree := 3, txq := [item 4 0 [0, 0, 0, 0x3F]] })
        (fun t => (t.mboxFree, t.poolFree, t.txq, t.log))
        = some (0, 4, [], [.tx ⟨0x1060642A, [0, 0, 0, 0x3F, 0xE5]⟩ .success])
      ∧ refusal (exec .txPush { ready with now := 1, mboxFree := 1, txq := [item 4 0 [1]] }) = some .noOperand := by decide

/-- R181: the bound is reached at exactly `MAX_WAIT`, and not one tick before. -/
theorem test_wait :
    after (exec .wait { ready with now := 10000, wake := true }) (fun t => t.wake) = some false
      ∧ refusal (exec .wait { ready with now := 9999 }) = some .notEnabled := by decide

/-- R180, R189: what is delivered comes before `APPLY` of the same cycle. -/
theorem test_taskCycle :
    after (exec .taskCycle { ready with now := 60, wake := true, rxq := [frame [7, 0xE1]] })
        (fun t => (t.log, t.phase, t.waitStart, t.wake))
      = some ([.deliver 1 100 [7] 1 50, .apply, .raised .commandStale, safeOutput], .wait, 60, false) := by decide

/-- Program P6 at 1120 and 1121: an age of `STALE_TICKS` is live, one more is the counted transition. -/
theorem test_apply :
    after (exec .apply { ready with now := 1120, sup := { resetSupervisor with pump := true, readiness := 3, lastUpdate := 120, accepted := true, mode := .engagedLive } }) (fun t => (t.log, t.sup.timeouts))
        = some ([.apply, .sink #v[0, 0, 0, 0] true 3], 0)
      ∧ after (exec .apply { ready with now := 1121, sup := { resetSupervisor with pump := true, readiness := 3, lastUpdate := 120, accepted := true, mode := .engagedLive } }) (fun t => (t.log, t.sup.timeouts))
        = some ([.apply, .raised .commandStale, safeOutput], 1) := by decide

/-- V-U1-17 and the other accessors: each reads its own counter. -/
theorem test_accessors :
    after (exec .readDropped { ready with dropped := 2 }) (fun t => (t.log, t.dropped)) = some ([.result (.counter 2)], 2)
      ∧ after (exec .readDecodeErrors { ready with decodeErr := 3 }) (fun t => t.log) = some [.result (.counter 3)]
      ∧ after (exec .readTimeouts { ready with sup := { resetSupervisor with timeouts := 4 } }) (fun t => t.log)
        = some [.result (.counter 4)] := by decide

/-- R102, R236: the clock, the controller, the mailboxes; no tick past the last value. -/
theorem test_environment :
    after (exec (.tick 250) { ready with now := 50 }) (fun t => t.now) = some 300
      ∧ refusal (exec (.tick 1) { ready with now := -1 }) = some .clockWouldWrap
      ∧ after (exec (.bus 7 [1]) { ready with ctrlRx := [⟨6, []⟩] }) (fun t => t.ctrlRx) = some [⟨6, []⟩, ⟨7, [1]⟩]
      ∧ after (exec (.mbox 4) ready) (fun t => t.mboxFree) = some 4 := by decide

/-- V-E-1, V-E-4 and R82: what `parse` answers. -/
theorem test_parse_identifiers :
    after (exec (.canidMessage 4 true false 3 100 false 42) ready) (fun t => t.log)
        = some [.result (.identifier ⟨4, false, true, 100, none, .message, none⟩)]
      ∧ after (exec (.canidService 4 true false 0x181 0x48 42) ready) (fun t => t.log)
        = some [.result (.identifier ⟨4, true, true, 100, none, .request, some ⟨0x181, 0x48, 42⟩⟩)] := by decide

/-- V-E-5 and V-U2-20. -/
theorem test_subject_match :
    after (exec (.canidSubjectMatch 4 false 0 100 42) ready) (fun t => t.log) = some [.result (.matched (some 0))]
      ∧ after (exec (.canidSubjectMatch 4 false 0 101 42) ready) (fun t => t.log)
        = some [.raised .unmatched, .result (.matched none)] := by decide

/-- V-E-11 to V-E-14. -/
theorem test_parse_tails :
    after (exec (.tailSingle true 5) ready) (fun t => t.log) = some [.result (.tail ⟨.single, true, 5⟩)]
      ∧ after (exec (.tailFirst true 7) ready) (fun t => t.log) = some [.result (.tail ⟨.first, true, 7⟩)]
      ∧ after (exec (.tailMiddle false 7) ready) (fun t => t.log) = some [.result (.tail ⟨.middle, false, 7⟩)]
      ∧ after (exec (.tailLast true 7) ready) (fun t => t.log) = some [.result (.tail ⟨.last, true, 7⟩)] := by decide

/-- R131: with interrupts between TASK's steps the frame is popped in one step and processed, delivery and all, in the next. -/
theorem test_taskStep :
    after (andThen (taskStep { ready with phase := .drainRx, rxq := [frame [7, 0xE1]] }) taskStep) (fun t => (t.log, t.poolFree, t.popped))
      = some ([.deliver 1 100 [7] 1 50], 4, none) := by decide

/-- R161: no publisher runs between a pop and the end of its phase; one does between two phases. -/
theorem test_midPhase :
    after (taskStep { ready with phase := .drainRx, rxq := [frame [7, 0xE1]] }) (fun t => t.midPhase) = some true
      ∧ after (taskStep { ready with phase := .drainRx, midPhase := true }) (fun t => (t.phase, t.midPhase)) = some (.drainTx, false)
      ∧ exec (.enqueue 100 37 4 9 [8]) { ready with phase := .drainTx, midPhase := true } = .refused .taskBusy
      ∧ exec .noteDecodeError { ready with phase := .drainRx, midPhase := true } = .refused .taskBusy
      ∧ after (exec (.enqueue 100 37 4 9 [8]) { ready with phase := .drainTx }) (fun t => t.txq.length) = some 1 :=
  ⟨by decide, by decide, rfl, rfl, by decide⟩

/-- R31 and R252, with the subjects of R10's test vectors. -/
theorem test_boot :
    after (runInstrs (bootSequence resetParams) State.reset) (fun t => (t.sub.map (·.map (·.subject)), t.phase))
      = some ([some 100, some 101, some 102, some 103, some 104, some 105, none, none], .wait) := by decide

/-- R200: out-of-range values are clamped and masked, and written in program P6's layout; binary32 words worked out by hand. -/
theorem test_encode :
    encodeServo { resetParams with layout := .vectorP6 } 0 7 = some [0x00, 0x00, 0x80, 0x3F]
      ∧ encodeServo { resetParams with layout := .vectorP6 } 0 (-3 / 8) = some [0x00, 0x00, 0xC0, 0xBE]
      ∧ encodeReadiness { resetParams with layout := .vectorP6 } 7 = some [3] := by decide +kernel

/-- R10: 1000 ms are 1000 ticks of 1 ms, 4000 of a quarter and 333 whole ones of 3 ms. -/
theorem test_ticksIn :
    (ticksIn 1000 1, ticksIn 1000 (1 / 4), ticksIn 1000 3, resetParams.staleTicks) = (1000, 4000, 333, 1000) := by decide +kernel

/-- R14: a sink call, a popped frame and an error class are no part of the observable behaviour; an accessor's answer is. -/
theorem test_observable :
    observable [.apply, safeOutput, .result (.popped none), .raised .rxOverflow, .result (.counter 3), .result .ok]
      = [.apply, .result (.counter 3), .result .ok] := by decide

/-- A schedule that has run out is refilled, one move at a time. -/
theorem test_recurring :
    after (runSteps 3 { ready with recurring := [.issue ⟨.statement, [0x60, 0, 0, 0, 2]⟩, .task] }) (fun t => (t.now, t.schedule))
      = some (4, [.task]) := by decide

/-- The word at the head of the schedule runs as the first instruction after reset. -/
theorem test_withFetchWord :
    after (step (State.reset.withFetchWord 8 0x02)) (fun t => t.started) = some true
      ∧ after (step (State.reset.withFetchWord 8 0xE5)) (fun t => t.log) = some [.result (.tail ⟨.single, true, 5⟩)]
      ∧ after (step (State.reset.withFetchWord 32 0x1060642A)) (fun t => t.log.length) = some 1 := by decide

/-! ## States that meet the statements' hypotheses

One theorem for each statement that has hypotheses, its clauses at the boundary values of their ranges. -/

theorem next_of_after {α : Type} {o : Result} {get : State → α} {v : α} (h : after o get = some v) :
    ∃ t, o = .next t ∧ get t = v := by
  cases o <;> simp [after] at h
  exact ⟨_, rfl, h⟩

/-- What a popped frame needs to reach the session of source 42. -/
theorem reaches_holding {f : Frame} {v : Session} (hm : malformed resetParams f = none) (ha : idAnon f.id = false)
    (hs : matchSub ready.sub f.id = some (0, sub100)) (hk : sessKey 0 (idSrcBits f.id) = 42) :
    reachesSession (holding f v) f sub100 42 := by
  refine ⟨⟨rfl, rfl, rfl⟩, ?_, rfl, hm, ha, 0, hs, hk.symm⟩
  unfold holding; dsimp only; split <;> simp_all [sessWf]

theorem session_holding (f : Frame) (v : Session) : (holding f v).session 42 = v := by
  unfold holding State.session; dsimp only; split <;> simp_all [sessGet]

theorem test_hyps_DecodeOfEncode :
    (Instr.enqueue 8191 255 7 (-1) (List.replicate 63 0)).wellFormed = true
      ∧ (Instr.bus 0x1FFFFFFF (List.replicate 64 0)).wellFormed = true := by decide

theorem test_hyps_EncodeOfDecode :
    decode ⟨.statement, [0x62, 0xFF, 0x60]⟩ = .ok (.mbox 255, [0x60])
      ∧ decode ⟨.identifier, [0x1F, 0xFF, 0xFF, 0xFF]⟩ = .ok (.canidService 7 true true 511 127 127, []) := by decide

theorem test_hyps_OtherCodesAreInvalid :
    ∀ c ∈ ([0x03, 0x14, 0x33, 0x5F, 0x63, 0xFF] : List Byte), c ∉ ([0x00, 0x01, 0x02, 0x10, 0x11, 0x12, 0x13, 0x20, 0x21,
      0x22, 0x23, 0x30, 0x31, 0x32, 0x40, 0x41, 0x42, 0x50, 0x51, 0x52, 0x60, 0x61, 0x62] : List Byte) := by decide

/-- A match at the last entry with another subject before it, and a table without the subject. -/
theorem test_hyps_SubjectMatchAnswer :
    State.reset.initialised = true
      ∧ ([none, some { sub100 with subject := 99 }, some sub100] : List (Option Subscription))[2]? = some (some sub100)
      ∧ (∀ (j : Nat) (sb' : Subscription), j < 2 →
        ([none, some { sub100 with subject := 99 }, some sub100] : List (Option Subscription))[j]? = some (some sb') →
        sb'.subject ≠ sub100.subject)
      ∧ ∀ (i : Nat) (sb : Subscription), State.reset.sub[i]? = some (some sb) → sb.subject ≠ 100 := by
  refine ⟨rfl, rfl, ?_, ?_⟩
  · intro j sb' hj h
    interval_cases j <;> simp at h
    subst h; decide
  · intro i sb h
    have := List.eq_of_mem_replicate (List.mem_of_getElem? (l := List.replicate 8 none) h)
    cases this

theorem test_hyps_TransferCrc : resetParams.crc = .ccittFalse ∧ crcOk resetParams [0xFF, 0xFF] = true := by decide +kernel

/-- A 64-byte frame into the last free slot. -/
theorem test_hyps_DlcRoundIsLeastLegal :
    (⟨0, List.replicate 64 0⟩ : BusFrame).data.length ≤ 64
      ∧ ({ ready with rxq := List.replicate 3 (frame []) } : State).rxq.length ≠ ready.params.rxqCap := by decide

theorem test_hyps_BuiltFrame_BuiltFrameParsesBack :
    (item 7 0 (List.replicate 63 0)).payload.length ≤ 63 ∧ { item 7 0 [] with tid := 31 }.tid < 32
      ∧ { item 7 0 [] with tid := 31 }.tid < tidMod resetParams ∧ resetParams.toggleInit = true ∧ resetParams.tidBits ≤ 5 := by
  decide

theorem test_hyps_InitGivesResetTable :
    configOk ready.params = true ∧ ready.midCycle = false ∧ { ready with initialised := false }.initialised = false := by
  decide

/-- Each side of `InitRefused`: the middle of a cycle, a transfer id one bit wide (R11), a queue of no slots (R10). -/
theorem test_hyps_InitRefused :
    ready.initialised = true ∧ ({ ready with phase := .apply } : State).midCycle = true ∧ ready.midCycle = false
      ∧ ¬ (2 ≤ ({ resetParams with tidBits := 1 } : Params).tidBits)
      ∧ ¬ (1 ≤ ({ resetParams with rxqCap := 0 } : Params).rxqCap) := by decide

theorem test_hyps_OnlyInitBeforeInit :
    ({ State.reset with initialised := false } : State).initialised = false ∧ Instr.tick 0 ≠ .init
      ∧ rowIsParse (.tick 0) = false := by decide

/-- HOST boots from reset, with room for exactly the six entries; and again while TASK waits. -/
theorem test_hyps_SubscribeFillsLowestFree_boot :
    configOk { resetParams with subCap := 6 } = true ∧ 6 ≤ ({ resetParams with subCap := 6 } : Params).subCap
      ∧ State.reset.midCycle = false ∧ ready.midCycle = false := by decide

/-- The last entry is the only free one; the extent is the largest that fits; a full table; 63 and 8192 are too much. -/
theorem test_hyps_SubscribeFillsLowestFree :
    (8191 ≤ 8191 ∧ 62 + resetParams.crcBytes ≤ resetParams.poolBufBytes)
      ∧ ¬ (8191 ≤ 8191 ∧ 63 + resetParams.crcBytes ≤ resetParams.poolBufBytes)
      ∧ ¬ (8192 ≤ 8191 ∧ 0 + resetParams.crcBytes ≤ resetParams.poolBufBytes)
      ∧ State.reset.initialised = true ∧ State.reset.midCycle = false ∧ State.reset.started = false ∧ ready.midCycle = false ∧ ready.started = true
      ∧ (∃ (j : Nat) (sb : Subscription), ready.sub[j]? = some (some sb) ∧ sb.subject.toNat = 100)
      ∧ (∀ i, i < 1 → ([some sub100] : List (Option Subscription))[i]? ≠ some none)
      ∧ ([some sub100, none] : List (Option Subscription))[1]? = some none
      ∧ (∀ j, j < 1 → ([some sub100, none] : List (Option Subscription))[j]? ≠ some none)
      ∧ ∀ (j : Nat) (sb : Subscription), ([some sub100, none] : List (Option Subscription))[j]? = some (some sb) →
        sb.subject.toNat ≠ 8191 := by
  refine ⟨by decide, by decide, by decide, rfl, rfl, rfl, rfl, rfl, ⟨0, sub100, rfl, rfl⟩, ?_, rfl, ?_, ?_⟩
  · intro i hi; interval_cases i; decide
  · intro i hi; interval_cases i; decide
  · intro j sb h
    have hm := List.mem_of_getElem? h
    simp at hm; subst hm; decide

theorem test_hyps_StartEndsStartUp :
    State.reset.initialised = true ∧ State.reset.midCycle = false ∧ State.reset.started = false ∧ ready.midCycle = false
      ∧ ready.started = true := by decide

theorem test_hyps_WrongContextsRefused :
    State.reset.initialised = true ∧ State.reset.started = false ∧ State.reset.delivering = none
      ∧ ({ ready with phase := .drainTx, midPhase := true } : State).midPhase = true ∧ State.reset.phase = .idle ∧ ({ ready with phase := .drainTx } : State).phase ≠ .idle
      ∧ ({ ready with phase := .drainTx } : State).phase ≠ .wait
      ∧ ({ ready with phase := .drainRx, delivering := some (due none) } : State).delivering ≠ none := by decide

theorem test_hyps_NotEnabledRefused :
    taskFree ready ∧ waitReady { ready with now := 9999 } = false ∧ ready.popped = none ∧ ready.txq = []
      ∧ ready.delivering = none ∧ interruptEnabled ready ∧ ready.params.rxPortReturns = true ∧ ready.ctrlRx = []
      ∧ (item 4 99 [1]).deadline < ({ ready with now := 100 } : State).now := by
  unfold taskFree interruptEnabled; decide

/-- One free slot and two frames; a frame of exactly 64 bytes; one of 65; the other port may hang. -/
theorem test_hyps_RxIrqTakesEveryFrame :
    interruptEnabled { ready with rxq := List.replicate 3 (frame []), ctrlRx := [⟨0, List.replicate 64 0⟩, ⟨1, []⟩] }
      ∧ ({ ready with rxq := List.replicate 4 (frame []) } : State).rxq.length ≤ ready.params.rxqCap
      ∧ controllerInContract { ready with ctrlRx := [⟨0, List.replicate 64 0⟩, ⟨1, []⟩] }
      ∧ ({ resetParams with txPortReturns := false } : Params).rxPortReturns = true
      ∧ ¬ controllerInContract { ready with ctrlRx := [⟨0, List.replicate 65 0⟩] } := by
  unfold interruptEnabled controllerInContract; decide

/-- The counter just below its bound, one frame above capacity. -/
theorem test_hyps_CapacityProperty :
    ready.rxq = [] ∧ (∀ r ∈ List.replicate 5 (⟨0, List.replicate 64 0⟩ : BusFrame), r.data.length ≤ 64)
      ∧ ({ ready with dropped := 0xFFFFFFFE } : State).dropped.toNat + (5 - ready.params.rxqCap) ≤ 4294967295
      ∧ ∃ t, storeFrame ⟨0, []⟩ ready = .next t :=
  ⟨rfl, by decide, by decide, _, rfl⟩

theorem test_hyps_IngestionStepsAlone :
    interruptEnabled ready ∧ taskFree ready ∧ ({ resetParams with txPortReturns := false } : Params).rxPortReturns = true
      ∧ ({ ready with rxq := List.replicate 4 (frame []) } : State).rxq.length = ready.params.rxqCap
      ∧ ({ ready with rxq := List.replicate 3 (frame []) } : State).rxq.length ≠ ready.params.rxqCap := by
  unfold interruptEnabled taskFree; decide

theorem test_hyps_CounterPorts :
    ready.initialised = true ∧ ready.phase ≠ .idle ∧ ({ ready with phase := .drainTx } : State).midPhase = false
      ∧ ({ ready with midPhase := true, delivering := some (due none) } : State).delivering ≠ none := by decide

theorem test_hyps_WakeNeverLost :
    (∃ t, exec .drain { ready with wake := true } = .next t) ∧ ∃ t, taskStep { ready with wake := true } = .next t :=
  ⟨⟨_, rfl⟩, ⟨_, rfl⟩⟩

/-- A ring of one slot, its index at the last value before the wrap; full and empty. -/
theorem test_hyps_RingRefinesQueue :
    ringWf ⟨[⟨0, 0, List.replicate 64 0, 0⟩], 1, 1⟩ = true ∧ ringFull ⟨[⟨0, 0, List.replicate 64 0, 0⟩], 1, 1⟩ = false
      ∧ ringEmpty ⟨[⟨0, 0, List.replicate 64 0, 0⟩], 1, 1⟩ = true
      ∧ ringWf ⟨[⟨0, 0, List.replicate 64 0, 0⟩], 0, 1⟩ = true ∧ ringFull ⟨[⟨0, 0, List.replicate 64 0, 0⟩], 0, 1⟩ = true
      ∧ ringEmpty ⟨[⟨0, 0, List.replicate 64 0, 0⟩], 0, 1⟩ = false := by decide

theorem test_hyps_DiscardedFrames :
    taskFree (holding (frame []) {}) ∧ (holding (frame []) {}).popped = some (frame [])
      ∧ matchSub ready.sub 0x1060652A = none ∧ matchSub ready.sub 0x1060642A = some (0, sub100)
      ∧ malformed ready.params (frame []) = some .v1 := by
  unfold taskFree; decide

/-- An anonymous payload of 10 bytes meets the extent, 11 exceed it; with and without a buffer. -/
theorem test_hyps_AnonymousTransfers :
    taskFree (holding (anonFrame [0xE0]) {}) ∧ matchSub ready.sub (anonFrame []).id = some (0, sub100)
      ∧ malformed ready.params (anonFrame [0xE0]) = none ∧ idAnon (anonFrame []).id = true
      ∧ sub100.extent < (anonFrame (List.replicate 11 0 ++ [0xE0])).pl.length
      ∧ (anonFrame (List.replicate 10 0 ++ [0xE0])).pl.length ≤ sub100.extent
      ∧ malformed ready.params (anonFrame (List.replicate 11 0 ++ [0xE0])) = none
      ∧ malformed ready.params (anonFrame (List.replicate 10 0 ++ [0xE0])) = none
      ∧ ({ ready with poolFree := 0 } : State).poolFree = 0 ∧ 0 < ready.poolFree := by
  unfold taskFree; decide

/-- One tick past the timeout, exactly the timeout with a start frame, and a last transfer id one tick past it. -/
theorem test_hyps_OldTransferEndsFirst :
    reachesSession (holding { frame [1, 0xE1] with ts := 1051 } { cur := some inProgress }) { frame [1, 0xE1] with ts := 1051 } sub100 42
      ∧ inProgress.tsFirst.toNat + sub100.timeout.toNat < (1051 : Time).toNat
      ∧ reachesSession (holding { frame [1, 0xE1] with ts := 1050 } { cur := some inProgress }) { frame [1, 0xE1] with ts := 1050 } sub100 42
      ∧ (frame [1, 0xE1]).sot = true ∧ (1050 : Time).toNat ≤ inProgress.tsFirst.toNat + sub100.timeout.toNat
      ∧ (∀ v : Session, ((holding { frame [1, 0xE1] with ts := 1051 } v).session 42) = v)
      ∧ (50 : Time).toNat + sub100.timeout.toNat < (1051 : Time).toNat :=
  ⟨reaches_holding (by decide) (by decide) (by decide) (by decide), by decide,
    reaches_holding (by decide) (by decide) (by decide) (by decide), by decide, by decide, session_holding _, by decide⟩

theorem test_hyps_OldTransferEndsFirst_forgets :
    reachesSession { holding { frame [1, 0xE1] with ts := 1051 } { last := some ⟨5, 50⟩ } with params := { resetParams with tidExpiry := .onTimeout } }
        { frame [1, 0xE1] with ts := 1051 } sub100 42
      ∧ ({ holding { frame [1, 0xE1] with ts := 1051 } { last := some ⟨5, 50⟩ } with params := { resetParams with tidExpiry := .onTimeout } } : State).session 42
        = { last := some ⟨5, 50⟩ } := by
  refine ⟨⟨⟨rfl, rfl, rfl⟩, by decide, rfl, by decide, by decide, 0, by decide, by decide⟩, ?_⟩
  decide

/-- With no transfer and no last id there is nothing to age; the same at an age of exactly the timeout. -/
theorem nothingToAge_holding {f : Frame} {v : Session} (hc : ∀ r, v.cur = some r → f.ts.toNat ≤ r.tsFirst.toNat + 1000) :
    nothingToAge (holding f v) f sub100 42 := by
  refine ⟨fun r h => hc r ?_, fun l _ => .inl rfl⟩
  rw [session_holding] at h; exact h

/-- A FIRST frame of 12 bytes meets its bound, 13 exceed it; a SINGLE frame of 11 exceeds its own; with and without a buffer. -/
theorem test_hyps_StartFrames :
    (∀ data ∈ ([List.replicate 12 0 ++ [0xA2], List.replicate 13 0 ++ [0xA2], List.replicate 11 0 ++ [0xE2]] : List (List Byte)),
      reachesSession (holding (frame data) {}) (frame data) sub100 42 ∧ nothingToAge (holding (frame data) {}) (frame data) sub100 42
        ∧ ((holding (frame data) {}).session 42).cur = none ∧ (frame data).sot = true)
      ∧ sub100.extent + resetParams.crcBytes < (frame (List.replicate 13 0 ++ [0xA2])).pl.length
      ∧ sub100.extent + 0 < (frame (List.replicate 11 0 ++ [0xE2])).pl.length
      ∧ (frame (List.replicate 12 0 ++ [0xA2])).eot = false
      ∧ (frame (List.replicate 12 0 ++ [0xA2])).pl.length ≤ sub100.extent + resetParams.crcBytes
      ∧ ({ ready with poolFree := 0 } : State).poolFree = 0 ∧ 0 < ready.poolFree := by
  refine ⟨?_, by decide, by decide, by decide, by decide, rfl, by decide⟩
  intro data hd
  simp only [List.mem_cons, List.not_mem_nil, or_false] at hd
  rcases hd with rfl | rfl | rfl <;>
    exact ⟨reaches_holding (by decide) (by decide) (by decide) (by decide), nothingToAge_holding (by simp),
      by rw [session_holding], by decide⟩

/-- A SINGLE frame of exactly the extent, with a last id that makes it new (15 ahead) or stale (16 ahead). -/
theorem test_hyps_SingleFrameTransfers :
    (∀ tid ∈ ([17, 18] : List Nat),
      reachesSession (holding (frame (List.replicate 10 0 ++ [0xE1])) { last := some ⟨tid, 0⟩ }) (frame (List.replicate 10 0 ++ [0xE1])) sub100 42
        ∧ nothingToAge (holding (frame (List.replicate 10 0 ++ [0xE1])) { last := some ⟨tid, 0⟩ }) (frame (List.replicate 10 0 ++ [0xE1])) sub100 42
        ∧ ((holding (frame (List.replicate 10 0 ++ [0xE1])) { last := some ⟨tid, 0⟩ }).session 42) = { last := some ⟨tid, 0⟩ })
      ∧ (frame (List.replicate 10 0 ++ [0xE1])).single = true
      ∧ (frame (List.replicate 10 0 ++ [0xE1])).pl.length ≤ sub100.extent ∧ 0 < ready.poolFree
      ∧ newToSession resetParams (some ⟨18, 0⟩) (frameTid resetParams (frame [0xE1]))
      ∧ staleness resetParams (frameTid resetParams (frame [0xE1])) 17 = some .stale := by
  refine ⟨?_, by decide, by decide, by decide, ?_, by decide⟩
  · intro tid _
    exact ⟨reaches_holding (by decide) (by decide) (by decide) (by decide), nothingToAge_holding (by simp), session_holding _ _⟩
  · intro l hl; cases hl; decide

/-- Orphans: no transfer, another id, another toggle. A MIDDLE frame that fills the bound of 12, and one byte more. -/
theorem test_hyps_ContinuationFrames :
    (∀ data ∈ ([[1, 0x08], [1, 0x27], [0, 0, 0, 0, 0, 0x07], [0, 0, 0, 0, 0, 0, 0x07]] : List (List Byte)), ∀ cur ∈ [none, some inProgress],
      reachesSession (holding (frame data) { cur := cur }) (frame data) sub100 42
        ∧ nothingToAge (holding (frame data) { cur := cur }) (frame data) sub100 42 ∧ (frame data).sot = false
        ∧ ((holding (frame data) { cur := cur }).session 42).cur = cur)
      ∧ frameTid resetParams (frame [1, 0x08]) ≠ inProgress.tid ∧ (frame [1, 0x27]).tog ≠ inProgress.toggle
      ∧ frameTid resetParams (frame [0, 0x07]) = inProgress.tid ∧ (frame [0, 0x07]).tog = inProgress.toggle
      ∧ inProgress.buf.length + (frame [0, 0, 0, 0, 0, 0x07]).pl.length ≤ sub100.extent + resetParams.crcBytes
      ∧ sub100.extent + resetParams.crcBytes < inProgress.buf.length + (frame [0, 0, 0, 0, 0, 0, 0x07]).pl.length
      ∧ (frame [0, 0, 0, 0, 0, 0x07]).eot = false := by
  refine ⟨?_, by decide, by decide, by decide, by decide, by decide, by decide, by decide⟩
  intro data hd cur hcur
  simp only [List.mem_cons, List.not_mem_nil, or_false] at hd hcur
  have hage : ∀ r : Reassembly, cur = some r → (50 : Time).toNat ≤ r.tsFirst.toNat + 1000 := by
    rcases hcur with rfl | rfl <;> intro r hr <;> cases hr; decide
  rcases hd with rfl | rfl | rfl | rfl <;>
    exact ⟨reaches_holding (by decide) (by decide) (by decide) (by decide), nothingToAge_holding hage, by decide,
      by rw [session_holding]⟩

/-- The LAST frame of program P4, its bound met with equality: a good CRC, a bad one, a duplicate of id 7, and a new id. -/
theorem test_hyps_MultiFrameCompletion :
    (∀ data ∈ ([[0x17, 0x18, 0x19, 0x58, 0xBE, 0x47], [0x17, 0x18, 0x19, 0x58, 0xBF, 0x47]] : List (List Byte)),
      ∀ last ∈ ([none, some ⟨7, 0⟩] : List (Option LastAccepted)),
      reachesSession (holding (frame data) ⟨last, some inProgress⟩) (frame data) sub100 42
        ∧ nothingToAge (holding (frame data) ⟨last, some inProgress⟩) (frame data) sub100 42
        ∧ ((holding (frame data) ⟨last, some inProgress⟩).session 42) = ⟨last, some inProgress⟩
        ∧ (frame data).sot = false ∧ (frame data).eot = true ∧ frameTid resetParams (frame data) = inProgress.tid
        ∧ (frame data).tog = inProgress.toggle
        ∧ inProgress.buf.length + (frame data).pl.length ≤ sub100.extent + resetParams.crcBytes)
      ∧ inProgress.multi = true
      ∧ crcOk resetParams (inProgress.buf ++ (frame [0x17, 0x18, 0x19, 0x58, 0xBE, 0x47]).pl) = true
      ∧ crcOk resetParams (inProgress.buf ++ (frame [0x17, 0x18, 0x19, 0x58, 0xBF, 0x47]).pl) = false
      ∧ staleness resetParams inProgress.tid 7 = some .duplicate ∧ newToSession resetParams none inProgress.tid := by
  refine ⟨?_, rfl, by decide +kernel, by decide +kernel, by decide, by intro l hl; cases hl⟩
  intro data hd last _
  simp only [List.mem_cons, List.not_mem_nil, or_false] at hd
  have hage : ∀ r : Reassembly, some inProgress = some r → (50 : Time).toNat ≤ r.tsFirst.toNat + 1000 := by
    intro r hr; cases hr; decide
  rcases hd with rfl | rfl <;>
    exact ⟨reaches_holding (by decide) (by decide) (by decide) (by decide), nothingToAge_holding hage, session_holding _ _,
      by decide, by decide, by decide, by decide, by decide⟩

theorem test_hyps_StalenessRelation : 1 ≤ resetParams.tidBits ∧ 31 < tidMod resetParams ∧ 0 < tidMod resetParams := by decide

/-- Between two cycles: a frame, an item, a transfer in progress, and a whole cycle as the next statement. -/
def busy : State :=
  { ready with
    now := 60
    wake := true
    rxq := [frame [7, 0xE1]]
    txq := [item 4 99 [1]]
    poolFree := 2
    sess := [(42, { cur := some inProgress })]
    schedule := [.issue ⟨.statement, [0x41]⟩] }

theorem buffersBounded_busy {s : State} (hs : s.sess = busy.sess) (hb : s.sub = busy.sub) (hp : s.params = busy.params) :
    buffersBounded s := by
  refine ⟨by rw [hs]; decide, fun key r h => ?_⟩
  unfold State.session at h
  rw [hs, hb, hp] at *
  by_cases hk : key = 42
  · subst hk
    have h' : some inProgress = some r := h
    cases h'
    exact ⟨⟨sub100, rfl, by decide⟩, by intro hm; cases hm⟩
  · have : sessGet busy.sess key = {} := by simp [busy, sessGet, hk]
    rw [this] at h; cases h

theorem test_hyps_DeliveriesWithinExtent :
    buffersBounded { busy with popped := some (frame [7, 0xE1]) } ∧ taskFree { busy with popped := some (frame [7, 0xE1]) }
      ∧ ∃ t, exec .processFrame { busy with popped := some (frame [7, 0xE1]) } = .next t := by
  refine ⟨buffersBounded_busy rfl rfl rfl, by unfold taskFree; decide, ?_⟩
  obtain ⟨t, h, _⟩ := next_of_after
    (show after (exec .processFrame { busy with popped := some (frame [7, 0xE1]) }) (fun _ => true) = some true by decide)
  exact ⟨t, h⟩

/-- The moves of handlers that always do the same are looked up. -/
theorem keepContract_fixed {p : Params} (h : ∀ h ∈ p.handlers, ∃ ms, h.script = .fixed ms ∧ ∀ m ∈ ms, moveInContract m = true) :
    handlersKeepContract p := by
  intro hd hm n d m hx
  obtain ⟨ms, hs, hk⟩ := h hd hm
  rw [hs] at hx
  exact hk m hx

/-- A handler that makes every call it may; no handler, with a session and without one. -/
theorem test_hyps_DeliverCompletes :
    busy.initialised = true ∧ ({ busy with delivering := some (due none) } : State).delivering = some (due none)
      ∧ sessWf busy.sess = true
      ∧ handlersKeepContract { resetParams with handlers := [⟨1, .fixed [.decode .pump, .call (.enqueue 8191 0 7 0 []), .call .noteDecodeError, .call .readDropped, .call .readDecodeErrors, .call .readTimeouts]⟩] }
      ∧ handlersKeepContract resetParams ∧ handlerOf resetParams 1 = none ∧ (due none).holder = none
      ∧ (due (some 42)).holder = some 42 ∧ (busy.session 42).cur = some inProgress := by
  refine ⟨rfl, rfl, by decide, keepContract_fixed ?_, keepContract_fixed ?_, by decide⟩
  · intro h hm
    simp only [List.mem_singleton] at hm
    subst hm
    exact ⟨_, rfl, by decide⟩
  · intro h hm; cases hm

/-- A handler that makes one call, and one that makes two, inside `PROCESS_PENDING`, with a held buffer; room for the item; a full
queue; an empty pool. -/
def calling (calls : List Instr) : State :=
  { busy with
    params := { resetParams with txqCap := 2, handlers := [⟨1, .fixed (calls.map .call)⟩] }
    phase := .drainRx
    midPhase := true
    delivering := some (due (some 42)) }

theorem test_hyps_DeliverCompletes_calls :
    (∀ calls ∈ [[.enqueue 8191 255 7 0 []], [.noteDecodeError], [.readDropped], [.readDecodeErrors], [.readTimeouts],
        [.noteDecodeError, .enqueue 1 2 0 0 [3]]],
      handlerOf (calling calls).params (due (some 42)).tag = some ⟨1, .fixed (calls.map .call)⟩
        ∧ scriptMoves (.fixed (calls.map .call)) 0 (due (some 42)) = calls.map .call
        ∧ ∀ i ∈ calls, callInContract i = true)
      ∧ (calling []).initialised = true ∧ sessWf (calling []).sess = true ∧ (calling []).phase ≠ .idle
      ∧ bufferHeld (calling []) (due (some 42)) ∧ bufferHeld (calling []) (due none)
      ∧ txqOrdered (calling []) ∧ (calling []).txq.length ≠ (calling []).params.txqCap ∧ 0 < (calling []).poolFree
      ∧ ({ calling [] with txq := [item 1 0 [], item 7 0 []] } : State).txq.length = (calling []).params.txqCap
      ∧ ({ calling [] with poolFree := 0 } : State).poolFree = 0 := by
  refine ⟨by decide, rfl, by decide, by decide, .inr ⟨42, inProgress, rfl, by decide⟩, .inl rfl, ?_, by decide⟩
  unfold txqOrdered; decide

/-- R161, R162: the item of a handler inside `PROCESS_PENDING` goes behind its own priority, and the release follows. -/
theorem test_handler_enqueue :
    after (exec .deliver (calling [.enqueue 100 37 4 9 [8]])) (fun t => (t.txq.map (·.payload), t.poolFree, t.delivering))
      = some ([[1], [8]], 2, none) := by decide

theorem test_hyps_HandlerHazards :
    handlerOf { resetParams with handlers := [⟨1, .fixed [.call .readDropped, .call .drain]⟩] } 1
        = some ⟨1, .fixed [.call .readDropped, .call .drain]⟩
      ∧ scriptMoves (.fixed [.call .readDropped, .call .drain]) 0 (due none) = [.call .readDropped] ++ .call .drain :: []
      ∧ (∀ m ∈ [HandlerMove.call .readDropped], moveInContract m = true) ∧ forbiddenToHandlers .drain = true
      ∧ scriptMoves (.fixed [.call .readDropped, .hang]) 0 (due none) = [.call .readDropped] ++ .hang :: []
      ∧ handlerOf { resetParams with handlers := [⟨1, .fixed [.call .readDropped, .hang]⟩] } 1
        = some ⟨1, .fixed [.call .readDropped, .hang]⟩ := by decide

/-- Program P6's layout: a number, a value that is no number, a pump, a readiness above its 2 bits, and a decode error. -/
theorem test_hyps_CommandStateUpdate :
    handlerOf { resetParams with handlers := [⟨1, .fixed [.decode .pump]⟩] } 1 = some ⟨1, .fixed [.decode .pump]⟩
      ∧ scriptMoves (.fixed [.decode .pump]) 0 (due none) = [.decode .pump]
      ∧ decodeServo { resetParams with layout := .vectorP6 } 2 [0, 0, 0, 0x40] = some (.number 2)
      ∧ decodeServo { resetParams with layout := .vectorP6 } 2 [0, 0, 0xC0, 0x7F] = some .notANumber
      ∧ decodePump { resetParams with layout := .vectorP6 } [1] = some true
      ∧ decodeReadiness { resetParams with layout := .vectorP6 } [7] = some 7
      ∧ decodeReadiness { resetParams with layout := .vectorP6 } [] = none
      ∧ decodePump { resetParams with layout := .vectorP6 } [] = none
      ∧ decodeServo { resetParams with layout := .vectorP6 } 2 [0, 0, 0] = none := by decide +kernel

/-- The codec's contract has both sides: a message one byte short and one byte longer than declared, a value that is written. -/
theorem test_hyps_CommandStateUpdate_codec :
    schemaResolves { resetParams with layout := .vectorP6 } (.servo 3) = true
      ∧ ([0, 0, 0] : List Byte).length < messageBytes { resetParams with layout := .vectorP6 } (.servo 3)
      ∧ messageBytes { resetParams with layout := .vectorP6 } .readiness ≤ ([3] : List Byte).length
      ∧ encodeServo { resetParams with layout := .vectorP6 } 3 (1 / 2) = some [0x00, 0x00, 0x00, 0x3F]
      ∧ decodeServo { resetParams with layout := .vectorP6 } 3 [0x00, 0x00, 0x00, 0x3F] = some (.number (min 1 (max (-1) (1 / 2))))
      ∧ decodeServo { resetParams with layout := .vectorP6 } 3 [0x00, 0x00, 0x80, 0xBF] = some (.number (min 1 (max (-1) (-9))))
      ∧ encodeServo { resetParams with layout := .vectorP6 } 3 (-9) = some [0x00, 0x00, 0x80, 0xBF]
      ∧ encodePump { resetParams with layout := .vectorP6 } true = some [1]
      ∧ encodeReadiness { resetParams with layout := .vectorP6 } 6 = some [2]
      ∧ ({ resetParams with strategy := .interpreted } : Params)
        = { resetParams with strategy := ({ resetParams with strategy := .interpreted } : Params).strategy }
      ∧ decodePump { resetParams with layout := .vectorP6, strategy := .interpreted } [3, 9] = some true := by decide +kernel

theorem test_hyps_PendingDrainsQueue :
    taskFree busy ∧ handlersKeepContract busy.params ∧ busy.rxq = frame [7, 0xE1] :: [] ∧ ready.rxq = [] :=
  ⟨⟨rfl, rfl, rfl⟩, keepContract_fixed (by intro h hm; cases hm), rfl, rfl⟩

/-- One place and one buffer left, with items on both sides; the limits of the operands; a full queue; an empty pool. -/
theorem test_hyps_EnqueueInserts :
    txqOrdered { ready with params := { resetParams with txqCap := 3 }, txq := [item 1 0 [], item 7 0 []] }
      ∧ (8191 ≤ 8191 ∧ 7 ≤ 7 ∧ (List.replicate 63 (0 : Byte)).length ≤ 63)
      ∧ ({ ready with txq := [item 1 0 [], item 7 0 []] } : State).txq.length ≠ 3
      ∧ 0 < ({ ready with poolFree := 1 } : State).poolFree ∧ ({ ready with phase := .drainTx } : State).midPhase = false
      ∧ ({ ready with phase := .drainRx, midPhase := true, delivering := some (due none) } : State).delivering ≠ none := by
  unfold txqOrdered; decide

theorem test_hyps_EnqueueRejects :
    ready.initialised = true ∧ ready.midPhase = false
      ∧ ({ ready with midPhase := true, delivering := some (due (some 42)) } : State).delivering ≠ none ∧ ({ ready with params := { resetParams with txqCap := 1 }, txq := [item 1 0 []] } : State).txq.length = 1
      ∧ ready.txq.length ≠ ready.params.txqCap ∧ ({ ready with poolFree := 0 } : State).poolFree = 0
      ∧ ¬ (8192 ≤ 8191 ∧ 0 ≤ 7 ∧ ([] : List Byte).length ≤ 63) ∧ ¬ (0 ≤ 8191 ∧ 8 ≤ 7 ∧ ([] : List Byte).length ≤ 63)
      ∧ ¬ (0 ≤ 8191 ∧ 0 ≤ 7 ∧ (List.replicate 64 (0 : Byte)).length ≤ 63) := by decide

theorem test_hyps_DrainServesInOrder :
    taskFree { busy with now := 100, mboxFree := 1 } ∧ ({ resetParams with rxPortReturns := false } : Params).txPortReturns = true := by
  unfold taskFree; decide

/-- An item at its deadline, and a queue of expired items only. -/
theorem test_hyps_PortHazards :
    interruptEnabled { ready with params := { resetParams with rxPortReturns := false } }
      ∧ taskFree { ready with params := { resetParams with txPortReturns := false } }
      ∧ (∃ e ∈ [item 1 9 [], item 2 10 []], (10 : Time) ≤ e.deadline) ∧ ∀ e ∈ [item 1 9 [], item 2 9 []], e.deadline < (10 : Time) := by
  unfold interruptEnabled taskFree; decide

/-- A cycle with a popped frame, a queued one and an item to send, where the arrivals stop. -/
def midway : State := { busy with phase := .drainRx, popped := some (frame [7, 0xE2]), schedule := [] }

theorem test_hyps_PortHazards_cycleEnds :
    midway.initialised = true ∧ midway.midCycle = true ∧ (midway.delivering ≠ none → midway.phase = .drainRx)
      ∧ handlersKeepContract midway.params ∧ midway.params.txPortReturns = true ∧ midway.schedule = [] ∧ midway.recurring = [] :=
  ⟨rfl, rfl, fun _ => rfl, keepContract_fixed (by intro h hm; cases hm), rfl, rfl, rfl⟩

/-- In the same cycle time passes, a mailbox comes free, a spurious interrupt is taken and accessors are read between 9 turns of
TASK, as many as the bound asks with room for 3 items. -/
def crowded : State :=
  { midway with
    params := { resetParams with txqCap := 3 }
    schedule := .issue (encode (.tick 5)) :: .issue (encode (.mbox 1)) :: .issue (encode .rxIrq) :: .issue (encode .readDropped)
      :: List.replicate 9 .task }

/-- The same in DRAIN_TX, where a frame may arrive. -/
def arriving : State := { crowded with phase := .drainTx, schedule := .issue (encode (.bus 5 [0])) :: crowded.schedule }

theorem test_hyps_PortHazards_fair :
    ∀ s ∈ [crowded, arriving], interruptEnabled s ∧ s.midCycle = true ∧ s.delivering = none ∧ s.txq.length ≤ s.params.txqCap
      ∧ controllerInContract s ∧ (s.phase = .drainRx → s.ctrlRx = []) ∧ handlersKeepContract s.params ∧ portsReturn s.params
      ∧ (∀ m ∈ s.schedule, moveAllowed (fun i => bringsNoFrame i || (decide (s.phase ≠ .drainRx) && bringsFrame i)) m = true)
      ∧ 2 * s.rxq.length + s.params.txqCap + 4 ≤ s.schedule.count .task := by
  intro s hs
  have hk : handlersKeepContract s.params := by
    simp only [List.mem_cons, List.not_mem_nil, or_false] at hs
    rcases hs with rfl | rfl <;> exact keepContract_fixed (by intro h hm; cases hm)
  revert s
  simp only [List.forall_mem_cons, List.not_mem_nil, false_implies, implies_true, and_true]
  unfold interruptEnabled portsReturn controllerInContract
  exact ⟨fun hk => by refine ⟨by decide, by decide, by decide, by decide, by decide, by decide, hk, by decide, by decide, by decide⟩,
    fun hk => by refine ⟨by decide, by decide, by decide, by decide, by decide, by decide, hk, by decide, by decide, by decide⟩⟩

/-- A 64-byte frame of subject 101 arrives, and the interrupt is taken, for every two steps of TASK. -/
def flooded : State :=
  { ready with
    phase := .drainRx
    recurring := [.issue (encode (.bus 0x1060652A (List.replicate 64 0))), .issue (encode .rxIrq), .task, .task] }

theorem test_hyps_PortHazards_starvation :
    interruptEnabled flooded ∧ flooded.params.rxPortReturns = true
      ∧ decode (encode (.bus 0x1060652A (List.replicate 64 0))) = .ok (.bus 0x1060652A (List.replicate 64 0), [])
      ∧ decode (encode .rxIrq) = .ok (.rxIrq, []) ∧ matchSub flooded.sub 0x1060652A = none
      ∧ (List.replicate 64 (0 : Byte)).length ≤ 64 ∧ 1 ≤ flooded.params.rxqCap ∧ flooded.phase = .drainRx
      ∧ flooded.delivering = none ∧ flooded.popped = none ∧ flooded.rxq = [] ∧ flooded.ctrlRx = [] ∧ flooded.schedule = [] := by
  unfold interruptEnabled; decide

/-- An item at its deadline and one tick past it. -/
theorem test_hyps_ExpiryIsStrict :
    ({ ready with now := 100, txq := [item 1 100 []] } : State).txq = item 1 100 [] :: []
      ∧ (100 : Time).toNat ≤ (item 1 100 []).deadline.toNat ∧ (item 1 99 []).deadline.toNat < (100 : Time).toNat := by decide

theorem test_hyps_TxPushAlone :
    taskFree busy ∧ ({ busy.params with rxPortReturns := false } : Params).txPortReturns = true ∧ busy.txq = item 4 99 [1] :: [] ∧ busy.mboxFree = 0
      ∧ ({ busy with now := 99 } : State).now ≤ (item 4 99 [1]).deadline
      ∧ 0 < ({ busy with mboxFree := 1 } : State).mboxFree := by
  unfold taskFree; decide

/-- The bound is reached at `MAX_WAIT`, and not one tick before. -/
theorem test_hyps_WaitReturns :
    taskFree ready ∧ (ready.params.maxWait : Int) ≤ ((10000 : Time).toNat : Int) - ready.waitStart.toNat
      ∧ ready.wake = false ∧ ((9999 : Time).toNat : Int) - ready.waitStart.toNat < ready.params.maxWait := by
  unfold taskFree; decide

theorem test_hyps_CycleOrder_CycleIsItsSteps :
    taskFree busy ∧ waitReady busy = true ∧ handlersKeepContract busy.params ∧ busy.params.txPortReturns = true
      ∧ taskFree { busy with schedule := [] } ∧ waitReady { busy with schedule := [] } = true ∧ busy.recurring = [] :=
  ⟨⟨rfl, rfl, rfl⟩, rfl, keepContract_fixed (by intro h hm; cases hm), rfl, ⟨rfl, rfl, rfl⟩, rfl, rfl⟩

/-- An age of exactly `STALE_TICKS`, one more, and no message yet; the engaged level and one below. -/
theorem test_hyps_ApplyPresentsOutput :
    taskFree ready ∧ ready.sup.accepted = false ∧ ({ resetSupervisor with accepted := true } : Supervisor).accepted = true ∧ (0 : Time).toNat + ready.params.staleTicks < (1001 : Time).toNat
      ∧ (1000 : Time).toNat ≤ (0 : Time).toNat + ready.params.staleTicks ∧ (2 : BitVec 2) < ready.params.engagedLevel
      ∧ ready.params.engagedLevel ≤ (3 : BitVec 2) := by
  unfold taskFree; decide

theorem test_hyps_SafeTimeoutIdempotent :
    taskFree ready ∧ ready.sup.mode = .safeTimeout ∧ commandStale ready = true := by
  unfold taskFree; decide

/-- The last tick that fits, and the first that does not. -/
theorem test_hyps_EnvironmentStatements :
    ready.initialised = true ∧ (0xFFFFFFFFFFFFFF00#64).toNat + 255 < 2 ^ 64 ∧ 2 ^ 64 ≤ (0xFFFFFFFFFFFFFF00#64).toNat + 256
      ∧ (List.replicate 64 (0 : Byte)).length ≤ 64 ∧ 64 < (List.replicate 65 (0 : Byte)).length := by decide

theorem test_hyps_StepRunsDecoded :
    busy.schedule = .issue ⟨.statement, [0x41]⟩ :: [] ∧ decode ⟨.statement, [0x41]⟩ = .ok (.taskCycle, [])
      ∧ decode ⟨.statement, [0x41, 0x50]⟩ = .ok (.taskCycle, [0x50]) ∧ decode ⟨.statement, [0x14]⟩ = .error (.unknownCode 0x14)
      ∧ ({ busy with schedule := [.task] } : State).schedule = .task :: [] ∧ ready.schedule = [] ∧ ready.recurring = []
      ∧ flooded.schedule = [] ∧ flooded.recurring ≠ [] := by decide

/-- The same two as steps of TASK and ISR inside a cycle. -/
theorem test_hyps_IrqCommutesWithProcessFrame_inCycle :
    midway.phase = .drainRx ∧ midway.delivering = none ∧ midway.popped ≠ none ∧ (∃ a, exec .rxIrq midway = .next a)
      ∧ ∃ b, taskStep midway = .next b := by
  refine ⟨rfl, rfl, by decide, ?_, ?_⟩
  · obtain ⟨t, h, _⟩ := next_of_after (show after (exec .rxIrq midway) (fun _ => true) = some true by decide)
    exact ⟨t, h⟩
  · obtain ⟨t, h, _⟩ := next_of_after (show after (taskStep midway) (fun _ => true) = some true by decide)
    exact ⟨t, h⟩

theorem test_hyps_IrqCommutesWithProcessFrame :
    taskFree { busy with popped := some (frame [7, 0xE1]), ctrlRx := [⟨0x1060642A, [8, 0xE2]⟩] }
      ∧ (∃ a, exec .rxIrq { busy with popped := some (frame [7, 0xE1]), ctrlRx := [⟨0x1060642A, [8, 0xE2]⟩] } = .next a)
      ∧ ∃ b, exec .processFrame { busy with popped := some (frame [7, 0xE1]), ctrlRx := [⟨0x1060642A, [8, 0xE2]⟩] } = .next b := by
  refine ⟨by unfold taskFree; decide, ?_, ?_⟩
  · obtain ⟨t, h, _⟩ := next_of_after
      (show after (exec .rxIrq { busy with popped := some (frame [7, 0xE1]), ctrlRx := [⟨0x1060642A, [8, 0xE2]⟩] }) (fun _ => true) = some true by decide)
    exact ⟨t, h⟩
  · obtain ⟨t, h, _⟩ := next_of_after
      (show after (exec .processFrame { busy with popped := some (frame [7, 0xE1]), ctrlRx := [⟨0x1060642A, [8, 0xE2]⟩] }) (fun _ => true) = some true by decide)
    exact ⟨t, h⟩

/-- A state with something in every queue and a transfer in progress meets every invariant, and its next step completes. -/
theorem test_hyps_invariants :
    rxqBounded busy ∧ rxqOrdered busy ∧ txqOrdered busy ∧ poolBalanced busy ∧ buffersBounded busy ∧ controlConsistent busy
      ∧ tableDistinct busy ∧ setpointsClamped busy ∧ ∃ t, step busy = .next t := by
  refine ⟨⟨by decide, by decide⟩, ⟨by decide, by decide⟩, ⟨by decide, by decide⟩, ⟨by decide, by decide⟩,
    buffersBounded_busy rfl rfl rfl, ⟨by decide, by decide⟩, ⟨by decide, by decide⟩, ?_, ?_⟩
  · intro v hv; simp [busy, ready, State.reset, resetSupervisor] at hv; subst hv; norm_num
  · obtain ⟨t, h, _⟩ := next_of_after (show after (step busy) (fun _ => true) = some true by decide)
    exact ⟨t, h⟩

/-- A step that is not `INIT`, and one that is. -/
theorem test_hyps_CountersTableParameters :
    (∃ t, step { busy with started := true } = .next t)
      ∧ ∃ t, step { busy with schedule := [.issue ⟨.statement, [0x00]⟩] } = .next t := by
  constructor
  · obtain ⟨t, h, _⟩ := next_of_after (show after (step { busy with started := true }) (fun _ => true) = some true by decide)
    exact ⟨t, h⟩
  · obtain ⟨t, h, _⟩ := next_of_after
      (show after (step { busy with schedule := [.issue ⟨.statement, [0x00]⟩] }) (fun _ => true) = some true by decide)
    exact ⟨t, h⟩

end Sys2Proof.Tests
end

section
/-! PROOFS. What may be started and issued: `INIT` refused, `SUBSCRIBE`, the boot sequence (R11, R130, R252). -/

namespace Sys2Proof.Proofs

open Sys2Proof.Machine Sys2Proof.Laws

/-! ## INIT -/

theorem configOk_eq_true {p : Params} :
    configOk p = true ↔ 1 ≤ p.rxqCap ∧ 1 ≤ p.poolBufs ∧ 64 ≤ p.poolBufBytes ∧ 1 ≤ p.maxWait ∧ 2 ≤ p.tidBits
      ∧ ((deploymentEntries p).map (·.subject)).Nodup
      ∧ ∀ e ∈ deploymentEntries p, e.extent + p.crcBytes ≤ p.poolBufBytes := by
  simp [configOk, and_assoc]

theorem exec_init_of_midCycle {s : State} (hi : s.initialised = true) (hm : s.midCycle = true) :
    exec .init s = .refused .taskBusy := by
  simp [exec, execInit, hi, hm]

/-- Where HOST may issue `INIT`, the parameters alone decide. -/
theorem exec_init_of_hostRuns {s : State} (h : s.initialised = false ∨ s.midCycle = false) :
    exec .init s = if configOk s.params then .next (initState s) else .refused .badConfiguration := by
  rcases h with h | h <;> simp [exec, execInit, h]

/-- `INIT` completes in the reset state of these parameters, or not at all. -/
theorem exec_init_eq_next {s t : State} (h : exec .init s = .next t) : t = initState s := by
  simp only [exec, execInit] at h
  split at h
  · cases h
  · split at h <;> cases h
    rfl

/-- Settles O13. -/
theorem initRefused : Obligations.InitRefused := by
  intro s
  refine ⟨exec_init_of_midCycle, fun hr hbad => ?_⟩
  rw [exec_init_of_hostRuns hr, if_neg (mt configOk_eq_true.1 hbad)]

/-! ## SUBSCRIBE -/

theorem subscribeInContract_eq_true {p : Params} {subject extent : Nat} :
    subscribeInContract p subject extent = true ↔ subject ≤ 8191 ∧ extent + p.crcBytes ≤ p.poolBufBytes := by
  simp [subscribeInContract]

theorem firstFree_eq_findIdx? (sub : List (Option Subscription)) : firstFree sub = sub.findIdx? Option.isNone := by
  induction sub with
  | nil => rfl
  | cons e sub ih => cases e <;> simp [firstFree, List.findIdx?_cons, ih]

theorem firstFree_eq_none {sub : List (Option Subscription)} :
    firstFree sub = none ↔ ∀ i, i < sub.length → sub[i]? ≠ some none := by
  rw [firstFree_eq_findIdx?, List.findIdx?_eq_none_iff, List.forall_mem_iff_getElem]
  refine forall₂_congr fun i hi => ?_
  rw [List.getElem?_eq_getElem hi]
  cases sub[i] <;> simp

theorem firstFree_eq_some {sub : List (Option Subscription)} {i : Nat} (hi : sub[i]? = some none)
    (hlow : ∀ j, j < i → sub[j]? ≠ some none) : firstFree sub = some i := by
  obtain ⟨hlen, hget⟩ := List.getElem?_eq_some_iff.1 hi
  rw [firstFree_eq_findIdx?, List.findIdx?_eq_some_iff_getElem]
  refine ⟨hlen, by simp [hget], fun j hj => ?_⟩
  have hne := hlow j hj
  rw [List.getElem?_eq_getElem (hj.trans hlen)] at hne
  simpa using hne

theorem subjectTaken_eq_true {sub : List (Option Subscription)} {subject : Subject} :
    subjectTaken sub subject = true ↔ ∃ sb, some sb ∈ sub ∧ sb.subject = subject := by
  unfold subjectTaken
  rw [List.any_eq_true]
  constructor
  · rintro ⟨_ | sb, hm, h⟩
    · cases h
    · exact ⟨sb, hm, by simpa using h⟩
  · rintro ⟨sb, hm, h⟩
    exact ⟨some sb, hm, by simpa using h⟩

/-- A subject within the contract fits its 13 bits. -/
theorem subject_eq_ofNat {a : Subject} {subject : Nat} (h : subject ≤ 8191) :
    a = BitVec.ofNat 13 subject ↔ a.toNat = subject := by
  rw [← BitVec.toNat_inj, BitVec.toNat_ofNat, Nat.mod_eq_of_lt (by omega)]

theorem addSubscription_of_rejected {sb : Subscription} {s : State}
    (h : s.started = true ∨ subjectTaken s.sub sb.subject = true ∨ firstFree s.sub = none) :
    addSubscription sb s = { s with log := s.log ++ [.result .rejected] } := by
  unfold addSubscription emit
  rcases h with h | h | h
  · simp [h]
  · simp [h]
  · simp only [h, ite_self]

theorem addSubscription_of_free {sb : Subscription} {s : State} {i : Nat} (hs : s.started = false)
    (ht : subjectTaken s.sub sb.subject = false) (hf : firstFree s.sub = some i) :
    addSubscription sb s = { s with sub := s.sub.set i (some sb), log := s.log ++ [.result .ok] } := by
  simp [addSubscription, emit, hs, ht, hf]

theorem exec_subscribe_of_contract {subject extent : Nat} {timeout : Time} {tag : Byte} {s : State}
    (hi : s.initialised = true) (hm : s.midCycle = false)
    (hc : subject ≤ 8191 ∧ extent + s.params.crcBytes ≤ s.params.poolBufBytes) :
    exec (.subscribe subject extent timeout tag) s = .next (addSubscription
      { subject := BitVec.ofNat 13 subject, extent := extent, timeout := timeout, tag := tag } s) := by
  simp only [exec, execSubscribe, whenHostRuns_of hi hm, subscribeInContract_eq_true.2 hc, if_true]

theorem exec_subscribe_outside_contract {subject extent : Nat} {timeout : Time} {tag : Byte} {s : State}
    (hi : s.initialised = true) (hm : s.midCycle = false)
    (hc : ¬ (subject ≤ 8191 ∧ extent + s.params.crcBytes ≤ s.params.poolBufBytes)) :
    exec (.subscribe subject extent timeout tag) s = .refused .operandOutOfRange := by
  simp only [exec, execSubscribe, whenHostRuns_of hi hm, mt subscribeInContract_eq_true.1 hc, if_false, Bool.false_eq_true]

/-! ## The boot sequence -/

theorem runInstrs_append (a b : List Instr) (s : State) :
    runInstrs (a ++ b) s = andThen (runInstrs a s) (runInstrs b) := by
  induction a generalizing s with
  | nil => rfl
  | cons i a ih => simp only [List.cons_append, runInstrs, andThen_assoc, funext ih]

/-- The statement with which HOST makes an entry (R252). -/
def subscribeTo (e : Subscription) : Instr := .subscribe e.subject.toNat e.extent e.timeout e.tag

theorem bootSequence_eq (p : Params) :
    bootSequence p = [.init] ++ ((deploymentEntries p).map subscribeTo ++ [.start]) := rfl

theorem length_deploymentEntries (p : Params) : (deploymentEntries p).length = 6 := by simp [deploymentEntries]

/-- A table whose entries in use come first. -/
def filledTable (used : List Subscription) (free : Nat) : List (Option Subscription) :=
  used.map some ++ List.replicate free none

theorem firstFree_filledTable (used : List Subscription) (n : Nat) :
    firstFree (filledTable used (n + 1)) = some used.length := by
  refine firstFree_eq_some (by simp [filledTable]) fun j hj => ?_
  simp [filledTable, List.getElem?_append, hj]

theorem subjectTaken_filledTable {used : List Subscription} {n : Nat} {subject : Subject}
    (h : subject ∉ used.map (·.subject)) : subjectTaken (filledTable used n) subject = false := by
  rw [Bool.eq_false_iff, Ne, subjectTaken_eq_true]
  rintro ⟨sb, hm, hs⟩
  have hu : sb ∈ used := by simpa [filledTable] using hm
  exact h (List.mem_map.2 ⟨sb, hu, hs⟩)

theorem set_filledTable (used : List Subscription) (n : Nat) (e : Subscription) :
    (filledTable used (n + 1)).set used.length (some e) = filledTable (used ++ [e]) n := by
  simp [filledTable, List.replicate_succ]

/-- The state after `n` accepted `SUBSCRIBE`s that left the table `sub`. -/
def afterSubscribes (sub : List (Option Subscription)) (n : Nat) (s : State) : State :=
  { s with sub := sub, log := s.log ++ List.replicate n (.result .ok) }

theorem afterSubscribes_self (s : State) : afterSubscribes s.sub 0 s = s := by simp [afterSubscribes]

theorem afterSubscribes_afterSubscribes (sub sub' : List (Option Subscription)) (m n : Nat) (s : State) :
    afterSubscribes sub' n (afterSubscribes sub m s) = afterSubscribes sub' (m + n) s := by
  simp [afterSubscribes]

/-- One entry of the boot sequence goes behind those already made. -/
theorem exec_subscribeTo {s : State} {used : List Subscription} {n : Nat} {e : Subscription}
    (hi : s.initialised = true) (hm : s.midCycle = false) (hs : s.started = false)
    (hsub : s.sub = filledTable used (n + 1)) (hnew : e.subject ∉ used.map (·.subject))
    (hc : e.extent + s.params.crcBytes ≤ s.params.poolBufBytes) :
    exec (subscribeTo e) s = .next (afterSubscribes (filledTable (used ++ [e]) n) 1 s) := by
  have hlt := e.subject.isLt
  have he : ({ e with subject := BitVec.ofNat 13 e.subject.toNat } : Subscription) = e := by simp
  unfold subscribeTo
  rw [exec_subscribe_of_contract hi hm ⟨by omega, hc⟩, he,
    addSubscription_of_free hs (hsub ▸ subjectTaken_filledTable hnew) (hsub ▸ firstFree_filledTable used n),
    hsub, set_filledTable]
  rfl

/-- HOST's `SUBSCRIBE`s, one for each of `es`, with room for all of them and for `n` more. -/
theorem runInstrs_subscribeTo (es : List Subscription) {s : State} {used : List Subscription} {n : Nat}
    (hi : s.initialised = true) (hm : s.midCycle = false) (hs : s.started = false)
    (hsub : s.sub = filledTable used (es.length + n)) (hd : ((used ++ es).map (·.subject)).Nodup)
    (hc : ∀ e ∈ es, e.extent + s.params.crcBytes ≤ s.params.poolBufBytes) :
    runInstrs (es.map subscribeTo) s = .next (afterSubscribes (filledTable (used ++ es) n) es.length s) := by
  induction es generalizing s used with
  | nil =>
    have hfull : filledTable (used ++ []) n = s.sub := by simp [hsub]
    rw [hfull, List.length_nil, afterSubscribes_self]; rfl
  | cons e es ih =>
    have hroom : s.sub = filledTable used (es.length + n + 1) := by rw [hsub, List.length_cons]; congr 1; omega
    have hnew : e.subject ∉ used.map (·.subject) := by
      rw [List.map_append, List.nodup_append] at hd
      exact fun hu => hd.2.2 _ hu _ (by simp) rfl
    have hrest := ih (s := afterSubscribes (filledTable (used ++ [e]) (es.length + n)) 1 s) hi hm hs rfl
      (by simpa using hd) fun x hx => hc x (List.mem_cons_of_mem _ hx)
    rw [List.map_cons, runInstrs, exec_subscribeTo hi hm hs hroom hnew (hc e List.mem_cons_self), andThen_next_left,
      hrest, afterSubscribes_afterSubscribes, List.length_cons, Nat.add_comm 1, List.append_assoc]
    rfl

theorem midCycle_initState (s : State) : (initState s).midCycle = false := rfl

/-- The table after `INIT`, with room for the six entries (R31). -/
theorem sub_initState {s : State} (h : 6 ≤ s.params.subCap) :
    (initState s).sub = filledTable [] ((deploymentEntries s.params).length + (s.params.subCap - 6)) := by
  rw [length_deploymentEntries, Nat.add_sub_cancel' h]; rfl

theorem exec_start_of_notStarted {s : State} (hi : s.initialised = true) (hm : s.midCycle = false) (hs : s.started = false) :
    exec .start s = .next { s with started := true, phase := .wait, waitStart := s.now } := by
  simp [exec, execStart, whenHostRuns_of hi hm, hs]

/-- HOST's boot sequence (R252): the state after `INIT`, the six entries made, TASK started. -/
theorem runInstrs_bootSequence {s : State} (hc : configOk s.params = true) (hcap : 6 ≤ s.params.subCap)
    (hr : s.initialised = false ∨ s.midCycle = false) :
    runInstrs (bootSequence s.params) s = .next { initState s with
      sub := filledTable (deploymentEntries s.params) (s.params.subCap - 6)
      log := s.log ++ List.replicate 6 (.result .ok)
      started := true, phase := .wait, waitStart := s.now } := by
  obtain ⟨_, _, _, _, _, hd, hext⟩ := configOk_eq_true.1 hc
  have hinit : runInstrs [.init] s = .next (initState s) := by
    simp [runInstrs, exec_init_of_hostRuns hr, hc]
  have hsubs := runInstrs_subscribeTo (deploymentEntries s.params) (s := initState s) (used := []) rfl
    (midCycle_initState s) rfl (sub_initState hcap) hd hext
  rw [length_deploymentEntries] at hsubs
  rw [bootSequence_eq, runInstrs_append, hinit, andThen_next_left, runInstrs_append, hsubs, andThen_next_left, runInstrs]
  rw [exec_start_of_notStarted rfl rfl rfl, andThen_next_left]
  rfl

/-- Settles O15: the boot sequence by induction on the entries, the single `SUBSCRIBE` by the cases of R130. -/
theorem subscribeFillsLowestFree : Obligations.SubscribeFillsLowestFree := by
  refine ⟨fun s hc hcap hr => ⟨_, runInstrs_bootSequence hc hcap hr, rfl, rfl, rfl, rfl, rfl⟩,
    fun subject extent timeout tag s hi hm => ⟨fun hc => ?_, exec_subscribe_outside_contract hi hm⟩⟩
  rw [exec_subscribe_of_contract hi hm hc]
  refine ⟨fun hs => ?started, fun ⟨j, sb, hj, hsb⟩ => ?taken, fun hfull => ?full, fun i hs hnew hfree hlow => ?free⟩
  case started => rw [addSubscription_of_rejected (.inl hs)]
  case taken =>
    have ht := subjectTaken_eq_true.2 ⟨sb, List.mem_of_getElem? hj, (subject_eq_ofNat hc.1).2 hsb⟩
    rw [addSubscription_of_rejected (.inr (.inl ht))]
  case full => rw [addSubscription_of_rejected (.inr (.inr (firstFree_eq_none.2 hfull)))]
  case free =>
    have ht : subjectTaken s.sub (BitVec.ofNat 13 subject) = false := by
      rw [Bool.eq_false_iff, Ne, subjectTaken_eq_true]
      rintro ⟨sb, hm, hsb⟩
      obtain ⟨j, hj⟩ := List.mem_iff_getElem?.1 hm
      exact hnew j sb hj ((subject_eq_ofNat hc.1).1 hsb)
    rw [addSubscription_of_free hs ht (firstFree_eq_some hfree hlow)]

end Sys2Proof.Proofs
end

section
/-! PROOFS. The receive interrupt and `PROCESS_FRAME` commute (R131, R188). -/

namespace Sys2Proof.Proofs

open Sys2Proof.Machine Sys2Proof.Laws

/-! ## What the interrupt reads and writes -/

/-- The drops of the interrupt, as they stand in the trace. -/
def dropEvents (n : Nat) : List Event := List.replicate n (.raised .rxOverflow)

/-- What the pull loop of `RX_IRQ` leaves behind: the controller's frames, the queue, the drop counter and the drops. -/
structure Pulled where
  ctrlRx : List BusFrame
  rxq : List Frame
  dropped : Count
  drops : Nat

/-- A state after the pull loop. -/
def afterPull (w : Pulled) (s : State) : State :=
  { s with ctrlRx := w.ctrlRx, rxq := w.rxq, dropped := w.dropped, log := s.log ++ dropEvents w.drops }

/-- Two states hold the same in every field that the interrupt reads. -/
structure SameIrqInputs (s t : State) : Prop where
  params : t.params = s.params
  now : t.now = s.now
  ctrlRx : t.ctrlRx = s.ctrlRx
  rxq : t.rxq = s.rxq
  dropped : t.dropped = s.dropped

theorem SameIrqInputs.refl (s : State) : SameIrqInputs s s := ⟨rfl, rfl, rfl, rfl, rfl⟩

/-- What `PROCESS_FRAME` leaves alone holds all that the interrupt reads (R188). -/
theorem SameIrqInputs.of_rxFrame {s t : State} (h : RxFrame s t) : SameIrqInputs s t :=
  ⟨h.params, h.now, h.ctrlRx, h.rxq, h.dropped⟩

/-- The same pull, after one that left `w` behind. -/
theorem afterPull_afterPull (w v : Pulled) (s : State) :
    afterPull v (afterPull w s) = afterPull { v with drops := w.drops + v.drops } s := by
  simp [afterPull, dropEvents]

theorem SameIrqInputs.afterPull {s t : State} (h : SameIrqInputs s t) (w : Pulled) :
    SameIrqInputs (afterPull w s) (afterPull w t) :=
  ⟨h.params, h.now, rfl, rfl, rfl⟩

/-- A pulled frame that is stored or dropped is so alike in every state with the same inputs. -/
theorem storeFrame_eq_afterPull {s u : State} {r : BusFrame} {rest : List BusFrame}
    (hu : storeFrame r { s with ctrlRx := rest } = .next u) :
    ∃ w, ∀ t, SameIrqInputs s t → storeFrame r { t with ctrlRx := rest } = .next (afterPull w t) := by
  obtain ⟨hlen, ⟨hfull, _⟩ | ⟨hroom, _⟩⟩ := storeFrame_eq_next.1 hu
  · refine ⟨⟨rest, s.rxq, satInc s.dropped, 1⟩, fun t h => storeFrame_eq_next.2 ⟨hlen, .inl ⟨?_, ?_⟩⟩⟩
    · simpa [h.rxq, h.params] using hfull
    · rw [raiseError_rxOverflow, ← h.rxq, ← h.dropped]; rfl
  · refine ⟨⟨rest, s.rxq ++ [{ id := r.id, data := r.data, ts := s.now }], s.dropped, 0⟩,
      fun t h => storeFrame_eq_next.2 ⟨hlen, .inr ⟨?_, ?_⟩⟩⟩
    · simpa [h.rxq, h.params] using hroom
    · rw [← h.rxq, ← h.dropped, ← h.now]; simp [afterPull, dropEvents]

theorem SameIrqInputs.eq_afterPull {s t : State} (h : SameIrqInputs s t) :
    t = Proofs.afterPull ⟨s.ctrlRx, s.rxq, s.dropped, 0⟩ t := by
  simp [Proofs.afterPull, dropEvents, ← h.ctrlRx, ← h.rxq, ← h.dropped]

/-- The pull loop leaves the same behind in every state with the same inputs. -/
theorem pullTurns_eq_afterPull (n : Nat) {s a : State} (ha : pullTurns n s = .next a) :
    ∃ w, ∀ t, SameIrqInputs s t → pullTurns n t = .next (afterPull w t) := by
  induction n generalizing s with
  | zero => exact ⟨_, fun t h => congrArg Host.Outcome.next h.eq_afterPull⟩
  | succ n ih =>
    cases hq : s.ctrlRx with
    | nil =>
      refine ⟨⟨s.ctrlRx, s.rxq, s.dropped, 0⟩, fun t h => ?_⟩
      rw [pullTurns, nextRx_eq_none.2 (h.ctrlRx.trans hq)]
      exact congrArg Host.Outcome.next h.eq_afterPull
    | cons r rest =>
      rw [pullTurns, nextRx_eq_some.2 ⟨rest, hq, rfl⟩] at ha
      obtain ⟨u, hu, hrest⟩ := andThen_eq_next.1 ha
      obtain ⟨w, hw⟩ := storeFrame_eq_afterPull hu
      rw [Host.Outcome.next.inj (hu.symm.trans (hw s (.refl s)))] at hrest
      obtain ⟨v, hv⟩ := ih hrest
      refine ⟨{ v with drops := w.drops + v.drops }, fun t h => ?_⟩
      rw [pullTurns, nextRx_eq_some.2 ⟨rest, h.ctrlRx.trans hq, rfl⟩]
      dsimp only
      rw [hw t h, andThen_next_left, hv _ (h.afterPull w), afterPull_afterPull]

/-- The interrupt does the same in every state with the same inputs (R110). -/
theorem takeInterrupt_eq_afterPull {s a : State} (ha : takeInterrupt s = .next a) :
    ∃ w, ∀ t, SameIrqInputs s t → takeInterrupt t = .next (signalWake (afterPull w t)) := by
  obtain ⟨hport, u, hu, _⟩ := takeInterrupt_eq_next.1 ha
  obtain ⟨w, hw⟩ := pullTurns_eq_afterPull _ hu
  refine ⟨w, fun t h => takeInterrupt_eq_next.2 ⟨h.params ▸ hport, _, ?_, rfl⟩⟩
  rw [h.ctrlRx]; exact hw t h

/-! ## The two orders -/

/-- Drops are no observable events (R14, R220). -/
theorem observable_dropEvents (n : Nat) : observable (dropEvents n) = [] := by
  simp [observable, dropEvents, observableEvent]

/-- Two traces with the same events but for the values of counters show the same, wherever the drops stand. -/
theorem observable_drops_comm (log : List Event) (n : Nat) {ev ev' : List Event}
    (h : ev.map maskCounter = ev'.map maskCounter) :
    (observable (log ++ dropEvents n ++ ev)).map maskCounter = (observable (log ++ ev' ++ dropEvents n)).map maskCounter := by
  simp only [observable_append, observable_dropEvents, List.append_nil, List.map_append, observable_map_maskCounter, h]

theorem rxFrame_unpop (s : State) : RxFrame s { s with popped := none } := by constructor <;> exact Eq.refl _

/-- The work of `PROCESS_FRAME` and an interrupt after it or before it. -/
theorem takeInterrupt_processFrame_commute {f : Frame} {s a b : State} (ha : takeInterrupt s = .next a)
    (hb : processFrame f { s with popped := none } = .next b) :
    ∃ c d, processFrame f { a with popped := none } = .next c ∧ takeInterrupt b = .next d ∧ agreeButOrder s.log c d := by
  obtain ⟨w, hw⟩ := takeInterrupt_eq_afterPull ha
  obtain rfl := Host.Outcome.next.inj (ha.symm.trans (hw s (.refl s)))
  have hframe := (rxFrame_unpop s).trans (processed_processFrame hb).toRxFrame
  obtain ⟨ev, _, hlog, hk⟩ := (independentResult_processFrame f).controlOf hb
  obtain ⟨ev', ⟨hmask, hdeliver⟩, _, hc⟩ := hk (controlOf (signalWake (afterPull w s)))
  refine ⟨_, _, hc, hw b (.of_rxFrame hframe), ?_, w.drops, ev', ev, rfl, ?_, hmask.symm, hdeliver.symm, ?_⟩
  · simp [agreeButLog, withControl, Control.add, controlOf, signalWake, afterPull, hframe.phase, hframe.midPhase, hframe.waitStart]
  · simp [signalWake, afterPull, dropEvents, hlog]
  · have hd : (signalWake (afterPull w b)).log = s.log ++ ev ++ dropEvents w.drops := by simp [signalWake, afterPull, hlog]
    rw [hd]
    exact observable_drops_comm s.log w.drops hmask.symm

theorem exec_rxIrq_eq_next {s t : State} :
    exec .rxIrq s = .next t ↔ s.initialised = true ∧ s.started = true ∧ takeInterrupt s = .next t :=
  whenInterruptEnabled_eq_next

theorem exec_processFrame_eq_next {s t : State} :
    exec .processFrame s = .next t
      ↔ taskFree s ∧ ∃ f, s.popped = some f ∧ processFrame f { s with popped := none } = .next t := by
  simp only [exec, execProcessFrame, whenTaskFree_eq_next, taskFree, and_assoc]
  cases s.popped <;> simp

/-- TASK's step in DRAIN_RX while it holds a popped frame (R131, R132). -/
theorem taskStep_of_popped {s : State} {f : Frame} (hi : s.initialised = true) (hp : s.phase = .drainRx)
    (hd : s.delivering = none) (hf : s.popped = some f) : taskStep s = processFrame f { s with popped := none } := by
  simp [taskStep, whenReady_of hi, hp, drainRxStep, hd, hf]

/-- The interrupt leaves TASK's place and operand as they are (R188). -/
theorem takeInterrupt_keeps_task {s t : State} (h : takeInterrupt s = .next t) :
    t.initialised = s.initialised ∧ t.delivering = s.delivering ∧ t.phase = s.phase ∧ t.popped = s.popped := by
  obtain ⟨w, hw⟩ := takeInterrupt_eq_afterPull h
  obtain rfl := Host.Outcome.next.inj (h.symm.trans (hw s (.refl s)))
  exact ⟨rfl, rfl, rfl, rfl⟩

/-- `PROCESS_FRAME` leaves the interrupt enabled (R119). -/
theorem exec_rxIrq_of_processFrame {f : Frame} {s b d : State} (hi : s.initialised = true) (hst : s.started = true)
    (hb : processFrame f { s with popped := none } = .next b) (hd : takeInterrupt b = .next d) :
    exec .rxIrq b = .next d := by
  have hframe := processed_processFrame hb
  exact exec_rxIrq_eq_next.2 ⟨hframe.initialised.trans hi, hframe.started.trans hst, hd⟩

/-- Settles O53: both forms of `PROCESS_FRAME` are the same work on the popped frame, which commutes with the interrupt. -/
theorem irqCommutesWithProcessFrame : Obligations.IrqCommutesWithProcessFrame := by
  refine ⟨fun s a b _ ha hb => ?betweenCycles, fun s a b hphase hdel hpop ha hb => ?inDrainRx⟩
  case betweenCycles =>
    obtain ⟨hi, hst, hirq⟩ := exec_rxIrq_eq_next.1 ha
    obtain ⟨⟨_, hdel, hphase⟩, f, hf, hrun⟩ := exec_processFrame_eq_next.1 hb
    obtain ⟨hai, had, hap, haf⟩ := takeInterrupt_keeps_task hirq
    obtain ⟨c, d, hc, hd, hagree⟩ := takeInterrupt_processFrame_commute hirq hrun
    exact ⟨c, d, exec_processFrame_eq_next.2 ⟨⟨hai.trans hi, had.trans hdel, hap.trans hphase⟩, f, haf.trans hf, hc⟩,
      exec_rxIrq_of_processFrame hi hst hrun hd, hagree⟩
  case inDrainRx =>
    obtain ⟨hi, hst, hirq⟩ := exec_rxIrq_eq_next.1 ha
    obtain ⟨f, hf⟩ := Option.ne_none_iff_exists'.1 hpop
    rw [taskStep_of_popped hi hphase hdel hf] at hb
    obtain ⟨hai, had, hap, haf⟩ := takeInterrupt_keeps_task hirq
    obtain ⟨c, d, hc, hd, hagree⟩ := takeInterrupt_processFrame_commute hirq hb
    exact ⟨c, d, (taskStep_of_popped (hai.trans hi) (hap.trans hphase) (had.trans hdel) (haf.trans hf)).trans hc,
      exec_rxIrq_of_processFrame hi hst hb hd, hagree⟩

end Sys2Proof.Proofs
end

section
/-! PROOFS. Over any step but `INIT` the counters and the clock do not decrease, and a started table stays (R27, R33, R207,
R236). -/

namespace Sys2Proof.Proofs

open Sys2Proof.Machine Sys2Proof.Laws

/-! ## What steps 1 to 9 of PROCESS_FRAME are made of -/

/-- A property that each single update of steps 1 to 9 of `PROCESS_FRAME` keeps (R132 to R141). -/
structure ReassemblyClosed (P : State → Prop) : Prop where
  raise : ∀ e s, P s → P (raiseError e s)
  putSession : ∀ key v s, P s → P (putSession key v s)
  poolFree : ∀ n s, P s → P { s with poolFree := n }
  handOver : ∀ d s, P s → P (handOver d s)

namespace ReassemblyClosed

variable {P : State → Prop} {s : State}

theorem abandon (h : ReassemblyClosed P) (key : Nat) (hs : P s) : P (abandon key s) := by
  unfold Machine.abandon; split
  · exact hs
  · exact h.putSession _ _ _ (h.poolFree _ s hs)

theorem ageTransfer (h : ReassemblyClosed P) (key : Nat) (timeout : Time) (f : Frame) (hs : P s) :
    P (ageTransfer key timeout f s) := by
  unfold Machine.ageTransfer; split
  · exact hs
  · split
    · exact h.raise _ _ (h.abandon key hs)
    · exact hs

theorem forgetLast (h : ReassemblyClosed P) (key : Nat) (timeout : Time) (f : Frame) (hs : P s) :
    P (forgetLast key timeout f s) := by
  unfold Machine.forgetLast; split
  · split
    · exact h.putSession _ _ _ hs
    · exact hs
  all_goals exact hs

theorem preempt (h : ReassemblyClosed P) (key : Nat) (hs : P s) : P (preempt key s) := by
  unfold Machine.preempt; split
  · exact hs
  · exact h.raise _ _ (h.abandon key hs)

theorem openTransfer (h : ReassemblyClosed P) (key extent : Nat) (f : Frame) (hs : P s) :
    P (gateState (openTransfer key extent f s)) := by
  unfold Machine.openTransfer; split
  · exact h.raise _ _ hs
  · split
    · exact h.raise _ _ hs
    · rename_i halloc
      obtain ⟨_, rfl⟩ := poolAlloc_eq_some.1 halloc
      exact h.putSession _ _ _ (h.poolFree _ s hs)

theorem continueTransfer (h : ReassemblyClosed P) (key extent : Nat) (f : Frame) (hs : P s) :
    P (gateState (continueTransfer key extent f s)) := by
  unfold Machine.continueTransfer; split
  · exact h.raise _ _ hs
  · split
    · exact h.raise _ _ hs
    · split
      · exact h.raise _ _ (h.abandon key hs)
      · exact hs

theorem accumulate (h : ReassemblyClosed P) (key : Nat) (f : Frame) (hs : P s) : P (accumulate key f s) := by
  unfold Machine.accumulate; split
  · exact hs
  · exact h.putSession _ _ _ hs

theorem sequenceTransfer (h : ReassemblyClosed P) (key : Nat) (sb : Subscription) (r : Reassembly) (hs : P s) :
    P (sequenceTransfer key sb r s) := by
  unfold Machine.sequenceTransfer; split
  · exact h.raise _ _ (h.abandon key hs)
  · exact h.handOver _ _ (h.putSession _ _ _ hs)

theorem completeTransfer (h : ReassemblyClosed P) (key : Nat) (sb : Subscription) (f : Frame) (hs : P s) :
    P (completeTransfer key sb f s) := by
  unfold Machine.completeTransfer; split
  · exact hs
  · split
    · exact hs
    · split
      · exact h.raise _ _ (h.abandon key hs)
      · exact h.sequenceTransfer key sb _ hs

theorem anonymousTransfer (h : ReassemblyClosed P) (sb : Subscription) (f : Frame) (hs : P s) :
    P (anonymousTransfer sb f s) := by
  unfold Machine.anonymousTransfer; split
  · exact h.raise _ _ hs
  · split
    · exact h.raise _ _ hs
    · rename_i halloc
      obtain ⟨_, rfl⟩ := poolAlloc_eq_some.1 halloc
      exact h.handOver _ _ (h.poolFree _ s hs)

theorem sessionTransfer (h : ReassemblyClosed P) (key : Nat) (sb : Subscription) (f : Frame) (hs : P s) :
    P (sessionTransfer key sb f s) := by
  have hage : P (ageOut key sb.timeout f s) := h.forgetLast _ _ _ (h.ageTransfer _ _ _ hs)
  have hgate : P (gateState (if f.sot then startTransfer key sb.extent f (ageOut key sb.timeout f s)
      else Machine.continueTransfer key sb.extent f (ageOut key sb.timeout f s))) := by
    split
    · exact h.openTransfer _ _ _ (h.preempt key hage)
    · exact h.continueTransfer _ _ _ hage
  unfold Machine.sessionTransfer
  dsimp only
  split <;> rename_i heq <;> rw [heq] at hgate
  · exact hgate
  · exact h.completeTransfer _ _ _ (h.accumulate _ _ hgate)

/-- Steps 1 to 9 of `PROCESS_FRAME` keep the property. -/
theorem reassemble (h : ReassemblyClosed P) (f : Frame) (hs : P s) : P (reassemble f s) := by
  unfold Machine.reassemble; split
  · exact h.raise _ _ hs
  · split
    · exact h.raise _ _ hs
    · split
      · exact h.anonymousTransfer _ _ hs
      · exact h.sessionTransfer _ _ _ hs

end ReassemblyClosed

/-! ## Counters, clock, table and parameters -/

/-- What (I-6), (I-7) and the fixed parameters speak of. -/
structure Monitored where
  params : Params
  now : Time
  dropped : Count
  decodeErr : Count
  timeouts : Count
  started : Bool
  sub : List (Option Subscription)

/-- These fields of a state. -/
def monitored (s : State) : Monitored where
  params := s.params
  now := s.now
  dropped := s.dropped
  decodeErr := s.decodeErr
  timeouts := s.sup.timeouts
  started := s.started
  sub := s.sub

/-- The parameters are the same, the clock and the counters no lower, and a started table is as it was. -/
structure Monitored.Advances (a b : Monitored) : Prop where
  params : b.params = a.params
  now : a.now ≤ b.now
  dropped : a.dropped ≤ b.dropped
  decodeErr : a.decodeErr ≤ b.decodeErr
  timeouts : a.timeouts ≤ b.timeouts
  table : a.started = true → b.started = true ∧ b.sub = a.sub

theorem Monitored.Advances.refl (a : Monitored) : a.Advances a :=
  ⟨rfl, BitVec.le_refl _, BitVec.le_refl _, BitVec.le_refl _, BitVec.le_refl _, fun h => ⟨h, rfl⟩⟩

/-- The property of all states that the fields of `m` may advance to. -/
def AdvancedFrom (m : Monitored) (s : State) : Prop := m.Advances (monitored s)

namespace AdvancedFrom

variable {m : Monitored} {s : State}

theorem decodeErr_satInc (h : AdvancedFrom m s) : AdvancedFrom m { s with decodeErr := satInc s.decodeErr } :=
  { h with decodeErr := BitVec.le_trans h.decodeErr (le_satInc _) }

theorem dropped_satInc (h : AdvancedFrom m s) : AdvancedFrom m { s with dropped := satInc s.dropped } :=
  { h with dropped := BitVec.le_trans h.dropped (le_satInc _) }

theorem raiseError (h : AdvancedFrom m s) (e : ErrorClass) : AdvancedFrom m (raiseError e s) := by
  have hdropped : s.dropped ≤ (Machine.raiseError e s).dropped := by
    rw [raiseError_dropped]; split
    · exact le_satInc _
    · exact BitVec.le_refl _
  have hdecode : s.decodeErr ≤ (Machine.raiseError e s).decodeErr := by
    rw [raiseError_decodeErr]; split
    · exact le_satInc _
    · exact BitVec.le_refl _
  exact
    { params := (raiseError_params e s).trans h.params
      now := by simpa [monitored] using h.now
      dropped := BitVec.le_trans h.dropped hdropped
      decodeErr := BitVec.le_trans h.decodeErr hdecode
      timeouts := by simpa [monitored] using h.timeouts
      table := by simpa [monitored] using h.table }

/-- Before `START` the table is free to change. -/
theorem of_not_started {t : State} (h : AdvancedFrom m s) (hs : s.started = false) (hp : t.params = s.params)
    (hn : t.now = s.now) (hd : t.dropped = s.dropped) (he : t.decodeErr = s.decodeErr) (hsup : t.sup = s.sup) :
    AdvancedFrom m t where
  params := hp.trans h.params
  now := by simpa [monitored, hn] using h.now
  dropped := by simpa [monitored, hd] using h.dropped
  decodeErr := by simpa [monitored, he] using h.decodeErr
  timeouts := by simpa [monitored, hsup] using h.timeouts
  table hm := absurd ((h.table hm).1.symm.trans hs) (by decide)

theorem tick (h : AdvancedFrom m s) {n : Nat} (hn : s.now.toNat + n < 2 ^ 64) :
    AdvancedFrom m { s with now := BitVec.ofNat 64 (s.now.toNat + n) } := by
  have hle : s.now ≤ BitVec.ofNat 64 (s.now.toNat + n) := by
    rw [BitVec.le_def, BitVec.toNat_ofNat, Nat.mod_eq_of_lt hn]; omega
  exact { h with now := BitVec.le_trans h.now hle }

theorem superviseMode (h : AdvancedFrom m s) : AdvancedFrom m (superviseMode s) := by
  unfold Machine.superviseMode; split
  · refine AdvancedFrom.raiseError ?_ _
    refine { h with timeouts := ?_ }
    cases hmode : s.sup.mode
    · exact BitVec.le_trans h.timeouts (le_satInc _)
    · exact h.timeouts
  · exact h

theorem applyCommand (h : AdvancedFrom m s) : AdvancedFrom m (applyCommand s) := by
  have hsup : AdvancedFrom m (Machine.superviseMode (emit .apply s)) := superviseMode h
  unfold Machine.applyCommand presentOutput
  split <;> exact hsup

theorem acceptCommand (h : AdvancedFrom m s) (role : CommandRole) (payload : List Byte) (ts : Time) :
    AdvancedFrom m (acceptCommand role payload ts s) := by
  unfold Machine.acceptCommand
  cases role with
  | servo i =>
    dsimp only; split
    · exact h.raiseError _
    · exact h
    · exact h
  | pump =>
    dsimp only; split
    · exact h.raiseError _
    · exact h
  | readiness =>
    dsimp only; split
    · exact h.raiseError _
    · exact h

end AdvancedFrom

theorem reassemblyClosed_advancedFrom (m : Monitored) : ReassemblyClosed (AdvancedFrom m) where
  raise e _ h := h.raiseError e
  putSession _ _ _ h := h
  poolFree _ _ h := h
  handOver _ _ h := h

theorem AdvancedFrom.releaseDelivery {m : Monitored} {s : State} (h : AdvancedFrom m s) (d : Delivery) :
    AdvancedFrom m (releaseDelivery d s) := by
  unfold Machine.releaseDelivery; split
  · exact (reassemblyClosed_advancedFrom m).abandon _ h
  · exact h

/-- Every single update of the machine but `INIT` advances these fields or leaves them. -/
theorem closed_advancedFrom (m : Monitored) : Closed (AdvancedFrom m) where
  log _ _ h := h
  schedule _ _ h := h
  freeCount _ _ h := h
  decodeErr _ h := h.decodeErr_satInc
  dropped _ h := h.dropped_satInc
  subscribe _ _ _ h hs _ _ := h.of_not_started hs rfl rfl rfl rfl rfl
  start _ h hs _ := h.of_not_started hs rfl rfl rfl rfl rfl
  store _ _ h _ _ := h
  pulled _ _ _ h _ := h
  wake _ _ h := h
  pop _ _ _ h _ := h
  unpop _ h := h
  reassemble _ f h _ := (reassemblyClosed_advancedFrom m).reassemble f h
  accept _ role payload ts h := h.acceptCommand role payload ts
  enqueue _ _ h _ _ := h
  release _ d h _ := h.releaseDelivery d
  sent _ _ _ h _ := h
  mailbox _ _ h := h
  apply _ h := h.applyCommand
  tick _ _ h hn := h.tick hn
  bus _ _ h := h
  toDrainRx _ h _ := h
  toDrainTx _ h _ _ := h
  toApply _ h _ := h
  toWait _ h _ := h
  midPhase _ h _ := h

/-- A step advances the monitored fields, or it is an `INIT` that was issued. -/
theorem step_advances_or_init {s t : State} (h : step s = .next t) :
    AdvancedFrom (monitored s) t
      ∨ ∃ p rest left, nextMoves s = .issue p :: rest ∧ decode p = .ok (.init, left)
        ∧ t = initState { s with schedule := afterFetch p.fmt left rest } := by
  have hc := closed_advancedFrom (monitored s)
  have hself : ∀ l, AdvancedFrom (monitored s) { s with schedule := l } := fun l =>
    hc.schedule s l (.refl (monitored s))
  cases hm : nextMoves s with
  | nil => rw [step_of_empty hm] at h; exact .inl (hc.taskStep (.refl (monitored s)) h)
  | cons move rest =>
    cases move with
    | task => rw [step_of_task hm] at h; exact .inl (hc.taskStep (hself rest) h)
    | issue p =>
      cases hd : decode p with
      | error e => rw [step_of_undecodable hm hd] at h; cases h
      | ok r =>
        obtain ⟨i, left⟩ := r
        rw [step_of_issue hm hd] at h
        by_cases hi : i = .init
        · subst hi
          exact .inr ⟨p, rest, left, rfl, hd, exec_init_eq_next h⟩
        · exact .inl (hc.exec (hself _) (fun hinit => absurd hinit hi) h)

/-- Settles O60: by the updates of a step, with `INIT` apart. -/
theorem countersTableParameters : Obligations.CountersTableParameters := by
  intro s t h
  rcases step_advances_or_init h with ha | ⟨p, rest, left, hm, hd, rfl⟩
  · exact ⟨ha.params, ha.now, .inl ⟨ha.dropped, ha.decodeErr, ha.timeouts, ha.table⟩⟩
  · exact ⟨rfl, BitVec.le_refl _, .inr ⟨p, rest, left, hm, hd, rfl, rfl, rfl, rfl⟩⟩

end Sys2Proof.Proofs
end

section
/-! PROOFS. The queues stay bounded and in order: (I-1), (I-2), (I-3) (R24, R35, R40, R117). -/

namespace Sys2Proof.Proofs

open Sys2Proof.Machine Sys2Proof.Laws

/-! ## What the command state and the supervisor write -/

/-- A delivered message reaches the command state, the count of decode errors, the trace and the free values, nothing else
(R204, R232). -/
theorem acceptCommand_eq (role : CommandRole) (payload : List Byte) (ts : Time) (s : State) :
    ∃ sup decodeErr log freeCount, acceptCommand role payload ts s
      = { s with sup := sup, decodeErr := decodeErr, log := log, freeCount := freeCount } := by
  cases role with
  | servo i =>
    unfold acceptCommand; dsimp only; split
    · exact ⟨_, _, _, _, raiseError_codecError s⟩
    · exact ⟨_, _, _, _, rfl⟩
    · exact ⟨_, _, _, _, rfl⟩
  | pump =>
    unfold acceptCommand; dsimp only; split
    · exact ⟨_, _, _, _, raiseError_codecError s⟩
    · exact ⟨_, _, _, _, rfl⟩
  | readiness =>
    unfold acceptCommand; dsimp only; split
    · exact ⟨_, _, _, _, raiseError_codecError s⟩
    · exact ⟨_, _, _, _, rfl⟩

/-- `APPLY` writes the supervisor and the trace, nothing else (R205). -/
theorem applyCommand_eq (s : State) : ∃ sup log, applyCommand s = { s with sup := sup, log := log } := by
  unfold applyCommand presentOutput superviseMode
  split <;> split <;> exact ⟨_, _, rfl⟩

/-! ## The queues -/

theorem length_insertItem (e : Item) (q : List Item) : (insertItem e q).length = q.length + 1 := by
  have hk : q.countP (fun x => decide (x.prio ≤ e.prio)) ≤ q.length := List.countP_le_length
  simp only [insertItem, List.length_append, List.length_take, List.length_cons, List.length_drop]
  omega

theorem sorted_insertItem (e : Item) {q : List Item} (h : q.Pairwise fun a b => a.prio ≤ b.prio) :
    (insertItem e q).Pairwise fun a b => a.prio ≤ b.prio := by
  rw [insertItem_of_sorted e h, List.pairwise_append, List.pairwise_cons]
  refine ⟨h.filter _, ⟨fun x hx => ?behind, h.filter _⟩, fun x hx y hy => ?before⟩
  case behind =>
    have hlt : e.prio < x.prio := by simpa using List.of_mem_filter hx
    exact BitVec.le_of_lt hlt
  case before =>
    have hxe : x.prio ≤ e.prio := by simpa using List.of_mem_filter hx
    rcases List.mem_cons.1 hy with rfl | hy
    · exact hxe
    · have hey : e.prio < y.prio := by simpa using List.of_mem_filter hy
      exact BitVec.le_trans hxe (BitVec.le_of_lt hey)

/-- (I-1), (I-2) and (I-3) together. -/
def QueuesOrdered (s : State) : Prop := rxqBounded s ∧ rxqOrdered s ∧ txqOrdered s

namespace QueuesOrdered

variable {s : State}

/-- The invariants read the parameters, the clock and the two queues only. -/
theorem congr {t : State} (h : QueuesOrdered s) (hp : t.params = s.params) (hn : t.now = s.now) (hr : t.rxq = s.rxq)
    (hx : t.txq = s.txq) : QueuesOrdered t := by
  simpa only [QueuesOrdered, rxqBounded, rxqOrdered, txqOrdered, hp, hn, hr, hx] using h

/-- The interrupt stores behind frames that are no younger (R111, R117). -/
theorem store (h : QueuesOrdered s) {r : BusFrame} (hl : r.data.length ≤ 64) (hc : s.rxq.length ≠ s.params.rxqCap) :
    QueuesOrdered { s with rxq := s.rxq ++ [{ id := r.id, data := r.data, ts := s.now }] } := by
  obtain ⟨⟨hcap, hmtu⟩, ⟨hsorted, hpast⟩, hout⟩ := h
  refine ⟨⟨?_, ?_⟩, ⟨?_, ?_⟩, hout⟩
  · simp only [List.length_append, List.length_singleton]; omega
  · simpa [or_imp, forall_and] using ⟨hmtu, hl⟩
  · simpa [List.pairwise_append] using ⟨hsorted, hpast⟩
  · simpa [or_imp, forall_and] using hpast

theorem pop (h : QueuesOrdered s) {f : Frame} {rest : List Frame} (hq : s.rxq = f :: rest) :
    QueuesOrdered { s with rxq := rest, popped := some f } := by
  obtain ⟨⟨hcap, hmtu⟩, ⟨hsorted, hpast⟩, hout⟩ := h
  rw [hq] at hcap hmtu hsorted hpast
  exact ⟨⟨Nat.le_of_succ_le hcap, fun g hg => hmtu g (List.mem_cons_of_mem _ hg)⟩,
    ⟨hsorted.of_cons, fun g hg => hpast g (List.mem_cons_of_mem _ hg)⟩, hout⟩

theorem tick (h : QueuesOrdered s) {n : Nat} (hn : s.now.toNat + n < 2 ^ 64) :
    QueuesOrdered { s with now := BitVec.ofNat 64 (s.now.toNat + n) } := by
  have hle : s.now ≤ BitVec.ofNat 64 (s.now.toNat + n) := by
    rw [BitVec.le_def, BitVec.toNat_ofNat, Nat.mod_eq_of_lt hn]; omega
  obtain ⟨hbound, ⟨hsorted, hpast⟩, hout⟩ := h
  exact ⟨hbound, ⟨hsorted, fun g hg => BitVec.le_trans (hpast g hg) hle⟩, hout⟩

/-- `ENQUEUE` puts an item between those of its own and higher priorities and the rest (R160, R161). -/
theorem enqueue (h : QueuesOrdered s) (e : Item) (hc : s.txq.length ≠ s.params.txqCap) :
    QueuesOrdered { s with poolFree := s.poolFree - 1, txq := insertItem e s.txq } := by
  obtain ⟨hbound, hord, hcap, hsorted⟩ := h
  have hlen : (insertItem e s.txq).length = s.txq.length + 1 := length_insertItem e s.txq
  refine ⟨hbound, hord, ?_, sorted_insertItem e hsorted⟩
  show (insertItem e s.txq).length ≤ s.params.txqCap
  omega

theorem sent (h : QueuesOrdered s) {e : Item} {rest : List Item} (hq : s.txq = e :: rest) :
    QueuesOrdered { s with txq := rest, poolFree := s.poolFree + 1 } := by
  obtain ⟨hbound, hord, hcap, hsorted⟩ := h
  rw [hq] at hcap hsorted
  exact ⟨hbound, hord, Nat.le_of_succ_le hcap, hsorted.of_cons⟩

theorem raiseError (h : QueuesOrdered s) (e : ErrorClass) : QueuesOrdered (raiseError e s) :=
  h.congr (raiseError_params e s) (raiseError_now e s) (raiseError_rxq e s) (raiseError_txq e s)

theorem reassemblyClosed : ReassemblyClosed QueuesOrdered where
  raise e _ h := h.raiseError e
  putSession _ _ _ h := h
  poolFree _ _ h := h
  handOver _ _ h := h

theorem releaseDelivery (h : QueuesOrdered s) (d : Delivery) : QueuesOrdered (releaseDelivery d s) := by
  unfold Machine.releaseDelivery; split
  · exact reassemblyClosed.abandon _ h
  · exact h

theorem acceptCommand (h : QueuesOrdered s) (role : CommandRole) (payload : List Byte) (ts : Time) :
    QueuesOrdered (acceptCommand role payload ts s) := by
  obtain ⟨_, _, _, _, heq⟩ := acceptCommand_eq role payload ts s
  rw [heq]; exact h

theorem applyCommand (h : QueuesOrdered s) : QueuesOrdered (applyCommand s) := by
  obtain ⟨_, _, heq⟩ := applyCommand_eq s
  rw [heq]; exact h

/-- After `INIT` both queues are empty (R41). -/
theorem initState (s : State) : QueuesOrdered (initState s) :=
  ⟨⟨Nat.zero_le _, List.forall_mem_nil _⟩, ⟨.nil, List.forall_mem_nil _⟩, Nat.zero_le _, .nil⟩

/-- Every single update of the machine but `INIT` keeps both queues bounded and in order. -/
theorem closed : Closed QueuesOrdered where
  log _ _ h := h
  schedule _ _ h := h
  freeCount _ _ h := h
  decodeErr _ h := h
  dropped _ h := h
  subscribe _ _ _ h _ _ _ := h
  start _ h _ _ := h
  store _ _ h hl hc := h.store hl hc
  pulled _ _ _ h _ := h
  wake _ _ h := h
  pop _ _ _ h hq := h.pop hq
  unpop _ h := h
  reassemble _ f h _ := reassemblyClosed.reassemble f h
  accept _ role payload ts h := h.acceptCommand role payload ts
  enqueue _ e h hc _ := h.enqueue e hc
  release _ d h _ := h.releaseDelivery d
  sent _ _ _ h hq := h.sent hq
  mailbox _ _ h := h
  apply _ h := h.applyCommand
  tick _ _ h hn := h.tick hn
  bus _ _ h := h
  toDrainRx _ h _ := h
  toDrainTx _ h _ _ := h
  toApply _ h _ := h
  toWait _ h _ := h
  midPhase _ h _ := h

end QueuesOrdered

/-- Settles O54: every single update of a step keeps the three invariants. -/
theorem queueInvariantsKept : Obligations.QueueInvariantsKept := by
  intro s t hb ho hx hstep
  exact QueuesOrdered.closed.step ⟨hb, ho, hx⟩ (fun u _ _ => .initState u) hstep

end Sys2Proof.Proofs
end

section
/-! PROOFS. The pool equation: every buffer is free, or held by a session, an outbound item or an anonymous delivery (R34, R40,
R66). With it, how steps 1 to 9 of `PROCESS_FRAME` open and end the transfers in progress (R132 to R141). -/

namespace Sys2Proof.Proofs

open Sys2Proof.Machine Sys2Proof.Laws

/-! ## Sessions -/

theorem session_putSession_same {s : State} (hw : sessWf s.sess = true) (key : Nat) (v : Session) :
    (putSession key v s).session key = v := sessGet_sessSet_same hw key v

theorem session_putSession_other {k key : Nat} (h : k ≠ key) (v : Session) (s : State) :
    (putSession key v s).session k = s.session k := sessGet_sessSet_other h v

/-- How step 5 ends for a start frame, no transfer being in progress (R137). -/
theorem openTransfer_cases (key extent : Nat) (f : Frame) (s : State) :
    (∃ e, openTransfer key extent f s = .done (raiseError e s))
    ∨ (f.pl.length ≤ startLimit s.params extent f ∧ 0 < s.poolFree
      ∧ openTransfer key extent f s = .more (putSession key
        { s.session key with cur := some (openReassembly s.params f) } { s with poolFree := s.poolFree - 1 })) := by
  unfold openTransfer
  split
  · exact .inl ⟨_, rfl⟩
  · rename_i hfit
    split
    · exact .inl ⟨_, rfl⟩
    · rename_i halloc
      obtain ⟨hpos, rfl⟩ := poolAlloc_eq_some.1 halloc
      exact .inr ⟨Nat.not_lt.1 hfit, hpos, rfl⟩

/-- How step 5 ends for a continuation frame (R138). -/
theorem continueTransfer_cases (key extent : Nat) (f : Frame) (s : State) :
    (∃ e, continueTransfer key extent f s = .done (raiseError e s))
    ∨ (∃ e, continueTransfer key extent f s = .done (raiseError e (abandon key s)))
    ∨ ∃ r, (s.session key).cur = some r ∧ r.buf.length + f.pl.length ≤ extent + s.params.crcBytes
      ∧ continueTransfer key extent f s = .more s := by
  unfold continueTransfer
  split
  · exact .inl ⟨_, rfl⟩
  · rename_i r hcur
    split
    · exact .inl ⟨_, rfl⟩
    · split
      · exact .inr (.inl ⟨_, rfl⟩)
      · rename_i hfit; exact .inr (.inr ⟨r, hcur, Nat.not_lt.1 hfit, rfl⟩)

/-- How steps 7 to 9 end (R140, R141): the transfer stays in progress, ends, or becomes the due delivery of its session. -/
theorem completeTransfer_cases (key : Nat) (sb : Subscription) (f : Frame) (s : State) :
    ((f.eot = false ∨ (s.session key).cur = none) ∧ completeTransfer key sb f s = s)
    ∨ (∃ e, completeTransfer key sb f s = raiseError e (abandon key s))
    ∨ ∃ d l, d.holder = some key
      ∧ completeTransfer key sb f s = handOver d (putSession key { s.session key with last := some l } s) := by
  unfold completeTransfer
  split
  · rename_i he; exact .inl ⟨.inl (by simpa using he), rfl⟩
  · split
    · rename_i hc; exact .inl ⟨.inr hc, rfl⟩
    · split
      · exact .inr (.inl ⟨_, rfl⟩)
      · unfold sequenceTransfer
        split
        · exact .inr (.inl ⟨_, rfl⟩)
        · exact .inr (.inr ⟨_, _, rfl, rfl⟩)

/-- A property that ageing, and ending a transfer in progress, keep. -/
structure TransferEndClosed (P : State → Prop) : Prop where
  raise : ∀ e s, P s → P (raiseError e s)
  abandon : ∀ key s, P s → P (abandon key s)
  forget : ∀ key s, P s → P (putSession key { s.session key with last := none } s)

namespace TransferEndClosed

variable {P Q : State → Prop} {s : State}

theorem ageOut (h : TransferEndClosed P) (key : Nat) (timeout : Time) (f : Frame) (hs : P s) :
    P (ageOut key timeout f s) := by
  have hage : P (ageTransfer key timeout f s) := by
    unfold ageTransfer; split
    · exact hs
    · split
      · exact h.raise _ _ (h.abandon key s hs)
      · exact hs
  unfold Machine.ageOut forgetLast
  split
  · split
    · exact h.forget _ _ hage
    · exact hage
  all_goals exact hage

/-- A start frame finds no transfer in progress, once the old one is pre-empted (R137). -/
theorem preempt (h : TransferEndClosed P) (hw : ∀ s, P s → sessWf s.sess = true) (key : Nat) (hs : P s) :
    P (preempt key s) ∧ ((Machine.preempt key s).session key).cur = none := by
  unfold Machine.preempt
  split
  · rename_i hc; exact ⟨hs, hc⟩
  · rename_i r hc
    refine ⟨h.raise _ _ (h.abandon key s hs), ?_⟩
    simp [State.session, raiseError_sess, abandon_of_active hc, sessGet_sessSet_same (hw s hs)]

/-- Steps 4 to 9 (R136 to R141), where `P` holds with no transfer newly opened: what is left to show is a start frame that opens
one and a continuation frame that goes on with one. -/
theorem sessionTransfer (h : TransferEndClosed P) (hw : ∀ s, P s → sessWf s.sess = true) (hPQ : ∀ s, P s → Q s)
    {key : Nat} {sb : Subscription} {f : Frame}
    (hopen : ∀ s, P s → (s.session key).cur = none → f.pl.length ≤ startLimit s.params sb.extent f → 0 < s.poolFree →
      Q (completeTransfer key sb f (accumulate key f (putSession key
        { s.session key with cur := some (openReassembly s.params f) } { s with poolFree := s.poolFree - 1 }))))
    (hcontinue : ∀ s r, P s → (s.session key).cur = some r → r.buf.length + f.pl.length ≤ sb.extent + s.params.crcBytes →
      Q (completeTransfer key sb f (accumulate key f s)))
    (hs : P s) : Q (sessionTransfer key sb f s) := by
  have hage := h.ageOut key sb.timeout f hs
  cases hsot : f.sot with
  | true =>
    obtain ⟨hpre, hnone⟩ := h.preempt hw key hage
    simp only [Machine.sessionTransfer, hsot, if_true, startTransfer]
    rcases openTransfer_cases key sb.extent f _ with ⟨e, heq⟩ | ⟨hfit, hpos, heq⟩ <;> rw [heq]
    · exact hPQ _ (h.raise e _ hpre)
    · exact hopen _ hpre hnone hfit hpos
  | false =>
    simp only [Machine.sessionTransfer, hsot, Bool.false_eq_true, if_false]
    rcases continueTransfer_cases key sb.extent f _ with ⟨e, heq⟩ | ⟨e, heq⟩ | ⟨r, hcur, hfit, heq⟩ <;> rw [heq]
    · exact hPQ _ (h.raise e _ hage)
    · exact hPQ _ (h.raise e _ (h.abandon key _ hage))
    · exact hcontinue _ r hage hcur hfit

end TransferEndClosed

/-! ## The pool -/

/-- The buffer that a session holds (R34). -/
def buffersOf (v : Session) : Nat := if v.cur.isSome then 1 else 0

theorem buffersOf_of_cur {v w : Session} (h : v.cur.isSome = w.cur.isSome) : buffersOf v = buffersOf w := by
  simp [buffersOf, h]

theorem activeCount_cons (k : Nat) (v : Session) (t : SessTable) :
    activeCount ((k, v) :: t) = activeCount t + buffersOf v := by
  simp [activeCount, buffersOf, List.countP_cons]

/-- A write to a session changes the buffers held by what that session holds before and after. -/
theorem activeCount_sessSet {t : SessTable} (h : sessWf t = true) (k : Nat) (v : Session) :
    activeCount (sessSet t k v) + buffersOf (sessGet t k) = activeCount t + buffersOf v := by
  have hreset : ∀ u : Session, u = {} → buffersOf u = 0 := by rintro _ rfl; rfl
  induction t with
  | nil =>
    unfold sessSet
    split <;> rename_i hv <;> simp [activeCount_cons, hreset, hv]
  | cons e t ih =>
    obtain ⟨k', v'⟩ := e
    obtain ⟨_, habove, ht⟩ := sessWf_cons.1 h
    rcases Nat.lt_trichotomy k k' with hlt | rfl | hgt
    · have hget : sessGet ((k', v') :: t) k = {} :=
        sessGet_of_keysAbove (keysAbove_cons.2 ⟨hlt, keysAbove_of_lt hlt habove⟩)
      by_cases hv : v = {} <;> simp [sessSet, hlt, hv, hget, activeCount_cons, hreset]
    · by_cases hv : v = {}
      · simp [sessSet, sessGet, hv, activeCount_cons, hreset]
      · simp [sessSet, sessGet, hv, activeCount_cons]; omega
    · have hne : ¬ k = k' := by omega
      have := ih ht
      simp only [sessSet, sessGet, Nat.not_lt.2 hgt.le, hne, if_false, activeCount_cons]
      omega

/-- A write to a session keeps the pool equation when the pool gives or takes the buffer that the session gains or loses. -/
theorem poolBalanced_putSession {s : State} (h : poolBalanced s) {key n : Nat} {v : Session}
    (hn : n + buffersOf v = s.poolFree + buffersOf (s.session key)) :
    poolBalanced (putSession key v { s with poolFree := n }) := by
  obtain ⟨hw, heq⟩ := h
  have hcount := activeCount_sessSet hw key v
  refine ⟨sessWf_sessSet hw key v, ?_⟩
  simp only [putSession, anonymousInProgress, State.session] at heq hn ⊢
  omega

/-- A write that leaves the transfer in progress where it is takes no buffer. -/
theorem poolBalanced_putSession_of_cur {s : State} (h : poolBalanced s) {key : Nat} {v : Session}
    (hv : v.cur.isSome = (s.session key).cur.isSome) : poolBalanced (putSession key v s) :=
  poolBalanced_putSession h (n := s.poolFree) (by rw [buffersOf_of_cur hv])

theorem poolBalanced_raiseError {s : State} (h : poolBalanced s) (e : ErrorClass) : poolBalanced (raiseError e s) := by
  simpa [poolBalanced, anonymousInProgress] using h

/-- The buffer of an abandoned transfer goes back (R143). -/
theorem poolBalanced_abandon {s : State} (h : poolBalanced s) (key : Nat) : poolBalanced (abandon key s) := by
  unfold abandon
  split
  · exact h
  · rename_i r hcur
    exact poolBalanced_putSession h (by simp [buffersOf, hcur])

/-- With no delivery due, the buffer of the due delivery is its session's (R66). -/
theorem poolBalanced_handOver {s : State} (h : poolBalanced s) (hd : s.delivering = none) {d : Delivery}
    (hk : d.holder ≠ none) : poolBalanced (handOver d s) := by
  simpa [poolBalanced, anonymousInProgress, handOver, hd, hk] using h

theorem poolBalanced_accumulate {s : State} (h : poolBalanced s) (key : Nat) (f : Frame) :
    poolBalanced (accumulate key f s) := by
  unfold accumulate
  split
  · exact h
  · rename_i r hcur; exact poolBalanced_putSession_of_cur h (by simp [hcur])

theorem poolBalanced_completeTransfer {s : State} (h : poolBalanced s) (hd : s.delivering = none) (key : Nat)
    (sb : Subscription) (f : Frame) : poolBalanced (completeTransfer key sb f s) := by
  rcases completeTransfer_cases key sb f s with ⟨_, heq⟩ | ⟨e, heq⟩ | ⟨d, l, hk, heq⟩ <;> rw [heq]
  · exact h
  · exact poolBalanced_raiseError (poolBalanced_abandon h key) e
  · have hput := poolBalanced_putSession_of_cur h (key := key) (v := { s.session key with last := some l }) rfl
    exact poolBalanced_handOver hput hd (by simp [hk])

/-- The pool equation with no delivery due. -/
def poolBalancedIdle (s : State) : Prop := poolBalanced s ∧ s.delivering = none

theorem transferEndClosed_poolBalanced : TransferEndClosed poolBalancedIdle where
  raise e s h := ⟨poolBalanced_raiseError h.1 e, (raiseError_delivering e s).trans h.2⟩
  abandon key s h := ⟨poolBalanced_abandon h.1 key, (abandon_delivering key s).trans h.2⟩
  forget _ _ h := ⟨poolBalanced_putSession_of_cur h.1 rfl, h.2⟩

theorem accumulate_delivering (key : Nat) (f : Frame) (s : State) : (accumulate key f s).delivering = s.delivering := by
  unfold accumulate; split <;> rfl

theorem poolBalanced_sessionTransfer {s : State} (h : poolBalancedIdle s) (key : Nat) (sb : Subscription) (f : Frame) :
    poolBalanced (sessionTransfer key sb f s) := by
  refine transferEndClosed_poolBalanced.sessionTransfer (fun s hs => hs.1.1) (fun s hs => hs.1)
    (fun s hs hnone _ hpos => ?opens) (fun s r hs _ _ => ?continues) h
  case opens =>
    have hopened := poolBalanced_putSession hs.1 (key := key) (n := s.poolFree - 1)
      (v := { s.session key with cur := some (openReassembly s.params f) })
      (by simp [buffersOf, hnone]; omega)
    exact poolBalanced_completeTransfer (poolBalanced_accumulate hopened key f)
      ((accumulate_delivering ..).trans hs.2) key sb f
  case continues =>
    exact poolBalanced_completeTransfer (poolBalanced_accumulate hs.1 key f)
      ((accumulate_delivering ..).trans hs.2) key sb f

/-- An anonymous delivery takes the buffer that R66 counts as T. -/
theorem poolBalanced_anonymousTransfer {s : State} (h : poolBalancedIdle s) (sb : Subscription) (f : Frame) :
    poolBalanced (anonymousTransfer sb f s) := by
  obtain ⟨hbal, hd⟩ := h
  unfold anonymousTransfer
  split
  · exact poolBalanced_raiseError hbal _
  · split
    · exact poolBalanced_raiseError hbal _
    · rename_i halloc
      obtain ⟨hpos, rfl⟩ := poolAlloc_eq_some.1 halloc
      obtain ⟨hw, heq⟩ := hbal
      refine ⟨hw, ?_⟩
      simp only [anonymousInProgress, hd] at heq
      simp only [handOver, anonymousInProgress, if_true]
      omega

theorem poolBalanced_reassemble {s : State} (h : poolBalancedIdle s) (f : Frame) : poolBalanced (reassemble f s) := by
  unfold reassemble
  split
  · exact poolBalanced_raiseError h.1 _
  · split
    · exact poolBalanced_raiseError h.1 _
    · split
      · exact poolBalanced_anonymousTransfer h _ f
      · exact poolBalanced_sessionTransfer h _ _ f

/-- The buffer of a delivery goes back after the handler has returned, the session's or T's (R66, R143). -/
theorem poolBalanced_releaseDelivery {s : State} (h : poolBalanced s) {d : Delivery} (hd : s.delivering = some d) :
    poolBalanced (releaseDelivery d s) := by
  unfold releaseDelivery
  split
  · rename_i key hk
    have habandon := poolBalanced_abandon h key
    simpa [poolBalanced, anonymousInProgress, hd, hk] using habandon
  · rename_i hk
    obtain ⟨hw, heq⟩ := h
    refine ⟨hw, ?_⟩
    simp only [anonymousInProgress, hd, hk, if_true] at heq
    simp only [poolFreeOne, anonymousInProgress]
    omega

theorem poolBalanced_enqueue {s : State} (h : poolBalanced s) (e : Item) (hpos : 0 < s.poolFree) :
    poolBalanced { s with poolFree := s.poolFree - 1, txq := insertItem e s.txq } := by
  obtain ⟨hw, heq⟩ := h
  refine ⟨hw, ?_⟩
  simp only [anonymousInProgress, length_insertItem] at heq ⊢
  omega

theorem poolBalanced_sent {s : State} (h : poolBalanced s) {e : Item} {rest : List Item} (hq : s.txq = e :: rest) :
    poolBalanced { s with txq := rest, poolFree := s.poolFree + 1 } := by
  obtain ⟨hw, heq⟩ := h
  refine ⟨hw, ?_⟩
  simp only [anonymousInProgress, hq, List.length_cons] at heq ⊢
  omega

theorem poolBalanced_acceptCommand {s : State} (h : poolBalanced s) (role : CommandRole) (payload : List Byte) (ts : Time) :
    poolBalanced (acceptCommand role payload ts s) := by
  obtain ⟨_, _, _, _, heq⟩ := acceptCommand_eq role payload ts s
  rw [heq]; exact h

theorem poolBalanced_applyCommand {s : State} (h : poolBalanced s) : poolBalanced (applyCommand s) := by
  obtain ⟨_, _, heq⟩ := applyCommand_eq s
  rw [heq]; exact h

/-- After `INIT` every buffer is free (R41). -/
theorem poolBalanced_initState (s : State) : poolBalanced (initState s) := ⟨rfl, rfl⟩

/-- Every single update of the machine but `INIT` keeps the pool equation. -/
theorem closed_poolBalanced : Closed poolBalanced where
  log _ _ h := h
  schedule _ _ h := h
  freeCount _ _ h := h
  decodeErr _ h := h
  dropped _ h := h
  subscribe _ _ _ h _ _ _ := h
  start _ h _ _ := h
  store _ _ h _ _ := h
  pulled _ _ _ h _ := h
  wake _ _ h := h
  pop _ _ _ h _ := h
  unpop _ h := h
  reassemble _ f h hd := poolBalanced_reassemble ⟨h, hd⟩ f
  accept _ role payload ts h := poolBalanced_acceptCommand h role payload ts
  enqueue _ e h _ hpos := poolBalanced_enqueue h e hpos
  release _ _ h hd := poolBalanced_releaseDelivery h hd
  sent _ _ _ h hq := poolBalanced_sent h hq
  mailbox _ _ h := h
  apply _ h := poolBalanced_applyCommand h
  tick _ _ h _ := h
  bus _ _ h := h
  toDrainRx _ h _ := h
  toDrainTx _ h _ _ := h
  toApply _ h _ := h
  toWait _ h _ := h
  midPhase _ h _ := h

/-- Settles O55: every single update of a step moves as many buffers as it must. -/
theorem poolEquationKept : Obligations.PoolEquationKept := by
  intro s t h hstep
  exact closed_poolBalanced.step h (fun u _ _ => poolBalanced_initState u) hstep

end Sys2Proof.Proofs
end

section
/-! PROOFS. `match(id)` searches the subscription table from the lowest index up (R84, R133). -/

namespace Sys2Proof.Proofs

open Sys2Proof.Machine Sys2Proof.Laws

/-- Entry `i` is valid with `sb` and matches, and no valid entry before it does. -/
def LowestMatch (id : CanId) (sub : List (Option Subscription)) (i : Nat) (sb : Subscription) : Prop :=
  sub[i]? = some (some sb) ∧ idMatches id sb.subject = true
    ∧ ∀ (j : Nat) (sb' : Subscription), j < i → sub[j]? = some (some sb') → idMatches id sb'.subject = false

theorem lowestMatch_zero {id : CanId} {e : Option Subscription} {rest : List (Option Subscription)} {sb : Subscription} :
    LowestMatch id (e :: rest) 0 sb ↔ e = some sb ∧ idMatches id sb.subject = true := by
  simp [LowestMatch]

/-- A match further on: the first entry is none, and the rest of the table has its lowest match there. -/
theorem lowestMatch_succ {id : CanId} {e : Option Subscription} {rest : List (Option Subscription)} {i : Nat}
    {sb : Subscription} :
    LowestMatch id (e :: rest) (i + 1) sb
      ↔ (∀ sb', e = some sb' → idMatches id sb'.subject = false) ∧ LowestMatch id rest i sb := by
  constructor
  · rintro ⟨hi, hm, hlow⟩
    exact ⟨fun sb' he => hlow 0 sb' (Nat.succ_pos i) (by simp [he]), by simpa using hi, hm,
      fun j sb' hj hget => hlow (j + 1) sb' (Nat.succ_lt_succ hj) (by simpa using hget)⟩
  · rintro ⟨hfirst, hi, hm, hlow⟩
    refine ⟨by simpa using hi, hm, fun j sb' hj hget => ?_⟩
    cases j with
    | zero => exact hfirst sb' (by simpa using hget)
    | succ j => exact hlow j sb' (Nat.lt_of_succ_lt_succ hj) (by simpa using hget)

theorem matchFrom_eq_some {id : CanId} {n m : Nat} {sub : List (Option Subscription)} {sb : Subscription} :
    matchFrom id n sub = some (m, sb) ↔ ∃ i, m = n + i ∧ LowestMatch id sub i sb := by
  induction sub generalizing n with
  | nil => simp [matchFrom, LowestMatch]
  | cons e rest ih =>
    rw [← Nat.or_exists_add_one]
    simp only [lowestMatch_zero, lowestMatch_succ, Nat.add_zero, ← Nat.add_assoc, Nat.add_right_comm n _ 1]
    cases e with
    | none => simp [matchFrom, ih]
    | some x =>
      cases hx : idMatches id x.subject with
      | false =>
        have hne : ¬ (x = sb ∧ idMatches id sb.subject = true) := by rintro ⟨rfl, hm⟩; simp [hx] at hm
        simp [matchFrom, hx, ih, hne]
      | true =>
        have hsame : x = sb → idMatches id sb.subject = true := by rintro rfl; exact hx
        simp [matchFrom, hx, eq_comm (a := m), and_iff_left_of_imp hsame]

theorem matchFrom_eq_none {id : CanId} {n : Nat} {sub : List (Option Subscription)} :
    matchFrom id n sub = none
      ↔ ∀ (i : Nat) (sb : Subscription), sub[i]? = some (some sb) → idMatches id sb.subject = false := by
  induction sub generalizing n with
  | nil => simp [matchFrom]
  | cons e rest ih =>
    rw [← Nat.and_forall_add_one]
    simp only [List.getElem?_cons_zero, List.getElem?_cons_succ, Option.some.injEq]
    cases e with
    | none => simp [matchFrom, ih]
    | some x => cases hx : idMatches id x.subject <;> simp [matchFrom, hx, ih]

/-- Settles O25. -/
theorem matchIsLowestIndex : Obligations.MatchIsLowestIndex := by
  refine fun sub id => ⟨fun i sb => ?_, matchFrom_eq_none⟩
  rw [matchSub, matchFrom_eq_some]
  simp [LowestMatch]

end Sys2Proof.Proofs
end

section
/-! PROOFS. The bytes of every transfer in progress stay within their bound (R40, R137, R138). -/

namespace Sys2Proof.Proofs

open Sys2Proof.Machine Sys2Proof.Laws

/-- A transfer in progress of a valid subscription has room for `n` more bytes (R137, R138). -/
def hasRoom (s : State) (key : Nat) (r : Reassembly) (n : Nat) : Prop :=
  ∃ sb, s.sub[key / 128]? = some (some sb) ∧ r.buf.length + n ≤ sb.extent + if r.multi then s.params.crcBytes else 0

theorem hasRoom.mono {s : State} {key m n : Nat} {r : Reassembly} (h : hasRoom s key r n) (hm : m ≤ n) :
    hasRoom s key r m := by
  obtain ⟨sb, hsub, hle⟩ := h
  exact ⟨sb, hsub, by omega⟩

/-- (I-5) with the sessions named in which a single-frame transfer may be in progress. -/
def boundedWith (single : Nat → Prop) (s : State) : Prop :=
  sessWf s.sess = true
    ∧ ∀ key r, (s.session key).cur = some r → hasRoom s key r 0 ∧ (r.multi = false → single key)

/-- The session whose delivery is due. -/
def holdsDelivery (s : State) (key : Nat) : Prop := ∃ d, s.delivering = some d ∧ d.holder = some key

theorem buffersBounded_iff {s : State} : buffersBounded s ↔ boundedWith (holdsDelivery s) s := Iff.rfl

section BoundedWith

variable {single single' : Nat → Prop} {s : State} {key : Nat}

theorem boundedWith_mono (h : boundedWith single s) (hs : ∀ k, single k → single' k) : boundedWith single' s := by
  obtain ⟨hw, hb⟩ := h
  exact ⟨hw, fun k r hr => ⟨(hb k r hr).1, fun hm => hs k ((hb k r hr).2 hm)⟩⟩

/-- With no single-frame transfer in progress it does not matter what is due. -/
theorem buffersBounded_of_multi (h : boundedWith (fun _ => False) s) : buffersBounded s :=
  buffersBounded_iff.2 (boundedWith_mono h fun _ => False.elim)

theorem multi_of_not_delivering (h : buffersBounded s) (hd : s.delivering = none) : boundedWith (fun _ => False) s :=
  boundedWith_mono (buffersBounded_iff.1 h) fun _ ⟨d, hdue, _⟩ => by simp [hd] at hdue

/-- A write to a session, whose transfer in progress must have its room; the others stay as they are. -/
theorem boundedWith_putSession (h : boundedWith single s) {v : Session} (hs : ∀ k, k ≠ key → single k → single' k)
    (hv : ∀ r, v.cur = some r → hasRoom s key r 0 ∧ (r.multi = false → single' key)) :
    boundedWith single' (putSession key v s) := by
  obtain ⟨hw, hb⟩ := h
  refine ⟨sessWf_sessSet hw key v, fun k r hr => ?_⟩
  by_cases hk : k = key
  · subst hk
    rw [session_putSession_same hw] at hr
    exact hv r hr
  · rw [session_putSession_other hk] at hr
    obtain ⟨hroom, hsingle⟩ := hb k r hr
    exact ⟨hroom, fun hm => hs k hk (hsingle hm)⟩

/-- What `last_tid` and `last_ts` hold does not matter. -/
theorem boundedWith_putSession_last (h : boundedWith single s) (l : Option LastAccepted) :
    boundedWith single (putSession key { s.session key with last := l } s) :=
  boundedWith_putSession h (fun _ _ hk => hk) fun r hr => h.2 key r hr

theorem boundedWith_raiseError (h : boundedWith single s) (e : ErrorClass) : boundedWith single (raiseError e s) := by
  simpa only [boundedWith, hasRoom, State.session, raiseError_sess, raiseError_sub, raiseError_params] using h

/-- An abandoned transfer is no longer in progress (R143). -/
theorem boundedWith_abandon (h : boundedWith single s) (hs : ∀ k, k ≠ key → single k → single' k) :
    boundedWith single' (abandon key s) := by
  unfold abandon
  split
  · rename_i hcur
    obtain ⟨hw, hb⟩ := h
    refine ⟨hw, fun k r hr => ⟨(hb k r hr).1, fun hm => hs k ?_ ((hb k r hr).2 hm)⟩⟩
    rintro rfl
    simp [hcur] at hr
  · exact boundedWith_putSession (s := poolFreeOne s) h hs fun r hr => by cases hr

/-- A transfer with room for the payload takes it (R139). -/
theorem boundedWith_accumulate (h : boundedWith single s) {f : Frame}
    (hroom : ∀ r, (s.session key).cur = some r → hasRoom s key r f.pl.length) :
    boundedWith single (accumulate key f s) := by
  unfold accumulate
  split
  · exact h
  · rename_i r hcur
    refine boundedWith_putSession h (fun _ _ hk => hk) fun r' hr' => ?_
    obtain rfl := Option.some.inj hr'
    obtain ⟨sb, hsub, hle⟩ := hroom r hcur
    exact ⟨⟨sb, hsub, by simpa using hle⟩, (h.2 key r hcur).2⟩

end BoundedWith

/-! ## Steps 1 to 9 of PROCESS_FRAME -/

/-- A single-frame transfer ends with its only frame, or its delivery is due (R140, R141). -/
theorem buffersBounded_completeTransfer {s : State} {key : Nat} {f : Frame}
    (h : boundedWith (fun k => k = key ∧ f.eot = true) s) (sb : Subscription) :
    buffersBounded (completeTransfer key sb f s) := by
  rcases completeTransfer_cases key sb f s with ⟨hstay, heq⟩ | ⟨e, heq⟩ | ⟨d, l, hk, heq⟩ <;> rw [heq]
  · refine ⟨h.1, fun k r hr => ⟨(h.2 k r hr).1, fun hm => ?_⟩⟩
    obtain ⟨rfl, heot⟩ := (h.2 k r hr).2 hm
    rcases hstay with hne | hnone
    · simp [heot] at hne
    · simp [hnone] at hr
  · exact buffersBounded_of_multi (boundedWith_raiseError (boundedWith_abandon h fun _ hne hk => hne hk.1) e)
  · exact boundedWith_mono (boundedWith_putSession_last h (some l)) fun k hsingle => ⟨d, rfl, hsingle.1 ▸ hk⟩

/-- Between two frames of the session `key` of `sb`: only multi-frame transfers are in progress. -/
def betweenFrames (key : Nat) (sb : Subscription) (s : State) : Prop :=
  boundedWith (fun _ => False) s ∧ s.sub[key / 128]? = some (some sb)

theorem transferEndClosed_betweenFrames (key : Nat) (sb : Subscription) : TransferEndClosed (betweenFrames key sb) where
  raise e s h := ⟨boundedWith_raiseError h.1 e, (congrArg (·[key / 128]?) (raiseError_sub e s)).trans h.2⟩
  abandon key' s h :=
    ⟨boundedWith_abandon h.1 fun _ _ => id, (congrArg (·[key / 128]?) (abandon_sub key' s)).trans h.2⟩
  forget _ _ h := ⟨boundedWith_putSession_last h.1 none, h.2⟩

theorem buffersBounded_sessionTransfer {s : State} {key : Nat} {sb : Subscription} (h : betweenFrames key sb s) (f : Frame) :
    buffersBounded (sessionTransfer key sb f s) := by
  refine (transferEndClosed_betweenFrames key sb).sessionTransfer (fun s hs => hs.1.1)
    (fun s hs => buffersBounded_of_multi hs.1) (fun s hs _ hfit _ => ?opens) (fun s r hs hcur hfit => ?continues) h
  case opens =>
    obtain ⟨hbound, hsub⟩ := hs
    have hroom : hasRoom s key (openReassembly s.params f) f.pl.length := by
      refine ⟨sb, hsub, ?_⟩
      unfold startLimit at hfit
      cases heot : f.eot <;> simpa [openReassembly, heot] using hfit
    have hopened : boundedWith (fun k => k = key ∧ f.eot = true) (putSession key
        { s.session key with cur := some (openReassembly s.params f) } { s with poolFree := s.poolFree - 1 }) := by
      refine boundedWith_putSession (s := { s with poolFree := s.poolFree - 1 }) hbound (fun _ _ => False.elim)
        fun r hr => ?_
      obtain rfl := Option.some.inj hr
      exact ⟨hroom.mono (Nat.zero_le _), fun hm => ⟨rfl, by simpa [openReassembly] using hm⟩⟩
    refine buffersBounded_completeTransfer (boundedWith_accumulate hopened fun r hr => ?_) sb
    rw [session_putSession_same (s := { s with poolFree := s.poolFree - 1 }) hbound.1] at hr
    obtain rfl := Option.some.inj hr
    exact hroom
  case continues =>
    obtain ⟨hbound, hsub⟩ := hs
    have hmulti : r.multi = true := by
      cases hm : r.multi with
      | false => exact ((hbound.2 key r hcur).2 hm).elim
      | true => rfl
    refine buffersBounded_completeTransfer (boundedWith_accumulate (boundedWith_mono hbound fun _ => False.elim)
      fun r' hr' => ?_) sb
    obtain rfl : r = r' := Option.some.inj (hcur.symm.trans hr')
    exact ⟨sb, hsub, by simpa [hmulti] using hfit⟩

theorem sessKey_div (i : Nat) (src : SourceId) : sessKey i src / 128 = i := by
  have := src.isLt; unfold sessKey; omega

theorem buffersBounded_reassemble {s : State} (h : buffersBounded s) (hd : s.delivering = none) (f : Frame) :
    buffersBounded (reassemble f s) := by
  have hmulti := multi_of_not_delivering h hd
  have hraise : ∀ e, buffersBounded (raiseError e s) := fun e => buffersBounded_of_multi (boundedWith_raiseError hmulti e)
  unfold reassemble
  split
  · exact hraise _
  · rename_i i sb hmatch
    split
    · exact hraise _
    · split
      · unfold anonymousTransfer
        split
        · exact hraise _
        · split
          · exact hraise _
          · rename_i halloc
            obtain ⟨_, rfl⟩ := poolAlloc_eq_some.1 halloc
            exact buffersBounded_of_multi hmulti
      · obtain ⟨hvalid, _⟩ := ((matchIsLowestIndex s.sub f.id).1 i sb).1 hmatch
        exact buffersBounded_sessionTransfer ⟨hmulti, by rw [sessKey_div]; exact hvalid⟩ f

/-! ## The other updates -/

/-- The handler has returned, and its transfer has ended (R143). -/
theorem buffersBounded_releaseDelivery {s : State} (h : buffersBounded s) {d : Delivery} (hd : s.delivering = some d) :
    buffersBounded (releaseDelivery d s) := by
  have hdue : ∀ k, holdsDelivery s k → d.holder = some k := fun k ⟨d', hd', hk⟩ => by
    obtain rfl : d = d' := Option.some.inj (hd.symm.trans hd')
    exact hk
  unfold releaseDelivery
  split
  · rename_i key hk
    refine buffersBounded_of_multi (s := { abandon key s with delivering := none })
      (boundedWith_abandon (s := s) h fun k hne hkd => hne ?_)
    exact Option.some.inj ((hdue k hkd).symm.trans hk)
  · rename_i hk
    exact buffersBounded_of_multi (boundedWith_mono (s := s) h fun k hkd => by simp [hdue k hkd] at hk)

theorem getElem?_of_firstFree {sub : List (Option Subscription)} {i : Nat} (h : firstFree sub = some i) :
    sub[i]? = some none := by
  rw [firstFree_eq_findIdx?, List.findIdx?_eq_some_iff_getElem] at h
  obtain ⟨hlt, hnone, _⟩ := h
  rw [List.getElem?_eq_getElem hlt, Option.isNone_iff_eq_none.1 hnone]

/-- `SUBSCRIBE` fills a free entry, so every valid one stays (R130). -/
theorem buffersBounded_subscribe {s : State} (h : buffersBounded s) (sb : Subscription) {i : Nat}
    (hfree : firstFree s.sub = some i) : buffersBounded { s with sub := s.sub.set i (some sb) } := by
  refine ⟨h.1, fun key r hr => ?_⟩
  obtain ⟨⟨sb', hvalid, hle⟩, hsingle⟩ := h.2 key r hr
  have hne : i ≠ key / 128 := by
    rintro rfl
    simp [getElem?_of_firstFree hfree] at hvalid
  exact ⟨⟨sb', (List.getElem?_set_ne hne).trans hvalid, hle⟩, hsingle⟩

theorem buffersBounded_acceptCommand {s : State} (h : buffersBounded s) (role : CommandRole) (payload : List Byte)
    (ts : Time) : buffersBounded (acceptCommand role payload ts s) := by
  obtain ⟨_, _, _, _, heq⟩ := acceptCommand_eq role payload ts s
  rw [heq]; exact h

theorem buffersBounded_applyCommand {s : State} (h : buffersBounded s) : buffersBounded (applyCommand s) := by
  obtain ⟨_, _, heq⟩ := applyCommand_eq s
  rw [heq]; exact h

/-- After `INIT` no transfer is in progress (R41). -/
theorem buffersBounded_initState (s : State) : buffersBounded (initState s) := ⟨rfl, fun _ _ hr => by cases hr⟩

/-- Every single update of the machine but `INIT` keeps (I-5). -/
theorem closed_buffersBounded : Closed buffersBounded where
  log _ _ h := h
  schedule _ _ h := h
  freeCount _ _ h := h
  decodeErr _ h := h
  dropped _ h := h
  subscribe _ sb _ h _ _ hfree := buffersBounded_subscribe h sb hfree
  start _ h _ _ := h
  store _ _ h _ _ := h
  pulled _ _ _ h _ := h
  wake _ _ h := h
  pop _ _ _ h _ := h
  unpop _ h := h
  reassemble _ f h hd := buffersBounded_reassemble h hd f
  accept _ role payload ts h := buffersBounded_acceptCommand h role payload ts
  enqueue _ _ h _ _ := h
  release _ _ h hd := buffersBounded_releaseDelivery h hd
  sent _ _ _ h _ := h
  mailbox _ _ h := h
  apply _ h := buffersBounded_applyCommand h
  tick _ _ h _ := h
  bus _ _ h := h
  toDrainRx _ h _ := h
  toDrainTx _ h _ _ := h
  toApply _ h _ := h
  toWait _ h _ := h
  midPhase _ h _ := h

/-- Settles O56: every single update of a step keeps the bounds. -/
theorem bufferBoundsKept : Obligations.BufferBoundsKept := by
  intro s t h hstep
  exact closed_buffersBounded.step h (fun u _ _ => buffersBounded_initState u) hstep

end Sys2Proof.Proofs
end

section
/-! PROOFS. TASK's control position, the start-up flag and the due delivery agree (R22, R29, R131, R162, R185), and the
subscription table stays well formed (R30). -/

namespace Sys2Proof.Proofs

open Sys2Proof.Machine Sys2Proof.Laws

/-! ## The subscription table -/

/-- The entry that fills the lowest free index joins the valid ones. -/
theorem validSubs_set {sub : List (Option Subscription)} {i : Nat} (h : firstFree sub = some i) (sb : Subscription) :
    (validSubs (sub.set i (some sb))).Perm (sb :: validSubs sub) := by
  induction sub generalizing i with
  | nil => cases h
  | cons e rest ih =>
    cases e with
    | none => cases h; exact .refl _
    | some x =>
      obtain ⟨j, hj, rfl⟩ := Option.map_eq_some_iff.1 h
      exact ((ih hj).cons x).trans (.swap sb x _)

theorem subject_mem_validSubs {sub : List (Option Subscription)} {subject : Subject} :
    subject ∈ (validSubs sub).map (·.subject) ↔ subjectTaken sub subject = true := by
  simp [subjectTaken_eq_true, validSubs]

/-- `SUBSCRIBE` makes an entry of a subject not yet taken (R130). -/
theorem tableDistinct_subscribe {s : State} (h : tableDistinct s) {sb : Subscription} {i : Nat}
    (hnew : subjectTaken s.sub sb.subject = false) (hfree : firstFree s.sub = some i) :
    tableDistinct { s with sub := s.sub.set i (some sb) } := by
  obtain ⟨hlen, hnodup⟩ := h
  refine ⟨(List.length_set ..).trans hlen, ?_⟩
  rw [((validSubs_set hfree sb).map _).nodup_iff, List.map_cons, List.nodup_cons, subject_mem_validSubs]
  exact ⟨by simp [hnew], hnodup⟩

theorem validSubs_replicate_none (n : Nat) : validSubs (List.replicate n none) = [] := by
  simp [validSubs]

/-! ## The control position and the table, whatever delivery is due -/

/-- The control position and the table are well formed, but for the due delivery. -/
def placed (s : State) : Prop :=
  (s.started = true ↔ s.phase ≠ .idle) ∧ (s.midPhase = true → s.phase = .drainRx ∨ s.phase = .drainTx) ∧ tableDistinct s

theorem placed_of_rxFrame {s t : State} (h : placed s) (hf : RxFrame s t) : placed t := by
  simpa only [placed, tableDistinct, hf.started, hf.phase, hf.midPhase, hf.sub, hf.params] using h

/-- TASK enters a phase of the cycle, between two phases (R180). -/
theorem placed_enterPhase {s : State} (h : placed s) (hs : s.phase ≠ .idle) {p : Phase} (hp : p ≠ .idle) :
    placed (enterPhase p s) := by
  obtain ⟨hstarted, _, htable⟩ := h
  exact ⟨iff_of_true (hstarted.2 hs) hp, fun hm => absurd hm Bool.false_ne_true, htable⟩

/-- Before `START` TASK is IDLE, and so in none of its operations. -/
theorem placed_start {s : State} (h : placed s) (hs : s.started = false) :
    placed { s with started := true, phase := .wait, waitStart := s.now } := by
  obtain ⟨hstarted, hmid, htable⟩ := h
  refine ⟨by simp, fun hm => ?_, htable⟩
  have hidle : s.phase = .idle := by
    by_contra hp
    exact absurd (hstarted.2 hp) (by simp [hs])
  rcases hmid hm with hp | hp <;> simp [hidle] at hp

theorem placed_acceptCommand {s : State} (h : placed s) (role : CommandRole) (payload : List Byte) (ts : Time) :
    placed (acceptCommand role payload ts s) := placed_of_rxFrame h (handled_acceptCommand role payload ts s).toRxFrame

theorem placed_applyCommand {s : State} (h : placed s) : placed (applyCommand s) := by
  obtain ⟨_, _, heq⟩ := applyCommand_eq s
  rw [heq]; exact h

/-- After `INIT` TASK is IDLE and the table is empty (R41). -/
theorem placed_initState (s : State) : placed (initState s) := by
  refine ⟨by simp [initState], fun hm => absurd hm Bool.false_ne_true, List.length_replicate, ?_⟩
  show ((validSubs (List.replicate s.params.subCap none)).map (·.subject)).Nodup
  rw [validSubs_replicate_none]
  exact .nil

/-- Every single update of the machine but `INIT` keeps the control position and the table well formed. -/
theorem closed_placed : Closed placed where
  log _ _ h := h
  schedule _ _ h := h
  freeCount _ _ h := h
  decodeErr _ h := h
  dropped _ h := h
  subscribe := fun _ _ _ ⟨hstarted, hmid, htable⟩ _ hnew hfree =>
    ⟨hstarted, hmid, tableDistinct_subscribe htable hnew hfree⟩
  start _ h hs _ := placed_start h hs
  store _ _ h _ _ := h
  pulled _ _ _ h _ := h
  wake _ _ h := h
  pop _ _ _ h _ := h
  unpop _ h := h
  reassemble s f h _ := placed_of_rxFrame h (quiet_reassemble f s).toRxFrame
  accept _ role payload ts h := placed_acceptCommand h role payload ts
  enqueue _ _ h _ _ := h
  release s d h _ := placed_of_rxFrame h (processed_releaseDelivery d s).toRxFrame
  sent _ _ _ h _ := h
  mailbox _ _ h := h
  apply _ h := placed_applyCommand h
  tick _ _ h _ := h
  bus _ _ h := h
  toDrainRx _ h hp := placed_enterPhase h (by simp [hp]) (by decide)
  toDrainTx _ h hp _ := placed_enterPhase h (by simp [hp]) (by decide)
  toApply _ h hp := placed_enterPhase h (by simp [hp]) (by decide)
  toWait _ h hp := placed_enterPhase h (p := .wait) (by simp [hp]) (by decide)
  midPhase := fun _ ⟨hstarted, _, htable⟩ hp => ⟨hstarted, fun _ => hp, htable⟩

/-! ## The due delivery -/

/-- No delivery is due at the end, or the one that was due, and TASK is where it was. -/
def deliverySettled (s t : State) : Prop :=
  t.delivering = none ∨ t.delivering = s.delivering ∧ t.phase = s.phase

theorem deliverySettled_storeFrame {r : BusFrame} {s t : State} (h : storeFrame r s = .next t) : deliverySettled s t := by
  obtain ⟨_, ⟨_, rfl⟩ | ⟨_, rfl⟩⟩ := storeFrame_eq_next.1 h
  · exact .inr ⟨raiseError_delivering _ s, raiseError_phase _ s⟩
  · exact .inr ⟨rfl, rfl⟩

theorem deliverySettled_enqueueCall {subject transferId priority : Nat} {deadline : Time} {payload : List Byte} {s t : State}
    (h : enqueueCall subject transferId priority deadline payload s = .next t) : deliverySettled s t := by
  unfold enqueueCall at h
  split at h <;> cases h
  have hh := handled_enqueueItem (enqueueOperand s.params subject transferId priority deadline payload) s
  exact .inr ⟨hh.delivering, hh.phase⟩

theorem drainPass_delivering (s : State) : (drainPass s).2.delivering = s.delivering := by
  rcases drainPass_cases s with ⟨_, hp⟩ | ⟨e, rest, hq, _, hp⟩ | ⟨e, rest, hq, _, _, hp⟩ | ⟨e, rest, hq, _, _, hp⟩ <;> rw [hp]

theorem drainPasses_delivering (n : Nat) (s : State) : (drainPasses n s).delivering = s.delivering := by
  induction n generalizing s with
  | zero => rfl
  | succ n ih =>
    have hpass := drainPass_delivering s
    unfold drainPasses
    split <;> rename_i heq <;> rw [heq] at hpass
    · exact (ih _).trans hpass
    · exact hpass

theorem drainQueue_delivering (s : State) : (drainQueue s).delivering = s.delivering := drainPasses_delivering _ s

/-- `PROCESS_PENDING` ends every delivery that it starts (R131, R132). -/
theorem pendingTurns_delivering {n : Nat} {s t : State} (hd : s.delivering = none) (h : pendingTurns n s = .next t) :
    t.delivering = none := by
  induction n generalizing s with
  | zero => cases h; exact hd
  | succ n ih =>
    cases hq : s.rxq with
    | nil => rw [pendingTurns_of_empty _ hq] at h; cases h; exact hd
    | cons f rest =>
      rw [pendingTurns_of_cons _ hq] at h
      obtain ⟨u, hu, ht⟩ := andThen_eq_next.1 h
      exact ih (processed_processFrame hu).delivering ht

theorem applyCommand_delivering (s : State) : (applyCommand s).delivering = s.delivering := by
  obtain ⟨_, _, heq⟩ := applyCommand_eq s
  rw [heq]

theorem runCycle_delivering {s t : State} (hd : s.delivering = none) (h : runCycle s = .next t) : t.delivering = none := by
  obtain ⟨u, hu, h⟩ := andThen_eq_next.1 h
  obtain ⟨v, hv, h⟩ := andThen_eq_next.1 h
  obtain ⟨_, rfl⟩ := drainCall_eq_next.1 hv
  cases h
  have hu' : u.delivering = none := pendingTurns_delivering (s := beginCycle s) hd hu
  exact (applyCommand_delivering _).trans ((drainQueue_delivering _).trans hu')

/-- No instruction leaves a new delivery due, and while one is due none moves TASK. -/
theorem deliverySettled_exec {i : Instr} {s t : State} (h : exec i s = .next t) : deliverySettled s t := by
  cases i <;> simp only [exec] at h
  case init => rw [exec_init_eq_next (s := s) h]; exact .inl rfl
  case subscribe =>
    obtain ⟨_, _, h⟩ := whenHostRuns_eq_next.1 h
    split at h <;> cases h
    unfold addSubscription
    split
    · exact .inr ⟨rfl, rfl⟩
    · split <;> exact .inr ⟨rfl, rfl⟩
  case start =>
    obtain ⟨_, hm, h⟩ := whenHostRuns_eq_next.1 h
    split at h <;> cases h <;> exact .inl (midCycle_eq_false.1 hm).1
  case rxIrq =>
    obtain ⟨_, _, h⟩ := whenInterruptEnabled_eq_next.1 h
    obtain ⟨_, hd, hp, _⟩ := takeInterrupt_keeps_task h
    exact .inr ⟨hd, hp⟩
  case onFrameReceived =>
    obtain ⟨_, _, h⟩ := whenInterruptEnabled_eq_next.1 h
    split at h <;> try cases h
    split at h
    · cases h
    · rename_i hpull
      obtain ⟨rest, _, rfl⟩ := nextRx_eq_some.1 hpull
      exact deliverySettled_storeFrame (s := { s with ctrlRx := rest }) h
  case wakeSignal =>
    obtain ⟨_, _, h⟩ := whenInterruptEnabled_eq_next.1 h
    cases h; exact .inr ⟨rfl, rfl⟩
  case rxPop =>
    obtain ⟨_, hd, _, h⟩ := whenTaskFree_eq_next.1 h
    cases h; exact .inl ((popFrame_delivering s).trans hd)
  case processPending =>
    obtain ⟨_, hd, _, h⟩ := whenTaskFree_eq_next.1 h
    exact .inl (pendingTurns_delivering hd h)
  case processFrame =>
    obtain ⟨_, _, _, h⟩ := whenTaskFree_eq_next.1 h
    split at h
    · cases h
    · exact .inl (processed_processFrame h).delivering
  case deliver =>
    obtain ⟨_, h⟩ := whenReady_eq_next.1 h
    split at h
    · cases h
    · exact .inl (processed_deliverTransfer h).delivering
  case noteDecodeError =>
    obtain ⟨_, h⟩ := whenReady_eq_next.1 h
    split at h
    · cases h
    · obtain ⟨_, h⟩ := whenTaskCodeRuns_eq_next.1 h
      cases h; exact .inr ⟨rfl, rfl⟩
  case enqueue =>
    obtain ⟨_, h⟩ := whenReady_eq_next.1 h
    exact deliverySettled_enqueueCall (whenTaskCodeRuns_eq_next.1 h).2
  case drain =>
    obtain ⟨_, hd, _, h⟩ := whenTaskFree_eq_next.1 h
    obtain ⟨_, rfl⟩ := drainCall_eq_next.1 h
    exact .inl ((drainQueue_delivering s).trans hd)
  case txPush =>
    obtain ⟨_, hd, _, h⟩ := whenTaskFree_eq_next.1 h
    split at h
    · cases h
    · rename_i e _ _
      split at h
      · cases h
      · split at h
        · rcases pushFrame_eq (build s.params e) s with ⟨_, hp⟩ | ⟨_, hp⟩ <;> rw [hp] at h <;> cases h <;> exact .inl hd
        · cases h
  case wait =>
    obtain ⟨_, hd, _, h⟩ := whenTaskFree_eq_next.1 h
    split at h <;> cases h
    exact .inl hd
  case taskCycle =>
    obtain ⟨_, hd, _, h⟩ := whenTaskFree_eq_next.1 h
    split at h
    · exact .inl (runCycle_delivering hd h)
    · cases h
  case apply =>
    obtain ⟨_, hd, _, h⟩ := whenTaskFree_eq_next.1 h
    cases h; exact .inl ((applyCommand_delivering s).trans hd)
  case tick =>
    obtain ⟨_, h⟩ := whenReady_eq_next.1 h
    split at h <;> cases h
    exact .inr ⟨rfl, rfl⟩
  case bus =>
    obtain ⟨_, h⟩ := whenReady_eq_next.1 h
    split at h <;> cases h
    exact .inr ⟨rfl, rfl⟩
  case canidSubjectMatch =>
    obtain ⟨_, h⟩ := whenReady_eq_next.1 h
    split at h <;> cases h <;> exact .inr ⟨rfl, rfl⟩
  case readDropped | readDecodeErrors | readTimeouts | mbox =>
    obtain ⟨_, h⟩ := whenReady_eq_next.1 h
    cases h; exact .inr ⟨rfl, rfl⟩
  all_goals (cases h; exact .inr ⟨rfl, rfl⟩)

/-- No step of TASK leaves a new delivery due, where a due one is of DRAIN_RX. -/
theorem deliverySettled_taskStep {s t : State} (hdue : s.delivering ≠ none → s.phase = .drainRx)
    (h : taskStep s = .next t) : deliverySettled s t := by
  have hnone : s.phase ≠ .drainRx → s.delivering = none := fun hp => by_contra fun hd => hp (hdue hd)
  obtain ⟨_, h⟩ := whenReady_eq_next.1 h
  cases hphase : s.phase <;> simp only [hphase] at h
  case idle => cases h; exact .inr ⟨rfl, rfl⟩
  case wait =>
    split at h <;> cases h
    · exact .inl (hnone (by simp [hphase]))
    · exact .inr ⟨rfl, rfl⟩
  case drainRx =>
    unfold drainRxStep at h
    split at h
    · exact .inl (processed_deliverTransfer h).delivering
    · rename_i hd
      split at h
      · exact .inl (processed_processFrame h).delivering
      · split at h <;> cases h <;> exact .inl ((popFrame_delivering s).trans hd)
  case drainTx =>
    have hpass := (drainPass_delivering s).trans (hnone (by simp [hphase]))
    obtain ⟨_, rfl⟩ := drainTxStep_eq_next.1 h
    split <;> exact .inl hpass
  case apply =>
    cases h
    exact .inl ((applyCommand_delivering s).trans (hnone (by simp [hphase])))

theorem deliverySettled_step {s t : State} (hdue : s.delivering ≠ none → s.phase = .drainRx) (h : step s = .next t) :
    deliverySettled s t := by
  cases hm : nextMoves s with
  | nil => rw [step_of_empty hm] at h; exact deliverySettled_taskStep hdue h
  | cons move rest =>
    cases move with
    | task =>
      rw [step_of_task hm] at h
      exact deliverySettled_taskStep (s := { s with schedule := rest }) hdue h
    | issue p =>
      cases hd : decode p with
      | error e => rw [step_of_undecodable hm hd] at h; cases h
      | ok r =>
        obtain ⟨i, left⟩ := r
        rw [step_of_issue hm hd] at h
        exact deliverySettled_exec (s := { s with schedule := afterFetch p.fmt left rest }) h

/-- Settles O57: the place and the table by the updates of a step; `PROCESS_FRAME` hands over and ends its own delivery within
one step (R132), so that a delivery due after a step was due before it, where TASK still is. -/
theorem controlAndTableKept : Obligations.ControlAndTableKept := by
  intro s t ⟨hstarted, hdue, hmid⟩ htable hstep
  obtain ⟨hstarted', hmid', htable'⟩ : placed t :=
    closed_placed.step ⟨hstarted, hmid, htable⟩ (fun u _ _ => placed_initState u) hstep
  refine ⟨⟨hstarted', fun hd => ?_, hmid'⟩, htable'⟩
  rcases deliverySettled_step hdue hstep with hnone | ⟨hsame, hphase⟩
  · exact absurd hnone hd
  · exact hphase.trans (hdue (hsame ▸ hd))

end Sys2Proof.Proofs
end

section
/-! PROOFS. What single operations do: `RX_IRQ`, `ENQUEUE`, `TX_PUSH` and `INIT`; the reset state meets the invariants. -/

namespace Sys2Proof.Proofs

open Sys2Proof.Machine Sys2Proof.Laws

/-! ## RX_IRQ (R110, R111) -/

/-- The free slots of the queue. -/
def rxqRoom (s : State) : Nat := s.params.rxqCap - s.rxq.length

/-- A counter after `n` saturating increments. -/
def satAdd (c : Count) (n : Nat) : Count := BitVec.ofNat 32 (min 4294967295 (c.toNat + n))

theorem satAdd_zero (c : Count) : satAdd c 0 = c := by
  have := c.isLt
  rw [satAdd, Nat.add_zero, Nat.min_eq_right (by omega), BitVec.ofNat_toNat, BitVec.setWidth_eq]

theorem satAdd_satInc (c : Count) (n : Nat) : satAdd (satInc c) n = satAdd c (n + 1) := by
  unfold satAdd; rw [satInc_toNat]; congr 1; omega

/-- A frame as the queue holds it, with its arrival time (R111). -/
def stampFrame (now : Time) (r : BusFrame) : Frame := { id := r.id, data := r.data, ts := now }

/-- What the interrupt leaves behind: the frames that fit are stored, the others dropped and counted. -/
def takenAll (s : State) : Pulled where
  ctrlRx := []
  rxq := s.rxq ++ (s.ctrlRx.take (rxqRoom s)).map (stampFrame s.now)
  dropped := satAdd s.dropped (s.ctrlRx.length - rxqRoom s)
  drops := s.ctrlRx.length - rxqRoom s

theorem takenAll_of_nil {s : State} (h : s.ctrlRx = []) : takenAll s = ⟨s.ctrlRx, s.rxq, s.dropped, 0⟩ := by
  simp [takenAll, h, satAdd_zero]

/-- What one turn of the pull loop leaves behind: the frame `r` is dropped or stored. -/
def takenOne (r : BusFrame) (rest : List BusFrame) (s : State) : Pulled :=
  if s.rxq.length = s.params.rxqCap then ⟨rest, s.rxq, satInc s.dropped, 1⟩
  else ⟨rest, s.rxq ++ [stampFrame s.now r], s.dropped, 0⟩

theorem storeFrame_eq_takenOne {r : BusFrame} (rest : List BusFrame) {s : State} (hr : r.data.length ≤ 64) :
    storeFrame r { s with ctrlRx := rest } = .next (afterPull (takenOne r rest s) s) := by
  refine storeFrame_eq_next.2 ⟨hr, ?_⟩
  by_cases hfull : s.rxq.length = s.params.rxqCap
  · exact .inl ⟨hfull, by rw [raiseError_rxOverflow]; simp [takenOne, hfull, afterPull, dropEvents]⟩
  · exact .inr ⟨hfull, by simp [takenOne, hfull, afterPull, dropEvents, stampFrame]⟩

/-- The first turn and the others together. -/
theorem takenAll_afterPull_takenOne {r : BusFrame} {rest : List BusFrame} {s : State} (h : s.ctrlRx = r :: rest)
    (hcap : s.rxq.length ≤ s.params.rxqCap) :
    afterPull (takenAll (afterPull (takenOne r rest s) s)) (afterPull (takenOne r rest s) s) = afterPull (takenAll s) s := by
  rw [afterPull_afterPull]
  congr 1
  by_cases hfull : s.rxq.length = s.params.rxqCap
  · simp [takenAll, takenOne, afterPull, rxqRoom, h, hfull, satAdd_satInc, Nat.add_comm]
  · have hroom : rxqRoom s = rxqRoom (afterPull (takenOne r rest s) s) + 1 := by
      simp only [rxqRoom, takenOne, afterPull, hfull, if_false, List.length_append, List.length_singleton]
      omega
    simp only [takenAll, hroom]
    simp [takenOne, afterPull, h, hfull]

/-- The interrupt keeps the queue within capacity. -/
theorem length_takenOne {r : BusFrame} {rest : List BusFrame} {s : State} (hcap : s.rxq.length ≤ s.params.rxqCap) :
    (takenOne r rest s).rxq.length ≤ s.params.rxqCap := by
  unfold takenOne
  split
  · exact hcap
  · rw [List.length_append, List.length_singleton]; omega

theorem pullTurns_of_cons {r : BusFrame} {rest : List BusFrame} {s : State} (n : Nat) (h : s.ctrlRx = r :: rest) :
    pullTurns (n + 1) s = andThen (storeFrame r { s with ctrlRx := rest }) (pullTurns n) := by
  rw [pullTurns, nextRx_eq_some.2 ⟨rest, h, rfl⟩]

/-- The pull loop empties the controller (R110). -/
theorem pullTurns_eq_takenAll {rs : List BusFrame} {s : State} (hrs : s.ctrlRx = rs) (hcap : s.rxq.length ≤ s.params.rxqCap)
    (hlen : ∀ r ∈ rs, r.data.length ≤ 64) : pullTurns (rs.length + 1) s = .next (afterPull (takenAll s) s) := by
  induction rs generalizing s with
  | nil =>
    rw [pullTurns, nextRx_eq_none.2 hrs, takenAll_of_nil hrs]
    exact congrArg Host.Outcome.next (SameIrqInputs.refl s).eq_afterPull
  | cons r rest ih =>
    obtain ⟨hr, hrest⟩ := List.forall_mem_cons.1 hlen
    have hothers := ih (s := afterPull (takenOne r rest s) s) (by unfold takenOne; split <;> rfl) (length_takenOne hcap) hrest
    rw [List.length_cons, pullTurns_of_cons _ hrs, storeFrame_eq_takenOne rest hr, andThen_next_left, hothers,
      takenAll_afterPull_takenOne hrs hcap]

/-- A frame outside the contract of P1 refuses the run, wherever it stands (U4). -/
theorem pullTurns_eq_refused {rs : List BusFrame} {s : State} (hrs : s.ctrlRx = rs)
    (hlen : ¬ ∀ r ∈ rs, r.data.length ≤ 64) : pullTurns (rs.length + 1) s = .refused .frameTooLong := by
  induction rs generalizing s with
  | nil => exact absurd (List.forall_mem_nil _) hlen
  | cons r rest ih =>
    rw [List.length_cons, pullTurns_of_cons _ hrs]
    by_cases hr : r.data.length ≤ 64
    · have hrest : ¬ ∀ x ∈ rest, x.data.length ≤ 64 := fun hx => hlen (List.forall_mem_cons.2 ⟨hr, hx⟩)
      rw [storeFrame_eq_takenOne rest hr, andThen_next_left]
      exact ih (by unfold takenOne; split <;> rfl) hrest
    · simp [storeFrame, Nat.not_le.1 hr]

theorem exec_rxIrq_of_enabled {s : State} (h : interruptEnabled s) (hp : s.params.rxPortReturns = true) :
    exec .rxIrq s = andThen (pullTurns (s.ctrlRx.length + 1) s) fun t => .next (signalWake t) := by
  simp only [exec, execRxIrq, whenInterruptEnabled_of h.1 h.2, takeInterrupt, hp, if_true]

/-- Settles O19: by induction on the frames of the controller. -/
theorem rxIrqTakesEveryFrame : Obligations.RxIrqTakesEveryFrame := by
  intro s hen hport hcap
  rw [exec_rxIrq_of_enabled hen hport]
  refine ⟨fun hc => ?_, fun hc => ?_⟩
  · rw [pullTurns_eq_takenAll rfl hcap hc]; rfl
  · rw [pullTurns_eq_refused rfl hc]; rfl

/-! ## ENQUEUE (R160, R161) -/

/-- A priority within the contract fits its three bits. -/
theorem toNat_ofNat_prio {priority : Nat} (h : priority ≤ 7) : (BitVec.ofNat 3 priority).toNat = priority := by
  rw [BitVec.toNat_ofNat, Nat.mod_eq_of_lt (by omega)]

theorem exec_enqueue_of_contract {subject transferId priority : Nat} {deadline : Time} {payload : List Byte} {s : State}
    (hi : s.initialised = true) (hm : s.midPhase = false ∨ s.delivering ≠ none)
    (hc : subject ≤ 8191 ∧ priority ≤ 7 ∧ payload.length ≤ 63) :
    exec (.enqueue subject transferId priority deadline payload) s
      = .next (enqueueItem (enqueueOperand s.params subject transferId priority deadline payload) s) := by
  simp [exec, execEnqueue, whenReady_of hi, whenTaskCodeRuns_of hm, enqueueCall, enqueueInContract, hc]

theorem enqueueItem_of_room {e : Item} {s : State} (hroom : s.txq.length ≠ s.params.txqCap) (hpos : 0 < s.poolFree) :
    enqueueItem e s
      = { s with txq := insertItem e s.txq, poolFree := s.poolFree - 1, log := s.log ++ [.result .ok] } := by
  simp only [enqueueItem, hroom, if_false, poolAlloc_eq_some.2 ⟨hpos, rfl⟩, emit]

/-- Settles O40: where an item goes in a queue in priority order. -/
theorem enqueueInserts : Obligations.EnqueueInserts := by
  intro subject transferId priority deadline payload s hi hm hord hsub hprio hpay hroom hpos
  rw [exec_enqueue_of_contract hi hm ⟨hsub, hprio, hpay⟩, enqueueItem_of_room hroom hpos, insertItem_of_sorted _ hord.2]
  simp only [enqueueOperand, tidMod, BitVec.le_def, BitVec.lt_def, toNat_ofNat_prio hprio]

/-! ## TX_PUSH (R163) -/

theorem expired_eq_false {t : Time} {e : Item} (h : t ≤ e.deadline) : expired t e = false := by
  simpa [expired] using h

/-- An item that has not expired is handed over, and leaves the queue unless BUS answers full. -/
theorem exec_txPush_of_answer {s t : State} {e : Item} {rest : List Item} {answer : PushAnswer} (h : taskFree s)
    (hp : s.params.txPortReturns = true) (hq : s.txq = e :: rest) (hx : s.now ≤ e.deadline)
    (ha : pushFrame (build s.params e) s = (answer, t)) :
    exec .txPush s = .next (if answer = .full then t else dropHead t) := by
  obtain ⟨hi, hd, hw⟩ := h
  simp only [exec, execTxPush, whenTaskFree_of hi hd hw, hq, expired_eq_false hx, hp, ha, Bool.false_eq_true, if_true,
    if_false]
  cases answer <;> rfl

/-- Settles O45: by BUS's two answers. -/
theorem txPushAlone : Obligations.TxPushAlone := by
  intro s e rest hfree hport hq hx
  rcases pushFrame_eq (build s.params e) s with ⟨hm, hanswer⟩ | ⟨hm, hanswer⟩ <;>
    rw [exec_txPush_of_answer hfree hport hq hx hanswer]
  · exact ⟨fun _ => rfl, fun hpos => by omega⟩
  · exact ⟨fun hzero => by omega, fun _ => by simp [dropHead, poolFreeOne, hq]⟩

/-! ## INIT and the reset state (R41, R184) -/

/-- Settles O12. -/
theorem initGivesResetTable : Obligations.InitGivesResetTable := by
  intro s hc hr
  refine ⟨initState s, by rw [exec_init_of_hostRuns hr, if_pos hc], ?_⟩
  simp [initState, resetSupervisor, State.session]

/-- Settles O59: every queue, the session table and the subscription table are empty. -/
theorem resetMeetsInvariants : Obligations.ResetMeetsInvariants := by
  refine ⟨?_, ?_, ?_, ?_, ?_, ?_, ?_, ?_⟩
  · exact ⟨by decide, List.forall_mem_nil _⟩
  · exact ⟨.nil, List.forall_mem_nil _⟩
  · exact ⟨by decide, .nil⟩
  · exact ⟨rfl, rfl⟩
  · exact ⟨rfl, fun _ _ hr => by cases hr⟩
  · exact ⟨by decide, fun hd => absurd rfl hd, by decide⟩
  · exact ⟨rfl, by decide⟩
  · intro v hv
    obtain rfl : v = 0 := by simpa [State.reset, resetSupervisor] using hv
    decide

end Sys2Proof.Proofs
end

section
/-! PROOFS. The ring of slots with two indices refines the queue of frames (R26, R62, R63, R71, R72, R96). -/

namespace Sys2Proof.Proofs

open Sys2Proof.Machine Sys2Proof.Laws

/-! ## Indices -/

/-- `ringWf` taken apart. -/
structure RingOk (r : Ring) : Prop where
  cap : 0 < ringCap r
  wr : r.wr < 2 * ringCap r
  rd : r.rd < 2 * ringCap r
  count : ringCount r ≤ ringCap r
  slots : ∀ sl ∈ r.slots, sl.data.length = 64

theorem ringWf_iff {r : Ring} : ringWf r = true ↔ RingOk r := by
  simp only [ringWf, Bool.and_eq_true, decide_eq_true_eq, List.all_eq_true, beq_iff_eq]
  exact ⟨fun ⟨⟨⟨⟨hcap, hwr⟩, hrd⟩, hcount⟩, hslots⟩ => ⟨hcap, hwr, hrd, hcount, hslots⟩,
    fun h => ⟨⟨⟨⟨h.cap, h.wr⟩, h.rd⟩, h.count⟩, h.slots⟩⟩

/-- The write index is the read index and the count ahead, modulo twice the capacity (R26). -/
theorem ringCount_cases {r : Ring} (h : RingOk r) :
    r.wr = r.rd + ringCount r ∨ r.wr + 2 * ringCap r = r.rd + ringCount r := by
  have hwr := h.wr
  have hrd := h.rd
  unfold ringCount
  by_cases hle : r.rd ≤ r.wr
  · left
    rw [show r.wr + 2 * ringCap r - r.rd = r.wr - r.rd + 2 * ringCap r by omega, Nat.add_mod_right,
      Nat.mod_eq_of_lt (by omega)]
    omega
  · right
    rw [Nat.mod_eq_of_lt (by omega)]
    omega

/-- The count is what the write index is ahead by. -/
theorem ringCount_eq {r : Ring} {n : Nat} (hwr : r.wr < 2 * ringCap r) (hrd : r.rd < 2 * ringCap r) (hn : n ≤ ringCap r)
    (h : r.wr = r.rd + n ∨ r.wr + 2 * ringCap r = r.rd + n) : ringCount r = n := by
  unfold ringCount
  rcases h with h | h
  · rw [show r.wr + 2 * ringCap r - r.rd = n + 2 * ringCap r by omega, Nat.add_mod_right, Nat.mod_eq_of_lt (by omega)]
  · rw [show r.wr + 2 * ringCap r - r.rd = n by omega, Nat.mod_eq_of_lt (by omega)]

/-- The next index, with and without wrapping. -/
theorem succ_mod_cases {i m : Nat} (h : i < m) : (i + 1) % m = i + 1 ∧ i + 1 < m ∨ (i + 1) % m = 0 ∧ i + 1 = m := by
  rcases Nat.lt_or_ge (i + 1) m with hlt | hge
  · exact .inl ⟨Nat.mod_eq_of_lt hlt, hlt⟩
  · obtain rfl : i + 1 = m := by omega
    exact .inr ⟨Nat.mod_self _, rfl⟩

/-- Slots are addressed modulo the capacity, so a wrap of an index does not matter (R26). -/
theorem ringSlotAt_add_two_mul (r : Ring) (i : Nat) : ringSlotAt r (i + 2 * ringCap r) = ringSlotAt r i := by
  simp [ringSlotAt, Nat.add_mul_mod_self_right]

theorem ringSlotAt_wr {r : Ring} (h : RingOk r) : r.wr % ringCap r = (r.rd + ringCount r) % ringCap r := by
  rcases ringCount_cases h with heq | heq
  · rw [heq]
  · rw [← heq, Nat.add_mul_mod_self_right]

/-! ## Slots -/

theorem ringSlotAt_mem {r : Ring} (h : RingOk r) (i : Nat) : ringSlotAt r i ∈ r.slots := by
  have hlt : i % ringCap r < r.slots.length := Nat.mod_lt _ h.cap
  rw [ringSlotAt, List.getD_eq_getElem _ _ hlt]
  exact List.getElem_mem hlt

/-- What is read from a slot is what was written, whatever stood there before (R62, R63). -/
theorem slotFrame_fillSlot (old : RingSlot) {f : Frame} (h : f.data.length ≤ 64) : slotFrame (fillSlot old f) = f := by
  have hid : (f.id.setWidth 32).setWidth 29 = f.id := by
    rw [BitVec.setWidth_setWidth_of_le _ (by decide), BitVec.setWidth_eq]
  have hlen : (BitVec.ofNat 7 f.data.length).toNat = f.data.length := by
    rw [BitVec.toNat_ofNat, Nat.mod_eq_of_lt (by omega)]
  simp [slotFrame, fillSlot, hid, hlen]

theorem length_fillSlot {old : RingSlot} (ho : old.data.length = 64) {f : Frame} (h : f.data.length ≤ 64) :
    (fillSlot old f).data.length = 64 := by
  simp only [fillSlot, List.length_append, List.length_drop, ho]
  omega

/-! ## The frames -/

theorem length_ringFrames (r : Ring) : (ringFrames r).length = ringCount r := by simp [ringFrames]

theorem ringCount_eq_zero {r : Ring} (h : RingOk r) : ringCount r = 0 ↔ r.wr = r.rd := by
  have hcount := h.count
  have hwr := h.wr
  have hrd := h.rd
  have hcap := h.cap
  rcases ringCount_cases h with heq | heq <;> omega

theorem ringEmpty_iff {r : Ring} (h : RingOk r) : ringEmpty r = true ↔ ringFrames r = [] := by
  rw [← List.length_eq_zero_iff, length_ringFrames, ringCount_eq_zero h, ringEmpty, beq_iff_eq]

/-- At reset the two indices are equal, so nothing is read of what the slots hold (R41). -/
theorem ringFrames_ringReset (slots : List RingSlot) : ringFrames (ringReset slots) = [] := by
  simp [ringFrames, ringCount, ringReset]

/-! ## Push (R71) -/

theorem ringCap_ringPush (f : Frame) (r : Ring) : ringCap (ringPush f r) = ringCap r := by
  simp [ringCap, ringPush]

/-- A push moves the count by one. -/
theorem ringCount_ringPush {r : Ring} (h : RingOk r) (hfull : ringCount r < ringCap r) (f : Frame) :
    (ringPush f r).wr < 2 * ringCap r ∧ ringCount (ringPush f r) = ringCount r + 1 := by
  have hrdlt := h.rd
  have hwr : (ringPush f r).wr = (r.wr + 1) % (2 * ringCap r) := by simp [ringPush, ringCap]
  have hlt : (ringPush f r).wr < 2 * ringCap r := hwr ▸ Nat.mod_lt _ (by have := h.cap; omega)
  refine ⟨hlt, ringCount_eq ?_ ?_ ?_ ?_⟩ <;> rw [ringCap_ringPush]
  · exact hlt
  · exact h.rd
  · exact hfull
  · have hrd : (ringPush f r).rd = r.rd := rfl
    rw [hwr, hrd]
    rcases succ_mod_cases h.wr with ⟨hnext, _⟩ | ⟨hnext, _⟩ <;> rw [hnext] <;>
      rcases ringCount_cases h with heq | heq <;> omega

/-- The slot that a push writes is none of those in use, and the next to be read after them. -/
theorem ringSlotAt_ringPush {r : Ring} (h : RingOk r) (hfull : ringCount r < ringCap r) (f : Frame) {k : Nat}
    (hk : k ≤ ringCount r) :
    ringSlotAt (ringPush f r) (r.rd + k)
      = if k = ringCount r then fillSlot (ringSlotAt r r.wr) f else ringSlotAt r (r.rd + k) := by
  have hlt : (r.rd + k) % ringCap r < r.slots.length := Nat.mod_lt _ h.cap
  have hsame : (r.rd + ringCount r) % ringCap r = (r.rd + k) % ringCap r ↔ k = ringCount r := by
    refine ⟨fun heq => ?_, fun heq => by rw [heq]⟩
    have hmod : ringCount r ≡ k [MOD ringCap r] := Nat.ModEq.add_left_cancel' r.rd heq
    exact (Nat.ModEq.eq_of_lt_of_lt hmod hfull (by omega)).symm
  rw [ringSlotAt, ringCap_ringPush]
  simp only [ringPush, List.getD_eq_getElem?_getD, List.getElem?_set, ringSlotAt_wr h, hsame]
  split
  · rename_i heq; rw [← heq, if_pos hlt]; rfl
  · rfl

theorem ringFrames_ringPush {r : Ring} (h : RingOk r) (hfull : ringCount r < ringCap r) {f : Frame}
    (hf : f.data.length ≤ 64) : ringFrames (ringPush f r) = ringFrames r ++ [f] := by
  have hrd : (ringPush f r).rd = r.rd := rfl
  rw [ringFrames, (ringCount_ringPush h hfull f).2, List.range_succ, List.map_append, List.map_singleton, hrd,
    ringSlotAt_ringPush h hfull f (Nat.le_refl _), if_pos rfl, slotFrame_fillSlot _ hf]
  congr 1
  refine List.map_congr_left fun k hk => ?_
  have hlt := List.mem_range.1 hk
  rw [ringSlotAt_ringPush h hfull f hlt.le, if_neg hlt.ne]

theorem ringOk_ringPush {r : Ring} (h : RingOk r) (hfull : ringCount r < ringCap r) {f : Frame} (hf : f.data.length ≤ 64) :
    RingOk (ringPush f r) := by
  obtain ⟨hwr, hcount⟩ := ringCount_ringPush h hfull f
  have hcap := ringCap_ringPush f r
  refine ⟨hcap ▸ h.cap, hcap ▸ hwr, hcap ▸ h.rd, by rw [hcap, hcount]; exact hfull, fun sl hsl => ?_⟩
  rcases List.mem_or_eq_of_mem_set hsl with hold | rfl
  · exact h.slots sl hold
  · exact length_fillSlot (h.slots _ (ringSlotAt_mem h r.wr)) hf

/-! ## Pop (R72) -/

/-- The ring after the removal of its oldest frame. -/
def ringRest (r : Ring) : Ring := { r with rd := (r.rd + 1) % (2 * ringCap r) }

theorem ringPop_of_not_empty {r : Ring} (h : ringEmpty r = false) :
    ringPop r = some (slotFrame (ringSlotAt r r.rd), ringRest r) := by
  simp [ringPop, h, ringRest]

theorem ringCount_ringRest {r : Ring} (h : RingOk r) (hpos : 0 < ringCount r) :
    (ringRest r).rd < 2 * ringCap r ∧ ringCount (ringRest r) + 1 = ringCount r := by
  have hlt : (ringRest r).rd < 2 * ringCap r := Nat.mod_lt _ (by have := h.cap; omega)
  have hcount := h.count
  have hpred : ringCount (ringRest r) = ringCount r - 1 := by
    refine ringCount_eq (r := ringRest r) h.wr hlt (by show _ ≤ ringCap r; omega) ?_
    show r.wr = (r.rd + 1) % (2 * ringCap r) + _ ∨ r.wr + 2 * ringCap r = (r.rd + 1) % (2 * ringCap r) + _
    have hwr := h.wr
    rcases succ_mod_cases h.rd with ⟨hnext, _⟩ | ⟨hnext, _⟩ <;> rw [hnext] <;>
      rcases ringCount_cases h with heq | heq <;> omega
  exact ⟨hlt, by omega⟩

theorem ringSlotAt_ringRest {r : Ring} (h : RingOk r) (k : Nat) :
    ringSlotAt (ringRest r) ((ringRest r).rd + k) = ringSlotAt r (r.rd + (k + 1)) := by
  show ringSlotAt r ((r.rd + 1) % (2 * ringCap r) + k) = _
  rcases succ_mod_cases h.rd with ⟨hnext, _⟩ | ⟨hnext, hwrap⟩ <;> rw [hnext]
  · congr 1; omega
  · rw [← ringSlotAt_add_two_mul]; congr 1; omega

theorem ringFrames_ringRest {r : Ring} (h : RingOk r) (hpos : 0 < ringCount r) :
    ringFrames r = slotFrame (ringSlotAt r r.rd) :: ringFrames (ringRest r) := by
  rw [ringFrames, ← (ringCount_ringRest h hpos).2, List.range_succ_eq_map, List.map_cons, List.map_map, ringFrames]
  simp only [Nat.add_zero, ringSlotAt_ringRest h]
  rfl

theorem ringOk_ringRest {r : Ring} (h : RingOk r) (hpos : 0 < ringCount r) : RingOk (ringRest r) := by
  obtain ⟨hrd, hcount⟩ := ringCount_ringRest h hpos
  have hle := h.count
  exact ⟨h.cap, h.wr, hrd, by show _ ≤ ringCap r; omega, h.slots⟩

/-- Settles O24: push and pop as the indices and the slots move. -/
theorem ringRefinesQueue : Obligations.RingRefinesQueue := by
  refine ⟨ringFrames_ringReset, fun r hwf => ?_⟩
  have h := ringWf_iff.1 hwf
  refine ⟨length_ringFrames r, ringEmpty_iff h, ?full, fun f hf hfull => ?push, fun he => ?popEmpty, fun he => ?pop⟩
  case full => rw [length_ringFrames, ringFull, beq_iff_eq]
  case push =>
    have hlt : ringCount r < ringCap r := Nat.lt_of_le_of_ne h.count (by simpa [ringFull] using hfull)
    exact ⟨ringWf_iff.2 (ringOk_ringPush h hlt hf), ringCap_ringPush f r, ringFrames_ringPush h hlt hf⟩
  case popEmpty => simp [ringPop, he]
  case pop =>
    have hpos : 0 < ringCount r := by
      rw [Nat.pos_iff_ne_zero, Ne, ringCount_eq_zero h]
      simpa [ringEmpty] using he
    exact ⟨_, _, ringPop_of_not_empty he, ringWf_iff.2 (ringOk_ringRest h hpos), rfl, ringFrames_ringRest h hpos⟩

end Sys2Proof.Proofs
end

section
/-! PROOFS. Who may issue what: each guard refuses in its own words, and every whole TASK statement stands behind one (R119, R240,
R262). -/

namespace Sys2Proof.Proofs

open Sys2Proof.Machine Sys2Proof.Laws

/-! ## What the guards refuse -/

section Guards

variable {s : State} (hi : s.initialised = true)

include hi

theorem whenInterruptEnabled_of_not_started (h : s.started = false) (r : Result) :
    whenInterruptEnabled s r = .refused .notEnabled := by
  simp [whenInterruptEnabled, whenReady_of hi, h]

theorem whenTaskFree_of_delivering (h : s.delivering ≠ none) (r : Result) :
    whenTaskFree s r = .refused .handlerMayNotCall := by
  simp [whenTaskFree, whenReady_of hi, Option.isSome_iff_ne_none.2 h]

theorem whenTaskFree_of_idle (hd : s.delivering = none) (hp : s.phase = .idle) (r : Result) :
    whenTaskFree s r = .refused .wrongContext := by
  simp [whenTaskFree, whenReady_of hi, hd, hp]

theorem whenTaskFree_of_cycling (hd : s.delivering = none) (hidle : s.phase ≠ .idle) (hwait : s.phase ≠ .wait) (r : Result) :
    whenTaskFree s r = .refused .taskBusy := by
  cases hp : s.phase <;> simp_all [whenTaskFree, whenReady]

theorem whenHostRuns_of_delivering (h : s.delivering ≠ none) (r : Result) :
    whenHostRuns s r = .refused .handlerMayNotCall := by
  simp [whenHostRuns, whenReady_of hi, Option.isSome_iff_ne_none.2 h]

theorem whenHostRuns_of_midCycle (hd : s.delivering = none) (hm : s.midCycle = true) (r : Result) :
    whenHostRuns s r = .refused .taskBusy := by
  simp [whenHostRuns, whenReady_of hi, hd, hm]

end Guards

theorem whenTaskCodeRuns_of_inside {s : State} (hd : s.delivering = none) (hm : s.midPhase = true) (r : Result) :
    whenTaskCodeRuns s r = .refused .taskBusy := by
  simp [whenTaskCodeRuns, hd, hm]

theorem midCycle_of_phase {s : State} (hidle : s.phase ≠ .idle) (hwait : s.phase ≠ .wait) : s.midCycle = true := by
  rw [← Bool.not_eq_false, midCycle_eq_false]
  rintro ⟨_, hp | hp⟩
  · exact hidle hp
  · exact hwait hp

/-! ## The statements behind each guard -/

/-- The whole TASK statements (R240). -/
def taskStatements : List Instr :=
  [.rxPop, .processPending, .processFrame, .drain, .txPush, .wait, .taskCycle, .apply]

/-- A whole TASK statement has a meaning between two cycles only. -/
theorem exec_taskStatement {i : Instr} (h : i ∈ taskStatements) (s : State) : ∃ r, exec i s = whenTaskFree s r := by
  simp only [taskStatements, List.mem_cons, List.not_mem_nil, or_false] at h
  rcases h with rfl | rfl | rfl | rfl | rfl | rfl | rfl | rfl <;> exact ⟨_, rfl⟩

/-- What the guard of the TASK statements refuses, each of them refuses. -/
theorem exec_taskStatement_of_refused {i : Instr} {s : State} {why : Refusal} (h : ∀ r, whenTaskFree s r = .refused why)
    (hmem : i ∈ taskStatements) : exec i s = .refused why := by
  obtain ⟨r, hr⟩ := exec_taskStatement hmem s
  rw [hr, h r]

theorem exec_noteDecodeError_of_idle {s : State} (hi : s.initialised = true) (hp : s.phase = .idle) :
    exec .noteDecodeError s = .refused .wrongContext := by
  simp [exec, execNoteDecodeError, whenReady_of hi, hp]

theorem exec_noteDecodeError_of_phase {s : State} (hi : s.initialised = true) (hp : s.phase ≠ .idle) :
    exec .noteDecodeError s = whenTaskCodeRuns s (.next (countDecodeError s)) := by
  simp [exec, execNoteDecodeError, whenReady_of hi, hp]

theorem exec_enqueue_of_ready {s : State} (hi : s.initialised = true) (subject transferId priority : Nat) (deadline : Time)
    (payload : List Byte) :
    exec (.enqueue subject transferId priority deadline payload) s
      = whenTaskCodeRuns s (enqueueCall subject transferId priority deadline payload s) := by
  simp [exec, execEnqueue, whenReady_of hi]

/-- Settles O17: by the guard in front of each statement. -/
theorem wrongContextsRefused : Obligations.WrongContextsRefused := by
  intro s hi
  refine ⟨fun hd hm subject transferId priority deadline payload => ?enqueue, fun hd hm hp => ?note, fun hst i hmem => ?interrupt,
    fun hd hp i hmem => ?idle, fun hd hidle hwait => ⟨fun i hmem => ?cycling, fun _ _ _ _ => ?cyclingSubscribe⟩,
    fun hd => ⟨fun i hmem => ?handler, fun _ _ _ _ => whenHostRuns_of_delivering hi hd _⟩⟩
  case enqueue => rw [exec_enqueue_of_ready hi, whenTaskCodeRuns_of_inside hd hm]
  case note => rw [exec_noteDecodeError_of_phase hi hp, whenTaskCodeRuns_of_inside hd hm]
  case interrupt =>
    simp only [List.mem_cons, List.not_mem_nil, or_false] at hmem
    rcases hmem with rfl | rfl | rfl <;> exact whenInterruptEnabled_of_not_started hi hst _
  case idle =>
    rcases (List.mem_append (s := taskStatements) (t := [.noteDecodeError])).1 hmem with hmem | hmem
    · exact exec_taskStatement_of_refused (whenTaskFree_of_idle hi hd hp) hmem
    · rw [List.mem_singleton.1 hmem]; exact exec_noteDecodeError_of_idle hi hp
  case cycling =>
    have hmid := midCycle_of_phase hidle hwait
    rcases List.mem_cons.1 hmem with rfl | hmem
    · exact exec_init_of_midCycle hi hmid
    · rcases List.mem_cons.1 hmem with rfl | hmem
      · exact whenHostRuns_of_midCycle hi hd hmid _
      · exact exec_taskStatement_of_refused (whenTaskFree_of_cycling hi hd hidle hwait) hmem
  case cyclingSubscribe => exact whenHostRuns_of_midCycle hi hd (midCycle_of_phase hidle hwait) _
  case handler =>
    rcases (List.mem_append (s := taskStatements) (t := [.start])).1 hmem with hmem | hmem
    · exact exec_taskStatement_of_refused (whenTaskFree_of_delivering hi hd) hmem
    · rw [List.mem_singleton.1 hmem]; exact whenHostRuns_of_delivering hi hd _

end Sys2Proof.Proofs
end

section
/-! PROOFS. The anonymous path of `PROCESS_FRAME` (R135), `WAIT` (R181), and the step of the machine (R70, R103). -/

namespace Sys2Proof.Proofs

open Sys2Proof.Machine Sys2Proof.Laws

/-! ## The anonymous path (R135) -/

theorem exec_processFrame_of_popped {s : State} {f : Frame} (h : taskFree s) (hf : s.popped = some f) :
    exec .processFrame s = processFrame f { s with popped := none } := by
  obtain ⟨hi, hd, hp⟩ := h
  simp only [exec, execProcessFrame, whenTaskFree_of hi hd hp, hf]

theorem exec_deliver_of_due {s : State} {d : Delivery} (hi : s.initialised = true) (hd : s.delivering = some d) :
    exec .deliver s = deliverTransfer d s := by
  simp only [exec, execDeliver, whenReady_of hi, hd]

/-- A well-formed anonymous frame that matches takes the path of step 3. -/
theorem reassemble_of_anonymous {s : State} {f : Frame} {i : Nat} {sb : Subscription} (hm : matchSub s.sub f.id = some (i, sb))
    (hv : malformed s.params f = none) (ha : idAnon f.id = true) : reassemble f s = anonymousTransfer sb f s := by
  simp only [reassemble, hm, hv, ha, if_true]

theorem anonymousTransfer_of_long {s : State} {sb : Subscription} {f : Frame} (h : sb.extent < f.pl.length) :
    anonymousTransfer sb f s = raiseError .extentViolation s := by
  simp only [anonymousTransfer, h, if_true]

theorem anonymousTransfer_of_empty {s : State} {sb : Subscription} {f : Frame} (h : f.pl.length ≤ sb.extent)
    (hp : s.poolFree = 0) : anonymousTransfer sb f s = raiseError .poolExhaustedRx s := by
  simp only [anonymousTransfer, Nat.not_lt.2 h, if_false, poolAlloc_eq_none.2 hp]

theorem anonymousTransfer_of_free {s : State} {sb : Subscription} {f : Frame} (h : f.pl.length ≤ sb.extent)
    (hp : 0 < s.poolFree) :
    anonymousTransfer sb f s
      = handOver { tag := sb.tag, subject := sb.subject, payload := f.pl, ts := f.ts, holder := none }
          { s with poolFree := s.poolFree - 1 } := by
  simp only [anonymousTransfer, Nat.not_lt.2 h, if_false, poolAlloc_eq_some.2 ⟨hp, rfl⟩]

/-- Settles O28: by the extent, then the pool. -/
theorem anonymousTransfers : Obligations.AnonymousTransfers := by
  intro s f i sb hfree hf hm hv ha
  have ⟨hi, hd, _⟩ := hfree
  rw [exec_processFrame_of_popped hfree hf, processFrame, reassemble_of_anonymous (s := { s with popped := none }) hm hv ha]
  refine ⟨fun hlong => ?_, fun hfits hempty => ?_, fun hfits hpos => ?_⟩
  · rw [anonymousTransfer_of_long hlong, raiseError_extentViolation, deliverDue]
    simp only [hd, afterExtentViolation]
  · rw [anonymousTransfer_of_empty (s := { s with popped := none }) hfits hempty, raiseError_poolExhaustedRx, deliverDue]
    simp only [hd]
  · rw [anonymousTransfer_of_free (s := { s with popped := none }) hfits hpos]
    exact (exec_deliver_of_due (by exact hi) rfl).symm

/-! ## WAIT (R181) -/

/-- `WAIT` can return when the latch is set or the bound is reached, the difference taken as integers. -/
theorem waitReady_eq_true {s : State} :
    waitReady s = true ↔ s.wake = true ∨ (s.params.maxWait : Int) ≤ (s.now.toNat : Int) - s.waitStart.toNat := by
  rw [waitReady, waitBoundReached, Bool.or_eq_true, decide_eq_true_eq]
  exact or_congr Iff.rfl (by omega)

theorem exec_wait_eq {s : State} (h : taskFree s) :
    exec .wait s = if waitReady s then .next (clearWake s) else .refused .notEnabled := by
  obtain ⟨hi, hd, hp⟩ := h
  simp only [exec, execWait, whenTaskFree_of hi hd hp]

theorem taskStep_of_wait {s : State} (hi : s.initialised = true) (hp : s.phase = .wait) :
    taskStep s = .next (if waitReady s then beginCycle s else s) := by
  simp only [taskStep, whenReady_of hi, hp]
  split <;> rfl

/-- Settles O46: by whether `WAIT` can return. -/
theorem waitReturns : Obligations.WaitReturns := by
  intro s hfree
  have ⟨hi, _, hp⟩ := hfree
  rw [exec_wait_eq hfree, taskStep_of_wait hi hp]
  refine ⟨fun hready => ?_, fun hwake hbound => ?_⟩
  · rw [if_pos (waitReady_eq_true.2 hready), if_pos (waitReady_eq_true.2 hready)]
    exact ⟨rfl, rfl⟩
  · have hblocked : ¬ waitReady s = true := by
      rw [waitReady_eq_true, hwake]
      rintro (h | h)
      · exact absurd h (by decide)
      · omega
    rw [if_neg hblocked, if_neg hblocked]
    exact ⟨rfl, rfl⟩

/-! ## The step (R70, R103) -/

/-- A schedule that has run out is refilled with the recurring moves (log 8). -/
theorem step_of_refill {s : State} (h : s.schedule = []) (hr : s.recurring ≠ []) :
    step s = step { s with schedule := s.recurring } := by
  have hbefore : nextMoves s = s.recurring := nextMoves_of_empty h
  have hafter : nextMoves { s with schedule := s.recurring } = s.recurring := nextMoves_of_schedule hr
  rw [step, step, hbefore, hafter]
  cases hm : s.recurring with
  | nil => exact absurd hm hr
  | cons m rest => cases m <;> rfl

/-- Settles O52: by the move at the head of the schedule. -/
theorem stepRunsDecoded : Obligations.StepRunsDecoded := by
  have hmoves : ∀ {s : State} {m : Move} {rest : List Move}, s.schedule = m :: rest → nextMoves s = m :: rest := fun h =>
    (nextMoves_of_schedule (by simp [h])).trans h
  refine ⟨fun s p rest i left h hd => ?_, fun s p rest e h hd => ?_, fun s rest h => ?_, fun s h hr => ?_, fun s h hr => ?_⟩
  · exact step_of_issue (hmoves h) hd
  · exact step_of_undecodable (hmoves h) hd
  · exact step_of_task (hmoves h)
  · exact step_of_refill h hr
  · exact step_of_empty ((nextMoves_of_empty h).trans hr)

end Sys2Proof.Proofs
end

section
/-! PROOFS. The loops of the cycle and the latch `wake`: what `PROCESS_PENDING` and `DRAIN` leave unchanged, and who clears a pending
wake (R73, R112, R181). -/

namespace Sys2Proof.Proofs

open Sys2Proof.Machine Sys2Proof.Laws

/-! ## What the loops leave unchanged -/

/-- The frame rule holds whatever stands in the queue (R188). -/
theorem rxFrame_withRxq {s t : State} (h : RxFrame s t) (q : List Frame) : RxFrame { s with rxq := q } { t with rxq := q } :=
  { h with rxq := rfl }

/-- `PROCESS_PENDING` leaves alone what `PROCESS_FRAME` does, the queue apart (R131). -/
theorem rxFrame_pendingTurns {n : Nat} {s t : State} (h : pendingTurns n s = .next t) : RxFrame { s with rxq := t.rxq } t := by
  induction n generalizing s with
  | zero => cases h; exact .rfl
  | succ n ih =>
    cases hq : s.rxq with
    | nil => rw [pendingTurns_of_empty _ hq] at h; cases h; exact rxFrame_unpop s
    | cons f rest =>
      rw [pendingTurns_of_cons _ hq] at h
      obtain ⟨u, hu, ht⟩ := andThen_eq_next.1 h
      have hframe := (processed_processFrame hu).toRxFrame
      have hstart : RxFrame { s with rxq := t.rxq } { s with rxq := t.rxq, popped := none } := rxFrame_unpop _
      exact (hstart.trans (rxFrame_withRxq hframe t.rxq)).trans (ih ht)

/-- A pass of `DRAIN` writes the queue, the pool, the mailboxes and the trace, nothing else (R162). -/
theorem drainPass_eq (s : State) : ∃ txq poolFree mboxFree log,
    (drainPass s).2 = { s with txq := txq, poolFree := poolFree, mboxFree := mboxFree, log := log } := by
  rcases drainPass_cases s with ⟨_, hp⟩ | ⟨e, rest, _, _, hp⟩ | ⟨e, rest, _, _, _, hp⟩ | ⟨e, rest, _, _, _, hp⟩ <;> rw [hp] <;>
    exact ⟨_, _, _, _, rfl⟩

theorem drainPasses_eq (n : Nat) (s : State) : ∃ txq poolFree mboxFree log,
    drainPasses n s = { s with txq := txq, poolFree := poolFree, mboxFree := mboxFree, log := log } := by
  induction n generalizing s with
  | zero => exact ⟨_, _, _, _, rfl⟩
  | succ n ih =>
    obtain ⟨txq, poolFree, mboxFree, log, hpass⟩ := drainPass_eq s
    unfold drainPasses
    split <;> rename_i t heq <;> rw [heq] at hpass <;> obtain rfl : t = _ := hpass
    · obtain ⟨_, _, _, _, hrest⟩ := ih { s with txq := txq, poolFree := poolFree, mboxFree := mboxFree, log := log }
      exact ⟨_, _, _, _, hrest⟩
    · exact ⟨_, _, _, _, rfl⟩

theorem drainPass_wake (s : State) : (drainPass s).2.wake = s.wake := by
  obtain ⟨_, _, _, _, heq⟩ := drainPass_eq s
  rw [heq]

theorem drainQueue_wake (s : State) : (drainQueue s).wake = s.wake := by
  obtain ⟨_, _, _, _, heq⟩ := drainPasses_eq (s.txq.length + 1) s
  rw [drainQueue, heq]

theorem applyCommand_wake (s : State) : (applyCommand s).wake = s.wake := by
  obtain ⟨_, _, heq⟩ := applyCommand_eq s
  rw [heq]

/-! ## The latch -/

theorem addSubscription_wake (sb : Subscription) (s : State) : (addSubscription sb s).wake = s.wake := by
  unfold addSubscription
  split
  · rfl
  · split <;> rfl

theorem enqueueCall_wake {subject transferId priority : Nat} {deadline : Time} {payload : List Byte} {s t : State}
    (h : enqueueCall subject transferId priority deadline payload s = .next t) : t.wake = s.wake := by
  unfold enqueueCall at h
  split at h <;> cases h
  exact (handled_enqueueItem _ s).wake

theorem storeFrame_wake {r : BusFrame} {s t : State} (h : storeFrame r s = .next t) : t.wake = s.wake := by
  obtain ⟨_, ⟨_, rfl⟩ | ⟨_, rfl⟩⟩ := storeFrame_eq_next.1 h
  · exact raiseError_wake _ s
  · rfl

/-- An instruction sets the latch or leaves it, but for `INIT`, `WAIT` and the cycle that begins with `WAIT`. -/
theorem exec_keeps_wake {i : Instr} {s t : State} (h : exec i s = .next t) (hw : s.wake = true) (hinit : i ≠ .init)
    (hwait : i ≠ .wait) (hcycle : i ≠ .taskCycle) : t.wake = true := by
  cases i <;> simp only [exec] at h
  case init => exact absurd rfl hinit
  case wait => exact absurd rfl hwait
  case taskCycle => exact absurd rfl hcycle
  case subscribe =>
    obtain ⟨_, _, h⟩ := whenHostRuns_eq_next.1 h
    split at h <;> cases h
    exact (addSubscription_wake _ s).trans hw
  case start =>
    obtain ⟨_, _, h⟩ := whenHostRuns_eq_next.1 h
    split at h <;> cases h <;> exact hw
  case rxIrq =>
    obtain ⟨_, _, h⟩ := whenInterruptEnabled_eq_next.1 h
    obtain ⟨_, u, _, rfl⟩ := takeInterrupt_eq_next.1 h
    exact signalWake_wake u
  case onFrameReceived =>
    obtain ⟨_, _, h⟩ := whenInterruptEnabled_eq_next.1 h
    split at h <;> try cases h
    split at h
    · cases h
    · rename_i hpull
      obtain ⟨rest, _, rfl⟩ := nextRx_eq_some.1 hpull
      exact (storeFrame_wake h).trans hw
  case wakeSignal =>
    obtain ⟨_, _, h⟩ := whenInterruptEnabled_eq_next.1 h
    cases h; rfl
  case rxPop =>
    obtain ⟨_, _, _, h⟩ := whenTaskFree_eq_next.1 h
    cases h; exact (popFrame_wake s).trans hw
  case processPending =>
    obtain ⟨_, _, _, h⟩ := whenTaskFree_eq_next.1 h
    exact (rxFrame_pendingTurns h).wake.trans hw
  case processFrame =>
    obtain ⟨_, _, _, h⟩ := whenTaskFree_eq_next.1 h
    split at h
    · cases h
    · exact (processed_processFrame h).wake.trans hw
  case deliver =>
    obtain ⟨_, h⟩ := whenReady_eq_next.1 h
    split at h
    · cases h
    · exact (processed_deliverTransfer h).wake.trans hw
  case noteDecodeError =>
    obtain ⟨_, h⟩ := whenReady_eq_next.1 h
    split at h
    · cases h
    · obtain ⟨_, h⟩ := whenTaskCodeRuns_eq_next.1 h
      cases h; exact hw
  case enqueue =>
    obtain ⟨_, h⟩ := whenReady_eq_next.1 h
    exact (enqueueCall_wake (whenTaskCodeRuns_eq_next.1 h).2).trans hw
  case drain =>
    obtain ⟨_, _, _, h⟩ := whenTaskFree_eq_next.1 h
    obtain ⟨_, rfl⟩ := drainCall_eq_next.1 h
    exact (drainQueue_wake s).trans hw
  case txPush =>
    obtain ⟨_, _, _, h⟩ := whenTaskFree_eq_next.1 h
    split at h
    · cases h
    · rename_i e _ _
      split at h
      · cases h
      · split at h
        · rcases pushFrame_eq (build s.params e) s with ⟨_, hp⟩ | ⟨_, hp⟩ <;> rw [hp] at h <;> cases h <;> exact hw
        · cases h
  case apply =>
    obtain ⟨_, _, _, h⟩ := whenTaskFree_eq_next.1 h
    cases h; exact (applyCommand_wake s).trans hw
  case tick | bus =>
    obtain ⟨_, h⟩ := whenReady_eq_next.1 h
    split at h <;> cases h
    exact hw
  case canidSubjectMatch =>
    obtain ⟨_, h⟩ := whenReady_eq_next.1 h
    split at h <;> cases h <;> exact hw
  case readDropped | readDecodeErrors | readTimeouts | mbox =>
    obtain ⟨_, h⟩ := whenReady_eq_next.1 h
    cases h; exact hw
  all_goals (cases h; exact hw)

theorem drainRxStep_wake {s t : State} (h : drainRxStep s = .next t) : t.wake = s.wake := by
  unfold drainRxStep at h
  split at h
  · exact (processed_deliverTransfer h).wake
  · split at h
    · exact (processed_processFrame h).wake
    · split at h <;> cases h <;> exact popFrame_wake s

theorem drainTxStep_wake {s t : State} (h : drainTxStep s = .next t) : t.wake = s.wake := by
  obtain ⟨_, rfl⟩ := drainTxStep_eq_next.1 h
  split <;> exact drainPass_wake s

/-- TASK's step leaves the latch as it is, except where it leaves `WAIT` (R181). -/
theorem taskStep_wake {s t : State} (h : taskStep s = .next t) : t.wake = s.wake ∨ (s.phase = .wait ∧ t.phase = .drainRx) := by
  obtain ⟨_, h⟩ := whenReady_eq_next.1 h
  cases hphase : s.phase <;> simp only [hphase] at h
  case idle => cases h; exact .inl rfl
  case wait =>
    split at h <;> cases h
    · exact .inr ⟨rfl, rfl⟩
    · exact .inl rfl
  case drainRx => exact .inl (drainRxStep_wake h)
  case drainTx => exact .inl (drainTxStep_wake h)
  case apply => cases h; exact .inl (applyCommand_wake s)

/-- Settles O23: instruction by instruction, and by TASK's phases. -/
theorem wakeNeverLost : Obligations.WakeNeverLost :=
  ⟨fun _ _ _ => exec_keeps_wake, fun _ _ h hw => (taskStep_wake h).imp_left fun hsame => hsame.trans hw⟩

end Sys2Proof.Proofs
end

section
/-! PROOFS. A whole `TASK_CYCLE` is the run of TASK's single steps (R70, R180): each phase of the cycle is, step by step, the loop
that the whole cycle runs, and the flag of being inside an operation is reset where the phase ends (log 40). -/

namespace Sys2Proof.Proofs

open Sys2Proof.Machine Sys2Proof.Laws

/-! ## Runs of steps -/

/-- Some number of steps from the state ends as `o`. -/
def StepsTo (s : State) (o : Result) : Prop := ∃ n, runSteps n s = o

theorem runSteps_add (m n : Nat) (s : State) : runSteps (m + n) s = andThen (runSteps m s) (runSteps n) := by
  induction m generalizing s with
  | zero => rw [Nat.zero_add]; rfl
  | succ m ih =>
    rw [Nat.add_right_comm, runSteps, runSteps, andThen_assoc]
    congr 1
    funext t
    exact ih t

theorem stepsTo_of_step {s : State} {o : Result} (h : step s = o) : StepsTo s o :=
  ⟨1, by rw [runSteps, h]; cases o <;> rfl⟩

/-- A run goes on where it ended, and stays stopped where it stopped. -/
theorem StepsTo.andThen {s : State} {o : Result} {k : State → Result} (h : StepsTo s o)
    (hk : ∀ t, o = .next t → StepsTo t (k t)) : StepsTo s (andThen o k) := by
  obtain ⟨m, rfl⟩ := h
  cases hm : runSteps m s with
  | next t =>
    obtain ⟨n, hn⟩ := hk t hm
    exact ⟨m + n, by rw [runSteps_add, hm]; exact hn⟩
  | fault r => exact ⟨m, hm⟩
  | refused r => exact ⟨m, hm⟩

/-- The first step completes, and the run goes on. -/
theorem StepsTo.cons {s t : State} {o : Result} (hs : step s = .next t) (h : StepsTo t o) : StepsTo s o :=
  (stepsTo_of_step hs).andThen (k := fun _ => o) fun u hu => by cases hu; exact h

/-- `INIT` has been issued and no move is to come: every step is one of TASK. -/
structure TaskAlone (s : State) : Prop where
  initialised : s.initialised = true
  schedule : s.schedule = []
  recurring : s.recurring = []

theorem TaskAlone.step_eq {s : State} (h : TaskAlone s) : step s = taskStep s :=
  step_of_empty ((nextMoves_of_empty h.schedule).trans h.recurring)

theorem TaskAlone.of_rxFrame {s t : State} (h : TaskAlone s) (hf : RxFrame s t) : TaskAlone t :=
  ⟨hf.initialised.trans h.initialised, hf.schedule.trans h.schedule, hf.recurring.trans h.recurring⟩

theorem andThen_congr {o : Result} {k l : State → Result} (h : ∀ t, o = .next t → k t = l t) : andThen o k = andThen o l := by
  cases o with
  | next t => exact h t rfl
  | fault r => rfl
  | refused r => rfl

/-! ## DRAIN_RX -/

/-- TASK in DRAIN_RX, about to pop (R131). -/
structure Popping (s : State) : Prop extends TaskAlone s where
  phase : s.phase = .drainRx
  delivering : s.delivering = none
  popped : s.popped = none

/-- The state between the pop of a frame and its `PROCESS_FRAME`. -/
def holding (f : Frame) (rest : List Frame) (s : State) : State :=
  { s with rxq := rest, popped := some f, midPhase := true }

theorem Popping.step_eq_drainRxStep {s : State} (h : Popping s) : step s = drainRxStep s := by
  rw [h.step_eq, taskStep, whenReady_of h.initialised, h.phase]

theorem Popping.step_of_empty {s : State} (h : Popping s) (hq : s.rxq = []) :
    step s = .next (enterPhase .drainTx { s with popped := none }) := by
  rw [h.step_eq_drainRxStep]
  simp only [drainRxStep, h.delivering, h.popped, popFrame_of_empty hq]

theorem Popping.step_of_cons {s : State} (h : Popping s) {f : Frame} {rest : List Frame} (hq : s.rxq = f :: rest) :
    step s = .next (holding f rest s) := by
  rw [h.step_eq_drainRxStep]
  simp only [drainRxStep, h.delivering, h.popped, popFrame_of_cons hq, holding]

theorem Popping.step_holding {s : State} (h : Popping s) (f : Frame) (rest : List Frame) :
    step (holding f rest s) = processFrame f { s with rxq := rest, popped := none, midPhase := true } := by
  have halone : TaskAlone (holding f rest s) := ⟨h.initialised, h.schedule, h.recurring⟩
  rw [halone.step_eq]
  exact taskStep_of_popped (s := holding f rest s) h.initialised h.phase h.delivering rfl

/-- After `PROCESS_FRAME` TASK pops again. -/
theorem Popping.of_processed {s t : State} (h : Popping s) (ht : Processed s t) : Popping t where
  toTaskAlone := h.toTaskAlone.of_rxFrame ht.toRxFrame
  phase := ht.phase.trans h.phase
  delivering := ht.delivering
  popped := ht.popped.trans h.popped

/-- `PROCESS_PENDING` is one `PROCESS_FRAME` and `PROCESS_PENDING` again (R131). -/
theorem processQueue_of_cons {s : State} {f : Frame} {rest : List Frame} (hq : s.rxq = f :: rest) :
    processQueue s = andThen (processFrame f { s with rxq := rest, popped := none }) processQueue := by
  rw [processQueue, pendingTurns_of_cons _ hq, hq]
  refine andThen_congr fun t ht => ?_
  have hrest : t.rxq = rest := (processed_processFrame ht).rxq
  rw [processQueue, hrest]
  rfl

/-- The end of DRAIN_RX forgets whether TASK was inside its operation. -/
theorem processQueue_enterPhase (s : State) (b : Bool) (p : Phase) :
    (andThen (processQueue { s with midPhase := b }) fun t => .next (enterPhase p t))
      = andThen (processQueue s) fun t => .next (enterPhase p t) := by
  have key : ∀ c, (andThen (processQueue { s with midPhase := c }) fun t => .next (enterPhase p t))
      = andThen (processQueue s) fun t => .next { enterPhase p t with waitStart := s.waitStart } := fun c => by
    rw [processQueue, pendingTurns_phase (s.rxq.length + 1) s s.phase c s.waitStart, andThen_assoc]
    rfl
  exact (key b).trans (key s.midPhase).symm

/-- The steps of DRAIN_RX are the loop of `PROCESS_PENDING` (R131). -/
theorem Popping.stepsTo_processQueue {s : State} (h : Popping s) :
    StepsTo s (andThen (processQueue s) fun t => .next (enterPhase .drainTx t)) := by
  induction hq : s.rxq generalizing s with
  | nil =>
    rw [processQueue, pendingTurns_of_empty _ hq, andThen_next_left]
    exact stepsTo_of_step (h.step_of_empty hq)
  | cons f rest ih =>
    have hnext : Popping { s with rxq := rest, popped := none, midPhase := true } :=
      ⟨⟨h.initialised, h.schedule, h.recurring⟩, h.phase, h.delivering, rfl⟩
    have hframe := stepsTo_of_step (h.step_holding f rest)
    rw [← processQueue_enterPhase s true, processQueue_of_cons (s := { s with midPhase := true }) hq, andThen_assoc]
    refine .cons (h.step_of_cons hq) (hframe.andThen fun t ht => ?_)
    have hp := processed_processFrame ht
    exact ih (hnext.of_processed hp) hp.rxq

/-! ## DRAIN_TX -/

/-- TASK in DRAIN_TX, about to make a pass (R162). -/
structure Draining (s : State) : Prop extends TaskAlone s where
  phase : s.phase = .drainTx

/-- A pass does the same wherever TASK stands in its phase. -/
theorem drainPass_midPhase (s : State) (b : Bool) :
    drainPass { s with midPhase := b } = ((drainPass s).1, { (drainPass s).2 with midPhase := b }) := by
  cases hq : s.txq with
  | nil => simp [drainPass, hq]
  | cons e rest =>
    cases hx : expired s.now e with
    | true => simp [drainPass, hq, hx, dropHead, poolFreeOne, raiseError, errorEffect, emit]
    | false =>
      by_cases hm : s.mboxFree = 0
      · simp [drainPass, pushFrame, hq, hx, hm, raiseError, errorEffect, emit]
      · simp [drainPass, pushFrame, hq, hx, hm, dropHead, poolFreeOne, emit]

theorem drainPasses_midPhase (n : Nat) (s : State) (b : Bool) :
    drainPasses n { s with midPhase := b } = { drainPasses n s with midPhase := b } := by
  induction n generalizing s with
  | zero => rfl
  | succ n ih =>
    rw [drainPasses, drainPasses, drainPass_midPhase]
    rcases drainPass s with ⟨_ | _, t⟩
    · rfl
    · exact ih t

/-- The end of DRAIN_TX forgets whether TASK was inside its operation. -/
theorem drainCall_enterPhase (s : State) (b : Bool) (p : Phase) :
    (andThen (drainCall { s with midPhase := b }) fun t => .next (enterPhase p t))
      = andThen (drainCall s) fun t => .next (enterPhase p t) := by
  have hqueue : drainQueue { s with midPhase := b } = { drainQueue s with midPhase := b } := drainPasses_midPhase _ s b
  have hhangs : drainHangs { s with midPhase := b } = drainHangs s := rfl
  rw [drainCall, drainCall, hqueue, hhangs]
  split <;> rfl

/-- After a pass that is not the last, the queue is shorter by its head. -/
theorem txq_of_drainPass {s : State} (h : (drainPass s).1 = true) : ∃ e, s.txq = e :: (drainPass s).2.txq := by
  rcases drainPass_cases s with ⟨_, hp⟩ | ⟨e, rest, hq, _, hp⟩ | ⟨e, rest, _, _, _, hp⟩ | ⟨e, rest, hq, _, _, hp⟩ <;> rw [hp] at h ⊢
  · cases h
  · exact ⟨e, hq⟩
  · cases h
  · exact ⟨e, hq⟩

/-- `DRAIN` is one pass and, where another follows, `DRAIN` again (R162). -/
theorem drainCall_eq (s : State) :
    drainCall s = if passHangs s then .fault .portNeverReturns
      else if (drainPass s).1 then drainCall (drainPass s).2 else .next (drainPass s).2 := by
  rcases drainPass_cases s with ⟨hq, hp⟩ | ⟨e, rest, hq, hx, hp⟩ | ⟨e, rest, hq, hx, _, hp⟩ | ⟨e, rest, hq, hx, _, hp⟩
  · simp [drainCall, drainHangs, passHangs, drainQueue, drainPasses, hq, hp]
  · simp [drainCall, drainHangs, passHangs, drainQueue, drainPasses, hq, hx, hp]
  · cases hport : s.params.txPortReturns <;> simp [drainCall, drainHangs, passHangs, drainQueue, drainPasses, hq, hx, hp, hport]
  · cases hport : s.params.txPortReturns <;> simp [drainCall, drainHangs, passHangs, drainQueue, drainPasses, hq, hx, hp, hport]

theorem Draining.step_eq_pass {s : State} (h : Draining s) :
    step s = if passHangs s then .fault .portNeverReturns
      else if (drainPass s).1 then .next { (drainPass s).2 with midPhase := true }
        else .next (enterPhase .apply (drainPass s).2) := by
  rw [h.step_eq, taskStep, whenReady_of h.initialised, h.phase]
  dsimp only
  rw [drainTxStep]
  rcases drainPass s with ⟨_ | _, t⟩ <;> rfl

theorem Draining.of_drainPass {s : State} (h : Draining s) : Draining { (drainPass s).2 with midPhase := true } := by
  obtain ⟨_, _, _, _, heq⟩ := drainPass_eq s
  rw [heq]
  exact ⟨⟨h.initialised, h.schedule, h.recurring⟩, h.phase⟩

/-- The steps of DRAIN_TX are the loop of `DRAIN` (R162). -/
theorem Draining.stepsTo_drainCall {s : State} (h : Draining s) :
    StepsTo s (andThen (drainCall s) fun t => .next (enterPhase .apply t)) := by
  induction hn : s.txq.length using Nat.strong_induction_on generalizing s with
  | _ n ih =>
    have hstep := h.step_eq_pass
    rw [drainCall_eq]
    by_cases hhangs : passHangs s = true
    · rw [if_pos hhangs] at hstep ⊢
      exact stepsTo_of_step hstep
    rw [if_neg hhangs] at hstep ⊢
    by_cases hpass : (drainPass s).1 = true
    · obtain ⟨e, hq⟩ := txq_of_drainPass hpass
      have hshorter : (drainPass s).2.txq.length < n := by rw [← hn, hq]; exact Nat.lt_succ_self _
      rw [if_pos hpass] at hstep ⊢
      rw [← drainCall_enterPhase _ true]
      exact .cons hstep (ih _ hshorter h.of_drainPass rfl)
    · rw [if_neg hpass] at hstep ⊢
      exact stepsTo_of_step hstep

/-! ## The cycle -/

theorem pendingTurns_alone {n : Nat} {s t : State} (h : TaskAlone s) (hn : pendingTurns n s = .next t) : TaskAlone t :=
  .of_rxFrame (s := { s with rxq := t.rxq }) ⟨h.initialised, h.schedule, h.recurring⟩ (rxFrame_pendingTurns hn)

theorem drainCall_alone {s t : State} (h : TaskAlone s) (hn : drainCall s = .next t) : TaskAlone t := by
  obtain ⟨_, rfl⟩ := drainCall_eq_next.1 hn
  obtain ⟨_, _, _, _, heq⟩ := drainPasses_eq (s.txq.length + 1) s
  rw [drainQueue, heq]
  exact ⟨h.initialised, h.schedule, h.recurring⟩

theorem TaskAlone.enterPhase {s : State} (h : TaskAlone s) (p : Phase) : TaskAlone (enterPhase p s) :=
  ⟨h.initialised, h.schedule, h.recurring⟩

/-- The step of TASK in APPLY ends the cycle (R183). -/
theorem TaskAlone.stepsTo_endCycle {s : State} (h : TaskAlone s) (hp : s.phase = .apply) :
    StepsTo s (.next (endCycle (applyCommand s))) := by
  refine stepsTo_of_step ?_
  rw [h.step_eq, taskStep, whenReady_of h.initialised, hp]

/-- The cycle as its phases, each ending where the next begins (R180). -/
theorem runCycle_eq_phases (s : State) :
    runCycle s = andThen (andThen (processQueue (beginCycle s)) fun t => .next (enterPhase .drainTx t)) fun u =>
      andThen (andThen (drainCall u) fun t => .next (enterPhase .apply t)) fun v => .next (endCycle (applyCommand v)) := by
  simp only [runCycle, andThen_assoc, andThen_next_left]

theorem exec_taskCycle_of_ready {s : State} (h : taskFree s) (hready : waitReady s = true) : exec .taskCycle s = runCycle s := by
  obtain ⟨hi, hd, hp⟩ := h
  simp only [exec, execTaskCycle, whenTaskFree_of hi hd hp, hready, if_true]

/-- Settles O48: phase by phase, each as its loop. -/
theorem cycleIsItsSteps : Obligations.CycleIsItsSteps := by
  intro s hfree hready hschedule hrecurring
  have ⟨hi, hd, hp⟩ := hfree
  have halone : TaskAlone s := ⟨hi, hschedule, hrecurring⟩
  have hbegin : step s = .next (beginCycle s) := by
    rw [halone.step_eq, taskStep_of_wait hi hp, if_pos hready]
  have hpopping : Popping (beginCycle s) := ⟨⟨hi, hschedule, hrecurring⟩, rfl, hd, rfl⟩
  rw [exec_taskCycle_of_ready hfree hready, runCycle_eq_phases]
  refine StepsTo.cons hbegin (hpopping.stepsTo_processQueue.andThen fun u hu => ?drainTx)
  case drainTx =>
    obtain ⟨t, ht, hphase⟩ := andThen_eq_next.1 hu
    cases hphase
    have hdraining : Draining (enterPhase .drainTx t) := ⟨(pendingTurns_alone hpopping.toTaskAlone ht).enterPhase .drainTx, rfl⟩
    refine hdraining.stepsTo_drainCall.andThen fun v hv => ?apply
    obtain ⟨w, hw, hphase⟩ := andThen_eq_next.1 hv
    cases hphase
    exact ((drainCall_alone hdraining.toTaskAlone hw).enterPhase .apply).stepsTo_endCycle rfl

end Sys2Proof.Proofs
end

section
/-! PROOFS. The decoder and the encoder are inverse (R81 to R87, R100 to R103): each reader of operands answers exactly on
what the encoder writes, so a packet decodes to an instruction exactly when it begins with the instruction's encoding. -/

namespace Sys2Proof.Proofs

open Sys2Proof.Laws

theorem bind_eq_ok {ε α β : Type} {o : Except ε α} {k : α → Except ε β} {b : β} :
    (o >>= k) = .ok b ↔ ∃ a, o = .ok a ∧ k a = .ok b := by
  cases o <;> simp [bind, Except.bind]

/-! ## Operands -/

/-- Writing `n` bytes drops what lies above them. -/
theorem beBytes_mul_add (n a v : Nat) : beBytes n (a * 256 ^ n + v) = beBytes n v := by
  induction n generalizing a with
  | zero => rfl
  | succ n ih =>
    have hpos : 0 < 256 ^ n := by positivity
    have hshift : a * 256 ^ (n + 1) + v = a * 256 * 256 ^ n + v := by ring
    rw [beBytes, beBytes, hshift, ih (a * 256)]
    congr 1
    apply BitVec.eq_of_toNat_eq
    rw [Nat.mul_comm, Nat.mul_add_div hpos, BitVec.toNat_ofNat, BitVec.toNat_ofNat, Nat.mul_comm a,
      Nat.mul_add_mod_self_left]

theorem beBytes_beNat (bs : List Byte) : beBytes bs.length (beNat bs) = bs := by
  induction bs with
  | nil => rfl
  | cons b bs ih =>
    have hpos : 0 < 256 ^ bs.length := by positivity
    have hhead : (b.toNat * 256 ^ bs.length + beNat bs) / 256 ^ bs.length = b.toNat := by
      rw [Nat.mul_comm, Nat.mul_add_div hpos, Nat.div_eq_of_lt (beNat_lt bs), Nat.add_zero]
    rw [List.length_cons, beNat_cons, beBytes, beBytes_mul_add, ih, hhead, BitVec.ofNat_toNat, BitVec.setWidth_eq]

theorem beBytes_one (v : Nat) : beBytes 1 v = [BitVec.ofNat 8 v] := by simp [beBytes]

theorem takeBytes_eq_ok {n : Nat} {bs w rest : List Byte} :
    takeBytes n bs = .ok (w, rest) ↔ w.length = n ∧ bs = w ++ rest := by
  constructor
  · unfold takeBytes
    split <;> rename_i hn
    · intro h; cases h
      exact ⟨List.length_take_of_le hn, (List.take_append_drop n bs).symm⟩
    · simp
  · rintro ⟨hw, rfl⟩
    exact takeBytes_append hw rest

theorem takeNat_eq_ok {n v : Nat} {bs rest : List Byte} :
    takeNat n bs = .ok (v, rest) ↔ v < 256 ^ n ∧ bs = beBytes n v ++ rest := by
  constructor
  · simp only [takeNat, bind_eq_ok, Prod.exists, takeBytes_eq_ok]
    rintro ⟨w, _, ⟨rfl, rfl⟩, h⟩
    cases h
    exact ⟨beNat_lt w, by rw [beBytes_beNat]⟩
  · rintro ⟨hv, rfl⟩
    exact takeNat_append hv rest

theorem takeId_eq_ok {bs rest : List Byte} {id : CanId} :
    takeId bs = .ok (id, rest) ↔ bs = beBytes 4 id.toNat ++ rest := by
  constructor
  · simp only [takeId, bind_eq_ok, Prod.exists, takeNat_eq_ok]
    rintro ⟨v, _, ⟨_, rfl⟩, h⟩
    split at h <;> rename_i hv
    · cases h; rw [BitVec.toNat_ofNat, Nat.mod_eq_of_lt hv]
    · cases h
  · rintro rfl
    exact takeId_append id rest

/-! ## Statements with operands -/

/-- The bytes behind a code that a decoder reads as `i` and `rest`: `i` is well formed, and the code and the bytes are its
encoding followed by `rest`. -/
def StatementReads (code : Byte) (bs : List Byte) (i : Instr) (rest : List Byte) : Prop :=
  i.wellFormed = true ∧ (encode i).fmt = .statement ∧ (encode i).bytes ++ rest = code :: bs

theorem decodeSubscribe_reads {bs rest : List Byte} {i : Instr} (h : decodeSubscribe bs = .ok (i, rest)) :
    StatementReads 0x01 bs i rest := by
  simp only [decodeSubscribe, bind_eq_ok, Prod.exists, takeNat_eq_ok] at h
  obtain ⟨subject, _, ⟨_, rfl⟩, extent, _, ⟨he, rfl⟩, timeout, _, ⟨ht, rfl⟩, tag, _, ⟨_, rfl⟩, h⟩ := h
  split at h <;> rename_i hs
  · cases h
    have hw : (BitVec.ofNat 64 timeout).toNat = timeout := by rw [BitVec.toNat_ofNat, Nat.mod_eq_of_lt (by omega)]
    refine ⟨?_, rfl, ?_⟩
    · simp only [Instr.wellFormed, hw, Bool.and_eq_true, decide_eq_true_eq]; omega
    · simp only [encode, hw, beBytes_one, List.cons_append, List.append_assoc]
  · cases h

theorem decodeEnqueue_reads {bs rest : List Byte} {i : Instr} (h : decodeEnqueue bs = .ok (i, rest)) :
    StatementReads 0x30 bs i rest := by
  simp only [decodeEnqueue, bind_eq_ok, Prod.exists, takeNat_eq_ok, takeBytes_eq_ok] at h
  obtain ⟨subject, _, ⟨_, rfl⟩, transferId, _, ⟨ht, rfl⟩, priority, _, ⟨_, rfl⟩, deadline, _, ⟨hd, rfl⟩, _, _, ⟨_, rfl⟩,
    payload, _, ⟨rfl, rfl⟩, h⟩ := h
  split at h
  · cases h
  split at h
  · cases h
  split at h
  · cases h
  cases h
  have hw : (BitVec.ofNat 64 deadline).toNat = deadline := by rw [BitVec.toNat_ofNat, Nat.mod_eq_of_lt (by omega)]
  refine ⟨?_, rfl, ?_⟩
  · simp only [Instr.wellFormed, Bool.and_eq_true, decide_eq_true_eq]; omega
  · simp only [encode, hw, List.cons_append, List.append_assoc]

theorem decodeTick_reads {bs rest : List Byte} {i : Instr} (h : decodeTick bs = .ok (i, rest)) :
    StatementReads 0x60 bs i rest := by
  simp only [decodeTick, bind_eq_ok, Prod.exists, takeNat_eq_ok] at h
  obtain ⟨n, _, ⟨hn, rfl⟩, h⟩ := h
  cases h
  exact ⟨decide_eq_true hn, rfl, rfl⟩

theorem decodeBus_reads {bs rest : List Byte} {i : Instr} (h : decodeBus bs = .ok (i, rest)) :
    StatementReads 0x61 bs i rest := by
  simp only [decodeBus, bind_eq_ok, Prod.exists, takeId_eq_ok, takeNat_eq_ok, takeBytes_eq_ok] at h
  obtain ⟨id, _, rfl, _, _, ⟨_, rfl⟩, data, _, ⟨rfl, rfl⟩, h⟩ := h
  split at h <;> rename_i hlen
  · cases h
  · cases h
    exact ⟨decide_eq_true (Nat.not_lt.1 hlen), rfl, by simp only [encode, List.cons_append, List.append_assoc]⟩

theorem decodeMbox_reads {bs rest : List Byte} {i : Instr} (h : decodeMbox bs = .ok (i, rest)) :
    StatementReads 0x62 bs i rest := by
  simp only [decodeMbox, bind_eq_ok, Prod.exists, takeNat_eq_ok] at h
  obtain ⟨n, _, ⟨hn, rfl⟩, h⟩ := h
  cases h
  exact ⟨decide_eq_true hn, rfl, rfl⟩

theorem decodeSubscribe_encode {subject extent : Nat} {timeout : Time} (tag : Byte) (rest : List Byte) (hs : subject ≤ 8191)
    (he : extent < 65536) (ht : timeout.toNat < 4294967296) :
    decodeSubscribe (beBytes 2 subject ++ beBytes 2 extent ++ beBytes 4 timeout.toNat ++ [tag] ++ rest)
      = .ok (.subscribe subject extent timeout tag, rest) := by
  have htag : [tag] = beBytes 1 tag.toNat := by simp [beBytes_one]
  simp only [decodeSubscribe, bind_eq_ok, Prod.exists, takeNat_eq_ok, List.append_assoc, htag]
  exact ⟨subject, _, ⟨by omega, rfl⟩, extent, _, ⟨he, rfl⟩, timeout.toNat, _, ⟨ht, rfl⟩, tag.toNat, rest, ⟨tag.isLt, rfl⟩,
    by simp [hs, pure, Except.pure]⟩

theorem decodeEnqueue_encode {subject transferId priority : Nat} (deadline : Time) {payload : List Byte} (rest : List Byte)
    (hs : subject ≤ 8191) (ht : transferId < 256) (hp : priority ≤ 7) (hl : payload.length ≤ 63) :
    decodeEnqueue (beBytes 2 subject ++ beBytes 1 transferId ++ beBytes 1 priority ++ beBytes 8 deadline.toNat
        ++ beBytes 1 payload.length ++ payload ++ rest)
      = .ok (.enqueue subject transferId priority deadline payload, rest) := by
  simp only [decodeEnqueue, bind_eq_ok, Prod.exists, takeNat_eq_ok, takeBytes_eq_ok, List.append_assoc]
  exact ⟨subject, _, ⟨by omega, rfl⟩, transferId, _, ⟨ht, rfl⟩, priority, _, ⟨by omega, rfl⟩, deadline.toNat, _,
    ⟨deadline.isLt, rfl⟩, payload.length, _, ⟨by omega, rfl⟩, payload, rest, ⟨rfl, rfl⟩,
    by simp [Nat.not_lt.2 hs, Nat.not_lt.2 hp, Nat.not_lt.2 hl, pure, Except.pure]⟩

theorem decodeTick_encode {n : Nat} (hn : n < 4294967296) (rest : List Byte) :
    decodeTick (beBytes 4 n ++ rest) = .ok (.tick n, rest) := by
  simp only [decodeTick, bind_eq_ok, Prod.exists, takeNat_eq_ok]
  exact ⟨n, rest, ⟨hn, rfl⟩, rfl⟩

theorem decodeBus_encode (id : CanId) {data : List Byte} (hl : data.length ≤ 64) (rest : List Byte) :
    decodeBus (beBytes 4 id.toNat ++ beBytes 1 data.length ++ data ++ rest) = .ok (.bus id data, rest) := by
  simp only [decodeBus, bind_eq_ok, Prod.exists, takeId_eq_ok, takeNat_eq_ok, takeBytes_eq_ok, List.append_assoc]
  exact ⟨id, _, rfl, data.length, _, ⟨by omega, rfl⟩, data, rest, ⟨rfl, rfl⟩, by simp [Nat.not_lt.2 hl, pure, Except.pure]⟩

theorem decodeMbox_encode {n : Nat} (hn : n < 256) (rest : List Byte) :
    decodeMbox (beBytes 1 n ++ rest) = .ok (.mbox n, rest) := by
  simp only [decodeMbox, bind_eq_ok, Prod.exists, takeNat_eq_ok]
  exact ⟨n, rest, ⟨hn, rfl⟩, rfl⟩

/-! ## Statements -/

/-- A statement without operands is its code byte. -/
theorem statementReads_bare {code : Byte} {bs : List Byte} {i : Instr} (hwf : i.wellFormed = true)
    (h : encode i = bareCode code) : StatementReads code bs i bs := by
  rw [StatementReads, h]
  exact ⟨hwf, rfl, rfl⟩

/-- What the decoder of statements answers, by the code: the five codes with operands, the bare ones, and no other. -/
theorem decodeStatement_reads {code : Byte} {bs rest : List Byte} {i : Instr}
    (h : decodeStatement (code :: bs) = .ok (i, rest)) : StatementReads code bs i rest := by
  obtain ⟨n, hn⟩ : ∃ n, code.toNat = n := ⟨_, rfl⟩
  have hcode : code = BitVec.ofNat 8 n := by rw [← hn, BitVec.ofNat_toNat, BitVec.setWidth_eq]
  rw [decodeStatement, hn] at h
  subst hcode
  clear hn
  split at h
  case h_2 => exact decodeSubscribe_reads h
  case h_12 => exact decodeEnqueue_reads h
  case h_21 => exact decodeTick_reads h
  case h_22 => exact decodeBus_reads h
  case h_23 => exact decodeMbox_reads h
  case h_24 => cases h
  all_goals cases h; exact statementReads_bare rfl rfl

/-! ## Identifiers and tail bytes -/

theorem messageId_fields {id : CanId} (h : idSvc id = false) :
    messageId (idPrio id) (idAnon id) (idR23 id) (idR21 id) (idSubject id) (idR7 id) (idSrcBits id) = id := by
  have hsvc : id[25] = false := h
  refine BitVec.eq_of_getLsbD_eq fun k hk => ?_
  rw [messageId_getLsbD]
  simp only [idPrio, idAnon, idR23, idR21, idSubject, idR7, idSrcBits, BitVec.getLsbD_extractLsb']
  interval_cases k <;> simp [hsvc]

theorem serviceId_fields {id : CanId} (h : idSvc id = true) :
    serviceId (idPrio id) (idAnon id) (idR23 id) (idService id) (idDst id) (idSrcBits id) = id := by
  have hsvc : id[25] = true := h
  refine BitVec.eq_of_getLsbD_eq fun k hk => ?_
  rw [serviceId_getLsbD]
  simp only [idPrio, idAnon, idR23, idService, idDst, idSrcBits, BitVec.getLsbD_extractLsb']
  interval_cases k <;> simp [hsvc]

theorem tailByte_fields (t : Byte) : tailByte (tailSot t) (tailEot t) (tailTog t) (tailTid t) = t := by
  refine BitVec.eq_of_getLsbD_eq fun k hk => ?_
  rw [tailByte_getLsbD]
  simp only [tailSot, tailEot, tailTog, tailTid, BitVec.getLsbD_extractLsb']
  interval_cases k <;> simp

theorem decodeIdentifier_wellFormed (id : CanId) : (decodeIdentifier id).wellFormed = true := by
  unfold decodeIdentifier; split <;> rfl

theorem encode_decodeIdentifier (id : CanId) : encode (decodeIdentifier id) = ⟨.identifier, beBytes 4 id.toNat⟩ := by
  unfold decodeIdentifier
  split <;> rename_i h
  · rw [encode, serviceId_fields h]
  · rw [encode, messageId_fields (Bool.not_eq_true _ ▸ h)]

/-- An identifier of the match pattern is its fields, with `svc`, `r23` and `r7` 0 (R84). -/
theorem encode_of_decodeSubjectMatch {id : CanId} {i : Instr} (h : decodeSubjectMatch id = .ok i) :
    i.wellFormed = true ∧ encode i = ⟨.subjectMatch, beBytes 4 id.toNat⟩ := by
  unfold decodeSubjectMatch at h
  split at h <;> rename_i hbits
  · cases h
  · cases h
    simp only [Bool.or_eq_true, not_or, Bool.not_eq_true] at hbits
    obtain ⟨⟨hsvc, hr23⟩, hr7⟩ := hbits
    have hfields := messageId_fields hsvc
    rw [hr23, hr7] at hfields
    exact ⟨rfl, by rw [encode, hfields]⟩

theorem decodeTail_wellFormed (t : Byte) : (decodeTail t).wellFormed = true := by
  unfold decodeTail; split <;> rfl

theorem encode_decodeTail (t : Byte) : encode (decodeTail t) = ⟨.tail, [t]⟩ := by
  have hfields := tailByte_fields t
  unfold decodeTail
  split <;> rename_i hsot heot <;> rw [hsot, heot] at hfields <;> rw [encode, hfields]

theorem decode_identifier (id : CanId) (rest : List Byte) :
    decode ⟨.identifier, beBytes 4 id.toNat ++ rest⟩ = .ok (decodeIdentifier id, rest) := by
  simp only [decode, bind_eq_ok, Prod.exists, takeId_eq_ok]
  exact ⟨id, rest, rfl, rfl⟩

theorem decode_subjectMatch {id : CanId} {i : Instr} (h : decodeSubjectMatch id = .ok i) (rest : List Byte) :
    decode ⟨.subjectMatch, beBytes 4 id.toNat ++ rest⟩ = .ok (i, rest) := by
  simp only [decode, bind_eq_ok, Prod.exists, takeId_eq_ok]
  exact ⟨id, rest, rfl, i, h, rfl⟩

theorem decodeIdentifier_messageId (prio : Priority) (anon r23 : Bool) (r21 : BitVec 2) (subject : Subject) (r7 : Bool)
    (src : SourceId) :
    decodeIdentifier (messageId prio anon r23 r21 subject r7 src) = .canidMessage prio anon r23 r21 subject r7 src := by
  simp [decodeIdentifier]

theorem decodeIdentifier_serviceId (prio : Priority) (rnr r23 : Bool) (service : BitVec 9) (dst src : SourceId) :
    decodeIdentifier (serviceId prio rnr r23 service dst src) = .canidService prio rnr r23 service dst src := by
  simp [decodeIdentifier]

theorem decodeSubjectMatch_messageId (prio : Priority) (anon : Bool) (r21 : BitVec 2) (subject : Subject) (src : SourceId) :
    decodeSubjectMatch (messageId prio anon false r21 subject false src)
      = .ok (.canidSubjectMatch prio anon r21 subject src) := by
  simp [decodeSubjectMatch]

/-! ## The round trips -/

/-- Settles O2: by the space that the packet names, and within the statements by the code. -/
theorem encodeOfDecode : Obligations.EncodeOfDecode := by
  rintro ⟨fmt, bytes⟩ i rest h
  cases fmt with
  | statement =>
    cases bytes with
    | nil => cases h
    | cons code bs => exact decodeStatement_reads h
  | identifier =>
    simp only [decode, bind_eq_ok, Prod.exists, takeId_eq_ok] at h
    obtain ⟨id, _, rfl, h⟩ := h
    cases h
    rw [encode_decodeIdentifier]
    exact ⟨decodeIdentifier_wellFormed id, rfl, rfl⟩
  | subjectMatch =>
    simp only [decode, bind_eq_ok, Prod.exists, takeId_eq_ok] at h
    obtain ⟨id, _, rfl, j, hj, h⟩ := h
    cases h
    obtain ⟨hwf, henc⟩ := encode_of_decodeSubjectMatch hj
    rw [henc]
    exact ⟨hwf, rfl, rfl⟩
  | tail =>
    cases bytes with
    | nil => cases h
    | cons t bs =>
      cases h
      rw [encode_decodeTail]
      exact ⟨decodeTail_wellFormed t, rfl, rfl⟩

/-- Settles O1: by the constructors; a statement without operands decodes by its code alone. -/
theorem decodeOfEncode : Obligations.DecodeOfEncode := by
  intro i rest hwf
  cases i with
  | subscribe subject extent timeout tag =>
    simp only [Instr.wellFormed, Bool.and_eq_true, decide_eq_true_eq] at hwf
    obtain ⟨⟨hs, he⟩, ht⟩ := hwf
    exact decodeSubscribe_encode tag rest hs he ht
  | enqueue subject transferId priority deadline payload =>
    simp only [Instr.wellFormed, Bool.and_eq_true, decide_eq_true_eq] at hwf
    obtain ⟨⟨⟨hs, ht⟩, hp⟩, hl⟩ := hwf
    exact decodeEnqueue_encode deadline rest hs ht hp hl
  | tick n => exact decodeTick_encode (of_decide_eq_true hwf) rest
  | bus id data => exact decodeBus_encode id (of_decide_eq_true hwf) rest
  | mbox n => exact decodeMbox_encode (of_decide_eq_true hwf) rest
  | canidMessage prio anon r23 r21 subject r7 src => rw [encode, decode_identifier, decodeIdentifier_messageId]
  | canidService prio rnr r23 service dst src => rw [encode, decode_identifier, decodeIdentifier_serviceId]
  | canidSubjectMatch prio anon r21 subject src =>
    exact decode_subjectMatch (decodeSubjectMatch_messageId prio anon r21 subject src) rest
  | tailSingle tog tid => simp [encode, decode, decodeTail]
  | tailFirst tog tid => simp [encode, decode, decodeTail]
  | tailMiddle tog tid => simp [encode, decode, decodeTail]
  | tailLast tog tid => simp [encode, decode, decodeTail]
  | _ => rfl

/-! ## Words and codes -/

/-- Settles O3. -/
theorem sampleWordsDecode : Obligations.SampleWordsDecode := by
  unfold Obligations.SampleWordsDecode
  decide

/-- Settles O4: by the branch that the code takes; every branch but the last is one of the 23 codes. -/
theorem otherCodesAreInvalid : Obligations.OtherCodesAreInvalid := by
  intro code rest h
  simp only [List.mem_cons, List.not_mem_nil, or_false, not_or, ← BitVec.toNat_inj] at h
  simp only [decode, decodeStatement]
  split
  case h_24 => rfl
  all_goals simp_all

end Sys2Proof.Proofs
end

section
/-! PROOFS. The subscription match pattern and the reading of the wire layouts (R81 to R88, R133). -/

namespace Sys2Proof.Proofs

open Sys2Proof.Machine Sys2Proof.Laws

/-! ## The match pattern (R84) -/

theorem matchMask_getLsbD (k : Nat) :
    matchMask.getLsbD k = true ↔ k = 25 ∨ k = 23 ∨ (8 ≤ k ∧ k ≤ 20) ∨ k = 7 := by
  by_cases hk : k < 29
  · interval_cases k <;> simp [matchMask]
  · rw [BitVec.getLsbD_of_ge _ _ (Nat.le_of_not_lt hk)]
    simp only [Bool.false_eq_true, false_iff]
    omega

/-- The bits that a matching identifier has under the mask. -/
theorem getLsbD_of_idMatches {id : CanId} {subject : Subject} (h : idMatches id subject = true) {k : Nat}
    (hk : matchMask.getLsbD k = true) : id.getLsbD k = (subject.setWidth 29 <<< 8).getLsbD k := by
  rw [← beq_iff_eq.1 h, BitVec.getLsbD_and, hk, Bool.and_true]

/-- What the mask leaves of a message identifier whose `r23` and `r7` are 0. -/
theorem messageId_and_matchMask (prio : Priority) (anon : Bool) (r21 : BitVec 2) (subject : Subject) (src : SourceId) :
    messageId prio anon false r21 subject false src &&& matchMask = subject.setWidth 29 <<< 8 := by
  have hrow := (TableMatch.canidSubjectMatch prio anon r21 subject src).2
  have hword : TableMatch.rowWord (encode (.canidSubjectMatch prio anon r21 subject src))
      = messageId prio anon false r21 subject false src := TableMatch.rowWord_identifier _
  rwa [hword] at hrow

/-- An identifier matches a subject exactly when `svc`, `r23` and `r7` are 0 and its subject bits are the subject. -/
theorem idMatches_iff_fields {id : CanId} {subject : Subject} :
    idMatches id subject = true ↔ idSvc id = false ∧ idR23 id = false ∧ idR7 id = false ∧ idSubject id = subject := by
  constructor
  · intro h
    refine ⟨?svc, ?r23, ?r7, BitVec.eq_of_getLsbD_eq fun k hk => ?subject⟩
    case svc => rw [idSvc, getLsbD_of_idMatches h (by decide)]; simp
    case r23 => rw [idR23, getLsbD_of_idMatches h (by decide)]; simp
    case r7 => rw [idR7, getLsbD_of_idMatches h (by decide)]; simp
    case subject =>
      have hbit := getLsbD_of_idMatches h ((matchMask_getLsbD (8 + k)).2 (by omega))
      rw [idSubject, BitVec.getLsbD_extractLsb', hbit, BitVec.getLsbD_shiftLeft, BitVec.getLsbD_setWidth]
      simp [hk, show k < 29 by omega, show 8 + k < 29 by omega]
  · rintro ⟨hsvc, hr23, hr7, rfl⟩
    have hid := messageId_fields hsvc
    rw [hr23, hr7] at hid
    have hmask := messageId_and_matchMask (idPrio id) (idAnon id) (idR21 id) (idSubject id) (idSrcBits id)
    rw [hid] at hmask
    exact beq_iff_eq.2 hmask

theorem idMatches_iff_toNat {id : CanId} {subject : Subject} :
    idMatches id subject = true ↔ id.toNat &&& 0x029FFF80 = subject.toNat <<< 8 := by
  have hs := subject.isLt
  have hwidth : subject.toNat % 2 ^ 29 = subject.toNat := Nat.mod_eq_of_lt (by omega)
  have hshift : (subject.setWidth 29 <<< 8).toNat = subject.toNat <<< 8 := by
    rw [BitVec.toNat_shiftLeft, BitVec.toNat_setWidth, hwidth,
      Nat.mod_eq_of_lt (by rw [Nat.shiftLeft_eq]; omega)]
  rw [idMatches, beq_iff_eq, ← BitVec.toNat_inj, hshift, BitVec.toNat_and]
  rfl

/-- Settles O5: the masked comparison as numbers, and field by field. -/
theorem subjectMatchPattern : Obligations.SubjectMatchPattern :=
  ⟨rfl, fun _ _ => ⟨idMatches_iff_toNat, idMatches_iff_fields, matchMask_getLsbD⟩⟩

/-! ## The wire layouts (R81 to R88) -/

/-- The subject bits of a service identifier hold the low bits of its service id and the high bits of its destination. -/
theorem idSubject_serviceId (prio : Priority) (rnr r23 : Bool) (service : BitVec 9) (dst src : SourceId) :
    idSubject (serviceId prio rnr r23 service dst src) = service.extractLsb' 0 7 ++ dst.extractLsb' 1 6 := by
  refine BitVec.eq_of_getLsbD_eq fun k hk => ?_
  rw [idSubject, BitVec.getLsbD_extractLsb', serviceId_getLsbD, BitVec.getLsbD_append]
  interval_cases k <;> simp

theorem parseId_messageId (prio : Priority) (anon r23 : Bool) (r21 : BitVec 2) (subject : Subject) (r7 : Bool)
    (src : SourceId) :
    parseId (messageId prio anon r23 r21 subject r7 src)
      = { prio := prio, svc := false, anon := anon, subject := subject, src := if anon then none else some src,
          kind := .message, service := none } := by
  simp [parseId, idSrc, idKind]

theorem parseId_serviceId (prio : Priority) (rnr r23 : Bool) (service : BitVec 9) (dst src : SourceId) :
    parseId (serviceId prio rnr r23 service dst src)
      = { prio := prio, svc := true, anon := rnr, subject := service.extractLsb' 0 7 ++ dst.extractLsb' 1 6,
          src := if rnr then none else some src, kind := if rnr then .request else .response,
          service := some { service := service, dst := dst, src := src } } := by
  simp [parseId, idSrc, idKind, idSubject_serviceId]

theorem parseTail_tailByte (sot eot tog : Bool) (tid : BitVec 5) :
    parseTail (tailByte sot eot tog tid) = { cls := tailClass (tailByte sot eot tog tid), tog := tog, tid := tid } := by
  simp [parseTail]

theorem returnTail_tailByte {sot eot : Bool} {cls : FrameClass} (tog : Bool) (tid : BitVec 5)
    (h : tailClass (tailByte sot eot tog tid) = cls) (s : State) :
    returnTail (tailByte sot eot tog tid) s
      = { s with log := s.log ++ [.result (.tail { cls := cls, tog := tog, tid := tid })] } := by
  rw [returnTail, parseTail_tailByte, h, emit]

/-- Settles O6: reading gives back the fields that the layout was written from. -/
theorem wireLayoutsParse : Obligations.WireLayoutsParse := by
  refine ⟨fun prio anon r23 r21 subject r7 src s => ?message, fun prio rnr r23 service dst src s => ?service,
    fun tog tid s => ⟨?single, ?first, ?middle, ?last⟩⟩
  case message => rw [exec, execCanidMessage, returnId, parseId_messageId, emit]
  case service => rw [exec, execCanidService, returnId, parseId_serviceId, emit]
  case single => rw [exec, execTailSingle, returnTail_tailByte (cls := .single) tog tid (by simp [tailClass])]
  case first => rw [exec, execTailFirst, returnTail_tailByte (cls := .first) tog tid (by simp [tailClass])]
  case middle => rw [exec, execTailMiddle, returnTail_tailByte (cls := .middle) tog tid (by simp [tailClass])]
  case last => rw [exec, execTailLast, returnTail_tailByte (cls := .last) tog tid (by simp [tailClass])]

/-! ## Identifiers of the match pattern (R84, R133) -/

theorem idMatches_messageId {prio : Priority} {anon : Bool} {r21 : BitVec 2} {subject subject' : Subject} {src : SourceId} :
    idMatches (messageId prio anon false r21 subject false src) subject' = true ↔ subject = subject' := by
  simp [idMatches_iff_fields]

theorem exec_canidSubjectMatch_of_match {prio : Priority} {anon : Bool} {r21 : BitVec 2} {subject : Subject}
    {src : SourceId} {s : State} {i : Nat} {sb : Subscription} (hi : s.initialised = true)
    (hm : matchSub s.sub (messageId prio anon false r21 subject false src) = some (i, sb)) :
    exec (.canidSubjectMatch prio anon r21 subject src) s
      = .next { s with log := s.log ++ [.result (.matched (some i))] } := by
  rw [exec, execCanidSubjectMatch, whenReady_of hi, hm]; rfl

theorem exec_canidSubjectMatch_of_unmatched {prio : Priority} {anon : Bool} {r21 : BitVec 2} {subject : Subject}
    {src : SourceId} {s : State} (hi : s.initialised = true)
    (hm : matchSub s.sub (messageId prio anon false r21 subject false src) = none) :
    exec (.canidSubjectMatch prio anon r21 subject src) s
      = .next { s with log := s.log ++ [.raised .unmatched, .result (.matched none)] } := by
  rw [exec, execCanidSubjectMatch, whenReady_of hi, hm]
  simp only [raiseError_uncounted (e := .unmatched) rfl, emit, List.append_assoc, List.singleton_append]

/-- Settles O7: by the lowest index that matches. -/
theorem subjectMatchAnswer : Obligations.SubjectMatchAnswer := by
  intro prio anon r21 subject src s hi
  have hmatch := matchIsLowestIndex s.sub (messageId prio anon false r21 subject false src)
  have hother : ∀ {sb : Subscription}, sb.subject ≠ subject →
      idMatches (messageId prio anon false r21 subject false src) sb.subject = false := fun hne =>
    Bool.eq_false_iff.2 fun h => hne (idMatches_messageId.1 h).symm
  refine ⟨fun i sb hget hsub hlow => ?_, fun hnone => ?_⟩
  · refine exec_canidSubjectMatch_of_match hi ((hmatch.1 i sb).2 ⟨hget, idMatches_messageId.2 hsub.symm, ?_⟩)
    exact fun j sb' hj hget' => hother (hlow j sb' hj hget')
  · exact exec_canidSubjectMatch_of_unmatched hi (hmatch.2.2 fun i sb hget => hother (hnone i sb hget))

end Sys2Proof.Proofs
end

section
/-! PROOFS. The transfer CRC (R93), the legal lengths (R94), and the frame made from an outbound item (R95). -/

namespace Sys2Proof.Proofs

open Sys2Proof.Machine Sys2Proof.Laws

/-! ## The transfer CRC (R93) -/

theorem crcBit_of_small {c : BitVec 16} (h : c.toNat < 2 ^ 15) : crcBit c = c <<< 1 := by
  have hmsb : c.msb = false := BitVec.msb_eq_false_iff_two_mul_lt.2 (by omega)
  rw [crcBit, hmsb]; rfl

/-- Bits that never reach the top are only shifted. -/
theorem crcBits_of_small {n : Nat} {c : BitVec 16} (h : c.toNat * 2 ^ n < 2 ^ 16) : crcBits n c = c <<< n := by
  induction n generalizing c with
  | zero => simp [crcBits]
  | succ n ih =>
    rw [pow_succ] at h
    have hpos : 0 < 2 ^ n := by positivity
    have hc : c.toNat < 2 ^ 15 := by nlinarith
    have hshift : (c <<< 1).toNat = c.toNat * 2 := by
      rw [BitVec.toNat_shiftLeft, Nat.shiftLeft_eq, Nat.mod_eq_of_lt (by omega)]
    have hn : (c <<< 1).toNat * 2 ^ n < 2 ^ 16 := by rw [hshift]; linarith
    rw [crcBits, crcBit_of_small hc, ih hn, ← BitVec.shiftLeft_add, Nat.add_comm]

theorem crcByte_cancel_high (c : BitVec 16) : crcByte c (c.extractLsb' 8 8) = (c.extractLsb' 0 8).setWidth 16 <<< 8 := by
  have hxor : c ^^^ ((c.extractLsb' 8 8).setWidth 16 <<< 8) = (c.extractLsb' 0 8).setWidth 16 := by
    refine BitVec.eq_of_getLsbD_eq fun k hk => ?_
    simp only [BitVec.getLsbD_xor, BitVec.getLsbD_shiftLeft, BitVec.getLsbD_setWidth, BitVec.getLsbD_extractLsb']
    interval_cases k <;> simp
  have hlow := (c.extractLsb' 0 8).isLt
  rw [crcByte, hxor, crcBits_of_small]
  rw [BitVec.toNat_setWidth]; omega

theorem crcByte_self (x : Byte) : crcByte (x.setWidth 16 <<< 8) x = 0#16 := by
  rw [crcByte, BitVec.xor_self]; rfl

/-- The CRC, appended high byte first, cancels itself. -/
theorem crc16_append_self (b : List Byte) : crc16 (b ++ [(crc16 b).extractLsb' 8 8, (crc16 b).extractLsb' 0 8]) = 0#16 := by
  have happend : crc16 (b ++ [(crc16 b).extractLsb' 8 8, (crc16 b).extractLsb' 0 8])
      = crcByte (crcByte (crc16 b) ((crc16 b).extractLsb' 8 8)) ((crc16 b).extractLsb' 0 8) := by
    rw [crc16, List.foldl_append]; rfl
  rw [happend, crcByte_cancel_high, crcByte_self]

theorem crcOk_ccittFalse {p : Params} (h : p.crc = .ccittFalse) (b : List Byte) :
    crcOk p b = true ↔ 2 ≤ b.length ∧ crc16 b = 0#16 := by
  simp [crcOk, h]

/-- Settles O8: the high byte cancels the upper half of the register, the low byte the rest. -/
theorem transferCrc : Obligations.TransferCrc :=
  ⟨by decide +kernel, crc16_append_self, fun _ b h => crcOk_ccittFalse h b⟩

/-! ## Legal lengths (R94) -/

theorem le_dlcRound {n : Nat} (h : n ≤ 64) : n ≤ dlcRound n := by
  unfold dlcRound; split_ifs <;> omega

/-- The legal data lengths of a transmitted frame (R94). -/
def legalLengths : List Nat := [0, 1, 2, 3, 4, 5, 6, 7, 8, 12, 16, 20, 24, 32, 48, 64]

theorem mem_legalLengths {n : Nat} :
    n ∈ legalLengths ↔ n ≤ 8 ∨ n = 12 ∨ n = 16 ∨ n = 20 ∨ n = 24 ∨ n = 32 ∨ n = 48 ∨ n = 64 := by
  simp only [legalLengths, List.mem_cons, List.not_mem_nil, or_false]; omega

theorem dlcRound_mem_legalLengths (n : Nat) : dlcRound n ∈ legalLengths := by
  rw [mem_legalLengths, dlcRound]; split_ifs <;> omega

theorem dlcRound_le_of_legal {n m : Nat} (hm : m ∈ legalLengths) (h : n ≤ m) : dlcRound n ≤ m := by
  rw [mem_legalLengths] at hm
  unfold dlcRound; split_ifs <;> omega

/-- Settles O9: by the bounds of `dlcRound` against the list. -/
theorem dlcRoundIsLeastLegal : Obligations.DlcRoundIsLeastLegal :=
  ⟨fun n hn => ⟨dlcRound_mem_legalLengths n, le_dlcRound hn, fun _ hm => dlcRound_le_of_legal hm⟩,
    fun _ _ hlen hroom => storeFrame_eq_next.2 ⟨hlen, .inr ⟨hroom, rfl⟩⟩⟩

/-! ## The frame of an item (R95) -/

theorem toNat_messageId (prio : Priority) (anon r23 : Bool) (r21 : BitVec 2) (subject : Subject) (r7 : Bool)
    (src : SourceId) :
    (messageId prio anon r23 r21 subject r7 src).toNat
      = prio.toNat <<< 26 ||| anon.toNat <<< 24 ||| r23.toNat <<< 23 ||| r21.toNat <<< 21 ||| subject.toNat <<< 8
        ||| r7.toNat <<< 7 ||| src.toNat := by
  simp only [messageId, BitVec.toNat_append, BitVec.toNat_ofBool, Nat.shiftLeft_or_distrib, ← Nat.shiftLeft_add]
  simp

theorem tailByte_single {tid : Nat} (h : tid < 32) :
    tailByte true true true (BitVec.ofNat 5 tid) = 0xE0#8 ||| BitVec.ofNat 8 tid := by
  revert tid; decide

theorem build_data_length (p : Params) {e : Item} (h : e.payload.length ≤ 63) :
    (build p e).data.length = dlcRound (e.payload.length + 1) := by
  have hround := le_dlcRound (n := e.payload.length + 1) (by omega)
  simp only [build, List.length_append, List.length_replicate, List.length_singleton]
  omega

/-- Settles O10: the identifier's fields at their places, the tail byte with all three bits set. -/
theorem builtFrame : Obligations.BuiltFrame := by
  intro p e hlen htid htog
  refine ⟨?_, ?_, build_data_length p hlen⟩
  · rw [build, toNat_messageId]; simp
  · rw [build, htog, tailByte_single htid]

/-! ## Receiving a built frame (R83, R84, R88, R97) -/

/-- The frame that a receiver stores for what the item's sender transmits. -/
def receivedItem (p : Params) (e : Item) (ts : Time) : Frame := { id := (build p e).id, data := (build p e).data, ts := ts }

section Received

variable (p : Params) (e : Item) (ts : Time)

theorem receivedItem_tail : (receivedItem p e ts).tail = tailByte true true p.toggleInit (BitVec.ofNat 5 e.tid) := by
  simp [receivedItem, Frame.tail, build]

theorem receivedItem_pl :
    (receivedItem p e ts).pl = e.payload ++ List.replicate (dlcRound (e.payload.length + 1) - 1 - e.payload.length) 0 := by
  simp only [receivedItem, Frame.pl, build, List.dropLast_concat]

theorem receivedItem_single : (receivedItem p e ts).single = true := by
  simp [Frame.single, Frame.sot, Frame.eot, receivedItem_tail]

theorem receivedItem_wellFormed : malformed p (receivedItem p e ts) = none := by
  have hdata : (receivedItem p e ts).data ≠ [] := by simp [receivedItem, build]
  have htog : (receivedItem p e ts).tog = p.toggleInit := by simp [Frame.tog, receivedItem_tail]
  simp [malformed, hdata, htog, receivedItem_single]

theorem receivedItem_tid (hb : p.tidBits ≤ 5) (ht : e.tid < tidMod p) : frameTid p (receivedItem p e ts) = e.tid := by
  have hmod : tidMod p ≤ 2 ^ 5 := Nat.pow_le_pow_right (by decide) hb
  rw [frameTid, receivedItem_tail, tailTid_tailByte, BitVec.toNat_ofNat, Nat.mod_eq_of_lt (lt_of_lt_of_le ht hmod),
    Nat.mod_eq_of_lt ht]

end Received

/-- Settles O11: from the fields of the identifier and of the tail byte that `build` writes. -/
theorem builtFrameParsesBack : Obligations.BuiltFrameParsesBack := by
  intro p e ts _ hb ht
  refine ⟨receivedItem_wellFormed p e ts, receivedItem_single p e ts, receivedItem_tid p e ts hb ht, idPrio_messageId ..,
    ?_, fun subject => ?_, receivedItem_pl p e ts⟩
  · simp [build, idSrc]
  · exact idMatches_messageId.trans eq_comm

end Sys2Proof.Proofs
end

section
/-! PROOFS. Statements that cannot begin (R102, U20), frames that PROCESS_FRAME discards (R97, R133, R134), and the statements
of the environment (R102, R236). -/

namespace Sys2Proof.Proofs

open Sys2Proof.Machine Sys2Proof.Laws

/-! ## Statements that cannot begin (R102, U20) -/

section CannotBegin

variable {s : State}

theorem exec_taskCycle_of_blocked (h : taskFree s) (hw : waitReady s = false) :
    exec .taskCycle s = .refused .notEnabled := by
  obtain ⟨hi, hd, hp⟩ := h
  simp only [exec, execTaskCycle, whenTaskFree_of hi hd hp, hw, Bool.false_eq_true, if_false]

theorem exec_processFrame_of_no_frame (h : taskFree s) (hf : s.popped = none) :
    exec .processFrame s = .refused .noOperand := by
  obtain ⟨hi, hd, hp⟩ := h
  simp only [exec, execProcessFrame, whenTaskFree_of hi hd hp, hf]

theorem exec_txPush_of_empty (h : taskFree s) (hq : s.txq = []) : exec .txPush s = .refused .noOperand := by
  obtain ⟨hi, hd, hp⟩ := h
  simp only [exec, execTxPush, whenTaskFree_of hi hd hp, hq]

theorem exec_txPush_of_expired {e : Item} {rest : List Item} (h : taskFree s) (hq : s.txq = e :: rest)
    (hx : expired s.now e = true) : exec .txPush s = .refused .noOperand := by
  obtain ⟨hi, hd, hp⟩ := h
  simp only [exec, execTxPush, whenTaskFree_of hi hd hp, hq, hx, if_true]

theorem exec_deliver_of_none (hi : s.initialised = true) (hd : s.delivering = none) :
    exec .deliver s = .refused .noOperand := by
  simp only [exec, execDeliver, whenReady_of hi, hd]

theorem exec_onFrameReceived_of_empty (h : interruptEnabled s) (hp : s.params.rxPortReturns = true) (hc : s.ctrlRx = []) :
    exec .onFrameReceived s = .refused .noOperand := by
  simp only [exec, execOnFrameReceived, whenInterruptEnabled_of h.1 h.2, hp, if_true, nextRx_eq_none.2 hc]

end CannotBegin

/-- Settles O18: each statement past its guard, with nothing to begin on. -/
theorem notEnabledRefused : Obligations.NotEnabledRefused :=
  ⟨fun _ => exec_taskCycle_of_blocked, fun _ => exec_processFrame_of_no_frame, fun _ => exec_txPush_of_empty,
    fun _ _ _ h hq hx => exec_txPush_of_expired h hq (decide_eq_true hx), fun _ => exec_deliver_of_none,
    fun _ => exec_onFrameReceived_of_empty⟩

/-! ## Malformed frames (R97) -/

/-- The first of four checks that holds. -/
def firstCheck (v1 v2 v3 v4 : Prop) [Decidable v1] [Decidable v2] [Decidable v3] [Decidable v4] : Option Malformed :=
  if v1 then some .v1 else if v2 then some .v2 else if v3 then some .v3 else if v4 then some .v4 else none

theorem firstCheck_iff (v1 v2 v3 v4 : Prop) [Decidable v1] [Decidable v2] [Decidable v3] [Decidable v4] :
    (firstCheck v1 v2 v3 v4 = some .v1 ↔ v1) ∧ (firstCheck v1 v2 v3 v4 = some .v2 ↔ ¬ v1 ∧ v2)
      ∧ (firstCheck v1 v2 v3 v4 = some .v3 ↔ ¬ v1 ∧ ¬ v2 ∧ v3)
      ∧ (firstCheck v1 v2 v3 v4 = some .v4 ↔ ¬ v1 ∧ ¬ v2 ∧ ¬ v3 ∧ v4)
      ∧ (firstCheck v1 v2 v3 v4 = none ↔ ¬ v1 ∧ ¬ v2 ∧ ¬ v3 ∧ ¬ v4) := by
  unfold firstCheck
  by_cases h1 : v1
  · simp [h1]
  by_cases h2 : v2
  · simp [h1, h2]
  by_cases h3 : v3
  · simp [h1, h2, h3]
  by_cases h4 : v4 <;> simp [h1, h2, h3, h4]

/-- The checks of R97 as the statement writes them. -/
theorem malformed_eq_firstCheck (p : Params) (f : Frame) :
    malformed p f = firstCheck (f.data.length = 0) (f.sot = true ∧ f.tog ≠ p.toggleInit)
      (f.id.getLsbD 24 = true ∧ ¬ (f.sot = true ∧ f.eot = true))
      (¬ (f.sot = true ∧ f.eot = true) ∧ f.pl.length = 0) := by
  simp [malformed, firstCheck, idAnon, Frame.single, -not_and, not_and_or]

/-- Settles O26: by the first check that holds. -/
theorem malformedFrames : Obligations.MalformedFrames := by
  intro p f
  rw [malformed_eq_firstCheck]
  exact firstCheck_iff _ _ _ _

/-! ## Discarded frames (R133, R134) -/

theorem reassemble_of_unmatched {s : State} {f : Frame} (hm : matchSub s.sub f.id = none) :
    reassemble f s = raiseError .unmatched s := by
  simp only [reassemble, hm]

theorem reassemble_of_malformed {s : State} {f : Frame} {i : Nat} {sb : Subscription} {v : Malformed}
    (hm : matchSub s.sub f.id = some (i, sb)) (hv : malformed s.params f = some v) :
    reassemble f s = raiseError (.malformedFrame v) s := by
  simp only [reassemble, hm, hv]

/-- Where steps 1 to 9 only raise an error, nothing is due. -/
theorem processFrame_of_raised {f : Frame} {s : State} {e : ErrorClass} (h : reassemble f s = raiseError e s)
    (hd : s.delivering = none) : processFrame f s = .next (raiseError e s) := by
  rw [processFrame_eq, h, raiseError_delivering, hd]

/-- Settles O27: by the step that discards the frame. -/
theorem discardedFrames : Obligations.DiscardedFrames := by
  intro s f hfree hf
  have ⟨_, hd, _⟩ := hfree
  rw [exec_processFrame_of_popped hfree hf]
  refine ⟨fun hm => ?_, fun i sb v hm hv => ?_⟩
  · rw [processFrame_of_raised (reassemble_of_unmatched (s := { s with popped := none }) hm) hd, raiseError_uncounted rfl]
  · rw [processFrame_of_raised (reassemble_of_malformed (s := { s with popped := none }) hm hv) hd, raiseError_malformed]

/-! ## The environment (R102, R236) -/

theorem exec_tick {s : State} (hi : s.initialised = true) (n : Nat) :
    exec (.tick n) s = if s.now.toNat + n < 2 ^ 64 then .next { s with now := BitVec.ofNat 64 (s.now.toNat + n) }
      else .refused .clockWouldWrap :=
  whenReady_of hi _

theorem exec_bus {s : State} (hi : s.initialised = true) (id : CanId) (data : List Byte) :
    exec (.bus id data) s = if data.length ≤ 64 then .next { s with ctrlRx := s.ctrlRx ++ [{ id := id, data := data }] }
      else .refused .frameTooLong :=
  whenReady_of hi _

theorem exec_mbox {s : State} (hi : s.initialised = true) (n : Nat) : exec (.mbox n) s = .next { s with mboxFree := n } :=
  whenReady_of hi _

/-- Settles O51: each statement's test decides. -/
theorem environmentStatements : Obligations.EnvironmentStatements := by
  intro s hi
  refine ⟨fun n hn => ?tick, fun n hn => ?wrap, fun id data hl => ?bus, fun id data hl => ?long, exec_mbox hi⟩
  case tick => exact ⟨_, by rw [BitVec.toNat_ofNat, Nat.mod_eq_of_lt hn], by rw [exec_tick hi, if_pos hn]⟩
  case wrap => rw [exec_tick hi, if_neg (Nat.not_lt.2 hn)]
  case bus => rw [exec_bus hi, if_pos hl]
  case long => rw [exec_bus hi, if_neg (Nat.not_le.2 hl)]

end Sys2Proof.Proofs
end

section
/-! PROOFS. U1 statement by statement: the capacity of the queue (R115), the steps of ingestion issued on their own (R111 to R113),
and the counters of P8 (R114, R144, R146, R186). -/

namespace Sys2Proof.Proofs

open Sys2Proof.Machine Sys2Proof.Laws

/-! ## The capacity of the queue (R115) -/

/-- What presenting frames with no pop in between leaves behind: those that fit are stored, the others dropped and counted. -/
def presented (rs : List BusFrame) (s : State) : State :=
  { s with
    rxq := s.rxq ++ (rs.take (rxqRoom s)).map (stampFrame s.now)
    dropped := satAdd s.dropped (rs.length - rxqRoom s)
    log := s.log ++ dropEvents (rs.length - rxqRoom s) }

theorem presented_nil (s : State) : presented [] s = s := by
  simp [presented, satAdd_zero, dropEvents]

theorem presented_cons_of_full (r : BusFrame) (rest : List BusFrame) {s : State} (hfull : s.rxq.length = s.params.rxqCap) :
    presented (r :: rest) s = presented rest (raiseError .rxOverflow s) := by
  simp [raiseError_rxOverflow, presented, rxqRoom, hfull, satAdd_satInc, dropEvents, List.replicate_succ]

theorem presented_cons_of_room (r : BusFrame) (rest : List BusFrame) {s : State} (hroom : s.rxq.length < s.params.rxqCap) :
    presented (r :: rest) s = presented rest { s with rxq := s.rxq ++ [stampFrame s.now r] } := by
  obtain ⟨n, hn⟩ : ∃ n, s.params.rxqCap = s.rxq.length + 1 + n := ⟨s.params.rxqCap - (s.rxq.length + 1), by omega⟩
  have hbefore : rxqRoom s = n + 1 := by unfold rxqRoom; omega
  have hafter : rxqRoom { s with rxq := s.rxq ++ [stampFrame s.now r] } = n := by
    simp only [rxqRoom, List.length_append, List.length_singleton]; omega
  simp [presented, hbefore, hafter]

/-- Presenting frames one after another, from any queue within capacity. -/
theorem presentFrames_eq_presented {rs : List BusFrame} {s : State} (hcap : s.rxq.length ≤ s.params.rxqCap)
    (hlen : ∀ r ∈ rs, r.data.length ≤ 64) : presentFrames rs s = .next (presented rs s) := by
  induction rs generalizing s with
  | nil => rw [presented_nil]; rfl
  | cons r rest ih =>
    obtain ⟨hr, hrest⟩ := List.forall_mem_cons.1 hlen
    rcases hcap.eq_or_lt with hfull | hroom
    · rw [presentFrames, storeFrame_eq_next.2 ⟨hr, .inl ⟨hfull, rfl⟩⟩, andThen_next_left, presented_cons_of_full r rest hfull]
      exact ih (by simpa using hcap) hrest
    · rw [presentFrames, storeFrame_eq_next.2 ⟨hr, .inr ⟨hroom.ne, rfl⟩⟩, andThen_next_left, presented_cons_of_room r rest hroom]
      exact ih (by simpa using hroom) hrest

theorem satAdd_toNat {c : Count} {n : Nat} (h : c.toNat + n ≤ 4294967295) : (satAdd c n).toNat = c.toNat + n := by
  rw [satAdd, Nat.min_eq_right h, BitVec.toNat_ofNat, Nat.mod_eq_of_lt (by omega)]

/-- A presented frame is dropped exactly when the queue is full. -/
theorem storeFrame_rxq_eq_iff {r : BusFrame} {s t : State} (h : storeFrame r s = .next t) :
    t.rxq = s.rxq ↔ s.rxq.length = s.params.rxqCap := by
  obtain ⟨_, ⟨hfull, rfl⟩ | ⟨hroom, rfl⟩⟩ := storeFrame_eq_next.1 h
  · simp [hfull]
  · simp [hroom]

/-- A presented frame that is not dropped is appended, and not counted. -/
theorem storeFrame_of_stored {r : BusFrame} {s t : State} (h : storeFrame r s = .next t) (hne : t.rxq ≠ s.rxq) :
    t.rxq = s.rxq ++ [stampFrame s.now r] ∧ t.dropped = s.dropped := by
  obtain ⟨_, ⟨_, rfl⟩ | ⟨_, rfl⟩⟩ := storeFrame_eq_next.1 h
  · exact absurd (raiseError_rxq _ s) hne
  · exact ⟨rfl, rfl⟩

/-- Settles O20: by induction on the frames presented, in closed form. -/
theorem capacityProperty : Obligations.CapacityProperty := by
  refine ⟨fun rs s hempty hlen hcount => ?_, fun r s t h => ⟨storeFrame_rxq_eq_iff h, storeFrame_of_stored h⟩⟩
  have hroom : rxqRoom s = s.params.rxqCap := by simp [rxqRoom, hempty]
  have hrxq : (presented rs s).rxq = (rs.take (min rs.length s.params.rxqCap)).map (stampFrame s.now) := by
    rw [presented, hempty, hroom, List.nil_append, List.take_eq_take_min, Nat.min_comm]
  refine ⟨presented rs s, presentFrames_eq_presented (by simp [hempty]) hlen, ?_, ?_, hrxq⟩
  · rw [hrxq, List.length_map, List.length_take]; omega
  · rw [← hroom] at hcount ⊢; exact satAdd_toNat hcount

/-! ## The steps of ingestion issued on their own (R111, R112, R113) -/

theorem exec_onFrameReceived_of_cons {r : BusFrame} {rest : List BusFrame} {s : State} (h : interruptEnabled s)
    (hp : s.params.rxPortReturns = true) (hc : s.ctrlRx = r :: rest) :
    exec .onFrameReceived s = storeFrame r { s with ctrlRx := rest } := by
  simp only [exec, execOnFrameReceived, whenInterruptEnabled_of h.1 h.2, hp, if_true, nextRx_eq_some.2 ⟨rest, hc, rfl⟩]

theorem exec_wakeSignal {s : State} (h : interruptEnabled s) : exec .wakeSignal s = .next { s with wake := true } :=
  whenInterruptEnabled_of h.1 h.2 _

theorem exec_rxPop {s : State} (h : taskFree s) :
    exec .rxPop s = .next (emit (.result (.popped (popFrame s).popped)) (popFrame s)) := by
  obtain ⟨hi, hd, hp⟩ := h
  exact whenTaskFree_of hi hd hp _

/-- Settles O21: each step past its guard, by the state of the queue. -/
theorem ingestionStepsAlone : Obligations.IngestionStepsAlone := by
  refine ⟨fun r rest s hen hport hc hr => ?store, fun s => exec_wakeSignal, fun s hfree => ?pop⟩
  case store =>
    rw [exec_onFrameReceived_of_cons hen hport hc]
    exact ⟨fun hfull => storeFrame_eq_next.2 ⟨hr, .inl ⟨hfull, rfl⟩⟩,
      fun hroom => storeFrame_eq_next.2 ⟨hr, .inr ⟨hroom, rfl⟩⟩⟩
  case pop =>
    rw [exec_rxPop hfree]
    exact ⟨fun hq => by rw [popFrame_of_empty hq]; rfl, fun f rest hq => by rw [popFrame_of_cons hq]; rfl⟩

/-! ## The counters of P8 (R114, R144, R146, R186) -/

theorem satInc_eq_satAdd (c : Count) : satInc c = satAdd c 1 := by
  rw [← satAdd_satInc, satAdd_zero]

/-- Settles O22: each port past its guard. -/
theorem counterPorts : Obligations.CounterPorts := by
  intro s hi
  refine ⟨whenReady_of hi _, whenReady_of hi _, whenReady_of hi _, fun hp hctx => ?_⟩
  rw [exec_noteDecodeError_of_phase hi hp, whenTaskCodeRuns_of hctx, countDecodeError, satInc_eq_satAdd, satAdd]

end Sys2Proof.Proofs
end

section
/-! PROOFS. `DELIVER` with a handler: its run, the effect of its calls, and the release of the buffer (R142, R143, R161, R262). -/

namespace Sys2Proof.Proofs

open Sys2Proof.Machine Sys2Proof.Laws

/-! ## The buffers of a handler's items (R161) -/

/-- The buffers that a handler's items take from or leave in the pool. -/
def poolAndItems (s : State) : Nat := s.poolFree + s.txq.length

theorem poolAndItems_enqueueItem (e : Item) (s : State) : poolAndItems (enqueueItem e s) = poolAndItems s := by
  unfold enqueueItem
  split
  · simp [poolAndItems]
  · split
    · simp [poolAndItems]
    · rename_i halloc
      obtain ⟨hpos, rfl⟩ := poolAlloc_eq_some.1 halloc
      simp only [poolAndItems, emit_poolFree, emit_txq, length_insertItem]
      omega

theorem poolAndItems_handlerCall {i : Instr} {s t : State} (h : handlerCall i s = .next t) :
    poolAndItems t = poolAndItems s := by
  unfold handlerCall at h
  split at h <;> try cases h
  · unfold enqueueCall at h
    split at h <;> cases h
    exact poolAndItems_enqueueItem _ s
  all_goals rfl

theorem poolAndItems_handlerMove {d : Delivery} {m : HandlerMove} {s t : State} (h : handlerMove d m s = .next t) :
    poolAndItems t = poolAndItems s := by
  cases m with
  | decode role =>
    obtain ⟨_, _, _, _, heq⟩ := acceptCommand_eq role d.payload d.ts s
    rw [handlerMove, heq] at h
    cases h; rfl
  | call i => exact poolAndItems_handlerCall h
  | hang => cases h

theorem poolAndItems_handlerRun {d : Delivery} {ms : List HandlerMove} {s t : State} (h : handlerRun d ms s = .next t) :
    poolAndItems t = poolAndItems s := by
  induction ms generalizing s with
  | nil => cases h; rfl
  | cons m ms ih =>
    obtain ⟨u, hu, ht⟩ := andThen_eq_next.1 h
    exact (ih ht).trans (poolAndItems_handlerMove hu)

/-- A handler's run takes a buffer for each item it adds, whatever it does. -/
theorem poolAndItems_runHandler {d : Delivery} {s t : State} (h : runHandler d s = .next t) :
    poolAndItems t = poolAndItems s := by
  unfold runHandler at h
  split at h
  · cases h; rfl
  · rename_i hd _
    have hscript : poolAndItems (takeScript hd.script s) = poolAndItems s := by simp [poolAndItems]
    exact (poolAndItems_handlerRun h).trans hscript

/-! ## The release (R143) -/

/-- The session of the delivery has no transfer in progress afterwards, whether or not it held a buffer. -/
theorem holderEnds_releaseDelivery {s : State} (hw : sessWf s.sess = true) (d : Delivery) :
    holderEnds s d (releaseDelivery d s).sess := by
  refine ⟨fun hn => ?_, fun key hk => ?_⟩
  · simp [releaseDelivery, hn, poolFreeOne]
  · simp only [releaseDelivery, hk]
    cases hc : (s.session key).cur with
    | none =>
      rw [abandon_of_inactive hc]
      exact ⟨hw, by rw [← hc]; rfl, fun _ _ => rfl⟩
    | some r =>
      rw [abandon_of_active hc]
      exact updatesSession_sessSet hw ..

/-- A held buffer goes back to the pool. -/
theorem poolAndItems_releaseDelivery {s : State} {d : Delivery} (hw : sessWf s.sess = true) (hb : bufferHeld s d) :
    poolAndItems (releaseDelivery d s) = poolAndItems s + 1 := by
  obtain ⟨sess, _, heq⟩ := releaseDelivery_eq hw hb
  rw [heq]
  simp only [poolAndItems]; omega

/-! ## A delivery with no handler -/

/-- The state in which the handler starts: the event is emitted (R142). -/
def announce (d : Delivery) (s : State) : State := emit (.deliver d.tag d.subject d.payload d.payload.length d.ts) s

theorem exec_deliver_of_no_handler {s : State} {d : Delivery} (hi : s.initialised = true) (hd : s.delivering = some d)
    (hn : handlerOf s.params d.tag = none) : exec .deliver s = .next (releaseDelivery d (announce d s)) := by
  rw [exec_deliver_of_due hi hd]
  exact deliverTransfer_eq_next.2 ⟨_, runHandler_of_none hn, rfl⟩

/-- With no handler, the event and the release of the held buffer are all. -/
theorem exec_deliver_of_no_handler_of_held {s : State} {d : Delivery} (hi : s.initialised = true) (hd : s.delivering = some d)
    (hw : sessWf s.sess = true) (hn : handlerOf s.params d.tag = none) (hb : bufferHeld s d) :
    ∃ sess, holderEnds s d sess ∧ exec .deliver s = .next { s with
      delivering := none
      poolFree := s.poolFree + 1
      sess := sess
      log := s.log ++ [.deliver d.tag d.subject d.payload d.payload.length d.ts] } := by
  obtain ⟨sess, hends, heq⟩ := releaseDelivery_eq (s := announce d s) hw hb
  exact ⟨sess, hends, by rw [exec_deliver_of_no_handler hi hd hn, heq]; rfl⟩

/-! ## A handler's calls (R262) -/

section Enqueue

variable {subject transferId priority : Nat} {deadline : Time} {payload : List Byte} {s : State}

theorem callInContract_enqueue : callInContract (.enqueue subject transferId priority deadline payload) = true
    ↔ subject ≤ 8191 ∧ priority ≤ 7 ∧ payload.length ≤ 63 := by
  simp [callInContract, enqueueInContract, and_assoc]

theorem handlerCall_enqueue_of_contract (hc : callInContract (.enqueue subject transferId priority deadline payload) = true)
    (s : State) : handlerCall (.enqueue subject transferId priority deadline payload) s
      = .next (enqueueItem (enqueueOperand s.params subject transferId priority deadline payload) s) :=
  if_pos hc

/-- The queue is full (R228). -/
theorem handlerCall_enqueue_of_full (hc : callInContract (.enqueue subject transferId priority deadline payload) = true)
    (hfull : s.txq.length = s.params.txqCap) : handlerCall (.enqueue subject transferId priority deadline payload) s
      = .next { s with log := s.log ++ [.raised .txQueueFull, .result .rejected] } := by
  simp [handlerCall_enqueue_of_contract hc, enqueueItem, hfull, raiseError_uncounted (e := .txQueueFull) rfl, emit]

/-- The queue has room and the pool is empty (R229). -/
theorem handlerCall_enqueue_of_no_buffer (hc : callInContract (.enqueue subject transferId priority deadline payload) = true)
    (hroom : s.txq.length ≠ s.params.txqCap) (hzero : s.poolFree = 0) :
    handlerCall (.enqueue subject transferId priority deadline payload) s
      = .next { s with log := s.log ++ [.raised .poolExhaustedTx, .result .rejected] } := by
  simp [handlerCall_enqueue_of_contract hc, enqueueItem, hroom, poolAlloc_eq_none.2 hzero,
    raiseError_uncounted (e := .poolExhaustedTx) rfl, emit]

/-- The item goes where the statement `ENQUEUE` puts it, whatever the phase (R161). -/
theorem handlerCall_enqueue_eq_exec (hi : s.initialised = true) (hd : s.delivering ≠ none) :
    handlerCall (.enqueue subject transferId priority deadline payload) s
      = exec (.enqueue subject transferId priority deadline payload) s := by
  rw [exec_enqueue_of_ready hi, whenTaskCodeRuns_of (.inr hd)]; rfl

end Enqueue

theorem handlerCall_noteDecodeError (s : State) :
    handlerCall .noteDecodeError s = .next { s with decodeErr := satAdd s.decodeErr 1 } := by
  rw [handlerCall, countDecodeError, satInc_eq_satAdd]

/-! ## A handler's run -/

/-- The state in which an attached handler starts: the event is emitted, and its free choice, if it makes one, is made (R142). -/
def handlerStart (h : Handler) (d : Delivery) (s : State) : State :=
  { announce d s with freeCount := (takeScript h.script s).freeCount }

section Calls

variable {s : State} {d : Delivery} {h : Handler} (hi : s.initialised = true) (hd : s.delivering = some d)
  (hw : sessWf s.sess = true) (hb : bufferHeld s d) (hh : handlerOf s.params d.tag = some h)

include hi hd hw hb hh

/-- A handler that makes one call: the effect of the call, then the release. -/
theorem exec_deliver_of_call {i : Instr} (hc : callInContract i = true)
    (hs : scriptMoves h.script s.freeCount d = [.call i]) :
    ∃ sess, holderEnds s d sess ∧ ∀ u, handlerCall i (handlerStart h d s) = .next u →
      exec .deliver s = .next { u with delivering := none, sess := sess, poolFree := u.poolFree + 1 } := by
  obtain ⟨u, hu⟩ := handlerCall_completes hc (handlerStart h d s)
  have hrun : handlerRun d (scriptMoves h.script s.freeCount d) (handlerStart h d s) = .next u := by
    rw [hs, handlerRun, handlerMove, hu]; rfl
  obtain ⟨sess, hends, hexec⟩ := deliver_eq hi hd hw hb hh hrun
  refine ⟨sess, hends, fun v hv => ?_⟩
  rw [hexec, Host.Outcome.next.inj (hu.symm.trans hv)]

/-- A handler that makes any number of calls: the statements they call, issued one after another, then the release. -/
theorem exec_deliver_of_calls {calls : List Instr} (hc : ∀ i ∈ calls, callInContract i = true)
    (hs : scriptMoves h.script s.freeCount d = calls.map .call) (hp : s.phase ≠ .idle) :
    ∃ u sess, holderEnds s d sess
      ∧ calls.foldl (fun o i => andThen o (exec i)) (.next (handlerStart h d s)) = .next u
      ∧ exec .deliver s = .next { u with delivering := none, sess := sess, poolFree := u.poolFree + 1 } := by
  have hmoves : ∀ m ∈ calls.map .call, moveInContract m = true := List.forall_mem_map.2 hc
  obtain ⟨u, hu⟩ := handlerRun_completes hmoves d (handlerStart h d s)
  obtain ⟨sess, hends, hexec⟩ := deliver_eq hi hd hw hb hh (by rw [hs]; exact hu)
  have hdue : s.delivering ≠ none := by simp [hd]
  exact ⟨u, sess, hends, (handlerRun_calls (s := handlerStart h d s) hc hi hdue hp d).symm.trans hu, hexec⟩

end Calls

/-- The run of a handler that keeps its contract, and the release: what `DELIVER` leaves. -/
theorem exec_deliver_of_contract {s : State} {d : Delivery} (hi : s.initialised = true) (hd : s.delivering = some d)
    (hk : handlersKeepContract s.params) :
    ∃ u, runHandler d (announce d s) = .next u ∧ exec .deliver s = .next (releaseDelivery d u) := by
  obtain ⟨u, hu⟩ := runHandler_completes (s := announce d s) hk d
  exact ⟨u, hu, (exec_deliver_of_due hi hd).trans (deliverTransfer_eq_next.2 ⟨u, hu, rfl⟩)⟩

/-- Settles O36: the handler's run between the event and the release, by what the handler does. -/
theorem deliverCompletes : Obligations.DeliverCompletes := by
  intro s d hi hd hw
  have hdue : s.delivering ≠ none := by simp [hd]
  refine ⟨fun hk => ?contract, fun hn hnone => ?anonymous, fun key r hn hkey hr => ?session,
    fun h i hh hs hc hb => ?call, fun h calls hh hs hc hp hb => exec_deliver_of_calls hi hd hw hb hh hc hs hp⟩
  case contract =>
    obtain ⟨u, hu, hexec⟩ := exec_deliver_of_contract hi hd hk
    have hrun := handled_runHandler hu
    have hsess : u.sess = s.sess := hrun.sess
    obtain ⟨ev, hlog, hquiet, _⟩ := hrun.log
    have hdone := processed_deliverTransfer ((exec_deliver_of_due hi hd).symm.trans hexec)
    refine ⟨_, ev, hexec, by simp [hlog, announce], hquiet, hdone.delivering,
      (holderEnds_congr hsess).1 (holderEnds_releaseDelivery (hsess ▸ hw) d), fun hb => ?_, hdone.params, hdone.initialised,
      hdone.now, hdone.ctrlRx, hdone.mboxFree, hdone.rxq, hdone.dropped, hdone.wake, hdone.started, hdone.phase,
      hdone.midPhase, hdone.waitStart, hdone.sub, hdone.popped, hdone.schedule, hdone.recurring⟩
    calc poolAndItems (releaseDelivery d u)
        = poolAndItems u + 1 := poolAndItems_releaseDelivery (hsess ▸ hw) ((bufferHeld_congr hsess).2 hb)
      _ = poolAndItems (announce d s) + 1 := by rw [poolAndItems_runHandler hu]
  case anonymous =>
    rw [exec_deliver_of_no_handler hi hd hn]
    simp [releaseDelivery, hnone, poolFreeOne, announce, emit]
  case session =>
    obtain ⟨sess, hends, hexec⟩ := exec_deliver_of_no_handler_of_held hi hd hw hn (.inr ⟨key, r, hkey, hr⟩)
    exact ⟨sess, hends.2 key hkey, hexec⟩
  case call =>
    obtain ⟨sess, hends, hcall⟩ := exec_deliver_of_call hi hd hw hb hh hc hs
    refine ⟨sess, hends, ?enqueue, ?note, ?dropped, ?decodeErrors, ?timeouts⟩
    case enqueue =>
      rintro subject transferId priority deadline payload rfl
      obtain ⟨hsub, hprio, hpay⟩ := callInContract_enqueue.1 hc
      refine ⟨fun hfull => hcall _ (handlerCall_enqueue_of_full hc hfull),
        fun hroom hzero => hcall _ (handlerCall_enqueue_of_no_buffer hc hroom hzero), fun hroom hpos hord => ?_⟩
      have hinsert := enqueueInserts subject transferId priority deadline payload (handlerStart h d s) hi (.inr hdue) hord
        hsub hprio hpay hroom hpos
      exact hcall _ ((handlerCall_enqueue_eq_exec (s := handlerStart h d s) hi hdue).trans hinsert)
    case note => rintro rfl; exact hcall _ (handlerCall_noteDecodeError (handlerStart h d s))
    case dropped => rintro rfl; exact hcall _ rfl
    case decodeErrors => rintro rfl; exact hcall _ rfl
    case timeouts => rintro rfl; exact hcall _ rfl

end Sys2Proof.Proofs
end

section
/-! PROOFS. The staleness relation on transfer ids, by forward and backward distance (R145). -/

namespace Sys2Proof.Proofs

open Sys2Proof.Machine Sys2Proof.Laws

theorem staleness_eq_duplicate {p : Params} {t l : Nat} : staleness p t l = some .duplicate ↔ tidDiff p t l = 0 := by
  unfold staleness
  split_ifs with h <;> simp [h]

theorem staleness_eq_none {p : Params} {t l : Nat} :
    staleness p t l = none ↔ 1 ≤ tidDiff p t l ∧ tidDiff p t l < tidMod p / 2 := by
  unfold staleness
  split_ifs <;> simp <;> omega

theorem staleness_eq_stale {p : Params} {t l : Nat} :
    staleness p t l = some .stale ↔ 1 ≤ tidDiff p t l ∧ tidMod p / 2 ≤ tidDiff p t l := by
  unfold staleness
  split_ifs <;> simp <;> omega

/-- The distance of two ids of the range, modulo its size: the difference, with a turn added where it is negative. -/
theorem emod_sub_of_lt {a b m : Nat} (ha : a < m) (hb : b < m) :
    ((a : Int) - b) % (m : Int) = if b ≤ a then (a : Int) - b else (a : Int) - b + m := by
  split
  · exact Int.emod_eq_of_lt (by omega) (by omega)
  · rw [← Int.add_emod_right]
    exact Int.emod_eq_of_lt (by omega) (by omega)

/-- The ids come in two halves (R11). -/
theorem tidMod_eq_two_mul {p : Params} (h : 1 ≤ p.tidBits) : tidMod p = 2 * 2 ^ (p.tidBits - 1) := by
  rw [tidMod, ← Nat.pow_succ', Nat.succ_eq_add_one, Nat.sub_add_cancel h]

/-- Settles O34: the distances as differences, with a turn where one is negative, over the two halves of the range. -/
theorem stalenessRelation : Obligations.StalenessRelation := by
  intro p t l hbits ht hl d b
  have hd : (tidDiff p t l : Int) = d := Int.toNat_of_nonneg (Int.emod_nonneg _ (by omega))
  have hforward : d = _ := emod_sub_of_lt ht hl
  have hbackward : b = _ := emod_sub_of_lt hl ht
  have hhalves := tidMod_eq_two_mul hbits
  have hpos : 0 < 2 ^ (p.tidBits - 1) := Nat.two_pow_pos _
  generalize 2 ^ (p.tidBits - 1) = half at hhalves hpos
  rw [staleness_eq_duplicate, staleness_eq_none, staleness_eq_stale]
  split_ifs at hforward hbackward <;> omega

end Sys2Proof.Proofs
end

section
/-! PROOFS. Steps 4 to 9 of `PROCESS_FRAME` for a frame with a session, case by case (R136 to R141). -/

namespace Sys2Proof.Proofs

open Sys2Proof.Machine Sys2Proof.Laws

/-! ## From the statement to the session -/

/-- The state in which `PROCESS_FRAME` runs: TASK has handed its frame over (R131). -/
def unpopped (s : State) : State := { s with popped := none }

/-- A well-formed frame with a source that matches takes steps 4 to 9. -/
theorem reassemble_of_session {s : State} {f : Frame} {i : Nat} {sb : Subscription} (hm : matchSub s.sub f.id = some (i, sb))
    (hv : malformed s.params f = none) (ha : idAnon f.id = false) :
    reassemble f s = sessionTransfer (sessKey i (idSrcBits f.id)) sb f s := by
  simp only [reassemble, hm, hv, ha, Bool.false_eq_true, if_false]

section ReachesSession

variable {s t : State} {f : Frame} {sb : Subscription} {key : Nat}

/-- A frame that reaches its session is the work of steps 4 to 9, then the delivery, if one is due. -/
theorem exec_processFrame_of_reachesSession (h : reachesSession s f sb key) :
    exec .processFrame s = deliverDue (sessionTransfer key sb f (unpopped s)) := by
  obtain ⟨hfree, _, hf, hv, ha, i, hm, rfl⟩ := h
  rw [exec_processFrame_of_popped hfree hf, processFrame, reassemble_of_session (s := { s with popped := none }) hm hv ha]
  rfl

theorem exec_processFrame_of_done (h : reachesSession s f sb key)
    (ht : sessionTransfer key sb f (unpopped s) = t) (hd : t.delivering = none) :
    exec .processFrame s = .next t := by
  rw [exec_processFrame_of_reachesSession h, ht, deliverDue, hd]

theorem exec_processFrame_of_due (h : reachesSession s f sb key) {d : Delivery}
    (ht : sessionTransfer key sb f (unpopped s) = t) (hd : t.delivering = some d) :
    exec .processFrame s = exec .deliver t := by
  have hi : t.initialised = true := ht ▸ (quiet_sessionTransfer key sb f _).initialised.trans h.1.1
  rw [exec_processFrame_of_reachesSession h, ht, exec_deliver_of_due hi hd, deliverDue, hd]

/-- Another session table, pool and trace do not keep the frame from its session. -/
theorem exec_processFrame_eq_from (h : reachesSession s f sb key) {sess : SessTable} {poolFree : Nat} {log : List Event}
    (hw : sessWf sess = true)
    (heq : sessionTransfer key sb f (unpopped s)
      = sessionTransfer key sb f { unpopped s with sess := sess, poolFree := poolFree, log := log }) :
    exec .processFrame s = exec .processFrame { s with sess := sess, poolFree := poolFree, log := log } := by
  have hafter : reachesSession { s with sess := sess, poolFree := poolFree, log := log } f sb key := by
    obtain ⟨hfree, _, hframe⟩ := h
    exact ⟨hfree, hw, hframe⟩
  rw [exec_processFrame_of_reachesSession h, heq, exec_processFrame_of_reachesSession hafter]
  rfl

end ReachesSession

/-! ## The session written -/

section Session

variable {s : State} {key : Nat}

theorem putSession_putSession (hw : sessWf s.sess = true) (v w : Session) :
    putSession key w (putSession key v s) = putSession key w s := by
  simp only [putSession, sessSet_sessSet hw]

theorem abandon_putSession (hw : sessWf s.sess = true) {v : Session} {r : Reassembly} (hv : v.cur = some r) :
    abandon key (putSession key v s) = putSession key { last := v.last, cur := none } (poolFreeOne s) := by
  have hsession := session_putSession_same hw key v
  simp only [abandon, hsession, hv]
  exact putSession_putSession (s := poolFreeOne s) hw v _

/-- A transfer in progress that ends incomplete (R136, R137, R140). -/
def endIncomplete (why : Incomplete) (key : Nat) (s : State) : State := raiseError (.incompleteSequence why) (abandon key s)

theorem endIncomplete_of_active {r : Reassembly} (hcur : (s.session key).cur = some r) (why : Incomplete) :
    endIncomplete why key s = { s with
      sess := sessSet s.sess key { last := (s.session key).last, cur := none }
      poolFree := s.poolFree + 1
      log := s.log ++ [.raised (.incompleteSequence why)] } := by
  rw [endIncomplete, abandon_of_active hcur, raiseError_uncounted rfl]

theorem session_endIncomplete (hw : sessWf s.sess = true) {r : Reassembly} (hcur : (s.session key).cur = some r)
    (why : Incomplete) : (endIncomplete why key s).session key = { last := (s.session key).last, cur := none } := by
  rw [endIncomplete_of_active hcur]
  exact sessGet_sessSet_same hw ..

end Session

/-! ## Ageing (R136, R148) -/

section Ageing

variable {s : State} {key : Nat} {timeout : Time} {f : Frame}

theorem ageTransfer_of_idle (hcur : (s.session key).cur = none) : ageTransfer key timeout f s = s := by
  simp only [ageTransfer, hcur]

theorem ageTransfer_of_old {r : Reassembly} (hcur : (s.session key).cur = some r)
    (hold : r.tsFirst.toNat + timeout.toNat < f.ts.toNat) :
    ageTransfer key timeout f s = endIncomplete .timedOut key s := by
  simp only [ageTransfer, hcur, moreThan, hold, decide_true, if_true, endIncomplete]

theorem ageTransfer_of_recent {r : Reassembly} (hcur : (s.session key).cur = some r)
    (hrecent : f.ts.toNat ≤ r.tsFirst.toNat + timeout.toNat) : ageTransfer key timeout f s = s := by
  simp only [ageTransfer, hcur, moreThan, Nat.not_lt.2 hrecent, decide_false, Bool.false_eq_true, if_false]

/-- The last transfer id is old, and old ones are forgotten (R148). -/
def forgets (p : Params) (timeout : Time) (f : Frame) (last : Option LastAccepted) : Bool :=
  decide (p.tidExpiry = .onTimeout) && last.any fun l => moreThan f.ts l.ts timeout.toNat

theorem forgets_eq_true {p : Params} {last : Option LastAccepted} : forgets p timeout f last = true
    ↔ p.tidExpiry = .onTimeout ∧ ∃ l, last = some l ∧ l.ts.toNat + timeout.toNat < f.ts.toNat := by
  cases last <;> simp [forgets, moreThan]

theorem forgetLast_eq (s : State) : forgetLast key timeout f s
    = if forgets s.params timeout f (s.session key).last then putSession key { s.session key with last := none } s else s := by
  unfold forgetLast forgets
  split <;> simp_all

/-- Forgetting and ending the transfer in progress may be done in either order. -/
theorem forgetLast_endIncomplete (hw : sessWf s.sess = true) {r : Reassembly} (hcur : (s.session key).cur = some r)
    (why : Incomplete) :
    forgetLast key timeout f (endIncomplete why key s) = endIncomplete why key (forgetLast key timeout f s) := by
  have hparams : (endIncomplete why key s).params = s.params := by simp [endIncomplete]
  rw [forgetLast_eq, forgetLast_eq, hparams, session_endIncomplete hw hcur]
  split
  · have hafter : ((putSession key { s.session key with last := none } s).session key) = { s.session key with last := none } :=
      session_putSession_same hw key _
    rw [endIncomplete_of_active hcur, endIncomplete_of_active (r := r) (by rw [hafter, hcur]), hafter]
    simp only [putSession, sessSet_sessSet hw]
  · rfl

theorem forgetLast_session_cur (hw : sessWf s.sess = true) :
    ((forgetLast key timeout f s).session key).cur = (s.session key).cur := by
  rw [forgetLast_eq]
  split
  · rw [session_putSession_same hw]
  · rfl

theorem forgetLast_forgetLast (hw : sessWf s.sess = true) :
    forgetLast key timeout f (forgetLast key timeout f s) = forgetLast key timeout f s := by
  by_cases h : forgets s.params timeout f (s.session key).last = true
  · have hforgot : forgetLast key timeout f s = putSession key { s.session key with last := none } s := by
      rw [forgetLast_eq, if_pos h]
    rw [hforgot, forgetLast_eq, session_putSession_same hw]
    simp [forgets]
  · have hkept : forgetLast key timeout f s = s := by rw [forgetLast_eq, if_neg h]
    rw [hkept, hkept]

theorem sessWf_forgetLast (hw : sessWf s.sess = true) : sessWf (forgetLast key timeout f s).sess = true := by
  rw [forgetLast_eq]
  split
  · exact sessWf_sessSet hw ..
  · exact hw

theorem ageOut_of_recent {r : Reassembly} (hcur : (s.session key).cur = some r)
    (hrecent : f.ts.toNat ≤ r.tsFirst.toNat + timeout.toNat) : ageOut key timeout f s = forgetLast key timeout f s := by
  rw [ageOut, ageTransfer_of_recent hcur hrecent]

/-- A timed-out transfer ends first. -/
theorem ageOut_endIncomplete_of_old (hw : sessWf s.sess = true) {r : Reassembly} (hcur : (s.session key).cur = some r)
    (hold : r.tsFirst.toNat + timeout.toNat < f.ts.toNat) :
    ageOut key timeout f (endIncomplete .timedOut key s) = ageOut key timeout f s := by
  have hidle : ((endIncomplete .timedOut key s).session key).cur = none := by rw [session_endIncomplete hw hcur]
  rw [ageOut, ageOut, ageTransfer_of_idle hidle, ageTransfer_of_old hcur hold]

/-- An old transfer id may be forgotten first. -/
theorem ageOut_forgetLast (hw : sessWf s.sess = true) :
    ageOut key timeout f (forgetLast key timeout f s) = ageOut key timeout f s := by
  have hcur : ((forgetLast key timeout f s).session key).cur = (s.session key).cur := forgetLast_session_cur hw
  cases hc : (s.session key).cur with
  | none => rw [ageOut, ageOut, ageTransfer_of_idle (hcur.trans hc), ageTransfer_of_idle hc, forgetLast_forgetLast hw]
  | some r =>
    by_cases hold : r.tsFirst.toNat + timeout.toNat < f.ts.toNat
    · rw [ageOut, ageOut, ageTransfer_of_old (hcur.trans hc) hold, ageTransfer_of_old hc hold,
        forgetLast_endIncomplete (sessWf_forgetLast hw) (hcur.trans hc), forgetLast_forgetLast hw, forgetLast_endIncomplete hw hc]
    · have hrecent := Nat.not_lt.1 hold
      rw [ageOut_of_recent (hcur.trans hc) hrecent, ageOut_of_recent hc hrecent, forgetLast_forgetLast hw]

end Ageing

/-! ## Steps 4 to 9 as the ageing, the gate of step 5 and the rest -/

section Steps

variable {s t : State} {key : Nat} {sb : Subscription} {f : Frame}

theorem sessionTransfer_of_start (hsot : f.sot = true) :
    sessionTransfer key sb f s
      = afterGate key sb f (openTransfer key sb.extent f (preempt key (ageOut key sb.timeout f s))) := by
  simp only [sessionTransfer, hsot, if_true, startTransfer]
  rfl

theorem sessionTransfer_of_continuation (hsot : f.sot = false) :
    sessionTransfer key sb f s = afterGate key sb f (continueTransfer key sb.extent f (ageOut key sb.timeout f s)) := by
  simp only [sessionTransfer, hsot, Bool.false_eq_true, if_false]
  rfl

theorem sessionTransfer_congr (h : ageOut key sb.timeout f s = ageOut key sb.timeout f t) :
    sessionTransfer key sb f s = sessionTransfer key sb f t := by
  simp only [sessionTransfer, h]

theorem preempt_of_idle (hcur : (s.session key).cur = none) : preempt key s = s := by
  simp only [preempt, hcur]

theorem preempt_of_active {r : Reassembly} (hcur : (s.session key).cur = some r) :
    preempt key s = endIncomplete .preempted key s := by
  simp only [preempt, hcur, endIncomplete]

/-- A start frame may end the transfer in progress before it is aged. -/
theorem sessionTransfer_endIncomplete_of_start (hw : sessWf s.sess = true) {r : Reassembly}
    (hcur : (s.session key).cur = some r) (hrecent : f.ts.toNat ≤ r.tsFirst.toNat + sb.timeout.toNat) (hsot : f.sot = true) :
    sessionTransfer key sb f (endIncomplete .preempted key s) = sessionTransfer key sb f s := by
  have hidle : ((endIncomplete .preempted key s).session key).cur = none := by rw [session_endIncomplete hw hcur]
  have hkept : ((forgetLast key sb.timeout f s).session key).cur = some r := (forgetLast_session_cur hw).trans hcur
  have hended : ((endIncomplete .preempted key (forgetLast key sb.timeout f s)).session key).cur = none := by
    rw [session_endIncomplete (sessWf_forgetLast hw) hkept]
  rw [sessionTransfer_of_start hsot, sessionTransfer_of_start hsot, ageOut, ageTransfer_of_idle hidle,
    forgetLast_endIncomplete hw hcur, preempt_of_idle hended, ageOut_of_recent hcur hrecent, preempt_of_active hkept]

end Steps

/-- Settles O29: each of the three may be done before steps 4 to 9 with the same result. -/
theorem oldTransferEndsFirst : Obligations.OldTransferEndsFirst := by
  intro s f sb key h
  have hw : sessWf (unpopped s).sess = true := h.2.1
  refine ⟨fun r hcur hold => ?timedOut, fun r hcur hsot hrecent => ?preempted, fun l hlast hexpiry hold => ?forgotten⟩
  case timedOut =>
    refine ⟨_, updatesSession_sessSet hw .., exec_processFrame_eq_from h (sessWf_sessSet hw ..) ?_⟩
    rw [← sessionTransfer_congr (ageOut_endIncomplete_of_old hw hcur hold), endIncomplete_of_active (s := unpopped s) hcur]
    rfl
  case preempted =>
    refine ⟨_, updatesSession_sessSet hw .., exec_processFrame_eq_from h (sessWf_sessSet hw ..) ?_⟩
    rw [← sessionTransfer_endIncomplete_of_start hw hcur hrecent hsot, endIncomplete_of_active (s := unpopped s) hcur]
    rfl
  case forgotten =>
    refine ⟨_, updatesSession_sessSet hw .., exec_processFrame_eq_from h (sessWf_sessSet hw ..) ?_⟩
    rw [← sessionTransfer_congr (ageOut_forgetLast hw), forgetLast_eq]
    exact congrArg _ (if_pos (forgets_eq_true.2 ⟨hexpiry, l, hlast, hold⟩))

end Sys2Proof.Proofs
end

section
/-! PROOFS. A frame of a session that needs no ageing: start, continuation and completion of a transfer (R137 to R142). -/

namespace Sys2Proof.Proofs

open Sys2Proof.Machine Sys2Proof.Laws

/-! ## Nothing to age -/

section NothingToAge

variable {s : State} {f : Frame} {sb : Subscription} {key : Nat}

theorem ageOut_of_nothingToAge (h : nothingToAge s f sb key) : ageOut key sb.timeout f s = s := by
  obtain ⟨hcur, hlast⟩ := h
  have hage : ageTransfer key sb.timeout f s = s := by
    cases hc : (s.session key).cur with
    | none => exact ageTransfer_of_idle hc
    | some r => exact ageTransfer_of_recent hc (hcur r hc)
  have hkeep : ¬ forgets s.params sb.timeout f (s.session key).last = true := by
    rw [forgets_eq_true]
    rintro ⟨hexpiry, l, hl, hold⟩
    rcases hlast l hl with hnever | hrecent
    · rw [hexpiry] at hnever; cases hnever
    · omega
  rw [ageOut, hage, forgetLast_eq, if_neg hkeep]

theorem sessionTransfer_of_idle_start (h : nothingToAge s f sb key) (hcur : (s.session key).cur = none) (hsot : f.sot = true) :
    sessionTransfer key sb f s = afterGate key sb f (openTransfer key sb.extent f s) := by
  rw [sessionTransfer_of_start hsot, ageOut_of_nothingToAge h, preempt_of_idle hcur]

theorem sessionTransfer_of_fresh_continuation (h : nothingToAge s f sb key) (hsot : f.sot = false) :
    sessionTransfer key sb f s = afterGate key sb f (continueTransfer key sb.extent f s) := by
  rw [sessionTransfer_of_continuation hsot, ageOut_of_nothingToAge h]

end NothingToAge

/-! ## Step 5, the gate (R137, R138) -/

section Gate

variable {s : State} {f : Frame} {key extent : Nat}

theorem openTransfer_of_long (h : startLimit s.params extent f < f.pl.length) :
    openTransfer key extent f s = .done (raiseError .extentViolation s) := by
  simp only [openTransfer, h, if_true]

theorem openTransfer_of_empty (h : f.pl.length ≤ startLimit s.params extent f) (hp : s.poolFree = 0) :
    openTransfer key extent f s = .done (raiseError .poolExhaustedRx s) := by
  simp only [openTransfer, Nat.not_lt.2 h, if_false, poolAlloc_eq_none.2 hp]

theorem openTransfer_of_free (h : f.pl.length ≤ startLimit s.params extent f) (hp : 0 < s.poolFree) :
    openTransfer key extent f s = .more (putSession key
      { s.session key with cur := some (openReassembly s.params f) } { s with poolFree := s.poolFree - 1 }) := by
  simp only [openTransfer, Nat.not_lt.2 h, if_false, poolAlloc_eq_some.2 ⟨hp, rfl⟩]
  rfl

theorem continueTransfer_of_idle (hcur : (s.session key).cur = none) :
    continueTransfer key extent f s = .done (raiseError (.incompleteSequence .orphan) s) := by
  simp only [continueTransfer, hcur]

variable {r : Reassembly} (hcur : (s.session key).cur = some r)

include hcur

theorem continueTransfer_of_orphan (h : frameTid s.params f ≠ r.tid ∨ f.tog ≠ r.toggle) :
    continueTransfer key extent f s = .done (raiseError (.incompleteSequence .orphan) s) := by
  simp only [continueTransfer, hcur, if_pos h]

theorem continueTransfer_of_long (htid : frameTid s.params f = r.tid) (htog : f.tog = r.toggle)
    (h : extent + s.params.crcBytes < r.buf.length + f.pl.length) :
    continueTransfer key extent f s = .done (raiseError .extentViolation (abandon key s)) := by
  simp [continueTransfer, hcur, htid, htog, h]

theorem continueTransfer_of_next (htid : frameTid s.params f = r.tid) (htog : f.tog = r.toggle)
    (h : r.buf.length + f.pl.length ≤ extent + s.params.crcBytes) : continueTransfer key extent f s = .more s := by
  simp [continueTransfer, hcur, htid, htog, Nat.not_lt.2 h]

end Gate

/-! ## Steps 6 to 9 (R139 to R141) -/

section Completion

variable {s : State} {f : Frame} {sb : Subscription} {key : Nat} {r : Reassembly}

/-- The transfer in progress with the payload of one frame more, and the toggle turned (R139). -/
def extended (r : Reassembly) (f : Frame) : Reassembly := { r with buf := r.buf ++ f.pl, toggle := !r.toggle }

theorem accumulate_of_active (hcur : (s.session key).cur = some r) :
    accumulate key f s = putSession key { s.session key with cur := some (extended r f) } s := by
  simp only [accumulate, hcur, extended]

theorem accumulate_putSession (hw : sessWf s.sess = true) (last : Option LastAccepted) :
    accumulate key f (putSession key { last := last, cur := some r } s)
      = putSession key { last := last, cur := some (extended r f) } s := by
  have hsession := session_putSession_same hw key { last := last, cur := some r }
  rw [accumulate_of_active (r := r) (by rw [hsession]), hsession, putSession_putSession hw]

theorem completeTransfer_of_more (heot : f.eot = false) : completeTransfer key sb f s = s := by
  simp [completeTransfer, heot]

theorem completeTransfer_of_badCrc (heot : f.eot = true) (hcur : (s.session key).cur = some r) (hm : r.multi = true)
    (hcrc : crcOk s.params r.buf = false) : completeTransfer key sb f s = endIncomplete .badCrc key s := by
  simp [completeTransfer, heot, hcur, hm, hcrc, endIncomplete]

theorem completeTransfer_of_complete (heot : f.eot = true) (hcur : (s.session key).cur = some r)
    (hcrc : r.multi = true → crcOk s.params r.buf = true) : completeTransfer key sb f s = sequenceTransfer key sb r s := by
  cases hm : r.multi <;> simp_all [completeTransfer]

theorem sequenceTransfer_of_stale {l : LastAccepted} {why : Staleness} (hlast : (s.session key).last = some l)
    (hwhy : staleness s.params r.tid l.tid = some why) :
    sequenceTransfer key sb r s = raiseError (.staleTransfer why) (abandon key s) := by
  simp [sequenceTransfer, hlast, hwhy]

/-- The delivery of a completed transfer (R142). -/
def deliveryOf (key : Nat) (sb : Subscription) (p : Params) (r : Reassembly) : Delivery :=
  { tag := sb.tag, subject := sb.subject, payload := transferPayload p r, ts := r.tsFirst, holder := some key }

theorem sequenceTransfer_of_new (hnew : newToSession s.params (s.session key).last r.tid) :
    sequenceTransfer key sb r s = handOver (deliveryOf key sb s.params r)
      (putSession key { s.session key with last := some { tid := r.tid, ts := r.tsFirst } } s) := by
  have hverdict : ((s.session key).last.bind fun l => staleness s.params r.tid l.tid) = none := by
    cases hl : (s.session key).last with
    | none => rfl
    | some l => exact hnew l hl
  simp only [sequenceTransfer, hverdict, deliveryOf]

/-! The same after the frame has been accumulated: the session is the one just written. -/

variable (hw : sessWf s.sess = true) {last : Option LastAccepted}

include hw

/-- The transfer just accumulated ends without a delivery. -/
theorem raiseError_abandon_putSession {e : ErrorClass} (he : countsNothing e = true) :
    raiseError e (abandon key (putSession key { last := last, cur := some r } s)) = { s with
      sess := sessSet s.sess key { last := last, cur := none }
      poolFree := s.poolFree + 1
      log := s.log ++ [.raised e] } := by
  rw [abandon_putSession hw rfl, raiseError_uncounted he]
  rfl

theorem complete_of_badCrc (heot : f.eot = true) (hm : r.multi = true) (hcrc : crcOk s.params r.buf = false) :
    completeTransfer key sb f (putSession key { last := last, cur := some r } s) = { s with
      sess := sessSet s.sess key { last := last, cur := none }
      poolFree := s.poolFree + 1
      log := s.log ++ [.raised (.incompleteSequence .badCrc)] } := by
  have hsession := session_putSession_same hw key { last := last, cur := some r }
  rw [completeTransfer_of_badCrc heot (congrArg Session.cur hsession) hm hcrc]
  exact raiseError_abandon_putSession hw rfl

theorem complete_of_stale (heot : f.eot = true) (hcrc : r.multi = true → crcOk s.params r.buf = true) {l : LastAccepted}
    {why : Staleness} (hlast : last = some l) (hwhy : staleness s.params r.tid l.tid = some why) :
    completeTransfer key sb f (putSession key { last := last, cur := some r } s) = { s with
      sess := sessSet s.sess key { last := last, cur := none }
      poolFree := s.poolFree + 1
      log := s.log ++ [.raised (.staleTransfer why)] } := by
  have hsession := session_putSession_same hw key { last := last, cur := some r }
  rw [completeTransfer_of_complete heot (congrArg Session.cur hsession) hcrc,
    sequenceTransfer_of_stale ((congrArg Session.last hsession).trans hlast) hwhy]
  exact raiseError_abandon_putSession hw rfl

theorem complete_of_new (heot : f.eot = true) (hcrc : r.multi = true → crcOk s.params r.buf = true)
    (hnew : newToSession s.params last r.tid) :
    completeTransfer key sb f (putSession key { last := last, cur := some r } s) = { s with
      sess := sessSet s.sess key { last := some { tid := r.tid, ts := r.tsFirst }, cur := some r }
      delivering := some (deliveryOf key sb s.params r) } := by
  have hsession := session_putSession_same hw key { last := last, cur := some r }
  have hnew' : newToSession s.params ((putSession key { last := last, cur := some r } s).session key).last r.tid := by
    rw [hsession]; exact hnew
  rw [completeTransfer_of_complete heot (congrArg Session.cur hsession) hcrc, sequenceTransfer_of_new hnew', hsession,
    putSession_putSession hw]
  rfl

end Completion

/-! ## A start frame on an idle session (R137, R139) -/

section Start

variable {s : State} {f : Frame} {sb : Subscription} {key : Nat}

/-- The transfer that a start frame opens, its payload taken. -/
def opened (p : Params) (f : Frame) : Reassembly :=
  { tid := frameTid p f, toggle := !p.toggleInit, multi := !f.eot, buf := f.pl, tsFirst := f.ts }

/-- The transfer that the only frame of its sequence opens and completes. -/
theorem opened_of_last (p : Params) (heot : f.eot = true) :
    opened p f = { tid := frameTid p f, toggle := !p.toggleInit, multi := false, buf := f.pl, tsFirst := f.ts } := by
  rw [opened, heot]; rfl

theorem opened_of_more (p : Params) (heot : f.eot = false) :
    opened p f = { tid := frameTid p f, toggle := !p.toggleInit, multi := true, buf := f.pl, tsFirst := f.ts } := by
  rw [opened, heot]; rfl

/-- A single frame carries no CRC, so nothing is stripped from it (R140). -/
theorem deliveryOf_opened (p : Params) (heot : f.eot = true) : deliveryOf key sb p (opened p f)
    = { tag := sb.tag, subject := sb.subject, payload := f.pl, ts := f.ts, holder := some key } := by
  simp [deliveryOf, transferPayload, opened, heot]

variable (hage : nothingToAge s f sb key) (hcur : (s.session key).cur = none) (hsot : f.sot = true)

include hage hcur hsot

theorem start_of_long (hlong : startLimit s.params sb.extent f < f.pl.length) :
    sessionTransfer key sb f s
      = { s with decodeErr := afterExtentViolation s, log := s.log ++ [.raised .extentViolation] } := by
  rw [sessionTransfer_of_idle_start hage hcur hsot, openTransfer_of_long hlong, afterGate, raiseError_extentViolation]
  rfl

variable (hfits : f.pl.length ≤ startLimit s.params sb.extent f)

include hfits

theorem start_of_no_buffer (hempty : s.poolFree = 0) :
    sessionTransfer key sb f s
      = { s with decodeErr := satInc s.decodeErr, log := s.log ++ [.raised .poolExhaustedRx] } := by
  rw [sessionTransfer_of_idle_start hage hcur hsot, openTransfer_of_empty hfits hempty, afterGate, raiseError_poolExhaustedRx]

variable (hw : sessWf s.sess = true) (hpos : 0 < s.poolFree)

include hw hpos

/-- A start frame that fits takes a buffer and opens the transfer; steps 7 to 9 follow. -/
theorem start_of_free : sessionTransfer key sb f s = completeTransfer key sb f (putSession key
    { last := (s.session key).last, cur := some (opened s.params f) } { s with poolFree := s.poolFree - 1 }) := by
  rw [sessionTransfer_of_idle_start hage hcur hsot, openTransfer_of_free hfits hpos, afterGate]
  exact congrArg _ (accumulate_putSession (s := { s with poolFree := s.poolFree - 1 }) hw _)

theorem start_of_first (heot : f.eot = false) :
    sessionTransfer key sb f s = { s with
      poolFree := s.poolFree - 1
      sess := sessSet s.sess key { last := (s.session key).last, cur := some (opened s.params f) } } := by
  rw [start_of_free hage hcur hsot hfits hw hpos, completeTransfer_of_more heot]
  rfl

theorem start_of_new (heot : f.eot = true) (hnew : newToSession s.params (s.session key).last (frameTid s.params f)) :
    sessionTransfer key sb f s = { s with
      poolFree := s.poolFree - 1
      sess := sessSet s.sess key { last := some { tid := frameTid s.params f, ts := f.ts }, cur := some (opened s.params f) }
      delivering := some { tag := sb.tag, subject := sb.subject, payload := f.pl, ts := f.ts, holder := some key } } := by
  rw [start_of_free hage hcur hsot hfits hw hpos, ← deliveryOf_opened s.params heot]
  exact complete_of_new (s := { s with poolFree := s.poolFree - 1 }) hw heot (by simp [opened, heot]) hnew

/-- The buffer goes straight back, and the session is idle as before. -/
theorem start_of_stale (heot : f.eot = true) {l : LastAccepted} {why : Staleness} (hlast : (s.session key).last = some l)
    (hwhy : staleness s.params (frameTid s.params f) l.tid = some why) :
    sessionTransfer key sb f s = { s with log := s.log ++ [.raised (.staleTransfer why)] } := by
  have hidle : { last := (s.session key).last, cur := none } = s.session key := by rw [← hcur]
  rw [start_of_free hage hcur hsot hfits hw hpos,
    complete_of_stale (s := { s with poolFree := s.poolFree - 1 }) hw heot (by simp [opened, heot]) hlast hwhy, hidle]
  dsimp only
  rw [Nat.sub_add_cancel hpos, State.session, sessSet_sessGet hw]

end Start

/-- Settles O30: by the bound, then the pool. -/
theorem startFrames : Obligations.StartFrames := by
  intro s f sb key h hage hcur hsot
  have hw : sessWf s.sess = true := h.2.1
  have hd : s.delivering = none := h.1.2.1
  refine ⟨fun hlong => ?long, fun hfits hempty => ?empty, fun heot hfits hpos => ?first⟩
  case long => exact exec_processFrame_of_done h (start_of_long (s := unpopped s) hage hcur hsot hlong) hd
  case empty => exact exec_processFrame_of_done h (start_of_no_buffer (s := unpopped s) hage hcur hsot hfits hempty) hd
  case first =>
    have hlimit : f.pl.length ≤ startLimit s.params sb.extent f := by simpa [startLimit, heot] using hfits
    rw [← opened_of_more s.params heot]
    exact ⟨_, updatesSession_sessSet hw ..,
      exec_processFrame_of_done h (start_of_first (s := unpopped s) hage hcur hsot hlimit hw hpos heot) hd⟩

/-- Settles O31: by the verdict on the transfer id. -/
theorem singleFrameTransfers : Obligations.SingleFrameTransfers := by
  intro s f sb key h hage hcur hsingle hfits hpos
  have hw : sessWf s.sess = true := h.2.1
  have hd : s.delivering = none := h.1.2.1
  obtain ⟨hsot, heot⟩ : f.sot = true ∧ f.eot = true := by simpa [Frame.single] using hsingle
  have hlimit : f.pl.length ≤ startLimit s.params sb.extent f := by simpa [startLimit, heot] using hfits
  refine ⟨fun hnew => ?new, fun l why hlast hwhy => ?stale⟩
  case new =>
    rw [← opened_of_last s.params heot]
    exact ⟨_, updatesSession_sessSet hw ..,
      exec_processFrame_of_due h (start_of_new (s := unpopped s) hage hcur hsot hlimit hw hpos heot hnew) rfl⟩
  case stale =>
    exact ⟨s.sess, fun _ => rfl, hw,
      exec_processFrame_of_done h (start_of_stale (s := unpopped s) hage hcur hsot hlimit hw hpos heot hlast hwhy) hd⟩

/-! ## A continuation frame (R138 to R141) -/

section Continuation

variable {s : State} {f : Frame} {sb : Subscription} {key : Nat} (hage : nothingToAge s f sb key) (hsot : f.sot = false)

include hage hsot

theorem continuation_of_idle (hcur : (s.session key).cur = none) :
    sessionTransfer key sb f s = { s with log := s.log ++ [.raised (.incompleteSequence .orphan)] } := by
  rw [sessionTransfer_of_fresh_continuation hage hsot, continueTransfer_of_idle hcur, afterGate, raiseError_uncounted rfl]

variable {r : Reassembly} (hcur : (s.session key).cur = some r)

include hcur

theorem continuation_of_orphan (h : frameTid s.params f ≠ r.tid ∨ f.tog ≠ r.toggle) :
    sessionTransfer key sb f s = { s with log := s.log ++ [.raised (.incompleteSequence .orphan)] } := by
  rw [sessionTransfer_of_fresh_continuation hage hsot, continueTransfer_of_orphan hcur h, afterGate, raiseError_uncounted rfl]

variable (htid : frameTid s.params f = r.tid) (htog : f.tog = r.toggle)

include htid htog

theorem continuation_of_long (hlong : sb.extent + s.params.crcBytes < r.buf.length + f.pl.length) :
    sessionTransfer key sb f s = { s with
      sess := sessSet s.sess key { last := (s.session key).last, cur := none }
      poolFree := s.poolFree + 1
      decodeErr := afterExtentViolation s
      log := s.log ++ [.raised .extentViolation] } := by
  rw [sessionTransfer_of_fresh_continuation hage hsot, continueTransfer_of_long hcur htid htog hlong, afterGate,
    abandon_of_active hcur, raiseError_extentViolation]
  rfl

variable (hfits : r.buf.length + f.pl.length ≤ sb.extent + s.params.crcBytes)

include hfits

/-- The next frame of a transfer that fits is accumulated; steps 7 to 9 follow. -/
theorem continuation_of_next : sessionTransfer key sb f s
    = completeTransfer key sb f (putSession key { last := (s.session key).last, cur := some (extended r f) } s) := by
  rw [sessionTransfer_of_fresh_continuation hage hsot, continueTransfer_of_next hcur htid htog hfits, afterGate,
    accumulate_of_active hcur]

theorem continuation_of_middle (heot : f.eot = false) :
    sessionTransfer key sb f s
      = { s with sess := sessSet s.sess key { last := (s.session key).last, cur := some (extended r f) } } := by
  rw [continuation_of_next hage hsot hcur htid htog hfits, completeTransfer_of_more heot]
  rfl

end Continuation

/-- Settles O32: by what is in progress, then the bound. -/
theorem continuationFrames : Obligations.ContinuationFrames := by
  intro s f sb key h hage hsot
  have hw : sessWf s.sess = true := h.2.1
  have hd : s.delivering = none := h.1.2.1
  refine ⟨fun hcur => ?idle, fun r hcur => ⟨fun hother => ?orphan, fun htid htog hlong => ?long,
    fun htid htog hfits heot => ?middle⟩⟩
  case idle => exact exec_processFrame_of_done h (continuation_of_idle (s := unpopped s) hage hsot hcur) hd
  case orphan => exact exec_processFrame_of_done h (continuation_of_orphan (s := unpopped s) hage hsot hcur hother) hd
  case long =>
    exact ⟨_, updatesSession_sessSet hw ..,
      exec_processFrame_of_done h (continuation_of_long (s := unpopped s) hage hsot hcur htid htog hlong) hd⟩
  case middle =>
    exact ⟨_, updatesSession_sessSet hw ..,
      exec_processFrame_of_done h (continuation_of_middle (s := unpopped s) hage hsot hcur htid htog hfits heot) hd⟩

/-- Settles O33: the CRC, then the verdict on the transfer id. -/
theorem multiFrameCompletion : Obligations.MultiFrameCompletion := by
  intro s f sb key r h hage hcur hmulti hsot heot htid htog hfits
  have hw : sessWf s.sess = true := h.2.1
  have hd : s.delivering = none := h.1.2.1
  have hnext := continuation_of_next (s := unpopped s) hage hsot hcur htid htog hfits
  refine ⟨fun hcrc => ?badCrc, fun hcrc l why hlast hwhy => ?stale, fun hcrc hnew => ?new⟩
  case badCrc =>
    have hend := hnext.trans (complete_of_badCrc (r := extended r f) (s := unpopped s) hw heot hmulti hcrc)
    exact ⟨_, updatesSession_sessSet hw .., exec_processFrame_of_done h hend hd⟩
  case stale =>
    have hend := hnext.trans (complete_of_stale (r := extended r f) (s := unpopped s) hw heot (fun _ => hcrc) hlast hwhy)
    exact ⟨_, updatesSession_sessSet hw .., exec_processFrame_of_done h hend hd⟩
  case new =>
    have hpayload : (deliveryOf key sb s.params (extended r f)).payload
        = (r.buf ++ f.pl).take ((r.buf ++ f.pl).length - s.params.crcBytes) := if_pos hmulti
    have hdue := hnext.trans (complete_of_new (r := extended r f) (s := unpopped s) hw heot (fun _ => hcrc) hnew)
    rw [← hpayload]
    exact ⟨_, updatesSession_sessSet hw .., exec_processFrame_of_due h hdue rfl⟩

end Sys2Proof.Proofs
end

section
/-! PROOFS. What one frame delivers: a payload within the extent of the subscription that it matched (R149). -/

namespace Sys2Proof.Proofs

open Sys2Proof.Machine Sys2Proof.Laws

/-! ## The due delivery and its transfer -/

/-- The due delivery, if there is one, is of a valid subscription and within its extent (R149). -/
def dueWithinExtent (s : State) : Prop :=
  ∀ d, s.delivering = some d →
    ∃ sb, some sb ∈ s.sub ∧ sb.tag = d.tag ∧ sb.subject = d.subject ∧ d.payload.length ≤ sb.extent

/-- The due delivery, if there is one, is of the transfer in progress in the session `key` of `sb`. -/
def dueFromSession (key : Nat) (sb : Subscription) (s : State) : Prop :=
  ∀ d, s.delivering = some d → ∃ r, (s.session key).cur = some r ∧ d = deliveryOf key sb s.params r

/-- A session table in canonical form, and nothing due. -/
def nothingDue (s : State) : Prop := sessWf s.sess = true ∧ s.delivering = none

theorem dueFromSession_of_nothingDue {key : Nat} {sb : Subscription} {s : State} (h : nothingDue s) :
    dueFromSession key sb s := fun d hd => by rw [h.2] at hd; cases hd

theorem nothingDue_raiseError {s : State} (h : nothingDue s) (e : ErrorClass) : nothingDue (raiseError e s) := by
  simpa only [nothingDue, raiseError_sess, raiseError_delivering] using h

theorem nothingDue_putSession {s : State} (h : nothingDue s) (key : Nat) (v : Session) : nothingDue (putSession key v s) :=
  ⟨sessWf_sessSet h.1 key v, h.2⟩

theorem nothingDue_abandon {s : State} (h : nothingDue s) (key : Nat) : nothingDue (abandon key s) := by
  unfold abandon
  split
  · exact h
  · exact nothingDue_putSession (s := poolFreeOne s) h key _

theorem transferEndClosed_nothingDue : TransferEndClosed nothingDue where
  raise e _ h := nothingDue_raiseError h e
  abandon key _ h := nothingDue_abandon h key
  forget key _ h := nothingDue_putSession h key _

theorem nothingDue_accumulate {s : State} (h : nothingDue s) (key : Nat) (f : Frame) : nothingDue (accumulate key f s) := by
  unfold accumulate
  split
  · exact h
  · exact nothingDue_putSession h key _

/-- Steps 7 to 9 hand over the transfer in progress, or nothing (R140, R141). -/
theorem dueFromSession_completeTransfer {s : State} (h : nothingDue s) (key : Nat) (sb : Subscription) (f : Frame) :
    dueFromSession key sb (completeTransfer key sb f s) := by
  have hended : ∀ e, dueFromSession key sb (raiseError e (abandon key s)) := fun e =>
    dueFromSession_of_nothingDue (nothingDue_raiseError (nothingDue_abandon h key) e)
  unfold completeTransfer
  split
  · exact dueFromSession_of_nothingDue h
  · split
    · exact dueFromSession_of_nothingDue h
    · rename_i r hcur
      split
      · exact hended _
      · unfold sequenceTransfer
        split
        · exact hended _
        · intro d hd
          refine ⟨r, (congrArg Session.cur (session_putSession_same h.1 key _)).trans hcur, ?_⟩
          exact (Option.some.inj hd).symm

theorem dueFromSession_sessionTransfer {s : State} (h : nothingDue s) (key : Nat) (sb : Subscription) (f : Frame) :
    dueFromSession key sb (sessionTransfer key sb f s) := by
  have hcomplete : ∀ u, nothingDue u → dueFromSession key sb (completeTransfer key sb f (accumulate key f u)) := fun u hu =>
    dueFromSession_completeTransfer (nothingDue_accumulate hu key f) key sb f
  refine transferEndClosed_nothingDue.sessionTransfer (fun _ hu => hu.1) (fun _ => dueFromSession_of_nothingDue)
    (fun u hu _ _ _ => hcomplete _ ?_) (fun u _ hu _ _ => hcomplete u hu) h
  exact nothingDue_putSession (s := { u with poolFree := u.poolFree - 1 }) hu key _

/-! ## The extent -/

/-- The bytes of a transfer in progress may exceed the extent by the CRC, which is not delivered (R138, R140). -/
theorem length_transferPayload_le {p : Params} {r : Reassembly} {extent : Nat}
    (h : r.buf.length ≤ extent + if r.multi then p.crcBytes else 0) : (transferPayload p r).length ≤ extent := by
  unfold transferPayload
  split <;> rename_i hm <;> simp only [hm] at h
  · rw [List.length_take]
    simp only [if_true] at h
    omega
  · simpa using h

theorem dueWithinExtent_of_session {s : State} {key : Nat} {sb : Subscription} (hb : buffersBounded s)
    (hsub : s.sub[key / 128]? = some (some sb)) (h : dueFromSession key sb s) : dueWithinExtent s := by
  intro d hd
  obtain ⟨r, hcur, rfl⟩ := h d hd
  obtain ⟨⟨sb', hsub', hroom⟩, _⟩ := hb.2 key r hcur
  obtain rfl : sb = sb' := by rw [hsub] at hsub'; exact Option.some.inj (Option.some.inj hsub')
  exact ⟨sb, List.mem_of_getElem? hsub, rfl, rfl, length_transferPayload_le hroom⟩

theorem dueWithinExtent_raiseError {s : State} (hd : s.delivering = none) (e : ErrorClass) :
    dueWithinExtent (raiseError e s) := fun d hdue => by
  rw [raiseError_delivering, hd] at hdue; cases hdue

/-- Step 3 checks the extent itself (R135). -/
theorem dueWithinExtent_anonymousTransfer {s : State} {sb : Subscription} (hd : s.delivering = none) (hsub : some sb ∈ s.sub)
    (f : Frame) : dueWithinExtent (anonymousTransfer sb f s) := by
  by_cases hfits : f.pl.length ≤ sb.extent
  · rcases Nat.eq_zero_or_pos s.poolFree with hempty | hpos
    · rw [anonymousTransfer_of_empty hfits hempty]
      exact dueWithinExtent_raiseError hd _
    · rw [anonymousTransfer_of_free hfits hpos]
      intro d hdue
      obtain rfl := Option.some.inj hdue
      exact ⟨sb, hsub, rfl, rfl, hfits⟩
  · rw [anonymousTransfer_of_long (Nat.not_le.1 hfits)]
    exact dueWithinExtent_raiseError hd _

/-- What steps 1 to 9 hand over is within the extent, since the transfer in progress is within its bound (I-5). -/
theorem dueWithinExtent_reassemble {s : State} (hb : buffersBounded s) (hd : s.delivering = none) (f : Frame) :
    dueWithinExtent (reassemble f s) := by
  have hbounded := buffersBounded_reassemble hb hd f
  have hsubs := (quiet_reassemble f s).sub
  cases hm : matchSub s.sub f.id with
  | none => rw [reassemble_of_unmatched hm]; exact dueWithinExtent_raiseError hd _
  | some x =>
    obtain ⟨i, sb⟩ := x
    have hsub : s.sub[i]? = some (some sb) := (((matchIsLowestIndex s.sub f.id).1 i sb).1 hm).1
    cases hv : malformed s.params f with
    | some v => rw [reassemble_of_malformed hm hv]; exact dueWithinExtent_raiseError hd _
    | none =>
      cases ha : idAnon f.id with
      | true =>
        rw [reassemble_of_anonymous hm hv ha]
        exact dueWithinExtent_anonymousTransfer hd (List.mem_of_getElem? hsub) f
      | false =>
        rw [reassemble_of_session hm hv ha] at hbounded hsubs ⊢
        exact dueWithinExtent_of_session hbounded (by rw [hsubs, sessKey_div]; exact hsub)
          (dueFromSession_sessionTransfer ⟨hb.1, hd⟩ _ sb f)

/-! ## The trace -/

/-- The only delivery that `PROCESS_FRAME` adds to the trace is the due one (R132, R142). -/
theorem processFrame_deliveries {f : Frame} {s t : State} (h : processFrame f s = .next t) :
    ∃ ev, t.log = s.log ++ ev ∧ ev.countP deliverEvent ≤ 1 ∧ ∀ e ∈ ev, deliverEvent e = true →
      ∃ d, (reassemble f s).delivering = some d ∧ e = .deliver d.tag d.subject d.payload d.payload.length d.ts := by
  obtain ⟨ev, hlog, hcount, _⟩ := (processed_processFrame h).log
  refine ⟨ev, hlog, hcount, fun e he hdeliver => ?_⟩
  obtain ⟨cs, hraised⟩ := (quiet_reassemble f s).log
  have hquiet : ∀ e ∈ cs.map Event.raised, deliverEvent e = false := List.forall_mem_map.2 fun _ _ => rfl
  rw [processFrame_eq] at h
  split at h
  · cases h
    rw [List.append_cancel_left (hlog.symm.trans hraised)] at he
    rw [hquiet e he] at hdeliver; cases hdeliver
  · rename_i d hd
    obtain ⟨u, hu, rfl⟩ := deliverTransfer_eq_next.1 h
    obtain ⟨ev', hrun, hnone, _⟩ := (handled_runHandler hu).log
    rw [releaseDelivery_log, hrun, emit_log, hraised, List.append_assoc, List.append_assoc] at hlog
    rw [← List.append_cancel_left hlog, List.mem_append, List.mem_append, List.mem_singleton] at he
    rcases he with he | rfl | he
    · rw [hquiet e he] at hdeliver; cases hdeliver
    · exact ⟨d, hd, rfl⟩
    · exact absurd hdeliver (List.countP_eq_zero.1 hnone e he)

/-- Settles O35: the one delivery is the due one, which steps 1 to 9 hand over within its extent. -/
theorem deliveriesWithinExtent : Obligations.DeliveriesWithinExtent := by
  intro s t hb _ hexec
  obtain ⟨⟨_, hd, _⟩, f, _, hrun⟩ := exec_processFrame_eq_next.1 hexec
  obtain ⟨ev, hlog, hcount, hdue⟩ := processFrame_deliveries hrun
  refine ⟨ev, hlog, hcount, fun tag subject payload size ts he => ?_⟩
  obtain ⟨d, hdelivering, heq⟩ := hdue _ he rfl
  obtain ⟨rfl, rfl, rfl, rfl, rfl⟩ := Event.deliver.inj heq
  obtain ⟨sb, hsub, htag, hsubject, hfits⟩ := dueWithinExtent_reassemble (s := { s with popped := none }) hb hd f d hdelivering
  rw [(quiet_reassemble f { s with popped := none }).sub] at hsub
  exact ⟨rfl, sb, hsub, htag, hsubject, hfits⟩

end Sys2Proof.Proofs
end

section
/-! PROOFS. `PROCESS_PENDING` (R131) and the order of one `TASK_CYCLE` (R180, R183, R189): the phases of a cycle are the statements
issued one after another, since none of them reads where TASK stands. -/

namespace Sys2Proof.Proofs

open Sys2Proof.Machine Sys2Proof.Laws

/-! ## PROCESS_PENDING -/

theorem exec_processPending_of_free {s : State} (h : taskFree s) : exec .processPending s = processQueue s := by
  obtain ⟨hi, hd, hp⟩ := h
  simp only [exec, execProcessPending, whenTaskFree_of hi hd hp]

theorem taskFree_of_processed {s t : State} (h : taskFree s) (hp : Processed s t) : taskFree t := by
  obtain ⟨hi, _, hphase⟩ := h
  exact ⟨hp.initialised.trans hi, hp.delivering, hp.phase.trans hphase⟩

/-- With handlers that keep their contract the loop empties the queue (R131). -/
theorem processQueue_completes {s : State} (hk : handlersKeepContract s.params) :
    ∃ t ev, processQueue s = .next t ∧ t.log = s.log ++ ev ∧ (∀ e ∈ ev, dispatchEvent e = true) ∧ t.rxq = []
      ∧ t.popped = none := by
  induction hq : s.rxq generalizing s with
  | nil => exact ⟨_, [], pendingTurns_of_empty _ hq, by simp, by simp, hq, rfl⟩
  | cons f rest ih =>
    obtain ⟨u, hu⟩ := processFrame_completes (s := { s with rxq := rest, popped := none }) hk f
    have hp := processed_processFrame hu
    obtain ⟨ev, hlog, _, hev⟩ := hp.log
    have hk' : handlersKeepContract u.params := by rw [hp.params]; exact hk
    obtain ⟨t, ev', ht, hlog', hev', hrest⟩ := ih hk' hp.rxq
    refine ⟨t, ev ++ ev', by rw [processQueue_of_cons hq, hu]; exact ht, by rw [hlog', hlog, List.append_assoc], ?_, hrest⟩
    exact List.forall_mem_append.2 ⟨hev, hev'⟩

/-- Settles O39: by induction on the queue, one `PROCESS_FRAME` for each frame. -/
theorem pendingDrainsQueue : Obligations.PendingDrainsQueue := by
  refine ⟨fun s h => ⟨fun hq => ?empty, fun f rest hq => ?cons⟩, fun s h hk => ?completes⟩
  case empty => rw [exec_processPending_of_free h, processQueue, pendingTurns_of_empty _ hq]
  case cons =>
    have hpopped : taskFree { s with rxq := rest, popped := some f } := h
    rw [exec_processPending_of_free h, processQueue_of_cons hq, exec_processFrame_of_popped hpopped rfl]
    refine andThen_congr fun t ht => (exec_processPending_of_free ?_).symm
    exact taskFree_of_processed (s := { s with rxq := rest, popped := none }) h (processed_processFrame ht)
  case completes =>
    obtain ⟨t, ev, ht, hlog, hev, hq, hp⟩ := processQueue_completes hk
    have hf := rxFrame_pendingTurns ht
    exact ⟨t, ev, (exec_processPending_of_free h).trans ht, hlog, hev, hq, hp, pendingTurns_delivering h.2.1 ht, hf.params,
      hf.initialised, hf.now, hf.ctrlRx, hf.mboxFree, hf.dropped, hf.wake, hf.started, hf.phase, hf.midPhase, hf.waitStart,
      hf.sub, hf.schedule, hf.recurring⟩

/-! ## The phases do not read where TASK stands -/

/-- The loop begins with a pop, whatever TASK held (R131). -/
theorem processQueue_popped (s : State) (held : Option Frame) : processQueue { s with popped := held } = processQueue s := by
  obtain hq | ⟨f, rest, hq⟩ : s.rxq = [] ∨ ∃ f rest, s.rxq = f :: rest := by cases s.rxq <;> simp
  · rw [processQueue, processQueue, pendingTurns_of_empty _ hq, pendingTurns_of_empty (s := { s with popped := held }) _ hq]
  · rw [processQueue_of_cons hq, processQueue_of_cons (s := { s with popped := held }) hq]

theorem processQueue_of_enterPhase (s : State) (q p : Phase) :
    (andThen (processQueue (enterPhase q s)) fun t => .next (enterPhase p t))
      = andThen (processQueue s) fun t => .next (enterPhase p t) := by
  have key : ∀ q b, (andThen (processQueue { s with phase := q, midPhase := b }) fun t => .next (enterPhase p t))
      = andThen (processQueue s) fun t => .next { enterPhase p t with waitStart := s.waitStart } := fun q b => by
    rw [processQueue, pendingTurns_phase (s.rxq.length + 1) s q b s.waitStart, andThen_assoc]
    rfl
  exact (key q false).trans (key s.phase s.midPhase).symm

theorem drainPass_enterPhase (s : State) (p : Phase) :
    drainPass (enterPhase p s) = ((drainPass s).1, enterPhase p (drainPass s).2) := by
  rcases drainPass_cases s with ⟨hq, hp⟩ | ⟨e, rest, hq, hx, hp⟩ | ⟨e, rest, hq, hx, hm, hp⟩
    | ⟨e, rest, hq, hx, hm, hp⟩ <;> rw [hp]
  · simp [drainPass, hq]
  · simp [drainPass, hq, hx, enterPhase, dropHead, poolFreeOne, raiseError, errorEffect, emit]
  · simp [drainPass, pushFrame, hq, hx, hm, enterPhase, raiseError, errorEffect, emit]
  · simp [drainPass, pushFrame, hq, hx, Nat.ne_of_gt hm, enterPhase, dropHead, poolFreeOne, emit]

theorem drainPasses_enterPhase (n : Nat) (s : State) (p : Phase) :
    drainPasses n (enterPhase p s) = enterPhase p (drainPasses n s) := by
  induction n generalizing s with
  | zero => rfl
  | succ n ih =>
    rw [drainPasses, drainPasses, drainPass_enterPhase]
    rcases drainPass s with ⟨_ | _, t⟩
    · rfl
    · exact ih t

theorem drainCall_of_enterPhase (s : State) (q p : Phase) :
    (andThen (drainCall (enterPhase q s)) fun t => .next (enterPhase p t))
      = andThen (drainCall s) fun t => .next (enterPhase p t) := by
  have hqueue : drainQueue (enterPhase q s) = enterPhase q (drainQueue s) := drainPasses_enterPhase _ s q
  have hhangs : drainHangs (enterPhase q s) = drainHangs s := rfl
  rw [drainCall, drainCall, hqueue, hhangs]
  split <;> rfl

theorem superviseMode_enterPhase (s : State) (p : Phase) : superviseMode (enterPhase p s) = enterPhase p (superviseMode s) := by
  have hstale : commandStale (enterPhase p s) = commandStale s := rfl
  rw [superviseMode, superviseMode, hstale]
  split <;> rfl

theorem presentOutput_enterPhase (s : State) (p : Phase) : presentOutput (enterPhase p s) = enterPhase p (presentOutput s) := by
  rw [presentOutput, presentOutput, enterPhase_sup, enterPhase_params]
  split <;> rfl

theorem applyCommand_enterPhase (s : State) (p : Phase) : applyCommand (enterPhase p s) = enterPhase p (applyCommand s) := by
  have hemit : emit .apply (enterPhase p s) = enterPhase p (emit .apply s) := rfl
  rw [applyCommand, applyCommand, hemit, superviseMode_enterPhase, presentOutput_enterPhase]

/-- The cycle, as what its operations do to the state between two cycles. -/
theorem runCycle_eq (s : State) : runCycle s = andThen (processQueue (clearWake s)) fun a =>
    andThen (drainCall a) fun b => .next (endCycle (applyCommand b)) := by
  have hbegin : beginCycle s = enterPhase .drainRx { clearWake s with popped := none } := rfl
  have hend : ∀ b, endCycle (applyCommand (enterPhase .apply b)) = endCycle (applyCommand b) := fun b => by
    rw [applyCommand_enterPhase]; rfl
  rw [runCycle_eq_phases, hbegin, processQueue_of_enterPhase, processQueue_popped, andThen_assoc]
  refine andThen_congr fun a _ => ?_
  rw [andThen_next_left, drainCall_of_enterPhase, andThen_assoc]
  exact andThen_congr fun b _ => congrArg Host.Outcome.next (hend b)

/-! ## The statements between two cycles -/

theorem exec_drain_of_free {s : State} (h : taskFree s) : exec .drain s = drainCall s := by
  obtain ⟨hi, hd, hp⟩ := h
  simp only [exec, execDrain, whenTaskFree_of hi hd hp]

theorem exec_apply_of_free {s : State} (h : taskFree s) : exec .apply s = .next (applyCommand s) := by
  obtain ⟨hi, hd, hp⟩ := h
  simp only [exec, execApply, whenTaskFree_of hi hd hp]

theorem taskFree_of_processQueue {s t : State} (h : taskFree s) (ht : processQueue s = .next t) : taskFree t := by
  obtain ⟨hi, hd, hp⟩ := h
  have hf := rxFrame_pendingTurns ht
  exact ⟨hf.initialised.trans hi, pendingTurns_delivering hd ht, hf.phase.trans hp⟩

theorem taskFree_of_drainCall {s t : State} (h : taskFree s) (ht : drainCall s = .next t) : taskFree t := by
  obtain ⟨_, rfl⟩ := drainCall_eq_next.1 ht
  obtain ⟨_, _, _, _, heq⟩ := drainPasses_eq (s.txq.length + 1) s
  rw [drainQueue, heq]
  exact h

theorem endCycle_of_wait {s : State} (h : s.phase = .wait) : endCycle s = { s with midPhase := false, waitStart := s.now } := by
  unfold endCycle enterPhase
  rw [← h]

/-- The end of a cycle, from between two cycles: `APPLY`, and the start of the next wait. -/
theorem endCycle_applyCommand_of_free {s : State} (h : taskFree s) :
    .next (endCycle (applyCommand s)) = andThen (exec .apply s) fun c => .next { c with midPhase := false, waitStart := c.now } := by
  have hphase : (applyCommand s).phase = .wait := by
    obtain ⟨_, _, heq⟩ := applyCommand_eq s
    rw [heq]; exact h.2.2
  rw [exec_apply_of_free h, andThen_next_left, endCycle_of_wait hphase]

/-! ## What a cycle adds to the trace -/

theorem drainPass_log (s : State) : ∃ ev, (drainPass s).2.log = s.log ++ ev ∧ ∀ e ∈ ev, drainEvent e = true := by
  rcases drainPass_cases s with ⟨_, hp⟩ | ⟨e, rest, _, _, hp⟩ | ⟨e, rest, _, _, _, hp⟩ | ⟨e, rest, _, _, _, hp⟩ <;> rw [hp]
  · exact ⟨[], by simp, by simp⟩
  · exact ⟨_, rfl, by simp [drainEvent]⟩
  · exact ⟨_, List.append_assoc .., by simp [drainEvent]⟩
  · exact ⟨_, rfl, by simp [drainEvent]⟩

theorem drainPasses_log (n : Nat) (s : State) :
    ∃ ev, (drainPasses n s).log = s.log ++ ev ∧ ∀ e ∈ ev, drainEvent e = true := by
  induction n generalizing s with
  | zero => exact ⟨[], by simp [drainPasses], by simp⟩
  | succ n ih =>
    obtain ⟨ev, hlog, hev⟩ := drainPass_log s
    unfold drainPasses
    split <;> rename_i t heq <;> rw [heq] at hlog
    · obtain ⟨ev', hlog', hev'⟩ := ih t
      exact ⟨ev ++ ev', by rw [hlog', hlog, List.append_assoc], List.forall_mem_append.2 ⟨hev, hev'⟩⟩
    · exact ⟨ev, hlog, hev⟩

theorem superviseMode_log (s : State) :
    (superviseMode s).log = s.log ∨ (superviseMode s).log = s.log ++ [.raised .commandStale] := by
  unfold superviseMode
  split
  · exact .inr rfl
  · exact .inl rfl

theorem presentOutput_log (s : State) :
    ∃ servo pump readiness, (presentOutput s).log = s.log ++ [.sink servo pump readiness] := by
  unfold presentOutput
  split <;> exact ⟨_, _, _, rfl⟩

/-- `APPLY` adds its event and the supervisor's one output (R183, R205). -/
theorem applyCommand_log (s : State) : ∃ applied, (applyCommand s).log = s.log ++ .apply :: applied
    ∧ ∃ servo pump readiness, applied = [.sink servo pump readiness]
      ∨ applied = [.raised .commandStale, .sink servo pump readiness] := by
  obtain ⟨servo, pump, readiness, hsink⟩ := presentOutput_log (superviseMode (emit .apply s))
  rcases superviseMode_log (emit .apply s) with hmode | hmode <;> rw [hmode] at hsink
  · exact ⟨[.sink servo pump readiness], by simpa [applyCommand] using hsink, servo, pump, readiness, .inl rfl⟩
  · exact ⟨[.raised .commandStale, .sink servo pump readiness], by simpa [applyCommand] using hsink, servo, pump, readiness,
      .inr rfl⟩

/-- `DRAIN` and `APPLY` at the end of a cycle write the outbound queue, the pool, the mailboxes, the supervisor and the trace. -/
theorem endCycle_applyCommand_drainQueue_eq (s : State) : ∃ txq poolFree mboxFree sup log,
    endCycle (applyCommand (drainQueue s)) = { s with
      txq := txq, poolFree := poolFree, mboxFree := mboxFree, sup := sup, log := log
      phase := .wait, midPhase := false, waitStart := s.now } := by
  obtain ⟨_, _, _, _, hdrain⟩ := drainPasses_eq (s.txq.length + 1) s
  obtain ⟨_, _, happly⟩ := applyCommand_eq (drainQueue s)
  rw [happly, drainQueue, hdrain]
  exact ⟨_, _, _, _, _, rfl⟩

/-- Settles O47: the cycle as its operations between two cycles, each of which completes. -/
theorem cycleOrder : Obligations.CycleOrder := by
  intro s h hready
  have hclear : taskFree (clearWake s) := h
  have hcycle := (exec_taskCycle_of_ready h hready).trans (runCycle_eq s)
  refine ⟨?order, fun hk hport => ?completes⟩
  case order =>
    rw [hcycle, ← exec_processPending_of_free hclear]
    refine andThen_congr fun a ha => ?_
    have hfree := taskFree_of_processQueue hclear ((exec_processPending_of_free hclear).symm.trans ha)
    rw [exec_drain_of_free hfree]
    exact andThen_congr fun b hb => endCycle_applyCommand_of_free (taskFree_of_drainCall hfree hb)
  case completes =>
    obtain ⟨a, dispatch, ha, hdispatch, hdispatched, hrxq, hpopped⟩ := processQueue_completes (s := clearWake s) hk
    have hf : RxFrame { clearWake s with rxq := a.rxq } a := rxFrame_pendingTurns ha
    have hreturns : drainHangs a = false := drainHangs_of_returns (hf.params ▸ hport)
    obtain ⟨drained, hdrain, hdrained⟩ := drainPasses_log (a.txq.length + 1) a
    obtain ⟨applied, happly, happlied⟩ := applyCommand_log (drainQueue a)
    have hend : exec .taskCycle s = .next (endCycle (applyCommand (drainQueue a))) := by
      rw [hcycle, ha, andThen_next_left, drainCall_eq_next.2 ⟨hreturns, rfl⟩, andThen_next_left]
    have hlog : (endCycle (applyCommand (drainQueue a))).log = s.log ++ dispatch ++ drained ++ .apply :: applied := by
      rw [endCycle_log, happly, drainQueue, hdrain, hdispatch]; rfl
    refine ⟨_, dispatch, drained, applied, hend, hlog, hdispatched, hdrained, happlied, ?_⟩
    obtain ⟨_, _, _, _, _, heq⟩ := endCycle_applyCommand_drainQueue_eq a
    rw [heq]
    exact ⟨rfl, rfl, hf.now, hf.wake, hrxq, hpopped, (taskFree_of_processQueue hclear ha).2.1, hf.params, hf.initialised, hf.now,
      hf.ctrlRx, hf.dropped, hf.started, hf.sub, hf.schedule, hf.recurring⟩

end Sys2Proof.Proofs
end

section
/-! PROOFS. The outbound queue (R160 to R164): what `ENQUEUE` rejects, when an item is expired, and the order in which `DRAIN`
serves the queue. -/

namespace Sys2Proof.Proofs

open Sys2Proof.Machine Sys2Proof.Laws

/-! ## ENQUEUE (R161) -/

theorem enqueueItem_of_full {e : Item} {s : State} (hfull : s.txq.length = s.params.txqCap) :
    enqueueItem e s = { s with log := s.log ++ [.raised .txQueueFull, .result .rejected] } := by
  simp only [enqueueItem, hfull, if_true, raiseError_uncounted (e := .txQueueFull) rfl, emit, List.append_assoc, List.cons_append,
    List.nil_append]

theorem enqueueItem_of_no_buffer {e : Item} {s : State} (hroom : s.txq.length ≠ s.params.txqCap) (hempty : s.poolFree = 0) :
    enqueueItem e s = { s with log := s.log ++ [.raised .poolExhaustedTx, .result .rejected] } := by
  simp only [enqueueItem, hroom, if_false, poolAlloc_eq_none.2 hempty, raiseError_uncounted (e := .poolExhaustedTx) rfl, emit,
    List.append_assoc, List.cons_append, List.nil_append]

theorem enqueueCall_of_outside {subject transferId priority : Nat} {deadline : Time} {payload : List Byte}
    (hc : ¬ (subject ≤ 8191 ∧ priority ≤ 7 ∧ payload.length ≤ 63)) (s : State) :
    enqueueCall subject transferId priority deadline payload s = .refused .operandOutOfRange := by
  have hout : enqueueInContract subject priority payload = false := by
    simpa only [enqueueInContract, ← Bool.not_eq_true, Bool.and_eq_true, decide_eq_true_eq, and_assoc] using hc
  simp only [enqueueCall, hout, Bool.false_eq_true, if_false]

/-- Settles O41: the queue is tested before the pool, and the operands before both. -/
theorem enqueueRejects : Obligations.EnqueueRejects := by
  intro subject transferId priority deadline payload s hi hm
  refine ⟨fun hc => ?inContract, fun hc => ?outside⟩
  case inContract =>
    rw [exec_enqueue_of_contract hi hm hc]
    exact ⟨fun hfull => congrArg Host.Outcome.next (enqueueItem_of_full hfull),
      fun hroom hempty => congrArg Host.Outcome.next (enqueueItem_of_no_buffer hroom hempty)⟩
  case outside => rw [exec_enqueue_of_ready hi, whenTaskCodeRuns_of hm, enqueueCall_of_outside hc]

/-! ## Expiry (R164) -/

theorem expired_eq_true_iff {t : Time} {e : Item} : expired t e = true ↔ e.deadline < t := decide_eq_true_iff

theorem expired_eq_false_iff {t : Time} {e : Item} : expired t e = false ↔ t ≤ e.deadline := by
  rw [← Bool.not_eq_true, expired_eq_true_iff, BitVec.not_lt]

theorem drainPass_of_expired {s : State} {e : Item} {rest : List Item} (hq : s.txq = e :: rest) (hx : e.deadline < s.now) :
    drainPass s = (true, { s with txq := rest, poolFree := s.poolFree + 1, log := s.log ++ [.raised .txExpired] }) := by
  simp only [drainPass, hq, expired_eq_true_iff.2 hx, if_true, raiseError_uncounted (e := .txExpired) rfl, dropHead, poolFreeOne,
    List.tail_cons]

/-- A pass whose item is not expired begins with its push, whatever BUS answers. -/
theorem drainPass_log_of_unexpired {s : State} {e : Item} {rest : List Item} (hq : s.txq = e :: rest) (hx : s.now ≤ e.deadline) :
    ∃ answer tail, (drainPass s).2.log = s.log ++ .tx (build s.params e) answer :: tail := by
  have hlive := expired_eq_false_iff.2 hx
  rcases drainPass_cases s with ⟨hq', _⟩ | ⟨_, _, hq', hx', _⟩ | ⟨_, _, hq', _, _, hp⟩ | ⟨_, _, hq', _, _, hp⟩ <;>
    rw [hq] at hq' <;> cases hq'
  · rw [hlive] at hx'; cases hx'
  · exact ⟨.full, [.raised .mailboxFull], by rw [hp]; exact List.append_assoc ..⟩
  · exact ⟨.success, [], by rw [hp]⟩

/-- Settles O43: by the comparison of unsigned integers, and by the pass that it decides. -/
theorem expiryIsStrict : Obligations.ExpiryIsStrict :=
  ⟨fun _ _ => expired_eq_true_iff, fun _ _ _ hq =>
    ⟨fun hx => drainPass_of_expired hq hx, fun hx => drainPass_log_of_unexpired hq hx⟩⟩

/-! ## DRAIN (R162) -/

/-- The items that a sample of `now` does not find expired. -/
def unexpired (now : Time) (q : List Item) : List Item := q.filter fun e => decide (now ≤ e.deadline)

theorem unexpired_cons_of_expired {now : Time} {e : Item} (q : List Item) (hx : e.deadline < now) :
    unexpired now (e :: q) = unexpired now q := by
  simp [unexpired, BitVec.not_le.2 hx]

theorem unexpired_cons_of_live {now : Time} {e : Item} (q : List Item) (hx : now ≤ e.deadline) :
    unexpired now (e :: q) = e :: unexpired now q := by
  simp [unexpired, hx]

/-- The event of an item that leaves the queue: its eviction or its frame. -/
def leaveEvent (p : Params) (now : Time) (e : Item) : Event :=
  if e.deadline < now then .raised .txExpired else .tx (build p e) .success

/-- The queue splits into the items that leave, no more of them sent than the mailboxes take, and a rest that begins with an item
whose push is refused. -/
structure ServedUpTo (s : State) (pre post : List Item) (stop : List Event) : Prop where
  split : s.txq = pre ++ post
  fits : (unexpired s.now pre).length ≤ s.mboxFree
  stopped : (post = [] ∧ stop = []) ∨ ∃ e rest, post = e :: rest ∧ s.now ≤ e.deadline
    ∧ (unexpired s.now pre).length = s.mboxFree ∧ stop = [.tx (build s.params e) .full, .raised .mailboxFull]

/-- The state once the items `pre` have left, in this order. -/
def afterServing (pre post : List Item) (stop : List Event) (s : State) : State :=
  { s with
    txq := post
    poolFree := s.poolFree + pre.length
    mboxFree := s.mboxFree - (unexpired s.now pre).length
    log := s.log ++ pre.map (leaveEvent s.params s.now) ++ stop }

/-- An expired head leaves: nothing is pushed. -/
def evictHead (rest : List Item) (s : State) : State :=
  { s with txq := rest, poolFree := s.poolFree + 1, log := s.log ++ [.raised .txExpired] }

/-- A head that BUS takes leaves. -/
def sendHead (e : Item) (rest : List Item) (s : State) : State :=
  { s with
    txq := rest
    poolFree := s.poolFree + 1
    mboxFree := s.mboxFree - 1
    log := s.log ++ [.tx (build s.params e) .success] }

section Head

variable {s : State} {e : Item} {rest pre post : List Item} {stop : List Event}

theorem afterServing_evictHead (hx : e.deadline < s.now) :
    afterServing pre post stop (evictHead rest s) = afterServing (e :: pre) post stop s := by
  simp [afterServing, evictHead, unexpired_cons_of_expired pre hx, leaveEvent, hx, Nat.add_right_comm, ← Nat.add_assoc]

theorem afterServing_sendHead (hx : s.now ≤ e.deadline) :
    afterServing pre post stop (sendHead e rest s) = afterServing (e :: pre) post stop s := by
  simp [afterServing, sendHead, unexpired_cons_of_live pre hx, leaveEvent, BitVec.not_lt.2 hx, Nat.add_right_comm,
    ← Nat.add_assoc, Nat.sub_sub, Nat.add_comm 1]

theorem ServedUpTo.of_evictHead (h : ServedUpTo (evictHead rest s) pre post stop) (hq : s.txq = e :: rest)
    (hx : e.deadline < s.now) : ServedUpTo s (e :: pre) post stop := by
  obtain ⟨hsplit, hfits, hstop⟩ := h
  have hsame := unexpired_cons_of_expired pre hx
  exact ⟨by rw [hq, List.cons_append, ← hsplit]; rfl, by rw [hsame]; exact hfits, by rw [hsame]; exact hstop⟩

theorem ServedUpTo.of_sendHead (h : ServedUpTo (sendHead e rest s) pre post stop) (hq : s.txq = e :: rest)
    (hx : s.now ≤ e.deadline) (hm : 0 < s.mboxFree) : ServedUpTo s (e :: pre) post stop := by
  obtain ⟨hsplit, hfits, hstop⟩ := h
  simp only [sendHead] at hsplit hfits hstop
  have hcount : (unexpired s.now (e :: pre)).length = (unexpired s.now pre).length + 1 := by
    rw [unexpired_cons_of_live pre hx, List.length_cons]
  refine ⟨by rw [hq, List.cons_append, ← hsplit], by omega, hstop.imp_right ?_⟩
  rintro ⟨x, tail, hpost, hlive, hall, hevents⟩
  exact ⟨x, tail, hpost, hlive, by omega, hevents⟩

end Head

/-- The loop of `DRAIN` in closed form, by the head of the queue: evicted, refused or sent. -/
theorem drainPasses_serves {q : List Item} {s : State} (hq : s.txq = q) : ∃ pre post stop,
    ServedUpTo s pre post stop ∧ drainPasses (q.length + 1) s = afterServing pre post stop s := by
  induction q generalizing s with
  | nil =>
    have hsame : { s with txq := [] } = s := by rw [← hq]
    refine ⟨[], [], [], ⟨hq, Nat.zero_le _, .inl ⟨rfl, rfl⟩⟩, ?_⟩
    simp [drainPasses, drainPass, hq, afterServing, unexpired, hsame]
  | cons e rest ih =>
    rw [List.length_cons, drainPasses]
    rcases drainPass_cases s with ⟨hq', _⟩ | ⟨_, _, hq', hx, hp⟩ | ⟨_, _, hq', hx, hm, hp⟩ | ⟨_, _, hq', hx, hm, hp⟩ <;>
      rw [hq] at hq' <;> cases hq' <;> rw [hp]
    · have hexpired := expired_eq_true_iff.1 hx
      obtain ⟨pre, post, stop, hserved, heq⟩ := ih (s := evictHead rest s) rfl
      exact ⟨e :: pre, post, stop, hserved.of_evictHead hq hexpired, heq.trans (afterServing_evictHead hexpired)⟩
    · refine ⟨[], e :: rest, [.tx (build s.params e) .full, .raised .mailboxFull], ⟨hq, Nat.zero_le _, .inr
        ⟨e, rest, rfl, expired_eq_false_iff.1 hx, hm.symm, rfl⟩⟩, ?_⟩
      simp [afterServing, unexpired, ← hq]
    · have hlive := expired_eq_false_iff.1 hx
      obtain ⟨pre, post, stop, hserved, heq⟩ := ih (s := sendHead e rest s) rfl
      exact ⟨e :: pre, post, stop, hserved.of_sendHead hq hlive hm, heq.trans (afterServing_sendHead hlive)⟩

theorem drainQueue_serves (s : State) : ∃ pre post stop,
    ServedUpTo s pre post stop ∧ drainQueue s = afterServing pre post stop s := drainPasses_serves rfl

theorem exec_drain_of_returns {s : State} (h : taskFree s) (hp : s.params.txPortReturns = true) :
    exec .drain s = .next (drainQueue s) := by
  rw [exec_drain_of_free h, drainCall_eq_next.2 ⟨drainHangs_of_returns hp, rfl⟩]

/-- Settles O42: the closed form of the loop. -/
theorem drainServesInOrder : Obligations.DrainServesInOrder := by
  intro s hfree hport
  obtain ⟨pre, post, stop, ⟨hsplit, hfits, hstop⟩, heq⟩ := drainQueue_serves s
  exact ⟨pre, post, stop, hsplit, hfits, hstop, by rw [exec_drain_of_returns hfree hport, heq]; rfl⟩

end Sys2Proof.Proofs
end

section
/-! PROOFS. Calls on agent BUS that never return (R253, U11), and the end of a cycle in which no other agent moves (R190). -/

namespace Sys2Proof.Proofs

open Sys2Proof.Machine Sys2Proof.Laws

/-! ## Ports that never return (R253, U11) -/

theorem exec_rxIrq_of_hanging {s : State} (h : interruptEnabled s) (hp : s.params.rxPortReturns = false) :
    exec .rxIrq s = .fault .portNeverReturns := by
  simp only [exec, execRxIrq, whenInterruptEnabled_of h.1 h.2, takeInterrupt, hp, Bool.false_eq_true, if_false]

/-- Where pushes never return, `DRAIN` hangs exactly on an item that it does not evict. -/
theorem drainHangs_iff {s : State} (hp : s.params.txPortReturns = false) :
    drainHangs s = true ↔ ∃ e ∈ s.txq, s.now ≤ e.deadline := by
  simp [drainHangs, hp, expired_eq_false_iff]

theorem exec_drain_of_hanging {s : State} (h : taskFree s) (hp : s.params.txPortReturns = false)
    (hlive : ∃ e ∈ s.txq, s.now ≤ e.deadline) : exec .drain s = .fault .portNeverReturns := by
  rw [exec_drain_of_free h, drainCall, if_pos ((drainHangs_iff hp).2 hlive)]

theorem unexpired_of_expired {now : Time} {q : List Item} (h : ∀ e ∈ q, e.deadline < now) : unexpired now q = [] := by
  rw [unexpired, List.filter_eq_nil_iff]
  intro e he
  simpa using h e he

/-- `DRAIN` evicts a queue of expired items whole: nothing is pushed, so no push is refused. -/
theorem drainQueue_of_expired {s : State} (h : ∀ e ∈ s.txq, e.deadline < s.now) :
    drainQueue s = { s with
      txq := [], poolFree := s.poolFree + s.txq.length, log := s.log ++ s.txq.map fun _ => .raised .txExpired } := by
  obtain ⟨pre, post, stop, ⟨hsplit, _, hstop⟩, heq⟩ := drainQueue_serves s
  rcases hstop with ⟨rfl, rfl⟩ | ⟨e, rest, rfl, hx, _⟩
  · rw [List.append_nil] at hsplit
    subst hsplit
    have hevents : s.txq.map (leaveEvent s.params s.now) = s.txq.map fun _ => .raised .txExpired :=
      List.map_congr_left fun e he => if_pos (h e he)
    rw [heq, afterServing, unexpired_of_expired h, hevents, List.append_nil]
    rfl
  · have hmem : e ∈ s.txq := by rw [hsplit]; simp
    exact absurd hx (BitVec.not_le.2 (h e hmem))

theorem exec_drain_of_expired {s : State} (hfree : taskFree s) (hp : s.params.txPortReturns = false)
    (h : ∀ e ∈ s.txq, e.deadline < s.now) :
    exec .drain s = .next { s with
      txq := [], poolFree := s.poolFree + s.txq.length, log := s.log ++ s.txq.map fun _ => .raised .txExpired } := by
  have hhangs : drainHangs s = false := by
    rw [← Bool.not_eq_true, drainHangs_iff hp]
    rintro ⟨e, he, hx⟩
    exact absurd hx (BitVec.not_le.2 (h e he))
  rw [exec_drain_of_free hfree, drainCall_eq_next.2 ⟨hhangs, rfl⟩, drainQueue_of_expired h]

/-! ## The cycle ends (R190) -/

/-- Some number of steps ends the cycle, with no time passed (R180). -/
def CycleEnds (s : State) : Prop := ∃ t, StepsTo s (.next t) ∧ t.phase = .wait ∧ t.waitStart = s.now

theorem CycleEnds.of_steps {s u : State} (h : CycleEnds u) (hs : StepsTo s (.next u)) (hnow : u.now = s.now) : CycleEnds s := by
  obtain ⟨t, ht, hphase, hstart⟩ := h
  exact ⟨t, hs.andThen (k := fun _ => .next t) fun v hv => by cases hv; exact ht, hphase, hstart.trans hnow⟩

theorem TaskAlone.cycleEnds_of_apply {s : State} (h : TaskAlone s) (hp : s.phase = .apply) : CycleEnds s := by
  obtain ⟨_, _, heq⟩ := applyCommand_eq s
  exact ⟨_, h.stepsTo_endCycle hp, rfl, by rw [heq]; rfl⟩

theorem Draining.cycleEnds {s : State} (h : Draining s) (hp : s.params.txPortReturns = true) : CycleEnds s := by
  have hsteps := h.stepsTo_drainCall
  obtain ⟨_, _, _, _, heq⟩ := drainPasses_eq (s.txq.length + 1) s
  rw [drainCall_eq_next.2 ⟨drainHangs_of_returns hp, rfl⟩, andThen_next_left, drainQueue, heq] at hsteps
  have halone := h.toTaskAlone
  refine CycleEnds.of_steps (TaskAlone.cycleEnds_of_apply ?_ rfl) hsteps rfl
  exact ⟨halone.initialised, halone.schedule, halone.recurring⟩

section Returns

variable {s : State} (hk : handlersKeepContract s.params) (hport : s.params.txPortReturns = true)

include hk hport

theorem Popping.cycleEnds (h : Popping s) : CycleEnds s := by
  obtain ⟨t, _, ht, _⟩ := processQueue_completes hk
  have hf := rxFrame_pendingTurns ht
  have hsteps := h.stepsTo_processQueue
  rw [ht, andThen_next_left] at hsteps
  have hdraining : Draining (enterPhase .drainTx t) := ⟨(pendingTurns_alone h.toTaskAlone ht).enterPhase .drainTx, rfl⟩
  refine (hdraining.cycleEnds ?_).of_steps hsteps hf.now
  rw [enterPhase_params, hf.params]
  exact hport

/-- TASK holds a popped frame or none. -/
theorem TaskAlone.cycleEnds_of_settled (h : TaskAlone s) (hp : s.phase = .drainRx) (hd : s.delivering = none) : CycleEnds s := by
  cases hf : s.popped with
  | none => exact Popping.cycleEnds hk hport ⟨h, hp, hd, hf⟩
  | some f =>
    obtain ⟨t, ht⟩ := processFrame_completes (s := { s with popped := none }) hk f
    have hdone := processed_processFrame ht
    have hframe := (rxFrame_unpop s).trans hdone.toRxFrame
    have hpopping : Popping t := ⟨h.of_rxFrame hframe, hdone.phase.trans hp, hdone.delivering, hdone.popped⟩
    have hstep : step s = .next t := by rw [h.step_eq, taskStep_of_popped h.initialised hp hd hf, ht]
    exact (hpopping.cycleEnds (by rw [hdone.params]; exact hk) (by rw [hdone.params]; exact hport)).of_steps
      (stepsTo_of_step hstep) hdone.now

/-- A delivery is due or none. -/
theorem TaskAlone.cycleEnds_of_drainRx (h : TaskAlone s) (hp : s.phase = .drainRx) : CycleEnds s := by
  cases hd : s.delivering with
  | none => exact h.cycleEnds_of_settled hk hport hp hd
  | some d =>
    obtain ⟨t, ht⟩ := deliverTransfer_completes (s := s) hk d
    have hdone := processed_deliverTransfer ht
    have hstep : step s = .next t := by
      rw [h.step_eq, taskStep, whenReady_of h.initialised, hp]
      simp only [drainRxStep, hd, ht]
    exact ((h.of_rxFrame hdone.toRxFrame).cycleEnds_of_settled (by rw [hdone.params]; exact hk)
      (by rw [hdone.params]; exact hport) (hdone.phase.trans hp) hdone.delivering).of_steps (stepsTo_of_step hstep) hdone.now

/-- With ports and handlers that return, TASK alone ends its cycle from every phase of it. -/
theorem TaskAlone.cycleEnds (h : TaskAlone s) (hm : s.midCycle = true) (hdue : s.delivering ≠ none → s.phase = .drainRx) :
    CycleEnds s := by
  have hbusy : s.phase = .idle ∨ s.phase = .wait → False := fun hp => by
    have hd : s.delivering = none := by
      by_contra hd
      rcases hp with hp | hp <;> rw [hdue hd] at hp <;> cases hp
    rw [midCycle_eq_false.2 ⟨hd, hp⟩] at hm
    cases hm
  cases hp : s.phase with
  | idle => exact (hbusy (.inl hp)).elim
  | wait => exact (hbusy (.inr hp)).elim
  | drainRx => exact h.cycleEnds_of_drainRx hk hport hp
  | drainTx => exact Draining.cycleEnds ⟨h, hp⟩ hport
  | apply => exact h.cycleEnds_of_apply hp

end Returns

end Sys2Proof.Proofs
end

section
/-! PROOFS. The end of a cycle among other agents (R190, R273): their statements leave TASK where it stands or leave the spec, and
each turn of TASK brings the end of its cycle nearer. -/

namespace Sys2Proof.Proofs

open Sys2Proof.Machine Sys2Proof.Laws

/-! ## The bound of the outbound queue (R35) -/

/-- At most `TXQ_CAP` items, in whatever order. -/
def txqFits (s : State) : Prop := s.txq.length ≤ s.params.txqCap

namespace txqFits

variable {s : State}

theorem congr {t : State} (h : txqFits s) (hp : t.params = s.params) (hx : t.txq = s.txq) : txqFits t := by
  simpa only [txqFits, hp, hx] using h

theorem reassemblyClosed : ReassemblyClosed txqFits where
  raise e s h := h.congr (raiseError_params e s) (raiseError_txq e s)
  putSession _ _ _ h := h
  poolFree _ _ h := h
  handOver _ _ h := h

theorem acceptCommand (h : txqFits s) (role : CommandRole) (payload : List Byte) (ts : Time) :
    txqFits (acceptCommand role payload ts s) := by
  obtain ⟨_, _, _, _, heq⟩ := acceptCommand_eq role payload ts s
  rw [heq]; exact h

theorem releaseDelivery (h : txqFits s) (d : Delivery) : txqFits (releaseDelivery d s) := by
  unfold Machine.releaseDelivery; split
  · exact reassemblyClosed.abandon _ h
  · exact h

theorem enqueue (h : txqFits s) (e : Item) (hc : s.txq.length ≠ s.params.txqCap) :
    txqFits { s with poolFree := s.poolFree - 1, txq := insertItem e s.txq } := by
  have hroom : s.txq.length < s.params.txqCap := Nat.lt_of_le_of_ne h hc
  show (insertItem e s.txq).length ≤ s.params.txqCap
  rw [length_insertItem]; exact hroom

theorem sent (h : txqFits s) {e : Item} {rest : List Item} (hq : s.txq = e :: rest) :
    txqFits { s with txq := rest, poolFree := s.poolFree + 1 } := by
  unfold txqFits at h
  rw [hq] at h
  exact Nat.le_of_succ_le h

theorem applyCommand (h : txqFits s) : txqFits (applyCommand s) := by
  obtain ⟨_, _, heq⟩ := applyCommand_eq s
  rw [heq]; exact h

/-- Every single update of the machine keeps the bound. -/
theorem closed : Closed txqFits where
  log _ _ h := h
  schedule _ _ h := h
  freeCount _ _ h := h
  decodeErr _ h := h
  dropped _ h := h
  subscribe _ _ _ h _ _ _ := h
  start _ h _ _ := h
  store _ _ h _ _ := h
  pulled _ _ _ h _ := h
  wake _ _ h := h
  pop _ _ _ h _ := h
  unpop _ h := h
  reassemble _ f h _ := reassemblyClosed.reassemble f h
  accept _ role payload ts h := h.acceptCommand role payload ts
  enqueue _ e h hc _ := h.enqueue e hc
  release _ d h _ := h.releaseDelivery d
  sent _ _ _ h hq := h.sent hq
  mailbox _ _ h := h
  apply _ h := h.applyCommand
  tick _ _ h _ := h
  bus _ _ h := h
  toDrainRx _ h _ := h
  toDrainTx _ h _ _ := h
  toApply _ h _ := h
  toWait _ h _ := h
  midPhase _ h _ := h

theorem step {t : State} (h : txqFits s) (hstep : step s = .next t) : txqFits t :=
  closed.step h (fun _ _ _ => Nat.zero_le _) hstep

end txqFits

/-! ## TASK in its cycle, and the turns to its end -/

/-- TASK in the middle of a cycle, among agents and handlers that keep their contracts. Frames may arrive where `arrivals` is set,
which is not in DRAIN_RX. -/
structure InCycle (arrivals : Bool) (s : State) : Prop where
  enabled : interruptEnabled s
  busy : s.midCycle = true
  settled : s.delivering = none
  fits : txqFits s
  contract : controllerInContract s
  quiet : s.phase = .drainRx → s.ctrlRx = [] ∧ arrivals = false
  handlers : handlersKeepContract s.params
  ports : portsReturn s.params

/-- The turns of TASK that end its cycle: two for each queued frame, one for the popped one and for the empty pop; one for each item
and for the last pass; one for `APPLY`. Items may be added until DRAIN_TX begins (R161). -/
def turnsLeft (s : State) : Nat :=
  match s.phase with
  | .idle | .wait => 0
  | .drainRx => 2 * s.rxq.length + s.popped.toList.length + s.params.txqCap + 3
  | .drainTx => (if s.midPhase then s.txq.length else s.params.txqCap) + 2
  | .apply => 1

theorem InCycle.phase_ne {arrivals : Bool} {s : State} (h : InCycle arrivals s) : s.phase ≠ .idle ∧ s.phase ≠ .wait := by
  have hfree : (s.phase = .idle ∨ s.phase = .wait) → False := fun hp => by
    have hm := h.busy
    rw [midCycle_eq_false.2 ⟨h.settled, hp⟩] at hm
    cases hm
  exact ⟨fun hp => hfree (.inl hp), fun hp => hfree (.inr hp)⟩

theorem InCycle.turnsLeft_pos {arrivals : Bool} {s : State} (h : InCycle arrivals s) : 0 < turnsLeft s := by
  obtain ⟨hidle, hwait⟩ := h.phase_ne
  cases hp : s.phase with
  | idle => exact absurd hp hidle
  | wait => exact absurd hp hwait
  | drainRx | drainTx | apply => simp [turnsLeft, hp]

theorem InCycle.turnsLeft_le {arrivals : Bool} {s : State} (h : InCycle arrivals s) :
    turnsLeft s ≤ 2 * s.rxq.length + s.params.txqCap + 4 := by
  have hfits : s.txq.length ≤ s.params.txqCap := h.fits
  have hpopped : s.popped.toList.length ≤ 1 := by cases s.popped <;> simp
  cases hp : s.phase with
  | drainTx => simp only [turnsLeft, hp]; split <;> omega
  | idle | wait | drainRx | apply => simp only [turnsLeft, hp]; omega

/-! ## The other agents -/

/-- What the others may issue. -/
def besideTask (arrivals : Bool) (i : Instr) : Bool := bringsNoFrame i || (arrivals && bringsFrame i)

/-- After a statement of another agent TASK stands where it stood: in DRAIN_RX with the same frames, and inside an operation with
the same items. -/
structure Beside (s t : State) : Prop where
  params : t.params = s.params
  initialised : t.initialised = s.initialised
  started : t.started = s.started
  delivering : t.delivering = s.delivering
  phase : t.phase = s.phase
  midPhase : t.midPhase = s.midPhase
  popped : t.popped = s.popped
  schedule : t.schedule = s.schedule
  contract : controllerInContract s → controllerInContract t
  frames : s.phase = .drainRx → s.ctrlRx = [] → t.ctrlRx = [] ∧ t.rxq = s.rxq
  items : s.midPhase = true → t.txq = s.txq

/-- TASK does not move, or the run leaves the spec (U9, U14). -/
def LeavesTask (s : State) (o : Result) : Prop :=
  (∃ t, o = .next t ∧ Beside s t) ∨ o = .refused .clockWouldWrap ∨ o = .refused .taskBusy

/-- The clock, the mailboxes, the latch, a counter and the trace are no concern of TASK's place. -/
theorem beside_unread (s : State) (now : Time) (mboxFree : Nat) (wake : Bool) (decodeErr : Count) (log : List Event) :
    Beside s { s with now := now, mboxFree := mboxFree, wake := wake, decodeErr := decodeErr, log := log } :=
  ⟨rfl, rfl, rfl, rfl, rfl, rfl, rfl, rfl, id, fun _ hc => ⟨hc, rfl⟩, fun _ => rfl⟩

theorem beside_enqueueItem {s : State} (hm : s.midPhase = false) (e : Item) : Beside s (enqueueItem e s) := by
  have hh := handled_enqueueItem e s
  refine ⟨hh.params, hh.initialised, hh.started, hh.delivering, hh.phase, hh.midPhase, hh.popped, hh.schedule, fun hc => ?_,
    fun _ hc => ⟨hh.ctrlRx.trans hc, hh.rxq⟩, fun hin => ?_⟩
  · unfold controllerInContract
    rw [hh.ctrlRx]; exact hc
  · rw [hm] at hin; cases hin

/-- A frame arrives outside DRAIN_RX. -/
theorem beside_bus {s : State} (hp : s.phase ≠ .drainRx) {r : BusFrame} (hr : r.data.length ≤ 64) :
    Beside s { s with ctrlRx := s.ctrlRx ++ [r] } :=
  ⟨rfl, rfl, rfl, rfl, rfl, rfl, rfl, rfl, fun hc => List.forall_mem_append.2 ⟨hc, by simpa using hr⟩,
    fun hrx => absurd hrx hp, fun _ => rfl⟩

/-- The pull loop empties a controller that keeps its contract, into a queue of any length. -/
theorem pullTurns_empties {rs : List BusFrame} {s : State} (hrs : s.ctrlRx = rs) (hlen : ∀ r ∈ rs, r.data.length ≤ 64) :
    ∃ t, pullTurns (rs.length + 1) s = .next t ∧ t.ctrlRx = [] := by
  induction rs generalizing s with
  | nil => exact ⟨s, by rw [pullTurns, nextRx_eq_none.2 hrs], hrs⟩
  | cons r rest ih =>
    obtain ⟨hr, hrest⟩ := List.forall_mem_cons.1 hlen
    obtain ⟨t, ht, hempty⟩ := ih (s := afterPull (takenOne r rest s) s) (by unfold takenOne; split <;> rfl) hrest
    exact ⟨t, by rw [List.length_cons, pullTurns_of_cons _ hrs, storeFrame_eq_takenOne rest hr, andThen_next_left, ht], hempty⟩

theorem takeInterrupt_of_empty {s : State} (hp : s.params.rxPortReturns = true) (hc : s.ctrlRx = []) :
    takeInterrupt s = .next (signalWake s) :=
  takeInterrupt_eq_next.2 ⟨hp, s, by rw [pullTurns, nextRx_eq_none.2 hc], rfl⟩

theorem beside_takeInterrupt {s : State} (hp : s.params.rxPortReturns = true) (hc : controllerInContract s) :
    ∃ t, takeInterrupt s = .next t ∧ Beside s t := by
  obtain ⟨u, hu, hempty⟩ := pullTurns_empties rfl hc
  have ht : takeInterrupt s = .next (signalWake u) := takeInterrupt_eq_next.2 ⟨hp, u, hu, rfl⟩
  refine ⟨_, ht, ?_⟩
  obtain ⟨w, hw⟩ := takeInterrupt_eq_afterPull ht
  have heq := Host.Outcome.next.inj (ht.symm.trans (hw s (.refl s)))
  rw [heq]
  refine ⟨rfl, rfl, rfl, rfl, rfl, rfl, rfl, rfl, fun _ r hr => ?_, fun _ hnone => ?_, fun _ => rfl⟩
  · rw [← heq, signalWake_ctrlRx, hempty] at hr
    cases hr
  · have hsame := Host.Outcome.next.inj (ht.symm.trans (takeInterrupt_of_empty hp hnone))
    rw [← heq, hsame]
    exact ⟨hnone, rfl⟩

/-- What the others do in the middle of a cycle, statement by statement. -/
theorem InCycle.leavesTask {arrivals : Bool} {s : State} {i : Instr} (h : InCycle arrivals s) (hwf : i.wellFormed = true)
    (hi : besideTask arrivals i = true) : LeavesTask s (exec i s) := by
  have hready := h.enabled.1
  have unread : ∀ now mboxFree wake decodeErr log, exec i s
      = .next { s with now := now, mboxFree := mboxFree, wake := wake, decodeErr := decodeErr, log := log } →
      LeavesTask s (exec i s) := fun now mboxFree wake decodeErr log heq =>
    .inl ⟨_, heq, beside_unread s now mboxFree wake decodeErr log⟩
  cases i
  case tick n =>
    rw [exec_tick hready]
    split
    · exact .inl ⟨_, rfl, beside_unread s _ _ _ _ _⟩
    · exact .inr (.inl rfl)
  case mbox n => exact unread s.now n s.wake s.decodeErr s.log (exec_mbox hready n)
  case wakeSignal => exact unread s.now s.mboxFree true s.decodeErr s.log (exec_wakeSignal h.enabled)
  case readDropped | readDecodeErrors | readTimeouts =>
    exact unread s.now s.mboxFree s.wake s.decodeErr _ (whenReady_of hready _)
  case rxIrq =>
    obtain ⟨t, ht, hb⟩ := beside_takeInterrupt h.ports.1 h.contract
    exact .inl ⟨t, (whenInterruptEnabled_of hready h.enabled.2 _).trans ht, hb⟩
  case noteDecodeError =>
    rw [exec_noteDecodeError_of_phase hready h.phase_ne.1]
    cases hm : s.midPhase with
    | true => exact .inr (.inr (whenTaskCodeRuns_of_inside h.settled hm _))
    | false => exact .inl ⟨_, whenTaskCodeRuns_of (.inl hm) _, beside_unread s _ _ _ _ _⟩
  case enqueue subject transferId priority deadline payload =>
    cases hm : s.midPhase with
    | true => exact .inr (.inr (by rw [exec_enqueue_of_ready hready, whenTaskCodeRuns_of_inside h.settled hm]))
    | false =>
      simp only [Instr.wellFormed, Bool.and_eq_true, decide_eq_true_eq] at hwf
      obtain ⟨⟨⟨hsubject, _⟩, hprio⟩, hlen⟩ := hwf
      exact .inl ⟨_, exec_enqueue_of_contract hready (.inl hm) ⟨hsubject, hprio, hlen⟩, beside_enqueueItem hm _⟩
  case start => exact .inr (.inr (whenHostRuns_of_midCycle hready h.settled h.busy _))
  case bus id data =>
    have hlen : data.length ≤ 64 := of_decide_eq_true hwf
    have hphase : s.phase ≠ .drainRx := fun hp => by
      rw [(h.quiet hp).2] at hi
      exact absurd hi Bool.false_ne_true
    exact .inl ⟨_, by rw [exec_bus hready, if_pos hlen], beside_bus hphase hlen⟩
  all_goals exact absurd hi (by simp [besideTask, bringsNoFrame, bringsFrame])

theorem InCycle.of_beside {arrivals : Bool} {s t : State} (h : InCycle arrivals s) (hb : Beside s t) (hfits : txqFits t) :
    InCycle arrivals t where
  enabled := ⟨hb.initialised.trans h.enabled.1, hb.started.trans h.enabled.2⟩
  busy := by simpa only [State.midCycle, hb.delivering, hb.phase] using h.busy
  settled := hb.delivering.trans h.settled
  fits := hfits
  contract := hb.contract h.contract
  quiet hp := by
    have hrx := hb.phase.symm.trans hp
    obtain ⟨hnone, harrive⟩ := h.quiet hrx
    exact ⟨(hb.frames hrx hnone).1, harrive⟩
  handlers := by rw [hb.params]; exact h.handlers
  ports := by rw [hb.params]; exact h.ports

theorem InCycle.turnsLeft_of_beside {arrivals : Bool} {s t : State} (h : InCycle arrivals s) (hb : Beside s t) :
    turnsLeft t = turnsLeft s := by
  cases hp : s.phase with
  | drainRx =>
    have hframes := (hb.frames hp (h.quiet hp).1).2
    simp only [turnsLeft, hb.phase, hb.params, hb.popped, hp, hframes]
  | drainTx =>
    cases hm : s.midPhase with
    | true => simp only [turnsLeft, hb.phase, hb.midPhase, hp, hm, hb.items hm, if_true]
    | false => simp [turnsLeft, hb.phase, hb.midPhase, hb.params, hp, hm]
  | idle | wait | apply => simp only [turnsLeft, hb.phase, hp]

/-! ## TASK's turns -/

/-- What TASK's turns leave to the others. -/
structure TurnFrame (s t : State) : Prop where
  params : t.params = s.params
  initialised : t.initialised = s.initialised
  started : t.started = s.started
  ctrlRx : t.ctrlRx = s.ctrlRx
  schedule : t.schedule = s.schedule

theorem TurnFrame.of_rxFrame {s t : State} (h : RxFrame s t) : TurnFrame s t :=
  ⟨h.params, h.initialised, h.started, h.ctrlRx, h.schedule⟩

/-- A turn that does not end the cycle: TASK goes on in it, and the end is nearer. -/
structure Nearer (s t : State) : Prop extends TurnFrame s t where
  settled : t.delivering = none
  phase : t.phase = .drainRx ∧ s.phase = .drainRx ∨ t.phase = .drainTx ∨ t.phase = .apply
  turns : turnsLeft t < turnsLeft s

theorem InCycle.of_nearer {arrivals : Bool} {s t : State} (h : InCycle arrivals s) (hn : Nearer s t) (hfits : txqFits t) :
    InCycle arrivals t where
  enabled := ⟨hn.initialised.trans h.enabled.1, hn.started.trans h.enabled.2⟩
  busy := by
    have hphase := hn.phase
    apply midCycle_of_phase <;> intro hp <;> rw [hp] at hphase <;> simp at hphase
  settled := hn.settled
  fits := hfits
  contract := by
    unfold controllerInContract
    rw [hn.ctrlRx]; exact h.contract
  quiet hp := by
    have hrx : s.phase = .drainRx := by simpa [hp] using hn.phase
    exact ⟨hn.ctrlRx.trans (h.quiet hrx).1, (h.quiet hrx).2⟩
  handlers := by rw [hn.params]; exact h.handlers
  ports := by rw [hn.params]; exact h.ports

theorem taskStep_of_drainRx {s : State} (hi : s.initialised = true) (hp : s.phase = .drainRx) : taskStep s = drainRxStep s := by
  rw [taskStep, whenReady_of hi, hp]

theorem drainRxStep_of_empty {s : State} (hd : s.delivering = none) (hf : s.popped = none) (hq : s.rxq = []) :
    drainRxStep s = .next (enterPhase .drainTx { s with popped := none }) := by
  simp only [drainRxStep, hd, hf, popFrame_of_empty hq]

theorem drainRxStep_of_cons {s : State} {f : Frame} {rest : List Frame} (hd : s.delivering = none) (hf : s.popped = none)
    (hq : s.rxq = f :: rest) : drainRxStep s = .next (holding f rest s) := by
  simp only [drainRxStep, hd, hf, popFrame_of_cons hq, holding]

/-- In DRAIN_RX: the popped frame is processed, the next one popped, or the phase ends. -/
theorem InCycle.nearer_of_drainRx {arrivals : Bool} {s : State} (h : InCycle arrivals s) (hp : s.phase = .drainRx) :
    ∃ t, taskStep s = .next t ∧ Nearer s t := by
  have hd := h.settled
  cases hf : s.popped with
  | some f =>
    obtain ⟨t, ht⟩ := processFrame_completes (s := { s with popped := none }) h.handlers f
    have hdone := processed_processFrame ht
    have hframe := (rxFrame_unpop s).trans hdone.toRxFrame
    refine ⟨t, by rw [taskStep_of_popped h.enabled.1 hp hd hf, ht],
      ⟨.of_rxFrame hframe, hdone.delivering, .inl ⟨hframe.phase.trans hp, hp⟩, ?_⟩⟩
    simp [turnsLeft, hframe.phase, hframe.rxq, hframe.params, hdone.popped, hp, hf]
  | none =>
    rw [taskStep_of_drainRx h.enabled.1 hp]
    cases hq : s.rxq with
    | nil =>
      refine ⟨_, drainRxStep_of_empty hd hf hq, ⟨⟨rfl, rfl, rfl, rfl, rfl⟩, hd, .inr (.inl rfl), ?_⟩⟩
      simp [turnsLeft, enterPhase, hp, hf, hq]
    | cons f rest =>
      refine ⟨_, drainRxStep_of_cons hd hf hq, ⟨⟨rfl, rfl, rfl, rfl, rfl⟩, hd, .inl ⟨hp, hp⟩, ?_⟩⟩
      simp only [turnsLeft, holding, hp, hf, hq, Option.toList_some, Option.toList_none, List.length_cons, List.length_nil]
      omega

/-- In DRAIN_TX: an item leaves, or the phase ends. -/
theorem InCycle.nearer_of_drainTx {arrivals : Bool} {s : State} (h : InCycle arrivals s) (hp : s.phase = .drainTx) :
    ∃ t, taskStep s = .next t ∧ Nearer s t := by
  rw [taskStep, whenReady_of h.enabled.1, hp]
  have hreturns := passHangs_of_returns h.ports.2
  have hfits : s.txq.length ≤ s.params.txqCap := h.fits
  obtain ⟨txq, poolFree, mboxFree, log, heq⟩ := drainPass_eq s
  refine ⟨_, drainTxStep_eq_next.2 ⟨hreturns, rfl⟩, ?_⟩
  cases hpass : (drainPass s).1 with
  | true =>
    obtain ⟨e, hq⟩ := txq_of_drainPass hpass
    have hq : s.txq = e :: txq := by rw [heq] at hq; exact hq
    rw [heq]
    refine ⟨⟨rfl, rfl, rfl, rfl, rfl⟩, h.settled, .inr (.inl hp), ?_⟩
    rw [hq, List.length_cons] at hfits
    cases hm : s.midPhase with
    | true => simp [turnsLeft, hp, hm, hq]
    | false => simpa [turnsLeft, hp, hm] using hfits
  | false =>
    rw [heq]
    refine ⟨⟨rfl, rfl, rfl, rfl, rfl⟩, h.settled, .inr (.inr rfl), ?_⟩
    simp [turnsLeft, enterPhase, hp]

/-- A cycle that has just ended. -/
def CycleOver (t : State) : Prop := t.phase = .wait ∧ t.waitStart = t.now

/-- Every turn of TASK ends the cycle or brings its end nearer. -/
theorem InCycle.taskStep_progress {arrivals : Bool} {s : State} (h : InCycle arrivals s) :
    ∃ t, taskStep s = .next t ∧ (CycleOver t ∨ Nearer s t) := by
  obtain ⟨hidle, hwait⟩ := h.phase_ne
  cases hp : s.phase with
  | idle => exact absurd hp hidle
  | wait => exact absurd hp hwait
  | drainRx => exact (h.nearer_of_drainRx hp).imp fun _ ⟨ht, hn⟩ => ⟨ht, .inr hn⟩
  | drainTx => exact (h.nearer_of_drainTx hp).imp fun _ ⟨ht, hn⟩ => ⟨ht, .inr hn⟩
  | apply =>
    rw [taskStep, whenReady_of h.enabled.1, hp]
    exact ⟨_, rfl, .inl ⟨rfl, rfl⟩⟩

/-! ## The run -/

/-- After `n` steps the cycle is over, or a move has left the spec. -/
def EndsIn (n : Nat) (s : State) : Prop :=
  (∃ t, runSteps n s = .next t ∧ CycleOver t)
    ∨ runSteps n s = .refused .clockWouldWrap ∨ runSteps n s = .refused .taskBusy

theorem endsIn_succ {s t : State} {n : Nat} (hs : step s = .next t) (h : EndsIn n t) : EndsIn (n + 1) s := by
  have hrun : runSteps (n + 1) s = runSteps n t := by rw [runSteps, hs]; rfl
  unfold EndsIn
  rw [hrun]; exact h

theorem runSteps_one (s : State) : runSteps 1 s = step s := by
  rw [runSteps]
  cases step s <;> rfl

theorem nextMoves_of_cons {s : State} {m : Move} {rest : List Move} (h : s.schedule = m :: rest) : nextMoves s = m :: rest :=
  (nextMoves_of_schedule (by simp [h])).trans h

/-- A move that is allowed is a turn of TASK, or one whole well-formed statement. -/
theorem moveAllowed_iff {allowed : Instr → Bool} {m : Move} :
    moveAllowed allowed m = true ↔ m = .task ∨ ∃ p i, m = .issue p ∧ decode p = .ok (i, []) ∧ allowed i = true := by
  cases m with
  | task => simp [moveAllowed]
  | issue p =>
    rcases hd : decode p with e | ⟨i, _ | ⟨b, rest⟩⟩ <;> simp [moveAllowed, hd]

theorem InCycle.withSchedule {arrivals : Bool} {s : State} (h : InCycle arrivals s) (moves : List Move) :
    InCycle arrivals { s with schedule := moves } :=
  ⟨h.enabled, h.busy, h.settled, h.fits, h.contract, h.quiet, h.handlers, h.ports⟩

/-- A schedule of allowed moves with as many turns of TASK as the cycle needs ends it, by induction on the moves. -/
theorem InCycle.endsIn {arrivals : Bool} {moves : List Move} {s : State} (h : InCycle arrivals s) (hs : s.schedule = moves)
    (hallowed : ∀ m ∈ moves, moveAllowed (besideTask arrivals) m = true) (hturns : turnsLeft s ≤ moves.count .task) :
    ∃ n ≤ moves.length, EndsIn n s := by
  induction moves generalizing s with
  | nil => exact absurd hturns (Nat.not_le.2 h.turnsLeft_pos)
  | cons m rest ih =>
    obtain ⟨hm, hrest⟩ := List.forall_mem_cons.1 hallowed
    have hnext := nextMoves_of_cons hs
    have h' := h.withSchedule rest
    have hgo : ∀ t, step s = .next t → t.schedule = rest → InCycle arrivals t → turnsLeft t ≤ rest.count .task →
        ∃ n ≤ (m :: rest).length, EndsIn n s := fun t hstep hsched ht hleft => by
      obtain ⟨n, hn, hend⟩ := ih ht hsched hrest hleft
      exact ⟨n + 1, Nat.succ_le_succ hn, endsIn_succ hstep hend⟩
    have hstop : EndsIn 1 s → ∃ n ≤ (m :: rest).length, EndsIn n s := fun hend => ⟨1, by simp, hend⟩
    rcases moveAllowed_iff.1 hm with rfl | ⟨p, i, rfl, hdec, hi⟩
    · have hcount : turnsLeft s ≤ rest.count .task + 1 := by rwa [List.count_cons_self] at hturns
      obtain ⟨t, ht, hover | hn⟩ := h'.taskStep_progress
      · exact hstop (.inl ⟨t, by rw [runSteps_one, step_of_task hnext, ht], hover⟩)
      · have hstep : step s = .next t := by rw [step_of_task hnext, ht]
        have hless : turnsLeft t < turnsLeft s := hn.turns
        exact hgo t hstep hn.schedule (h'.of_nearer hn (h.fits.step hstep)) (by omega)
    · have hcount : turnsLeft s ≤ rest.count .task := by rwa [List.count_cons_of_ne (by simp)] at hturns
      obtain ⟨hwf, _⟩ := encodeOfDecode p i [] hdec
      have hexec : step s = exec i { s with schedule := rest } := step_of_issue hnext hdec
      rcases h'.leavesTask hwf hi with ⟨t, ht, hb⟩ | hwrap | hbusy
      · have hstep : step s = .next t := hexec.trans ht
        have hsame : turnsLeft t = turnsLeft s := h'.turnsLeft_of_beside hb
        exact hgo t hstep hb.schedule (h'.of_beside hb (h.fits.step hstep)) (by omega)
      · exact hstop (.inr (.inl (by rw [runSteps_one, hexec, hwrap])))
      · exact hstop (.inr (.inr (by rw [runSteps_one, hexec, hbusy])))

end Sys2Proof.Proofs
end

section
/-! PROOFS. While frames go on arriving DRAIN_RX need not end (R273); the hazards of the ports together. -/

namespace Sys2Proof.Proofs

open Sys2Proof.Machine Sys2Proof.Laws

/-! ## Starvation (R273) -/

/-- One packet brings the frame `r`, within the contract of P1, and the other raises the interrupt. -/
structure FloodMoves (bus irq : Packet) (r : BusFrame) : Prop where
  bus : decode bus = .ok (.bus r.id r.data, [])
  irq : decode irq = .ok (.rxIrq, [])
  fits : r.data.length ≤ 64

/-- Where the flood stands: the frame `r` is still to come, in the controller, queued at `ts`, or popped. -/
inductive FloodAt (bus irq : Packet) (r : BusFrame) : List Move → List BusFrame → List Frame → Option Frame → Prop where
  | away : FloodAt bus irq r [] [] [] none
  | arrived : FloodAt bus irq r [.issue irq, .task, .task] [r] [] none
  | queued (ts : Time) : FloodAt bus irq r [.task, .task] [] [stampFrame ts r] none
  | popped (ts : Time) : FloodAt bus irq r [.task] [] [] (some (stampFrame ts r))

/-- TASK is in DRAIN_RX, no subscription matches `r`, there is room for one frame, and the four moves recur. -/
def FloodSetting (bus irq : Packet) (r : BusFrame) (s : State) : Prop :=
  interruptEnabled s ∧ s.params.rxPortReturns = true ∧ 1 ≤ s.params.rxqCap ∧ matchSub s.sub r.id = none
    ∧ s.phase = .drainRx ∧ s.delivering = none ∧ s.recurring = [.issue bus, .issue irq, .task, .task]

/-- The flood goes on: between two steps it stands at one of its places. -/
structure Flooded (bus irq : Packet) (r : BusFrame) (s : State) : Prop where
  setting : FloodSetting bus irq r s
  place : FloodAt bus irq r s.schedule s.ctrlRx s.rxq s.popped

/-- From `s` to `t` the trace grows by events of DRAIN_RX. -/
def GrowsByDispatch (s t : State) : Prop := ∃ ev, t.log = s.log ++ ev ∧ ∀ e ∈ ev, dispatchEvent e = true

theorem growsByDispatch_of_same {s t : State} (h : t.log = s.log) : GrowsByDispatch s t := ⟨[], by simp [h], by simp⟩

theorem GrowsByDispatch.trans {s t u : State} (h : GrowsByDispatch s t) (h' : GrowsByDispatch t u) : GrowsByDispatch s u := by
  obtain ⟨ev, hlog, hev⟩ := h
  obtain ⟨ev', hlog', hev'⟩ := h'
  exact ⟨ev ++ ev', by rw [hlog', hlog, List.append_assoc], List.forall_mem_append.2 ⟨hev, hev'⟩⟩

/-- The interrupt takes the one frame of the controller into an empty queue (R110, R111). -/
theorem exec_rxIrq_of_one {s : State} {r : BusFrame} (h : interruptEnabled s) (hp : s.params.rxPortReturns = true)
    (hc : s.ctrlRx = [r]) (hr : r.data.length ≤ 64) (hq : s.rxq = []) (hroom : 1 ≤ s.params.rxqCap) :
    exec .rxIrq s = .next { s with ctrlRx := [], rxq := [stampFrame s.now r], wake := true } := by
  have hone : takenOne r [] s = ⟨[], [stampFrame s.now r], s.dropped, 0⟩ := by
    rw [takenOne, hq, if_neg (by rw [List.length_nil]; omega)]; rfl
  rw [exec_rxIrq_of_enabled h hp, hc, List.length_singleton, pullTurns_of_cons _ hc, storeFrame_eq_takenOne [] hr,
    andThen_next_left, hone, pullTurns, nextRx_eq_none.2 rfl, andThen_next_left]
  simp [signalWake, afterPull, dropEvents]

/-- Each of the four moves leads to the next place, and TASK stays in DRAIN_RX. -/
theorem Flooded.step {bus irq : Packet} {r : BusFrame} {s : State} (hmoves : FloodMoves bus irq r) (h : Flooded bus irq r s) :
    ∃ t, step s = .next t ∧ Flooded bus irq r t ∧ GrowsByDispatch s t := by
  obtain ⟨hset, hplace⟩ := h
  have ⟨henabled, hport, hroom, hmatch, hphase, hsettled, hrecurring⟩ := hset
  have ⟨hready, _⟩ := henabled
  generalize hsched : s.schedule = schedule at hplace
  generalize hctrl : s.ctrlRx = ctrlRx at hplace
  generalize hrxq : s.rxq = rxq at hplace
  generalize hpop : s.popped = popped at hplace
  cases hplace with
  | away =>
    have hstep := step_of_issue ((nextMoves_of_empty hsched).trans hrecurring) hmoves.bus
    have hbus := (exec_bus (s := { s with schedule := [.issue irq, .task, .task] }) hready r.id r.data).trans
      (if_pos hmoves.fits)
    refine ⟨_, hstep.trans hbus, ⟨hset, ?_⟩, growsByDispatch_of_same rfl⟩
    simpa only [hctrl, hrxq, hpop, List.nil_append] using FloodAt.arrived
  | arrived =>
    have hstep := step_of_issue (nextMoves_of_cons hsched) hmoves.irq
    have hirq := exec_rxIrq_of_one (s := { s with schedule := [.task, .task] }) henabled hport hctrl hmoves.fits hrxq hroom
    refine ⟨_, hstep.trans hirq, ⟨hset, ?_⟩, growsByDispatch_of_same rfl⟩
    simpa only [hpop] using FloodAt.queued s.now
  | queued ts =>
    have hstep := step_of_task (nextMoves_of_cons hsched)
    have htask := (taskStep_of_drainRx (s := { s with schedule := [.task] }) hready hphase).trans
      (drainRxStep_of_cons hsettled hpop hrxq)
    refine ⟨_, hstep.trans htask, ⟨hset, ?_⟩, growsByDispatch_of_same rfl⟩
    simpa only [holding, hctrl] using FloodAt.popped ts
  | popped ts =>
    have hstep := step_of_task (nextMoves_of_cons hsched)
    have htask := (taskStep_of_popped (s := { s with schedule := [] }) hready hphase hsettled hpop).trans
      (processFrame_of_raised (reassemble_of_unmatched hmatch) hsettled)
    rw [raiseError_uncounted rfl] at htask
    refine ⟨_, hstep.trans htask, ⟨hset, ?_⟩, [.raised .unmatched], rfl, by simp [dispatchEvent]⟩
    simpa only [hctrl, hrxq] using FloodAt.away

/-- However many steps are run, DRAIN_RX does not end. -/
theorem Flooded.runSteps {bus irq : Packet} {r : BusFrame} (hmoves : FloodMoves bus irq r) (n : Nat) {s : State}
    (h : Flooded bus irq r s) : ∃ t, runSteps n s = .next t ∧ Flooded bus irq r t ∧ GrowsByDispatch s t := by
  induction n generalizing s with
  | zero => exact ⟨s, rfl, h, growsByDispatch_of_same rfl⟩
  | succ n ih =>
    obtain ⟨u, hu, hflood, hgrow⟩ := h.step hmoves
    obtain ⟨t, ht, hflood', hgrow'⟩ := ih hflood
    exact ⟨t, by rw [Machine.runSteps, hu, andThen_next_left, ht], hflood', hgrow.trans hgrow'⟩

/-! ## Liveness and its hazards (R190, R253, R273) -/

/-- Settles O44: the hangs port by port; the end of the cycle with TASK alone, and among other agents by the turns left; and the
flood, which has no end. -/
theorem portHazards : Obligations.PortHazards := by
  refine ⟨fun s => exec_rxIrq_of_hanging,
    fun s hfree hport => ⟨exec_drain_of_hanging hfree hport, exec_drain_of_expired hfree hport⟩,
    fun s hi hm hdue hk hport hsched hrec => ?alone, fun s hen hm hd hfits hc hquiet hk hports hallowed hturns => ?fair,
    fun s r bus irq hen hport hbus hirq hmatch hr hroom hp hd hpop hrxq hctrl hsched hrec n => ?starvation⟩
  case alone =>
    have halone : TaskAlone s := ⟨hi, hsched, hrec⟩
    obtain ⟨t, ⟨n, hn⟩, ht⟩ := halone.cycleEnds hk hport hm hdue
    exact ⟨n, t, hn, ht⟩
  case fair =>
    have hcycle : InCycle (decide (s.phase ≠ .drainRx)) s :=
      ⟨hen, hm, hd, hfits, hc, fun hp => ⟨hquiet hp, by simp [hp]⟩, hk, hports⟩
    exact hcycle.endsIn rfl hallowed (hcycle.turnsLeft_le.trans hturns)
  case starvation =>
    have hplace : FloodAt bus irq r s.schedule s.ctrlRx s.rxq s.popped := by
      rw [hsched, hctrl, hrxq, hpop]; exact .away
    have hflood : Flooded bus irq r s := ⟨⟨hen, hport, hroom, hmatch, hp, hd, hrec⟩, hplace⟩
    obtain ⟨t, ht, hflood', ev, hlog, hev⟩ := hflood.runSteps ⟨hbus, hirq, hr⟩ n
    obtain ⟨_, _, _, _, hphase, _⟩ := hflood'.setting
    exact ⟨t, ev, ht, hphase, hlog, hev⟩

end Sys2Proof.Proofs
end

section
/-! PROOFS. `START` (R185), the handlers that break their contract (R187, R262), and `APPLY`: the supervisor's mode, its counted
transition and its one output (R183, R205 to R208). -/

namespace Sys2Proof.Proofs

open Sys2Proof.Machine Sys2Proof.Laws

/-! ## START (R185) -/

theorem exec_start_of_started {s : State} (hi : s.initialised = true) (hm : s.midCycle = false) (hs : s.started = true) :
    exec .start s = .next s := by
  simp only [exec, execStart, whenHostRuns_of hi hm, hs, if_true]

/-- Settles O16: by whether TASK has been started. -/
theorem startEndsStartUp : Obligations.StartEndsStartUp := fun _ hi hm =>
  ⟨exec_start_of_notStarted hi hm, exec_start_of_started hi hm⟩

/-! ## Handlers that break their contract (R187, R262) -/

theorem handlerCall_of_forbidden {i : Instr} (h : forbiddenToHandlers i = true) (s : State) :
    handlerCall i s = .refused .handlerMayNotCall := by
  cases i with
  | enqueue | noteDecodeError | readDropped | readDecodeErrors | readTimeouts => cases h
  | _ => rfl

/-- Allowed moves return, so the run of a handler reaches the move behind them. -/
theorem handlerRun_reaches {pre : List HandlerMove} (hpre : ∀ m ∈ pre, moveInContract m = true) (m : HandlerMove)
    (post : List HandlerMove) (d : Delivery) (s : State) :
    ∃ t, handlerRun d (pre ++ m :: post) s = andThen (handlerMove d m t) (handlerRun d post) := by
  obtain ⟨t, ht⟩ := handlerRun_completes hpre d s
  exact ⟨t, by rw [handlerRun_append, ht, andThen_next_left, handlerRun]⟩

/-- `DELIVER` runs its handler as far as the move behind the allowed ones (R142, R187). -/
theorem exec_deliver_reaches {s : State} {d : Delivery} {h : Handler} {pre post : List HandlerMove} {m : HandlerMove}
    (hi : s.initialised = true) (hd : s.delivering = some d) (hh : handlerOf s.params d.tag = some h)
    (hs : scriptMoves h.script s.freeCount d = pre ++ m :: post) (hpre : ∀ m ∈ pre, moveInContract m = true) :
    ∃ t k, exec .deliver s = andThen (handlerMove d m t) k := by
  obtain ⟨t, ht⟩ := handlerRun_reaches hpre m post d (takeScript h.script (announce d s))
  have hrun : runHandler d (announce d s) = andThen (handlerMove d m t) (handlerRun d post) := by
    rw [runHandler_of (s := announce d s) hh, ← ht, ← hs]; rfl
  refine ⟨t, fun u => andThen (handlerRun d post u) fun v => .next (releaseDelivery d v), ?_⟩
  calc exec .deliver s
      = andThen (runHandler d (announce d s)) fun v => .next (releaseDelivery d v) := exec_deliver_of_due hi hd
    _ = _ := by rw [hrun, andThen_assoc]

/-- Settles O37: the run reaches the offending move, which ends it. -/
theorem handlerHazards : Obligations.HandlerHazards := by
  intro s d h hi hd hh
  refine ⟨fun pre i post hs hpre hforbidden => ?refused, fun pre post hs hpre => ?hangs⟩
  case refused =>
    obtain ⟨t, k, hexec⟩ := exec_deliver_reaches hi hd hh hs hpre
    rw [hexec, handlerMove, handlerCall_of_forbidden hforbidden, andThen_refused_left]
  case hangs =>
    obtain ⟨t, k, hexec⟩ := exec_deliver_reaches hi hd hh hs hpre
    rw [hexec, handlerMove, andThen_fault_left]

/-! ## The supervisor (R205 to R208) -/

theorem commandStale_eq_true {s : State} :
    commandStale s = true ↔ s.sup.accepted = false ∨ s.sup.lastUpdate.toNat + s.params.staleTicks < s.now.toNat := by
  simp [commandStale, moreThan]

theorem commandStale_eq_false {s : State} :
    commandStale s = false ↔ s.sup.accepted = true ∧ s.now.toNat ≤ s.sup.lastUpdate.toNat + s.params.staleTicks := by
  rw [← Bool.not_eq_true, commandStale_eq_true, not_or, Bool.not_eq_false, Nat.not_lt]

/-- A stale command: SAFE_TIMEOUT, counted on the transition into it (R205, R207). -/
theorem superviseMode_of_stale {s : State} (h : commandStale s = true) : superviseMode s = { s with
    sup := { s.sup with
      mode := .safeTimeout
      timeouts := if s.sup.mode = .engagedLive then satInc s.sup.timeouts else s.sup.timeouts }
    log := s.log ++ [.raised .commandStale] } := by
  rw [superviseMode, if_pos h, raiseError_uncounted rfl]
  cases s.sup.mode <;> rfl

theorem superviseMode_of_fresh {s : State} (h : commandStale s = false) :
    superviseMode s = { s with sup := { s.sup with mode := .engagedLive } } := by
  rw [superviseMode, h, if_neg Bool.false_ne_true]

theorem presentOutput_of_safe {s : State} (h : s.sup.mode = .safeTimeout ∨ s.sup.readiness < s.params.engagedLevel) :
    presentOutput s = emit safeOutput s :=
  if_pos h

/-- The command state is presented in ENGAGED_LIVE from the engaged level on (R206). -/
theorem presentOutput_of_engaged {s : State} (hm : s.sup.mode = .engagedLive) (hr : s.params.engagedLevel ≤ s.sup.readiness) :
    presentOutput s = emit (.sink s.sup.servo s.sup.pump s.sup.readiness) s := by
  refine if_neg (not_or.2 ⟨?_, BitVec.not_lt.2 hr⟩)
  rw [hm]; decide

/-! ## APPLY (R183, R205) -/

theorem applyCommand_of_stale {s : State} (h : commandStale s = true) : applyCommand s = { s with
    sup := { s.sup with
      mode := .safeTimeout
      timeouts := if s.sup.mode = .engagedLive then satInc s.sup.timeouts else s.sup.timeouts }
    log := s.log ++ [.apply, .raised .commandStale, safeOutput] } := by
  rw [applyCommand, superviseMode_of_stale (s := emit .apply s) h]
  refine (presentOutput_of_safe (.inl rfl)).trans ?_
  simp only [emit, List.append_assoc]; rfl

/-- A fresh command: ENGAGED_LIVE, and the output of that mode (R205, R206). -/
theorem applyCommand_of_fresh {s : State} (h : commandStale s = false) : applyCommand s
    = presentOutput { s with sup := { s.sup with mode := .engagedLive }, log := s.log ++ [.apply] } := by
  rw [applyCommand, superviseMode_of_fresh (s := emit .apply s) h]; rfl

theorem applyCommand_of_below {s : State} (h : commandStale s = false) (hr : s.sup.readiness < s.params.engagedLevel) :
    applyCommand s = { s with sup := { s.sup with mode := .engagedLive }, log := s.log ++ [.apply, safeOutput] } := by
  refine (applyCommand_of_fresh h).trans ((presentOutput_of_safe ?_).trans ?_)
  · exact .inr hr
  · simp only [emit, List.append_assoc, List.singleton_append]

theorem applyCommand_of_engaged {s : State} (h : commandStale s = false) (hr : s.params.engagedLevel ≤ s.sup.readiness) :
    applyCommand s = { s with
      sup := { s.sup with mode := .engagedLive }
      log := s.log ++ [.apply, .sink s.sup.servo s.sup.pump s.sup.readiness] } := by
  refine (applyCommand_of_fresh h).trans ((presentOutput_of_engaged rfl ?_).trans ?_)
  · exact hr
  · simp only [emit, List.append_assoc, List.singleton_append]

/-- Settles O49: by staleness, then the engaged level. -/
theorem applyPresentsOutput : Obligations.ApplyPresentsOutput := by
  intro s hfree
  rw [exec_apply_of_free hfree]
  refine ⟨fun hstale => ?stale, fun haccepted hrecent => ⟨fun hbelow => ?below, fun hengaged => ?engaged⟩⟩
  case stale => rw [applyCommand_of_stale (commandStale_eq_true.2 hstale)]
  case below => rw [applyCommand_of_below (commandStale_eq_false.2 ⟨haccepted, hrecent⟩) hbelow]
  case engaged => rw [applyCommand_of_engaged (commandStale_eq_false.2 ⟨haccepted, hrecent⟩) hengaged]

end Sys2Proof.Proofs
end

section
/-! PROOFS. The codec's contract and the command state (R200, R201, R204, R232), the repeated safe output (R210), and the range of the
servo setpoints (R203, R204). -/

namespace Sys2Proof.Proofs

open Sys2Proof.Machine Sys2Proof.Laws

/-! ## The codec (R200, R201) -/

section Codec

variable {α : Type} {p : Params} {role : CommandRole} {payload bytes : List Byte} {read : List Byte → α}

/-- Bytes beyond the declared length are not read. -/
theorem messageBody_append (h : messageBytes p role ≤ payload.length) :
    messageBody p role (payload ++ bytes) = messageBody p role payload := by
  have hlong : messageBytes p role ≤ (payload ++ bytes).length := by rw [List.length_append]; omega
  simp only [messageBody, h, hlong, List.take_append_of_le_length h]

theorem length_of_messageBody (h : messageBody p role payload = some bytes) : bytes.length = messageBytes p role := by
  obtain ⟨_, hlong, rfl⟩ := messageBody_eq_some.1 h
  exact List.length_take_of_le hlong

/-- A message that is encoded has its declared length, and `decode` reads all of it. -/
theorem messageBody_of_encoded {message : List Byte} (hl : message.length = messageBytes p role)
    (h : encoded p role message = some bytes) :
    bytes = message ∧ bytes.length = messageBytes p role ∧ messageBody p role bytes = some bytes := by
  obtain ⟨hresolves, rfl⟩ := encoded_eq_some.1 h
  exact ⟨rfl, hl, messageBody_eq_some.2 ⟨hresolves, hl.ge, (List.take_of_length_le hl.le).symm⟩⟩

/-- Whatever is read from the body, decoding it is an error exactly for a truncated payload or a type that does not resolve. -/
theorem map_messageBody_eq_none : (messageBody p role payload).map read = none
    ↔ schemaResolves p role = false ∨ payload.length < messageBytes p role :=
  Option.map_eq_none_iff.trans messageBody_eq_none

/-- The declared length does not depend on the strategy, so neither does what is read where both strategies resolve the type. -/
theorem map_messageBody_strategy {st : CodecStrategy} {v w : α} (hv : (messageBody p role payload).map read = some v)
    (hw : (messageBody { p with strategy := st } role payload).map read = some w) : v = w := by
  obtain ⟨a, ha, rfl⟩ := Option.map_eq_some_iff.1 hv
  obtain ⟨b, hb, rfl⟩ := Option.map_eq_some_iff.1 hw
  obtain ⟨_, _, rfl⟩ := messageBody_eq_some.1 ha
  obtain ⟨_, _, rfl⟩ := messageBody_eq_some.1 hb
  rfl

end Codec

/-- The message of a setpoint decodes to it, if any payload does. -/
theorem decodeServo_of_encodeServo {p : Params} {i : Fin 4} {v : Rat} {payload bytes : List Byte}
    (he : encodeServo p i v = some bytes) (hd : decodeServo p i payload = some (.number (clampSetpoint v))) :
    decodeServo p i bytes = some (.number (clampSetpoint v)) := by
  obtain ⟨rfl, _, hbody⟩ := messageBody_of_encoded (length_servoMessage ..) he
  obtain ⟨held, hheld, hread⟩ := Option.map_eq_some_iff.1 hd
  rw [decodeServo, hbody, Option.map_some, readServo_servoMessage (length_of_messageBody hheld) hread]

theorem decodePump_of_encodePump {p : Params} {v : Bool} {bytes : List Byte} (he : encodePump p v = some bytes) :
    bytes.length = messageBytes p .pump ∧ decodePump p bytes = some v := by
  obtain ⟨hlength, hread⟩ := readPump_writePump p v
  obtain ⟨rfl, hl, hbody⟩ := messageBody_of_encoded hlength he
  exact ⟨hl, by rw [decodePump, hbody, Option.map_some, hread]⟩

theorem decodeReadiness_of_encodeReadiness {p : Params} {v : Nat} {bytes : List Byte}
    (he : encodeReadiness p v = some bytes) :
    bytes.length = messageBytes p .readiness ∧ decodeReadiness p bytes = some (v &&& 3) := by
  have hlevel : v &&& 3 < 4 := Nat.lt_succ_of_le Nat.and_le_right
  obtain ⟨hlength, hread⟩ := readReadiness_writeReadiness p hlevel
  obtain ⟨rfl, hl, hbody⟩ := messageBody_of_encoded hlength he
  exact ⟨hl, by rw [decodeReadiness, hbody, Option.map_some, hread]⟩

/-! ## The command state (R204, R232) -/

theorem clampSetpoint_mem (v : Rat) : -1 ≤ clampSetpoint v ∧ clampSetpoint v ≤ 1 :=
  ⟨le_min (by norm_num) (le_max_left _ _), min_le_left _ _⟩

/-- The two bits that the level is kept in are those that the mask leaves (R204). -/
theorem ofNat_and_three (v : Nat) : BitVec.ofNat 2 (v &&& 3) = BitVec.ofNat 2 v := by
  apply BitVec.eq_of_toNat_eq
  rw [BitVec.toNat_ofNat, BitVec.toNat_ofNat, Nat.and_two_pow_sub_one_eq_mod v 2, Nat.mod_mod]

section Accept

variable {s : State} {payload : List Byte} {ts : Time}

theorem acceptCommand_of_number {i : Fin 4} {v : Rat} (h : decodeServo s.params i payload = some (.number v)) :
    acceptCommand (.servo i) payload ts s = acceptServo i v ts s := by
  simp only [acceptCommand, h]

theorem acceptCommand_of_notANumber {i : Fin 4} (h : decodeServo s.params i payload = some .notANumber) :
    acceptCommand (.servo i) payload ts s
      = acceptServo i (Config.freeSetpoint s.freeCount) ts { s with freeCount := s.freeCount + 1 } := by
  simp only [acceptCommand, h]

theorem acceptCommand_of_pump {v : Bool} (h : decodePump s.params payload = some v) :
    acceptCommand .pump payload ts s
      = { s with sup := { s.sup with pump := v, lastUpdate := ts, accepted := true } } := by
  simp only [acceptCommand, h]

theorem acceptCommand_of_readiness {v : Nat} (h : decodeReadiness s.params payload = some v) :
    acceptCommand .readiness payload ts s
      = { s with sup := { s.sup with readiness := BitVec.ofNat 2 (v &&& 3), lastUpdate := ts, accepted := true } } := by
  simp only [acceptCommand, h, ofNat_and_three]

/-- A decode error is reported and nothing is accepted (R232). -/
theorem acceptCommand_of_error {role : CommandRole} (hservo : ∀ i, role = .servo i → decodeServo s.params i payload = none)
    (hpump : role = .pump → decodePump s.params payload = none)
    (hreadiness : role = .readiness → decodeReadiness s.params payload = none) :
    acceptCommand role payload ts s = raiseError .codecError s := by
  cases role with
  | servo i => simp only [acceptCommand, hservo i rfl]
  | pump => simp only [acceptCommand, hpump rfl]
  | readiness => simp only [acceptCommand, hreadiness rfl]

end Accept

/-! ## A handler that decodes (R142, R204) -/

@[simp] theorem releaseDelivery_sup (d : Delivery) (s : State) : (releaseDelivery d s).sup = s.sup := by
  unfold releaseDelivery; split
  · exact abandon_sup _ s
  · rfl

@[simp] theorem releaseDelivery_decodeErr (d : Delivery) (s : State) : (releaseDelivery d s).decodeErr = s.decodeErr := by
  unfold releaseDelivery; split
  · exact abandon_decodeErr _ s
  · rfl

theorem takeScript_announce (h : Handler) (d : Delivery) (s : State) :
    takeScript h.script (announce d s) = handlerStart h d s := by
  unfold handlerStart; cases h.script <;> rfl

/-- `DELIVER` with a handler that only decodes: the event, the accepted command, the release. -/
theorem exec_deliver_of_decode {s : State} {d : Delivery} {h : Handler} {role : CommandRole} (hi : s.initialised = true)
    (hd : s.delivering = some d) (hh : handlerOf s.params d.tag = some h)
    (hs : scriptMoves h.script s.freeCount d = [.decode role]) :
    exec .deliver s
      = .next (releaseDelivery d (acceptCommand role d.payload d.ts (handlerStart h d s))) := by
  have hmoves : scriptMoves h.script (announce d s).freeCount d = [.decode role] := hs
  have hrun : runHandler d (announce d s) = .next (acceptCommand role d.payload d.ts (handlerStart h d s)) := by
    rw [runHandler_of (s := announce d s) hh, hmoves, takeScript_announce]; rfl
  exact (exec_deliver_of_due hi hd).trans (deliverTransfer_eq_next.2 ⟨_, hrun, rfl⟩)

/-- Settles O38: the codec by what it reads and writes, the handler by what its one decoding answers. -/
theorem commandStateUpdate : Obligations.CommandStateUpdate := by
  refine ⟨fun p payload bytes => ?contract, fun p q payload hq => ?strategies, fun s d h role hi hd hh hs => ?update⟩
  case contract =>
    refine ⟨fun i => ⟨map_messageBody_eq_none, fun hlong => ?servoBeyond, fun v => ⟨encoded_eq_none, fun he => ?servoLength,
        decodeServo_of_encodeServo⟩⟩,
      map_messageBody_eq_none, fun hlong => ?pumpBeyond, fun v => ⟨encoded_eq_none, decodePump_of_encodePump⟩,
      map_messageBody_eq_none, fun hlong => ?readinessBeyond,
      fun v => ⟨encoded_eq_none, decodeReadiness_of_encodeReadiness⟩⟩
    case servoBeyond => rw [decodeServo, messageBody_append hlong, decodeServo]
    case servoLength =>
      obtain ⟨_, hlength, _⟩ := messageBody_of_encoded (length_servoMessage ..) he
      exact hlength
    case pumpBeyond => rw [decodePump, messageBody_append hlong, decodePump]
    case readinessBeyond => rw [decodeReadiness, messageBody_append hlong, decodeReadiness]
  case strategies =>
    obtain ⟨st, rfl⟩ : ∃ st, q = { p with strategy := st } := ⟨_, hq⟩
    exact ⟨fun _ _ _ => map_messageBody_strategy, fun _ _ => map_messageBody_strategy, fun _ _ => map_messageBody_strategy⟩
  case update =>
    refine ⟨_, exec_deliver_of_decode hi hd hh hs, ?number, ?notANumber, ?pump, ?readiness, ?error⟩ <;>
      rw [releaseDelivery_sup, releaseDelivery_decodeErr]
    case number =>
      rintro i v rfl hv
      rw [acceptCommand_of_number (s := handlerStart h d s) hv]; exact ⟨rfl, rfl⟩
    case notANumber =>
      rintro i rfl hv
      rw [acceptCommand_of_notANumber (s := handlerStart h d s) hv]
      obtain ⟨hlow, hhigh⟩ := clampSetpoint_mem (Config.freeSetpoint (handlerStart h d s).freeCount)
      exact ⟨_, hlow, hhigh, rfl, rfl⟩
    case pump =>
      rintro v rfl hv
      rw [acceptCommand_of_pump (s := handlerStart h d s) hv]; exact ⟨rfl, rfl⟩
    case readiness =>
      rintro v rfl hv
      rw [acceptCommand_of_readiness (s := handlerStart h d s) hv]; exact ⟨rfl, rfl⟩
    case error =>
      rintro ⟨hservo, hpump, hreadiness⟩
      rw [acceptCommand_of_error (s := handlerStart h d s) hservo hpump hreadiness, raiseError_codecError]
      exact ⟨rfl, rfl⟩

/-! ## The safe output again (R210) -/

/-- In SAFE_TIMEOUT a stale command state changes nothing but the trace: there is no transition left to count. -/
theorem exec_apply_of_safeTimeout {s : State} (hfree : taskFree s) (hm : s.sup.mode = .safeTimeout)
    (hstale : commandStale s = true) :
    exec .apply s = .next { s with log := s.log ++ [.apply, .raised .commandStale, safeOutput] } := by
  have hsup : { s.sup with
      mode := .safeTimeout
      timeouts := if s.sup.mode = .engagedLive then satInc s.sup.timeouts else s.sup.timeouts } = s.sup := by
    rw [hm, if_neg (by decide), ← hm]
  rw [exec_apply_of_free hfree, applyCommand_of_stale hstale, hsup]

/-- Settles O50: by induction on the number of cycles, each of which finds the state it found before but for the trace. -/
theorem safeTimeoutIdempotent : Obligations.SafeTimeoutIdempotent := by
  intro n s hfree hm hstale
  induction n with
  | zero => simp
  | succ n ih =>
    rw [List.range_succ, List.foldl_append, ih, List.foldl_cons, List.foldl_nil, andThen_next_left]
    rw [exec_apply_of_safeTimeout]
    · simp only [List.replicate_succ', List.flatten_append, List.flatten_singleton, List.append_assoc]
    · exact hfree
    · exact hm
    · exact hstale

/-! ## The range of the setpoints (R203, R204) -/

/-- A delivered message leaves the setpoints, or writes a clamped one (R204). -/
theorem acceptCommand_servo_cases (role : CommandRole) (payload : List Byte) (ts : Time) (s : State) :
    (acceptCommand role payload ts s).sup.servo = s.sup.servo
      ∨ ∃ (i : Fin 4) (v : Rat), (acceptCommand role payload ts s).sup.servo = s.sup.servo.set i (clampSetpoint v) := by
  unfold acceptCommand
  cases role with
  | servo i =>
    dsimp only; split
    · exact .inl (by rw [raiseError_sup])
    · exact .inr ⟨i, _, rfl⟩
    · exact .inr ⟨i, _, rfl⟩
  | pump =>
    dsimp only; split
    · exact .inl (by rw [raiseError_sup])
    · exact .inl rfl
  | readiness =>
    dsimp only; split
    · exact .inl (by rw [raiseError_sup])
    · exact .inl rfl

@[simp] theorem presentOutput_sup (s : State) : (presentOutput s).sup = s.sup := by
  unfold presentOutput; split <;> rfl

/-- `APPLY` reads the setpoints and does not write them (R205, R206). -/
theorem applyCommand_servo (s : State) : (applyCommand s).sup.servo = s.sup.servo := by
  cases h : commandStale s with
  | true => rw [applyCommand_of_stale h]
  | false => rw [applyCommand_of_fresh h, presentOutput_sup]

theorem setpointsClamped_congr {s t : State} (h : t.sup.servo = s.sup.servo) (hs : setpointsClamped s) :
    setpointsClamped t := by
  rwa [setpointsClamped, h]

theorem setpointsClamped_acceptCommand {s : State} (h : setpointsClamped s) (role : CommandRole) (payload : List Byte)
    (ts : Time) : setpointsClamped (acceptCommand role payload ts s) := by
  rcases acceptCommand_servo_cases role payload ts s with hsame | ⟨i, v, hset⟩
  · exact setpointsClamped_congr hsame h
  · intro w hw
    rw [hset, Vector.toList_set] at hw
    rcases List.mem_or_eq_of_mem_set hw with hold | rfl
    · exact h w hold
    · exact clampSetpoint_mem v

/-- After `INIT` every setpoint is 0 (R209). -/
theorem setpointsClamped_initState (s : State) : setpointsClamped (initState s) := by
  intro v hv
  obtain rfl : v = 0 := by simpa [initState, resetSupervisor] using hv
  decide

theorem reassemblyClosed_setpointsClamped : ReassemblyClosed setpointsClamped where
  raise e s h := setpointsClamped_congr (by rw [raiseError_sup]) h
  putSession _ _ _ h := h
  poolFree _ _ h := h
  handOver _ _ h := h

/-- Every single update of the machine but `INIT` leaves the setpoints or writes a clamped one. -/
theorem closed_setpointsClamped : Closed setpointsClamped where
  log _ _ h := h
  schedule _ _ h := h
  freeCount _ _ h := h
  decodeErr _ h := h
  dropped _ h := h
  subscribe _ _ _ h _ _ _ := h
  start _ h _ _ := h
  store _ _ h _ _ := h
  pulled _ _ _ h _ := h
  wake _ _ h := h
  pop _ _ _ h _ := h
  unpop _ h := h
  reassemble _ f h _ := reassemblyClosed_setpointsClamped.reassemble f h
  accept _ role payload ts h := setpointsClamped_acceptCommand h role payload ts
  enqueue _ _ h _ _ := h
  release _ d h _ := setpointsClamped_congr (by rw [releaseDelivery_sup]) h
  sent _ _ _ h _ := h
  mailbox _ _ h := h
  apply s h := setpointsClamped_congr (applyCommand_servo s) h
  tick _ _ h _ := h
  bus _ _ h := h
  toDrainRx _ h _ := h
  toDrainTx _ h _ _ := h
  toApply _ h _ := h
  toWait _ h _ := h
  midPhase _ h _ := h

/-- Settles O58: by the updates of a step, of which only an accepted command writes a setpoint, and by `INIT`. -/
theorem setpointsKept : Obligations.SetpointsKept := fun _ _ hs hstep =>
  closed_setpointsClamped.step hs (fun u _ _ => setpointsClamped_initState u) hstep

end Sys2Proof.Proofs
end

section
/-! PROOFS. Before the first `INIT`: one guard stands in front of every operation and environment statement (R250, R252). -/

namespace Sys2Proof.Proofs

open Sys2Proof.Machine

theorem whenReady_of_not_initialised {s : State} (h : s.initialised = false) (r : Result) :
    whenReady s r = .refused .beforeInit := by
  simp [whenReady, h]

/-- Every row but `INIT` and the wire layouts read by `parse` has its meaning behind the guard of the first `INIT`. -/
theorem exec_behind_whenReady {i : Instr} (hinit : i ≠ .init) (hparse : rowIsParse i = false) (s : State) :
    ∃ r, exec i s = whenReady s r := by
  cases i with
  | init => exact absurd rfl hinit
  | canidMessage | canidService | tailSingle | tailFirst | tailMiddle | tailLast => cases hparse
  | subscribe | start => exact ⟨_, (rfl : whenHostRuns s _ = _)⟩
  | rxIrq | onFrameReceived | wakeSignal => exact ⟨_, (rfl : whenInterruptEnabled s _ = _)⟩
  | rxPop | processPending | processFrame | drain | txPush | wait | taskCycle | apply =>
    exact ⟨_, (rfl : whenTaskFree s _ = _)⟩
  | deliver | noteDecodeError | enqueue | readDropped | readDecodeErrors | readTimeouts | tick | bus | mbox
  | canidSubjectMatch => exact ⟨_, rfl⟩

/-- Settles O14: by the guard in front of each row. -/
theorem onlyInitBeforeInit : Obligations.OnlyInitBeforeInit := by
  intro i s hfirst hinit hparse
  obtain ⟨r, hr⟩ := exec_behind_whenReady hinit hparse s
  rw [hr, whenReady_of_not_initialised hfirst]

end Sys2Proof.Proofs
end
